-- ==== Sys2Proof/Word.lean ====
section
/-! DEFINITION. The word types of the block: the byte (20_memory.md R61), the 16-bit command word
(30_encoding.md R90) and the 2-bit interrupt cause vector (30_encoding.md R95). -/

namespace Sys2Proof

/-- One byte, the only access size of the block (R61). -/
abbrev Byte := BitVec 8

/-- A command word CMD (R90). -/
abbrev CmdWord := BitVec 16

/-- The cause vector CAUSE, bit 1 transmit-ready, bit 0 receive-ready and enabled (R95). -/
abbrev Cause := BitVec 2

end Sys2Proof
end

