-- ==== Sys2Proof/Config.lean ====
section
/-! DEFINITION. What the spec leaves open: the open parameters, which the model takes as an argument
(00_scope.md R8), and the free values, as uninterpreted functions of a counter that State holds
(`freeCtr`). Nothing can evaluate the latter, so a statement about them holds for every value. -/

namespace Sys2Proof

/-- The number of an error kind, 1 to 5 (60_exceptions.md R259). -/
abbrev ErrNumber := { v : Byte // 1 ≤ v.toNat ∧ v.toNat ≤ 5 }

/-- The open parameters (00_scope.md R8, 92_eei_decisions.md section 2, 93_implementation_defined.md U16).
`State.params` holds them, no step changes them, and a statement for every state is one for every choice of
them. SEND_WAIT_ITER has no field: the exit of its wait is free (41_seriallink.md R145). See log entry 15. -/
structure OpenParams where
  /-- DRAIN_POLL_MS: granularity of the drain wait. -/
  drainPollMs : Nat
  /-- CUT_GAP_MS: low time between two power-cut pulses beyond the read of the rail. -/
  cutGapMs : Nat
  /-- BAUD_NORMAL: the exact rate of normal frames. No rule needs it. -/
  baudNormal : Nat
  /-- START_ROUNDS. -/
  startRounds : Nat
  /-- START_POLLS. -/
  startPolls : Nat
  /-- STOP_TRIES. -/
  stopTries : Nat
  /-- STOP_POLLS. -/
  stopPolls : Nat
  /-- ERRCODE of WakeupError. -/
  wakeupError : ErrNumber
  /-- ERRCODE of ResponseError. -/
  responseError : ErrNumber
  /-- ERRCODE of PowerGoodError. -/
  powerGoodError : ErrNumber
  /-- ERRCODE of StartupError. -/
  startupError : ErrNumber
  /-- ERRCODE of LowBattErr, which only the host uses. -/
  lowBattErr : ErrNumber
deriving DecidableEq, Repr

/-- A byte of RESP at or beyond the count of the last LIN.RESP (10_state.md R44, 42_linmaster.md R184,
93_implementation_defined.md U1: "any value"). See log entry 6. -/
opaque Config.freeByte : Nat → Byte

/-- The answer of agent G to a `readInput(AUX_RAIL)` for which `State.rails` holds none (10_state.md
R38, 93_implementation_defined.md U15: "any value at each read"). See log entry 4. -/
opaque Config.freeRail : Nat → Bool

end Sys2Proof
end

