-- ==== Sys2Proof/Machine/Params.lean ====
section
/-! DEFINITION. The parameters of 00_scope.md R7 as named constants, so that an audit of a literal changes
one place, and the values this spec uses for the open ones (00_scope.md R8, 92_eei_decisions.md section 2),
which the model takes from `State.params`. -/

namespace Sys2Proof.Machine.Params

/-- RB_CAPACITY. -/
def rbCapacity : BitVec 4 := 8
/-- SYNC_BYTE. -/
def syncByte : Byte := 0x55
/-- BREAK_BYTE. -/
def breakByte : Byte := 0x00
/-- ID_MASK. -/
def idMask : Byte := 0x3F
/-- WAKE_HIGH1_MS. -/
def wakeHigh1Ms : Nat := 10
/-- WAKE_LOW_MS. -/
def wakeLowMs : Nat := 1
/-- WAKE_HIGH2_MS. -/
def wakeHigh2Ms : Nat := 105
/-- DRAIN_WAIT_MAX_MS. -/
def drainWaitMaxMs : Nat := 100
/-- RESP_POLLS. -/
def respPolls : Nat := 5
/-- RESP_POLL_MS. -/
def respPollMs : Nat := 2
/-- RESP_DRAIN_MS. -/
def respDrainMs : Nat := 1
/-- RESP_MAXLEN, the largest `maxLen` and the one the sequences use (R220). -/
def respMaxLen : Nat := 9
/-- DATA_MAXLEN. -/
def dataMaxLen : Nat := 8
/-- BAUD_NOMINAL. -/
def baudNominal : Nat := 9600
/-- BAUD_NORMAL, "about 19200 baud"; its exact value is open (R8). -/
def baudNormal : Nat := 19200
/-- ID_COMMAND. -/
def idCommand : BitVec 6 := 0x3A
/-- ID_STATUS. -/
def idStatus : BitVec 6 := 0x3B
/-- START_PAYLOAD. -/
def startPayload : Vector Byte 2 := #v[0x02, 0x00]
/-- STOP_PAYLOAD. -/
def stopPayload : Vector Byte 2 := #v[0x00, 0x00]
/-- The length of a command payload (R108). -/
def payloadLen : Nat := 2
/-- MARKER. -/
def marker : Byte := 0xFF
/-- RAIL_TRIES. -/
def railTries : Nat := 3
/-- START_ROUNDS. -/
def startRounds : Nat := 3
/-- START_POLLS. -/
def startPolls : Nat := 10
/-- POLL_GAP_MS. -/
def pollGapMs : Nat := 100
/-- ROUND_GAP_MS. -/
def roundGapMs : Nat := 250
/-- STOP_TRIES. -/
def stopTries : Nat := 3
/-- STOP_POLLS. -/
def stopPolls : Nat := 10
/-- CUT_PULSES. -/
def cutPulses : Nat := 10
/-- CUT_PULSE_MS. -/
def cutPulseMs : Nat := 100
/-- RAIL_DROP_TRIES. -/
def railDropTries : Nat := 10
/-- RAIL_DROP_MS. -/
def railDropMs : Nat := 1000
/-- LOAD_POLLS. -/
def loadPolls : Nat := 10
/-- LOAD_GAP_MS. -/
def loadGapMs : Nat := 20
/-- LOAD_NEED. -/
def loadNeed : Nat := 5

/-- OK (60_exceptions.md R259). -/
def codeOk : Byte := 0

/-- The values this spec uses for the open parameters when one is needed (92_eei_decisions.md section 2,
R259): DRAIN_POLL_MS is 1, CUT_GAP_MS is 0, and the error codes are in the order of the source's list. -/
def specValues : OpenParams where
  drainPollMs := 1
  cutGapMs := 0
  baudNormal := baudNormal
  startRounds := startRounds
  startPolls := startPolls
  stopTries := stopTries
  stopPolls := stopPolls
  wakeupError := ⟨1, by decide⟩
  responseError := ⟨2, by decide⟩
  powerGoodError := ⟨3, by decide⟩
  startupError := ⟨4, by decide⟩
  lowBattErr := ⟨5, by decide⟩

end Sys2Proof.Machine.Params

namespace Sys2Proof

/-- DRAIN_WAIT_MAX_MS / DRAIN_POLL_MS, the most waits of a drain wait (42_linmaster.md R175). -/
def OpenParams.drainPolls (p : OpenParams) : Nat := Machine.Params.drainWaitMaxMs / p.drainPollMs

/-- BAUD_BREAK = BAUD_NORMAL / 2 (R7). -/
def OpenParams.baudBreak (p : OpenParams) : Nat := p.baudNormal / 2

/-- The error kinds the source names (60_exceptions.md R259). -/
inductive ErrKind where
  | wakeupError
  | responseError
  | powerGoodError
  | startupError
  | lowBattErr
deriving DecidableEq, Repr

/-- ERRCODE : kind -> 1..5 (60_exceptions.md R259). -/
def OpenParams.errCode (p : OpenParams) : ErrKind → ErrNumber
  | .wakeupError => p.wakeupError
  | .responseError => p.responseError
  | .powerGoodError => p.powerGoodError
  | .startupError => p.startupError
  | .lowBattErr => p.lowBattErr

end Sys2Proof
end

