-- ==== Sys2Proof/Syntax.lean ====
section
/-! DEFINITION. The instructions of the block: the fifteen commands the host issues (30_encoding.md
R92) and the two services of the interrupt handler (R95), one constructor per row of
spec/opcode_table.json. Operands are those of R91. -/

namespace Sys2Proof

/-- The two ring buffers, the operand `b` (R25, R91): RX is 0, TX is 1. -/
inductive Buf where
  | rx
  | tx
deriving DecidableEq, Repr

/-- The seventeen rows of the opcode table. `id` is CMD[5:0]; CMD[7:6] of such a row is ignored
(R91) and is no part of the instruction. -/
inductive Instr where
  /-- RB.ENQ b, byte (R121). -/
  | rbEnq (b : Buf) (byte : Byte)
  /-- RB.DEQ b (R122). -/
  | rbDeq (b : Buf)
  /-- RB.LEN b (R123). -/
  | rbLen (b : Buf)
  /-- SL.SEND byte (R141). -/
  | slSend (byte : Byte)
  /-- SL.TRYREAD (R140). -/
  | slTryread
  /-- SL.RXIE e (R146). -/
  | slRxie (e : Bool)
  /-- LIN.WAKEUP (R171). -/
  | linWakeup
  /-- LIN.HEADER id (R173). -/
  | linHeader (id : BitVec 6)
  /-- LIN.DATA len, pid (R177). -/
  | linData (len : BitVec 4) (pid : Byte)
  /-- LIN.RESP maxLen (R181). -/
  | linResp (maxLen : BitVec 4)
  /-- FX.CMD id, len (R211). -/
  | fxCmd (id : BitVec 6) (len : BitVec 4)
  /-- FX.STATUS id, maxLen (R212). -/
  | fxStatus (id : BitVec 6) (maxLen : BitVec 4)
  /-- SEQ.START (R222). -/
  | seqStart
  /-- SEQ.STOP c (R226). -/
  | seqStop (c : Bool)
  /-- SEQ.LOADCHK (R230). -/
  | seqLoadchk
  /-- IRQ.RX, the receive-ready service (R148). -/
  | irqRx
  /-- IRQ.TX, the transmit-ready service (R149). -/
  | irqTx
deriving DecidableEq, Repr

end Sys2Proof
end

