-- ==== Sys2Proof/WellFormed.lean ====
section
/-! DEFINITION. Which instructions the encoding admits: the ranges of the two counts (30_encoding.md
R91). Every other operand fills its field. -/

namespace Sys2Proof

/-- `len` is 0..8, DATA_MAXLEN; 9..15 are reserved (R91, R110). -/
def lenOk (len : BitVec 4) : Bool := decide (len.toNat ≤ Machine.Params.dataMaxLen)

/-- `maxLen` is 0..9, RESP_MAXLEN; 10..15 are reserved (R91, R110). -/
def maxLenOk (maxLen : BitVec 4) : Bool := decide (maxLen.toNat ≤ Machine.Params.respMaxLen)

/-- The checks of R93 on an instruction's operands. -/
def Instr.wellFormed : Instr → Bool
  | .rbEnq _ _ => true
  | .rbDeq _ => true
  | .rbLen _ => true
  | .slSend _ => true
  | .slTryread => true
  | .slRxie _ => true
  | .linWakeup => true
  | .linHeader _ => true
  | .linData len _ => lenOk len
  | .linResp maxLen => maxLenOk maxLen
  | .fxCmd _ len => lenOk len
  | .fxStatus _ maxLen => maxLenOk maxLen
  | .seqStart => true
  | .seqStop _ => true
  | .seqLoadchk => true
  | .irqRx => true
  | .irqTx => true

end Sys2Proof
end

