-- ==== Sys2Proof/Decode.lean ====
section
/-! DEFINITION. The decoder and the encoder, written from 30_encoding.md R90 to R95 and R110. There
are two code spaces: the 16-bit command word at the command port and the 2-bit cause vector of the
interrupt handler. -/

namespace Sys2Proof

/-- What is decoded: a command word (R90) or a cause vector (R95). -/
inductive Code where
  | command (w : CmdWord)
  | cause (c : Cause)
deriving DecidableEq, Repr

/-- Why a code is no instruction (R93, R110; for a cause vector R95, which invokes no service when
CAUSE is 0). -/
inductive Reject where
  /-- op = 0xF. -/
  | reservedOpcode
  /-- A nonzero bit where the row's pattern has 0. -/
  | mustBeZero
  /-- len in 9..15. -/
  | lenOutOfRange
  /-- maxLen in 10..15. -/
  | maxLenOutOfRange
  /-- CAUSE = 0: the handler is not invoked. -/
  | noCause
deriving DecidableEq, Repr

/-! ### Fields of the command word (R90) -/

/-- CMD[15:12]. -/
def opField (w : CmdWord) : BitVec 4 := w.extractLsb' 12 4

/-- CMD[11:8]. -/
def subField (w : CmdWord) : BitVec 4 := w.extractLsb' 8 4

/-- CMD[7:0]. -/
def immField (w : CmdWord) : Byte := w.extractLsb' 0 8

/-- The frame identifier `CMD[7:0] & ID_MASK` (R91, 42_linmaster.md R172): CMD[7:6] are ignored. -/
def idField (w : CmdWord) : BitVec 6 := (immField w &&& Machine.Params.idMask).setWidth 6

/-- A one-bit operand in CMD[8] with CMD[11:9] = 0 (R91: b, e, c). -/
def flagOperand (w : CmdWord) : Except Reject Bool :=
  if (subField w).toNat = 0 then .ok false
  else if (subField w).toNat = 1 then .ok true
  else .error .mustBeZero

/-- The buffer select `b` (R91): 0 is RX, 1 is TX. -/
def bufOfFlag : Bool → Buf
  | false => .rx
  | true => .tx

/-- The flag bit of a buffer select. -/
def flagOfBuf : Buf → Bool
  | .rx => false
  | .tx => true

/-- The instruction, if CMD[7:0] is 0. -/
def whenImmZero (w : CmdWord) (i : Instr) : Except Reject Instr :=
  if immField w = 0 then .ok i else .error .mustBeZero

/-- The instruction, if CMD[11:8] is 0. -/
def whenSubZero (w : CmdWord) (i : Instr) : Except Reject Instr :=
  if subField w = 0 then .ok i else .error .mustBeZero

/-- The instruction, if CMD[11:0] is 0. -/
def whenOperandsZero (w : CmdWord) (i : Instr) : Except Reject Instr :=
  if subField w = 0 ∧ immField w = 0 then .ok i else .error .mustBeZero

/-- The instruction, if CMD[11:8] is a legal `len`. -/
def whenLen (w : CmdWord) (i : Instr) : Except Reject Instr :=
  if lenOk (subField w) then .ok i else .error .lenOutOfRange

/-- The instruction, if CMD[11:8] is a legal `maxLen`. -/
def whenMaxLen (w : CmdWord) (i : Instr) : Except Reject Instr :=
  if maxLenOk (subField w) then .ok i else .error .maxLenOutOfRange

/-- The instruction built from the one-bit operand in CMD[8], if CMD[11:9] is 0. -/
def withFlag (w : CmdWord) (f : Bool → Except Reject Instr) : Except Reject Instr :=
  match flagOperand w with
  | .ok b => f b
  | .error r => .error r

/-- Decoding a command word, total (R92, R93). -/
def decodeCommand (w : CmdWord) : Except Reject Instr :=
  match (opField w).toNat with
  | 0 => withFlag w fun b => .ok (.rbEnq (bufOfFlag b) (immField w))
  | 1 => withFlag w fun b => whenImmZero w (.rbDeq (bufOfFlag b))
  | 2 => withFlag w fun b => whenImmZero w (.rbLen (bufOfFlag b))
  | 3 => whenSubZero w (.slSend (immField w))
  | 4 => whenOperandsZero w .slTryread
  | 5 => withFlag w fun e => whenImmZero w (.slRxie e)
  | 6 => whenOperandsZero w .linWakeup
  | 7 => whenSubZero w (.linHeader (idField w))
  | 8 => whenLen w (.linData (subField w) (immField w))
  | 9 => if maxLenOk (subField w) then whenImmZero w (.linResp (subField w)) else .error .maxLenOutOfRange
  | 10 => whenLen w (.fxCmd (idField w) (subField w))
  | 11 => whenMaxLen w (.fxStatus (idField w) (subField w))
  | 12 => whenOperandsZero w .seqStart
  | 13 => withFlag w fun c => whenImmZero w (.seqStop c)
  | 14 => whenOperandsZero w .seqLoadchk
  | _ => .error .reservedOpcode

/-- The services one handler invocation runs, in order (R95, R147): IRQ.RX when CAUSE[0] is 1, then
IRQ.TX when CAUSE[1] is 1. -/
def causeServices (c : Cause) : List Instr :=
  (if c.getLsbD 0 then [.irqRx] else []) ++ (if c.getLsbD 1 then [.irqTx] else [])

/-- Decoding a code. A cause vector decodes to the service that runs first; with CAUSE = 0b11 the
other follows in the same invocation (`causeServices`; log entry 14). -/
def decode : Code → Except Reject Instr
  | .command w => decodeCommand w
  | .cause c =>
    match causeServices c with
    | i :: _ => .ok i
    | [] => .error .noCause

/-! ### The encoder -/

/-- A command word from its three fields (R90). -/
def commandWord (op sub : BitVec 4) (imm : Byte) : CmdWord := (op ++ sub) ++ imm

/-- A one-bit operand in bit 0 of the `sub` field, which is CMD[8]. -/
def flagSub (b : Bool) : BitVec 4 := if b then 1 else 0

/-- An identifier in CMD[5:0], with 0 in the ignored CMD[7:6]. -/
def idImm (id : BitVec 6) : Byte := id.setWidth 8

/-- The code of an instruction (R92, R95). Ignored bits are written as 0. -/
def encode : Instr → Code
  | .rbEnq b byte => .command (commandWord 0x0 (flagSub (flagOfBuf b)) byte)
  | .rbDeq b => .command (commandWord 0x1 (flagSub (flagOfBuf b)) 0)
  | .rbLen b => .command (commandWord 0x2 (flagSub (flagOfBuf b)) 0)
  | .slSend byte => .command (commandWord 0x3 0 byte)
  | .slTryread => .command (commandWord 0x4 0 0)
  | .slRxie e => .command (commandWord 0x5 (flagSub e) 0)
  | .linWakeup => .command (commandWord 0x6 0 0)
  | .linHeader id => .command (commandWord 0x7 0 (idImm id))
  | .linData len pid => .command (commandWord 0x8 len pid)
  | .linResp maxLen => .command (commandWord 0x9 maxLen 0)
  | .fxCmd id len => .command (commandWord 0xA len (idImm id))
  | .fxStatus id maxLen => .command (commandWord 0xB maxLen (idImm id))
  | .seqStart => .command (commandWord 0xC 0 0)
  | .seqStop c => .command (commandWord 0xD (flagSub c) 0)
  | .seqLoadchk => .command (commandWord 0xE 0 0)
  | .irqRx => .cause 0b01
  | .irqTx => .cause 0b10

/-! ### The opcode table -/

/-- One row of spec/opcode_table.json: a word belongs to the row when `word &&& mask = pattern`. The
ranges of len and maxLen are a further check (`Instr.wellFormed`). -/
structure Row where
  mnemonic : String
  pattern : CmdWord
  mask : CmdWord
deriving DecidableEq, Repr

/-- The fifteen rows of format CW, with match and mask as the table gives them (R92). -/
def commandRows : List Row :=
  [⟨"RB.ENQ", 0x0000, 0xFE00⟩, ⟨"RB.DEQ", 0x1000, 0xFEFF⟩, ⟨"RB.LEN", 0x2000, 0xFEFF⟩,
   ⟨"SL.SEND", 0x3000, 0xFF00⟩, ⟨"SL.TRYREAD", 0x4000, 0xFFFF⟩, ⟨"SL.RXIE", 0x5000, 0xFEFF⟩,
   ⟨"LIN.WAKEUP", 0x6000, 0xFFFF⟩, ⟨"LIN.HEADER", 0x7000, 0xFF00⟩, ⟨"LIN.DATA", 0x8000, 0xF000⟩,
   ⟨"LIN.RESP", 0x9000, 0xF0FF⟩, ⟨"FX.CMD", 0xA000, 0xF000⟩, ⟨"FX.STATUS", 0xB000, 0xF000⟩,
   ⟨"SEQ.START", 0xC000, 0xFFFF⟩, ⟨"SEQ.STOP", 0xD000, 0xFEFF⟩, ⟨"SEQ.LOADCHK", 0xE000, 0xFFFF⟩]

/-- The word fits the row. -/
def Row.fits (r : Row) (w : CmdWord) : Bool := decide (w &&& r.mask = r.pattern)

/-! ### The table's words -/

/-- The instruction the decoder reads from an opcode-table word: a row of at most one byte is a cause
vector (format CAUSE), a wider one a command word (format CW). -/
def decodeTableWord (nbits w : Nat) : Option Instr :=
  (if nbits ≤ 8 then decode (.cause (BitVec.ofNat 2 w)) else decode (.command (BitVec.ofNat 16 w))).toOption

end Sys2Proof
end

