-- ==== Sys2Proof/Machine/State.lean ====
section
/-! DEFINITION. The state of the block (10_state.md R20 and the rules it lists), as plain data, its
value after reset (R47), and the reasons a step can end without a next state. The last four fields
of `State` are the model's own: the schedule of the other agents, the rail's next answers, the counter of
the free values and the open parameters. -/

namespace Sys2Proof.Machine

/-! ### Stops -/

/-- The block raises no exception and takes no trap (60_exceptions.md R258, 00_scope.md R10), and no
access can be out of bounds (20_memory.md R65): a fault has no constructor, so no step answers one. -/
inductive Fault where
deriving DecidableEq, Repr

/-- Why a step answers no next state. -/
inductive Refusal where
  /-- An instruction without a meaning. No arm of exec raises it: every instruction has its meaning.
  Safe. -/
  | notModelled (mnemonic : String)
  /-- A reserved word stands at the command port. Raised by the step that would accept it: "A model
  gives it no step (refusal, erring toward unprovable)" (30_encoding.md R110). Safe. -/
  | reservedCommand (why : Reject)
  /-- An instruction term that no command word encodes, `len` above 8 or `maxLen` above 9 (R91, R110).
  Raised by the meanings of LIN.DATA, LIN.RESP, FX.CMD and FX.STATUS; a decoded instruction never
  raises it. Safe. -/
  | reservedOperand
deriving DecidableEq, Repr

/-! ### Parts of the state -/

/-- A ring buffer (R21 to R24): `head` is the slot the next enqueue writes, `tail` the slot the next
dequeue reads, `count` the number of bytes held, 0..8. -/
structure Ring where
  storage : Vector Byte 8
  head : BitVec 3
  tail : BitVec 3
  count : BitVec 4
deriving DecidableEq, Repr

/-- The rate of a character (R29): NORMAL is 0, BREAK is 1. -/
inductive Rate where
  | normal
  | brk
deriving DecidableEq, Repr

/-- A level of the line (R30, R37). -/
inductive Level where
  | high
  | low
deriving DecidableEq, Repr

/-- Who drives the LIN transmit pin (R30). -/
inductive LineMode where
  | uart
  | forceHigh
  | forceLow
deriving DecidableEq, Repr

/-- The character the transmitter is sending (R31). -/
structure TxReg where
  full : Bool
  byte : Byte
  rate : Rate
deriving DecidableEq, Repr

/-- The character the receiver has completed (R32). -/
structure RxReg where
  full : Bool
  byte : Byte
deriving DecidableEq, Repr

/-- What an observer of the line saw (R37, ghost). -/
inductive WireItem where
  /-- A character with its data byte and the rate it was sent at. -/
  | char (b : Byte) (r : Rate)
  /-- The line forced to a level for a nominal number of milliseconds. -/
  | level (l : Level) (ms : Nat)
deriving DecidableEq, Repr

/-- What an observer of POWER_CUT saw (R38, ghost): the levels written and the nominal waits between
them. -/
inductive CutItem where
  | level (on : Bool)
  | wait (ms : Nat)
deriving DecidableEq, Repr

/-- What a `return` carries (R11, 43_frame_exchange.md R210): nothing, a value, or None of an
`Option<byte>`. -/
inductive Ret where
  | nothing
  | value (v : Byte)
  | absent
deriving DecidableEq, Repr

/-! ### Micro-steps -/

/-- The micro-steps of the commands (00_scope.md R14). A constructor is the label of a step in the
numbered list of the rule its comment names, and its arguments are the operands and locals the step
uses (R41). What each does, and which micro-steps follow it, is `microEffect`. -/
inductive Micro where
  /-- R121 step 1. -/
  | rbEnq (b : Buf) (v : Byte)
  /-- R122 step 1. -/
  | rbDeq (b : Buf)
  /-- R123 step 1. -/
  | rbLen (b : Buf)
  /-- R140 step 1. -/
  | tryTest
  /-- R140 step 2. -/
  | tryTake
  /-- R146 step 1. -/
  | setRxie (e : Bool)
  /-- R141 step 1. -/
  | sendEnq (v : Byte)
  /-- R141 step 2. -/
  | sendKick
  /-- R141 step 3. -/
  | sendTest
  /-- R141 step 4. -/
  | sendWait
  /-- R171 steps 1, 3, 5. -/
  | setLine (l : Level)
  /-- R171 steps 2, 4, 6. -/
  | holdLine (l : Level) (ms : Nat)
  /-- R171 step 7. -/
  | lineToUart
  /-- R175 step a. -/
  | drainTest (k : Nat)
  /-- R175 step b. -/
  | drainWait (k : Nat)
  /-- R173 steps 2 and 5. -/
  | setBaud (r : Rate)
  /-- R173 step 6, with the calls of steps 7 and 8 to follow. -/
  | headerPid (id : BitVec 6)
  /-- The `return v` of R173. -/
  | returnValue (v : Byte)
  /-- R177 step 1 with the operand pid. -/
  | dataInit (len : Nat) (pid : Byte)
  /-- R177 step 1 with the pid handed over by LIN.HEADER (R211 step 2). -/
  | dataInitHanded (len : Nat)
  /-- R177 step 2. -/
  | dataTest (i len : Nat)
  /-- R177 step 3, the read of DBUF[i], with the call of SL.SEND to follow. -/
  | dataByte (i len : Nat)
  /-- R177 step 3, the addition to CSUM. -/
  | dataAdd (v : Byte) (i len : Nat)
  /-- R177 step 4, with the call of step 5 to follow. -/
  | dataFold
  /-- R181 step 1. -/
  | respInit (maxLen : Nat)
  /-- R181 step 2. -/
  | respPoll (k maxLen : Nat)
  /-- R181 step 3. -/
  | respWait (k maxLen : Nat)
  /-- R181 step 4. -/
  | respAgain (k maxLen : Nat)
  /-- R181 step 5. -/
  | respLimit (n maxLen : Nat)
  /-- R181 step 6. -/
  | respLook (n maxLen : Nat)
  /-- R181 step 7. -/
  | respTake (n maxLen : Nat)
  /-- R181 step 7w. -/
  | respPause (n maxLen : Nat)
  /-- R181 step 8. -/
  | respDone (n : Nat)
  /-- `wait_ms(n)` (R16). -/
  | waitMs (n : Nat)
  /-- R222 step 1. -/
  | startBegin
  /-- R222 step 2. -/
  | startRail (a : Nat)
  /-- R222 steps 3 and 4. -/
  | startWake (a : Nat)
  /-- R222 step 5. -/
  | startFlags
  /-- R222 step 6, with the calls of steps 6 and 7 to follow. -/
  | startRound (r : Nat) (anyResp ackNoPg : Bool)
  /-- R222 step 8. -/
  | startJudge (r p : Nat) (anyResp ackNoPg : Bool)
  /-- R222 step 9. -/
  | startGap (r p : Nat) (anyResp ackNoPg : Bool)
  /-- R222 step 10. -/
  | startNext (r : Nat) (anyResp ackNoPg : Bool)
  /-- R222 step 11. -/
  | startFail (anyResp ackNoPg : Bool)
  /-- R226 step 1. -/
  | stopRail (c : Bool)
  /-- R226 step 2. -/
  | stopBegin (c : Bool)
  /-- R226 step 3, with the calls of steps 3 and 4 to follow. -/
  | stopTry (c : Bool) (t : Nat)
  /-- R226 step 5. -/
  | stopJudge (c : Bool) (t p : Nat)
  /-- R226 step 6. -/
  | stopGap (c : Bool) (t p : Nat)
  /-- R226 step 7. -/
  | stopNext (c : Bool) (t : Nat)
  /-- R226 step 8. -/
  | stopUnconfirmed
  /-- R226 step 9, the test of s and the read of the rail. -/
  | stopDropRead (s : Nat)
  /-- R226 step 9, the wait. -/
  | stopDropWait (s : Nat)
  /-- R226 step 10. -/
  | stopConfirmed (c : Bool)
  /-- R226 step 11, POWER_CUT raised. -/
  | cutHigh (j : Nat)
  /-- R226 step 11, the wait. -/
  | cutHold (j : Nat)
  /-- R226 step 11, POWER_CUT lowered. -/
  | cutLow (j : Nat)
  /-- R226 step 12. -/
  | cutRead (j : Nat)
  /-- CUT_GAP_MS between two pulses, if it is not 0 (R228). -/
  | cutGap
  /-- R230 step 1, with the call of step 2 to follow. -/
  | loadBegin
  /-- R230 step 3. -/
  | loadJudge (cnt i : Nat)
  /-- R230 step 4. -/
  | loadGap (cnt i : Nat)
deriving DecidableEq, Repr

/-- The sequencer SEQ (R41): the command in progress, the micro-steps still to run (the head is the
label of the next one with its locals, the tail is what the callers go on with), and what the last
`return` of a sub-operation handed over (R210). IDLE is `Seq.idle`. -/
structure Seq where
  command : Option Instr
  todo : List Micro
  ret : Ret
deriving DecidableEq, Repr

/-- SEQ = IDLE. -/
def Seq.idle : Seq := { command := none, todo := [], ret := .nothing }

/-! ### Turns of the other agents -/

/-- One entry of the schedule: which agent moves next at an interruptible point (00_scope.md R6, R14).
The handler has no entry: it is urgent (41_seriallink.md R147). -/
inductive Turn where
  /-- Agent M takes its next micro-step. -/
  | main
  /-- Agent U: `U.txdone` (R151). -/
  | txdone
  /-- Agents U and P: `U.rx(v)` (R152). `kept` decides where the spec leaves two outcomes: whether a
  character that arrives while RXIE = 0 is latched (R156), and whether the new byte survives an
  overrun (R152). -/
  | rx (v : Byte) (kept : Bool)
  /-- Agent H writes DBUF[i] through its port, while SEQ = IDLE (R46). -/
  | dbufWrite (i : BitVec 3) (v : Byte)
  /-- Agent H presents a command word, while SEQ = IDLE (R42). -/
  | issue (w : CmdWord)
deriving DecidableEq, Repr

/-! ### The state -/

/-- The complete state of the block (R20) and, below the command port, the model's own fields. -/
structure State where
  /-- RB[RX] (R25). -/
  rbRx : Ring
  /-- RB[TX] (R25). -/
  rbTx : Ring
  /-- TX_IDLE (R26). -/
  txIdle : Bool
  /-- RXIE (R27). -/
  rxie : Bool
  /-- GIE (R28). -/
  gie : Bool
  /-- BAUD (R29). -/
  baud : Rate
  /-- LINE_MODE (R30). -/
  lineMode : LineMode
  /-- TXREG (R31). -/
  txreg : TxReg
  /-- RXREG (R32). -/
  rxreg : RxReg
  /-- TXIRQ (R33). -/
  txirq : Bool
  /-- RXIRQ (R34). -/
  rxirq : Bool
  /-- CSUM (R36). -/
  csum : BitVec 16
  /-- RESULT (R43). -/
  result : Byte
  /-- RESULT_VALID (R43). -/
  resultValid : Bool
  /-- RESP[0..8] (R44). -/
  resp : Vector Byte 9
  /-- RESP_LEN (R45). -/
  respLen : BitVec 4
  /-- DBUF[0..7] (R46). -/
  dbuf : Vector Byte 8
  /-- SEQ (R41). -/
  seq : Seq
  /-- POWER_CUT (R38). -/
  powerCut : Bool
  /-- WIRE (R37). -/
  wire : List WireItem
  /-- PCUT_TRACE (R38). -/
  pcutTrace : List CutItem
  /-- The command port CMD: the word agent H presents, if it presents one (R42). -/
  cmd : Option CmdWord
  /-- The model's own: the schedule, next turn first. Empty: M moves, or U where M waits (log entries 2 and 29). -/
  sched : List Turn
  /-- The model's own: agent G's next answers to `readInput(AUX_RAIL)` (R38, log entry 4). -/
  rails : List Bool
  /-- The model's own: the argument of the next free value of Config (log entry 6). -/
  freeCtr : Nat
  /-- The open parameters, the model's argument (00_scope.md R8, log entry 15). No step changes them. -/
  params : OpenParams
deriving DecidableEq, Repr

/-- An empty ring (R47). Its storage is "unspecified"; the value 0x00 is the model's (log entry 7). -/
def Ring.reset : Ring := { storage := Vector.replicate 8 0, head := 0, tail := 0, count := 0 }

/-- The block right after reset (R47, 70_reset_and_hazards.md R280 and R281). The contents R47 calls
"unspecified" are the model's zero (log entries 7 and 8). -/
def State.reset : State where
  rbRx := Ring.reset
  rbTx := Ring.reset
  txIdle := true
  rxie := true
  gie := true
  baud := .normal
  lineMode := .uart
  txreg := { full := false, byte := 0, rate := .normal }
  rxreg := { full := false, byte := 0 }
  txirq := false
  rxirq := false
  csum := 0
  result := 0
  resultValid := false
  resp := Vector.replicate 9 0
  respLen := 0
  dbuf := Vector.replicate 8 0
  seq := Seq.idle
  powerCut := false
  wire := []
  pcutTrace := []
  cmd := none
  sched := []
  rails := []
  freeCtr := 0
  params := Params.specValues

end Sys2Proof.Machine
end

