-- ==== Sys2Proof/Machine/Operands.lean ====
section
/-! DEFINITION. Operand access: one update per register of State, the two ring buffers by their select
`b` (30_encoding.md R91), and the reads and writes of one byte of the four storage spaces
(20_memory.md R60), the only access size there is (R61). -/

namespace Sys2Proof.Machine

/-! ### One update per register -/

/-- `rbRx <- v`. -/
def State.setRbRx (s : State) (v : Ring) : State := { s with rbRx := v }
/-- `rbTx <- v`. -/
def State.setRbTx (s : State) (v : Ring) : State := { s with rbTx := v }
/-- `txIdle <- v`. -/
def State.setTxIdle (s : State) (v : Bool) : State := { s with txIdle := v }
/-- `rxie <- v`. -/
def State.setRxie (s : State) (v : Bool) : State := { s with rxie := v }
/-- `gie <- v`. -/
def State.setGie (s : State) (v : Bool) : State := { s with gie := v }
/-- `baud <- v`. -/
def State.setBaud (s : State) (v : Rate) : State := { s with baud := v }
/-- `lineMode <- v`. -/
def State.setLineMode (s : State) (v : LineMode) : State := { s with lineMode := v }
/-- `txreg <- v`. -/
def State.setTxreg (s : State) (v : TxReg) : State := { s with txreg := v }
/-- `rxreg <- v`. -/
def State.setRxreg (s : State) (v : RxReg) : State := { s with rxreg := v }
/-- `txirq <- v`. -/
def State.setTxirq (s : State) (v : Bool) : State := { s with txirq := v }
/-- `rxirq <- v`. -/
def State.setRxirq (s : State) (v : Bool) : State := { s with rxirq := v }
/-- `csum <- v`. -/
def State.setCsum (s : State) (v : BitVec 16) : State := { s with csum := v }
/-- `result <- v`. -/
def State.setResult (s : State) (v : Byte) : State := { s with result := v }
/-- `resultValid <- v`. -/
def State.setResultValid (s : State) (v : Bool) : State := { s with resultValid := v }
/-- `resp <- v`. -/
def State.setResp (s : State) (v : Vector Byte 9) : State := { s with resp := v }
/-- `respLen <- v`. -/
def State.setRespLen (s : State) (v : BitVec 4) : State := { s with respLen := v }
/-- `dbuf <- v`. -/
def State.setDbuf (s : State) (v : Vector Byte 8) : State := { s with dbuf := v }
/-- `seq <- v`. -/
def State.setSeq (s : State) (v : Seq) : State := { s with seq := v }
/-- `powerCut <- v`. -/
def State.setPowerCut (s : State) (v : Bool) : State := { s with powerCut := v }
/-- `wire <- v`. -/
def State.setWire (s : State) (v : List WireItem) : State := { s with wire := v }
/-- `pcutTrace <- v`. -/
def State.setPcutTrace (s : State) (v : List CutItem) : State := { s with pcutTrace := v }
/-- `cmd <- v`. -/
def State.setCmd (s : State) (v : Option CmdWord) : State := { s with cmd := v }
/-- `sched <- v`. -/
def State.setSched (s : State) (v : List Turn) : State := { s with sched := v }
/-- `rails <- v`. -/
def State.setRails (s : State) (v : List Bool) : State := { s with rails := v }
/-- `freeCtr <- v`. -/
def State.setFreeCtr (s : State) (v : Nat) : State := { s with freeCtr := v }
/-- `params <- v`, which no step does. -/
def State.setParams (s : State) (v : OpenParams) : State := { s with params := v }

/-! ### Ring buffers by select (R25, R91) -/

/-- RB[b]. -/
def State.ring (s : State) : Buf → Ring
  | .rx => s.rbRx
  | .tx => s.rbTx

/-- `RB[b] <- r`. -/
def State.setRing (s : State) : Buf → Ring → State
  | .rx, r => s.setRbRx r
  | .tx, r => s.setRbTx r

/-! ### Storage spaces (R60) -/

/-- The four storage spaces. -/
inductive Space where
  /-- RXBUF = RB[RX].storage. -/
  | rxbuf
  /-- TXBUF = RB[TX].storage. -/
  | txbuf
  /-- RESP. -/
  | resp
  /-- DBUF. -/
  | dbuf
deriving DecidableEq, Repr

/-- The space of a ring buffer's storage. -/
def bufSpace : Buf → Space
  | .rx => .rxbuf
  | .tx => .txbuf

/-- How many bytes a space holds. -/
def Space.size : Space → Nat
  | .rxbuf => 8
  | .txbuf => 8
  | .resp => 9
  | .dbuf => 8

/-- `MemRead(space, i, 1)`, none outside the space. -/
def memRead (sp : Space) (i : Nat) (s : State) : Option Byte :=
  match sp with
  | .rxbuf => s.rbRx.storage[i]?
  | .txbuf => s.rbTx.storage[i]?
  | .resp => s.resp[i]?
  | .dbuf => s.dbuf[i]?

/-- `MemWrite(space, i, 1, v)`. No rule writes outside a space (R65). -/
def memWrite (sp : Space) (i : Nat) (v : Byte) (s : State) : State :=
  match sp with
  | .rxbuf => s.setRbRx { s.rbRx with storage := s.rbRx.storage.setIfInBounds i v }
  | .txbuf => s.setRbTx { s.rbTx with storage := s.rbTx.storage.setIfInBounds i v }
  | .resp => s.setResp (s.resp.setIfInBounds i v)
  | .dbuf => s.setDbuf (s.dbuf.setIfInBounds i v)

/-- DBUF[i], the data operand of LIN.DATA (R46, R177). Every index read is below `len`, at most 8, so the
second argument of `getD` is never taken (R65). -/
def dataByte (i : Nat) (s : State) : Byte := (memRead .dbuf i s).getD 0

end Sys2Proof.Machine
end

