-- ==== Sys2Proof/Machine/Flags.lean ====
section
/-! DEFINITION. The status flags of 10_state.md R49 as they are tested, the cause vector of
30_encoding.md R95 and the predicates on a captured response of 44_orchestration.md R221. No operation
sets a flag as a side effect of arithmetic (20_memory.md R79). -/

namespace Sys2Proof.Machine

/-- count = 8 (R22, R49). -/
def Ring.isFull (r : Ring) : Bool := r.count == Params.rbCapacity

/-- count = 0 (R22, R49). -/
def Ring.isEmpty (r : Ring) : Bool := r.count == 0

/-- SEQ = IDLE (R41): no micro-step is left to run. BUSY is its negation. -/
def State.isIdle (s : State) : Bool := s.seq.todo.isEmpty

/-- `CAUSE = {TXIRQ, RXIRQ & RXIE}` (R95). -/
def cause (s : State) : Cause := BitVec.ofBool s.txirq ++ BitVec.ofBool (s.rxirq && s.rxie)

/-- The handler is invoked when CAUSE ≠ 0 and GIE = 1 (R95, R147, R251). -/
def handlerEnabled (s : State) : Bool := s.gie && (cause s != 0)

/-! ### Predicates on a captured response of n bytes (R221) -/

/-- RESPONDED(n). -/
def responded (n : Nat) : Bool := decide (0 < n)

/-- ACK(n): RESP[1][0] = 1, captured. -/
def ack (n : Nat) (s : State) : Bool := decide (2 ≤ n) && s.resp[1].getLsbD 0

/-- NACK(n): RESP[1][0] = 0, captured. -/
def nack (n : Nat) (s : State) : Bool := decide (2 ≤ n) && !s.resp[1].getLsbD 0

/-- PG(n): RESP[1][1] = 1, captured. -/
def pg (n : Nat) (s : State) : Bool := decide (2 ≤ n) && s.resp[1].getLsbD 1

/-- VALID(n): RESP[3] is the marker, captured. -/
def valid (n : Nat) (s : State) : Bool := decide (4 ≤ n) && s.resp[3] == Params.marker

/-- LOADED(n). -/
def loaded (n : Nat) (s : State) : Bool := valid n s && ack n s && s.resp[0] != 0

end Sys2Proof.Machine
end

