-- ==== Sys2Proof/Machine/Ops.lean ====
section
/-! DEFINITION. The shared operations of the block: the ring-buffer procedures (40_ringbuffer.md R120 to
R123), the atomic guard (00_scope.md R13), the serial-link primitives and the interrupt handler
(41_seriallink.md R143 to R152), identifier parity and checksum (42_linmaster.md R172, R176), the pins
(10_state.md R38), and the interruptible point at which the other agents move (00_scope.md R14). -/

namespace Sys2Proof.Machine

/-! ### Ring buffers -/

/-- The ring after one byte is stored at `head` (R121): head advances modulo 8, count goes up by one. -/
def Ring.push (r : Ring) (v : Byte) : Ring :=
  { storage := r.storage.set r.head.toNat v r.head.isLt
    head := r.head + 1
    tail := r.tail
    count := r.count + 1 }

/-- The byte at `tail`, which the next dequeue reads (R122). -/
def Ring.front (r : Ring) : Byte := r.storage[r.tail.toNat]'r.tail.isLt

/-- The ring after one byte is taken (R122): tail advances modulo 8, count goes down by one, the slot
keeps its old byte. -/
def Ring.pop (r : Ring) : Ring :=
  { storage := r.storage
    head := r.head
    tail := r.tail + 1
    count := r.count - 1 }

/-- `enqueue(b, v)` (R120, R121): a full buffer is left as it is and the result is false. -/
def enqueue (b : Buf) (v : Byte) (s : State) : Bool × State :=
  if (s.ring b).isFull then (false, s) else (true, s.setRing b ((s.ring b).push v))

/-- `dequeue(b)` (R120, R122): an empty buffer is left as it is and the result is None. -/
def dequeue (b : Buf) (s : State) : Option Byte × State :=
  if (s.ring b).isEmpty then (none, s) else (some (s.ring b).front, s.setRing b (s.ring b).pop)

/-- `len(b)` (R120, R123). -/
def ringLen (b : Buf) (s : State) : BitVec 4 := (s.ring b).count

/-- The data value of an `Option<byte>` (R11, R122): None reads as the sentinel 0x00. -/
def optionByte (o : Option Byte) : Byte := o.getD 0

/-- `atomic { f }` (R13, R73): GIE is 0 while `f` runs and returns to the value it had. -/
def atomic {α : Type} (f : State → α × State) (s : State) : α × State :=
  let r := f (s.setGie false)
  (r.1, r.2.setGie s.gie)

/-- `atomic { n <- len(b) }`, which the main context uses for every look at a count (R66). -/
def atomicLen (b : Buf) (s : State) : BitVec 4 := (atomic (fun t => (ringLen b t, t)) s).1

/-! ### Serial link -/

/-- `uart_transmit(v)` (R150): the rate in force is latched with the byte. -/
def uartTransmit (v : Byte) (s : State) : State := s.setTxreg { full := true, byte := v, rate := s.baud }

/-- `force_tx_irq()` (R144). -/
def forceTxIrq (s : State) : State := s.setTxirq true

/-- The kick of SL.SEND (R143): if TX_IDLE is 1, clear it and force the transmit interrupt. -/
def kick (s : State) : State := if s.txIdle then forceTxIrq (s.setTxIdle false) else s

/-- The body of IRQ.RX (R148): RXREG is emptied and its byte enqueued, or discarded when RB[RX] is full. -/
def serviceRx (s : State) : State :=
  let v := s.rxreg.byte
  let s1 := (s.setRxreg { full := false, byte := v }).setRxirq false
  if s1.rbRx.count < Params.rbCapacity then (enqueue .rx v s1).2 else s1

/-- The body of IRQ.TX (R149): the next byte is dequeued and handed to the transmitter, or the
transmitter is marked idle. -/
def serviceTx (s : State) : State :=
  let s1 := s.setTxirq false
  if 0 < s1.rbTx.count then
    let d := dequeue .tx s1
    (uartTransmit (optionByte d.1) d.2).setTxIdle false
  else s1.setTxIdle true

/-! ### Taking an interrupt and returning from it -/

/-- One invocation of the handler (R147, R253 to R255), the block's only form of exception. Entry saves
and alters nothing: SEQ and its locals are untouched. The body serves receive-ready, then
transmit-ready, in one atomic step. Return resumes the main context where it was: there is nothing to
restore. -/
def invokeHandler (s : State) : State :=
  let s1 := if s.rxirq && s.rxie then serviceRx s else s
  if s1.txirq then serviceTx s1 else s1

/-- The handler is urgent (R147): where it is enabled it runs before the next step of any other agent. -/
def urgent (s : State) : State := if handlerEnabled s then invokeHandler s else s

/-! ### UART, line and host steps -/

/-- `U.txdone` (R151), enabled when TXREG.full is 1; a turn that is not enabled does nothing (log entry
2). -/
def txdone (s : State) : State :=
  if s.txreg.full then
    ((s.setWire (s.wire ++ [.char s.txreg.byte s.txreg.rate])).setTxreg { s.txreg with full := false }).setTxirq true
  else s

/-- `U.rx(v)`. With RXIE = 1 the character is latched (R152); if RXREG is full, either byte survives
(R152, U5). With RXIE = 0 the character is latched, replacing an earlier one, or dropped (R156). `kept`
makes the two open choices (log entry 5). -/
def rxArrive (v : Byte) (kept : Bool) (s : State) : State :=
  if s.rxie then
    (s.setRxreg { full := true, byte := if s.rxreg.full && !kept then s.rxreg.byte else v }).setRxirq true
  else if kept then (s.setRxreg { full := true, byte := v }).setRxirq true
  else s

/-- Agent H's port write `DBUF[i] <- v`, possible while SEQ = IDLE (R46). -/
def hostDbufWrite (i : BitVec 3) (v : Byte) (s : State) : State :=
  if s.isIdle then memWrite .dbuf i.toNat v s else s

/-- Agent H presents a command word, possible while SEQ = IDLE (R42, R17). -/
def hostIssue (w : CmdWord) (s : State) : State := if s.isIdle then s.setCmd (some w) else s

/-- The step of the agent whose turn it is. `main` is agent M's turn, which the sequencer takes. -/
def applyTurn (t : Turn) (s : State) : State :=
  match t with
  | .main => s
  | .txdone => txdone s
  | .rx v kept => rxArrive v kept s
  | .dbufWrite i v => hostDbufWrite i v s
  | .issue w => hostIssue w s

/-- An interruptible point (R14): the turns up to agent M's next one are taken in order, the urgent
handler before each of them and before M's turn. `ts` is the schedule; what is left of it is put back. -/
def runTurns : List Turn → State → State
  | [], s => urgent (s.setSched [])
  | .main :: ts, s => urgent (s.setSched ts)
  | .txdone :: ts, s => runTurns ts (applyTurn .txdone (urgent (s.setSched ts)))
  | .rx v kept :: ts, s => runTurns ts (applyTurn (.rx v kept) (urgent (s.setSched ts)))
  | .dbufWrite i v :: ts, s => runTurns ts (applyTurn (.dbufWrite i v) (urgent (s.setSched ts)))
  | .issue w :: ts, s => runTurns ts (applyTurn (.issue w) (urgent (s.setSched ts)))

/-- The interruptible point before agent M's next micro-step. -/
def point (s : State) : State := runTurns s.sched s

/-! ### Line, rate and pins -/

/-- `wait_ms(n)` (R16): no state changes, and no rule's result depends on n. -/
def waitMs (_n : Nat) (s : State) : State := s

/-- The rate in baud of a character tagged r (00_scope.md R7, 10_state.md R29). No rule computes with it. -/
def rateBaud (p : OpenParams) : Rate → Nat
  | .normal => p.baudNormal
  | .brk => p.baudBreak

/-- `set_baud(r)` (R174). -/
def setBaudRate (r : Rate) (s : State) : State := s.setBaud r

/-- The LINE_MODE that drives a level (R171). -/
def forceMode : Level → LineMode
  | .high => .forceHigh
  | .low => .forceLow

/-- `setLine(level)` (R12, R171). -/
def driveLine (l : Level) (s : State) : State := s.setLineMode (forceMode l)

/-- `setOutput(POWER_CUT, level)`, recorded in PCUT_TRACE (R12, R38). -/
def setPowerCutPin (on : Bool) (s : State) : State :=
  (s.setPowerCut on).setPcutTrace (s.pcutTrace ++ [.level on])

/-- `readInput(AUX_RAIL)` (R12, R38): agent G's next answer, or an uninterpreted one. -/
def readRail (s : State) : Bool × State :=
  match s.rails with
  | a :: rest => (a, s.setRails rest)
  | [] => (Config.freeRail s.freeCtr, s.setFreeCtr (s.freeCtr + 1))

/-! ### Identifier parity and checksum -/

/-- `pid(id)` (R172, R103): the identifier with p0 in bit 6 and p1 in bit 7. -/
def pid (id : BitVec 6) : Byte :=
  let p0 := id.getLsbD 0 ^^ id.getLsbD 1 ^^ id.getLsbD 2 ^^ id.getLsbD 4
  let p1 := !(id.getLsbD 1 ^^ id.getLsbD 3 ^^ id.getLsbD 4 ^^ id.getLsbD 5)
  (BitVec.ofBool p1 ++ BitVec.ofBool p0) ++ id

/-- `CSUM + zext_16(v)`, modulo 65536 (R79, R177). -/
def addByte (sum : BitVec 16) (v : Byte) : BitVec 16 := sum + v.setWidth 16

/-- The fold and complement of the checksum, `~((sum & 0xFF) + (sum >> 8)) & 0xFF` (R176): one fold, its
carry dropped (R179). -/
def foldSum (sum : BitVec 16) : Byte := (~~~((sum &&& 0xFF) + (sum >>> 8))).setWidth 8

/-- `checksum(p, d)` (R176). -/
def checksum (p : Byte) (d : List Byte) : Byte := foldSum (d.foldl addByte (p.setWidth 16))

/-! ### The capture buffer -/

/-- RESP[i] after LIN.RESP returned n: what was captured below n, any value from n on (R44, R184). -/
def respByteAfter (n i : Nat) (old : Byte) (ctr : Nat) : Byte := if i < n then old else Config.freeByte (ctr + i)

/-- The bytes of RESP at and beyond n become free values (R44, R184, log entry 6). -/
def releaseTail (n : Nat) (s : State) : State :=
  let c := s.freeCtr
  let r := s.resp
  (s.setResp #v[respByteAfter n 0 r[0] c, respByteAfter n 1 r[1] c, respByteAfter n 2 r[2] c,
      respByteAfter n 3 r[3] c, respByteAfter n 4 r[4] c, respByteAfter n 5 r[5] c,
      respByteAfter n 6 r[6] c, respByteAfter n 7 r[7] c, respByteAfter n 8 r[8] c]).setFreeCtr (c + 9)

/-- `RESP_LEN <- n`. -/
def setRespCount (n : Nat) (s : State) : State := s.setRespLen (BitVec.ofNat 4 n)

/-! ### Results -/

/-- `return v` of a sub-operation or a command: v is handed over (R210). -/
def giveRet (r : Ret) (s : State) : State := s.setSeq { s.seq with ret := r }

/-- The value a caller reads of the sub-operation that has just returned (R210); a call whose rule gives
no value is never read. None reads as 0x00 (R11). -/
def handed (s : State) : Byte :=
  match s.seq.ret with
  | .value v => v
  | .absent => 0
  | .nothing => 0

/-- The outermost `return` (R11, R43): RESULT and RESULT_VALID are written by a command that has a
result and left alone by one that has none. -/
def commitResult (r : Ret) (s : State) : State :=
  match r with
  | .nothing => s
  | .value v => (s.setResult v).setResultValid true
  | .absent => (s.setResult 0).setResultValid false

/-- An `Option<byte>` as a return value. -/
def optionRet : Option Byte → Ret
  | some v => .value v
  | none => .absent

/-- A `bool` as a return value: RESULT[0], with RESULT[7:1] = 0 (R11). -/
def boolRet (b : Bool) : Ret := .value (if b then 1 else 0)

end Sys2Proof.Machine
end

