-- ==== Sys2Proof/Machine/Programs.lean ====
section
/-! DEFINITION. The numbered micro-step lists of the commands, with sub-operations spliced in
(00_scope.md R14, R17). A micro-step that branches or loops is followed by what `microEffect` puts
before the rest of the list. -/

namespace Sys2Proof.Machine

/-- `call SL.SEND(v)` (R141). -/
def sendProg (v : Byte) : List Micro := [.sendEnq v, .sendKick, .sendTest]

/-- `call wait_drain()` (R175), from k = 0. -/
def drainProg : List Micro := [.drainTest 0]

/-- `call LIN.WAKEUP` (R171). -/
def wakeupProg : List Micro :=
  [.setLine .high, .holdLine .high Params.wakeHigh1Ms,
   .setLine .low, .holdLine .low Params.wakeLowMs,
   .setLine .high, .holdLine .high Params.wakeHigh2Ms,
   .lineToUart]

/-- `call LIN.HEADER(id)` (R173). -/
def headerProg (id : BitVec 6) : List Micro :=
  drainProg ++ [.setBaud .brk] ++ sendProg Params.breakByte ++ drainProg ++ [.setBaud .normal, .headerPid id]

/-- `call LIN.DATA(len, pid)` (R177). -/
def dataProg (len : Nat) (p : Byte) : List Micro := [.dataInit len p]

/-- `call LIN.RESP(maxLen)` (R181). -/
def respProg (maxLen : Nat) : List Micro := [.respInit maxLen]

/-- `call FX.CMD(id, len)` (R211): the pid of step 2 is the value step 1 returns. -/
def cmdProg (id : BitVec 6) (len : Nat) : List Micro := headerProg id ++ [.dataInitHanded len]

/-- `call FX.STATUS(id, maxLen)` (R212). -/
def statusProg (id : BitVec 6) (maxLen : Nat) : List Micro := headerProg id ++ respProg maxLen

/-- The command frame of the sequences (R220). -/
def seqCmdProg : List Micro := cmdProg Params.idCommand Params.payloadLen

/-- The status request of the sequences (R220). -/
def seqStatusProg : List Micro := statusProg Params.idStatus Params.respMaxLen

/-- SEQ.START (R222). -/
def startProg : List Micro := [.startBegin]

/-- SEQ.STOP c (R226). -/
def stopProg (c : Bool) : List Micro := [.stopRail c]

/-- SEQ.LOADCHK (R230). -/
def loadProg : List Micro := [.loadBegin]

end Sys2Proof.Machine
end

