-- ==== Sys2Proof/Machine/MicroSteps.lean ====
section
/-! DEFINITION. What each micro-step does, family by family. An effect answers the state and the
micro-steps that come next, before the rest of the list; a `return` answers none. The loop counters never
pass their bounds, so a test `k == bound` of a rule is written `bound ≤ k` (log entry 16). -/

namespace Sys2Proof.Machine

/-- What a micro-step answers: the state and the micro-steps to run next. -/
abbrev MicroResult := State × List Micro

/-- Go on with these micro-steps. -/
def goOn (next : List Micro) (s : State) : MicroResult := (s, next)

/-- `return`, with what it carries. -/
def ret (r : Ret) (s : State) : MicroResult := (giveRet r s, [])

/-! ### Ring buffers -/

/-- R121 step 1. -/
def microRbEnq (b : Buf) (v : Byte) (s : State) : MicroResult :=
  let r := atomic (enqueue b v) s
  ret (boolRet r.1) r.2

/-- R122 step 1. -/
def microRbDeq (b : Buf) (s : State) : MicroResult :=
  let r := atomic (dequeue b) s
  ret (optionRet r.1) r.2

/-- R123 step 1: zext_8 of the count. -/
def microRbLen (b : Buf) (s : State) : MicroResult := ret (.value ((atomicLen b s).setWidth 8)) s

/-! ### Serial link -/

/-- R140 step 1. -/
def microTryTest (s : State) : MicroResult :=
  if atomicLen .rx s = 0 then ret .absent s else goOn [.tryTake] s

/-- R140 step 2. -/
def microTryTake (s : State) : MicroResult :=
  let r := atomic (dequeue .rx) s
  ret (optionRet r.1) r.2

/-- R146 step 1. -/
def microSetRxie (e : Bool) (s : State) : MicroResult := ret .nothing (s.setRxie e)

/-- R141 step 1: the result of the enqueue is discarded (R142). -/
def microSendEnq (v : Byte) (s : State) : MicroResult := goOn [] (atomic (enqueue .tx v) s).2

/-- R141 step 2. -/
def microSendKick (s : State) : MicroResult := goOn [] (kick s)

/-- R141 step 3: the wait of step 4 follows when the buffer is full. -/
def microSendTest (s : State) : MicroResult :=
  if atomicLen .tx s < Params.rbCapacity then ret .nothing s else goOn [.sendWait] s

/-- R141 step 4, `wait_txc()`: changes nothing, its exit is free (R145). -/
def microSendWait (s : State) : MicroResult := ret .nothing s

/-! ### LIN master -/

/-- R171 steps 1, 3, 5. -/
def microSetLine (l : Level) (s : State) : MicroResult := goOn [] (driveLine l s)

/-- R171 steps 2, 4, 6. -/
def microHoldLine (l : Level) (ms : Nat) (s : State) : MicroResult :=
  goOn [] (s.setWire (s.wire ++ [.level l ms]))

/-- R171 step 7. -/
def microLineToUart (s : State) : MicroResult := ret .nothing (s.setLineMode .uart)

/-- R175 step a. -/
def microDrainTest (k : Nat) (s : State) : MicroResult :=
  if s.txIdle then goOn [] s
  else if s.params.drainPolls ≤ k then goOn [] s
  else goOn [.drainWait k] s

/-- R175 step b. -/
def microDrainWait (k : Nat) (s : State) : MicroResult :=
  goOn [.drainTest (k + 1)] (waitMs s.params.drainPollMs s)

/-- R173 steps 2 and 5. -/
def microSetBaud (r : Rate) (s : State) : MicroResult := goOn [] (setBaudRate r s)

/-- R173 step 6: the sync byte, the protected identifier and the return of it follow. -/
def microHeaderPid (id : BitVec 6) (s : State) : MicroResult :=
  goOn (sendProg Params.syncByte ++ sendProg (pid id) ++ [.returnValue (pid id)]) s

/-- The `return p` of R173. -/
def microReturnValue (v : Byte) (s : State) : MicroResult := ret (.value v) s

/-- R177 step 1. -/
def microDataInit (len : Nat) (p : Byte) (s : State) : MicroResult :=
  goOn [.dataTest 0 len] (s.setCsum (p.setWidth 16))

/-- R177 step 2. -/
def microDataTest (i len : Nat) (s : State) : MicroResult :=
  if len ≤ i then goOn [.dataFold] s else goOn [.dataByte i len] s

/-- R177 step 3: v is read, sent, then added. -/
def microDataByte (i len : Nat) (s : State) : MicroResult :=
  goOn (sendProg (dataByte i s) ++ [.dataAdd (dataByte i s) i len]) s

/-- R177 step 3, the end of its line. -/
def microDataAdd (v : Byte) (i len : Nat) (s : State) : MicroResult :=
  goOn [.dataTest (i + 1) len] (s.setCsum (addByte s.csum v))

/-- R177 steps 4 and 5: the checksum is sent, and the return of SL.SEND is that of the command. -/
def microDataFold (s : State) : MicroResult := goOn (sendProg (foldSum s.csum)) s

/-- R181 step 1. -/
def microRespInit (maxLen : Nat) (s : State) : MicroResult := goOn [.respPoll 0 maxLen] s

/-- R181 step 2. -/
def microRespPoll (k maxLen : Nat) (s : State) : MicroResult :=
  if 0 < atomicLen .rx s then goOn [.respLimit 0 maxLen] s else goOn [.respWait k maxLen] s

/-- R181 step 3. -/
def microRespWait (k maxLen : Nat) (s : State) : MicroResult :=
  goOn [.respAgain (k + 1) maxLen] (waitMs Params.respPollMs s)

/-- R181 step 4: after the last poll, the timeout (R182): RESP is unchanged. -/
def microRespAgain (k maxLen : Nat) (s : State) : MicroResult :=
  if k < Params.respPolls then goOn [.respPoll k maxLen] s
  else ret (.value 0) (setRespCount 0 s)

/-- R181 step 5. -/
def microRespLimit (n maxLen : Nat) (s : State) : MicroResult :=
  if maxLen ≤ n then goOn [.respDone n] s else goOn [.respLook n maxLen] s

/-- R181 step 6. -/
def microRespLook (n maxLen : Nat) (s : State) : MicroResult :=
  if atomicLen .rx s = 0 then goOn [.respDone n] s else goOn [.respTake n maxLen] s

/-- R181 step 7. -/
def microRespTake (n maxLen : Nat) (s : State) : MicroResult :=
  let r := atomic (dequeue .rx) s
  goOn [.respPause (n + 1) maxLen] (memWrite .resp n (optionByte r.1) r.2)

/-- R181 step 7w. -/
def microRespPause (n maxLen : Nat) (s : State) : MicroResult :=
  goOn [.respLimit n maxLen] (waitMs Params.respDrainMs s)

/-- R181 step 8: the bytes of RESP from n on are no longer specified (R184). -/
def microRespDone (n : Nat) (s : State) : MicroResult :=
  ret (.value (BitVec.ofNat 8 n)) (releaseTail n (setRespCount n s))

/-! ### Orchestration -/

/-- `wait_ms(n)` as a micro-step of its own. -/
def microWaitMs (n : Nat) (s : State) : MicroResult := goOn [] (waitMs n s)

/-- The payload of a command frame in DBUF[0] and DBUF[1] (R108). -/
def loadPayload (p : Vector Byte 2) (s : State) : State := memWrite .dbuf 1 p[1] (memWrite .dbuf 0 p[0] s)

/-- The count FX.STATUS handed over. -/
def handedCount (s : State) : Nat := (handed s).toNat

/-- R222 step 1. -/
def microStartBegin (s : State) : MicroResult := goOn [.startRail 0] s

/-- R222 step 2. -/
def microStartRail (a : Nat) (s : State) : MicroResult :=
  let r := readRail s
  if r.1 then goOn [.startFlags] r.2 else goOn [.startWake a] r.2

/-- R222 steps 3 and 4. -/
def microStartWake (a : Nat) (s : State) : MicroResult :=
  if Params.railTries ≤ a then ret (.value (s.params.errCode .wakeupError)) s
  else goOn (wakeupProg ++ [.startRail (a + 1)]) s

/-- R222 step 5. -/
def microStartFlags (s : State) : MicroResult := goOn [.startRound 0 false false] s

/-- R222 step 6, the payload, with the command frame and the first status request to follow. -/
def microStartRound (r : Nat) (anyResp ackNoPg : Bool) (s : State) : MicroResult :=
  goOn (seqCmdProg ++ seqStatusProg ++ [.startJudge r 0 anyResp ackNoPg]) (loadPayload Params.startPayload s)

/-- R222 step 8. -/
def microStartJudge (r p : Nat) (anyResp ackNoPg : Bool) (s : State) : MicroResult :=
  let n := handedCount s
  if ack n s && pg n s then ret (.value Params.codeOk) s
  else goOn [.startGap r p (anyResp || responded n) (ackNoPg || (ack n s && !pg n s))] s

/-- R222 step 9. -/
def microStartGap (r p : Nat) (anyResp ackNoPg : Bool) (s : State) : MicroResult :=
  let next :=
    if p + 1 < s.params.startPolls then seqStatusProg ++ [.startJudge r (p + 1) anyResp ackNoPg]
    else [.startNext r anyResp ackNoPg]
  goOn next (waitMs Params.pollGapMs s)

/-- R222 step 10. -/
def microStartNext (r : Nat) (anyResp ackNoPg : Bool) (s : State) : MicroResult :=
  if r + 1 < s.params.startRounds then goOn [.waitMs Params.roundGapMs, .startRound (r + 1) anyResp ackNoPg] s
  else goOn [.startFail anyResp ackNoPg] s

/-- The classification of a failed start (R225). -/
def startFailure (anyResp ackNoPg : Bool) : ErrKind :=
  if !anyResp then .responseError else if ackNoPg then .powerGoodError else .startupError

/-- R222 step 11. -/
def microStartFail (anyResp ackNoPg : Bool) (s : State) : MicroResult :=
  ret (.value (s.params.errCode (startFailure anyResp ackNoPg))) s

/-- R226 step 1. -/
def microStopRail (c : Bool) (s : State) : MicroResult :=
  let r := readRail s
  if r.1 then goOn [.stopBegin c] r.2 else ret .nothing r.2

/-- R226 step 2. -/
def microStopBegin (c : Bool) (s : State) : MicroResult := goOn [.stopTry c 0] s

/-- R226 step 3, the payload, with the command frame and the first status request to follow. -/
def microStopTry (c : Bool) (t : Nat) (s : State) : MicroResult :=
  goOn (seqCmdProg ++ seqStatusProg ++ [.stopJudge c t 0]) (loadPayload Params.stopPayload s)

/-- R226 step 5. -/
def microStopJudge (c : Bool) (t p : Nat) (s : State) : MicroResult :=
  let n := handedCount s
  if valid n s && nack n s then goOn [.stopConfirmed c] s else goOn [.stopGap c t p] s

/-- R226 step 6. -/
def microStopGap (c : Bool) (t p : Nat) (s : State) : MicroResult :=
  let next := if p + 1 < s.params.stopPolls then seqStatusProg ++ [.stopJudge c t (p + 1)] else [.stopNext c t]
  goOn next (waitMs Params.pollGapMs s)

/-- R226 step 7. -/
def microStopNext (c : Bool) (t : Nat) (s : State) : MicroResult :=
  if t + 1 < s.params.stopTries then goOn [.stopTry c (t + 1)] s else goOn [.stopUnconfirmed] s

/-- R226 step 8. -/
def microStopUnconfirmed (s : State) : MicroResult := goOn [.stopDropRead 0] s

/-- R226 step 9, the test of s and the read. -/
def microStopDropRead (k : Nat) (s : State) : MicroResult :=
  if Params.railDropTries ≤ k then ret .nothing s
  else
    let r := readRail s
    if r.1 then goOn [.stopDropWait k] r.2 else ret .nothing r.2

/-- R226 step 9, the wait. -/
def microStopDropWait (k : Nat) (s : State) : MicroResult :=
  goOn [.stopDropRead (k + 1)] (waitMs Params.railDropMs s)

/-- R226 step 10. -/
def microStopConfirmed (c : Bool) (s : State) : MicroResult :=
  if c then goOn [.cutHigh 0] s else ret .nothing s

/-- R226 step 11, the rising edge. -/
def microCutHigh (j : Nat) (s : State) : MicroResult := goOn [.cutHold j] (setPowerCutPin true s)

/-- R226 step 11, the wait, which PCUT_TRACE records (R38). -/
def microCutHold (j : Nat) (s : State) : MicroResult :=
  goOn [.cutLow j] (s.setPcutTrace (s.pcutTrace ++ [.wait Params.cutPulseMs]))

/-- R226 step 11, the falling edge. -/
def microCutLow (j : Nat) (s : State) : MicroResult := goOn [.cutRead (j + 1)] (setPowerCutPin false s)

/-- R226 step 12: the next pulse follows the gap CUT_GAP_MS, if there is one (R228). -/
def microCutRead (j : Nat) (s : State) : MicroResult :=
  let r := readRail s
  if r.1 && decide (j < Params.cutPulses) then
    goOn ((if r.2.params.cutGapMs = 0 then [] else [.cutGap]) ++ [.cutHigh j]) r.2
  else ret .nothing r.2

/-- The gap between two pulses, which PCUT_TRACE records like any wait between two writes (R38). -/
def microCutGap (s : State) : MicroResult :=
  goOn [] (s.setPcutTrace (s.pcutTrace ++ [.wait s.params.cutGapMs]))

/-- R230 step 1, with the status request of step 2 to follow. -/
def microLoadBegin (s : State) : MicroResult := goOn (seqStatusProg ++ [.loadJudge 0 0]) s

/-- R230 step 3. -/
def microLoadJudge (cnt i : Nat) (s : State) : MicroResult :=
  if loaded (handedCount s) s then
    if Params.loadNeed ≤ cnt + 1 then ret (boolRet true) s else goOn [.loadGap (cnt + 1) i] s
  else goOn [.loadGap cnt i] s

/-- R230 step 4. -/
def microLoadGap (cnt i : Nat) (s : State) : MicroResult :=
  let t := waitMs Params.loadGapMs s
  if i + 1 < Params.loadPolls then goOn (seqStatusProg ++ [.loadJudge cnt (i + 1)]) t
  else ret (boolRet false) t

end Sys2Proof.Machine
end

