-- ==== Sys2Proof/Machine/Sequencer.lean ====
section
/-! DEFINITION. Agent M: one micro-step (00_scope.md R14), the bound on the number of micro-steps a list
can still take (R16: every wait is bounded), and the run of a command from its acceptance to its return
with the interruptible points in between (R17, R254). -/

namespace Sys2Proof.Machine

/-- What a micro-step does and what comes next. -/
def microEffect (m : Micro) (s : State) : MicroResult :=
  match m with
  | .rbEnq b v => microRbEnq b v s
  | .rbDeq b => microRbDeq b s
  | .rbLen b => microRbLen b s
  | .tryTest => microTryTest s
  | .tryTake => microTryTake s
  | .setRxie e => microSetRxie e s
  | .sendEnq v => microSendEnq v s
  | .sendKick => microSendKick s
  | .sendTest => microSendTest s
  | .sendWait => microSendWait s
  | .setLine l => microSetLine l s
  | .holdLine l ms => microHoldLine l ms s
  | .lineToUart => microLineToUart s
  | .drainTest k => microDrainTest k s
  | .drainWait k => microDrainWait k s
  | .setBaud r => microSetBaud r s
  | .headerPid id => microHeaderPid id s
  | .returnValue v => microReturnValue v s
  | .dataInit len p => microDataInit len p s
  | .dataInitHanded len => microDataInit len (handed s) s
  | .dataTest i len => microDataTest i len s
  | .dataByte i len => microDataByte i len s
  | .dataAdd v i len => microDataAdd v i len s
  | .dataFold => microDataFold s
  | .respInit maxLen => microRespInit maxLen s
  | .respPoll k maxLen => microRespPoll k maxLen s
  | .respWait k maxLen => microRespWait k maxLen s
  | .respAgain k maxLen => microRespAgain k maxLen s
  | .respLimit n maxLen => microRespLimit n maxLen s
  | .respLook n maxLen => microRespLook n maxLen s
  | .respTake n maxLen => microRespTake n maxLen s
  | .respPause n maxLen => microRespPause n maxLen s
  | .respDone n => microRespDone n s
  | .waitMs n => microWaitMs n s
  | .startBegin => microStartBegin s
  | .startRail a => microStartRail a s
  | .startWake a => microStartWake a s
  | .startFlags => microStartFlags s
  | .startRound r anyResp ackNoPg => microStartRound r anyResp ackNoPg s
  | .startJudge r p anyResp ackNoPg => microStartJudge r p anyResp ackNoPg s
  | .startGap r p anyResp ackNoPg => microStartGap r p anyResp ackNoPg s
  | .startNext r anyResp ackNoPg => microStartNext r anyResp ackNoPg s
  | .startFail anyResp ackNoPg => microStartFail anyResp ackNoPg s
  | .stopRail c => microStopRail c s
  | .stopBegin c => microStopBegin c s
  | .stopTry c t => microStopTry c t s
  | .stopJudge c t p => microStopJudge c t p s
  | .stopGap c t p => microStopGap c t p s
  | .stopNext c t => microStopNext c t s
  | .stopUnconfirmed => microStopUnconfirmed s
  | .stopDropRead k => microStopDropRead k s
  | .stopDropWait k => microStopDropWait k s
  | .stopConfirmed c => microStopConfirmed c s
  | .cutHigh j => microCutHigh j s
  | .cutHold j => microCutHold j s
  | .cutLow j => microCutLow j s
  | .cutRead j => microCutRead j s
  | .cutGap => microCutGap s
  | .loadBegin => microLoadBegin s
  | .loadJudge cnt i => microLoadJudge cnt i s
  | .loadGap cnt i => microLoadGap cnt i s

/-- The outermost return (R43, R210): when no micro-step is left the result is committed and SEQ becomes
IDLE. -/
def retire (s : State) : State :=
  if s.seq.todo.isEmpty then (commitResult s.seq.ret s).setSeq Seq.idle else s

/-- Put micro-steps in front of the ones a caller still has to run. -/
def setTodo (todo : List Micro) (s : State) : State := s.setSeq { s.seq with todo := todo }

/-- One micro-step of agent M. An idle sequencer has none. -/
def mainStep (s : State) : State :=
  match s.seq.todo with
  | [] => s
  | m :: rest =>
    let r := microEffect m s
    retire (setTodo (r.2 ++ rest) r.1)

/-! ### How many micro-steps a list can take -/

/-- Steps of `call SL.SEND`. -/
def sendCost : Nat := 4

/-- Steps from R175 step a. -/
def drainCost (p : OpenParams) (k : Nat) : Nat := 1 + 2 * (p.drainPolls - k)

/-- Steps from R177 step 2. -/
def dataCost (i len : Nat) : Nat := 6 + 7 * (len - i)

/-- Steps from R181 step 5. -/
def limitCost (n maxLen : Nat) : Nat := 2 + 4 * (maxLen - n)

/-- Steps from R181 step 2. -/
def pollCost (k maxLen : Nat) : Nat := 3 + limitCost 0 maxLen + 3 * (Params.respPolls - k)

/-- Steps from R181 step 4. -/
def againCost (k maxLen : Nat) : Nat := if k < Params.respPolls then 1 + pollCost k maxLen else 1

/-- Steps of `call LIN.HEADER`. -/
def headerCost (p : OpenParams) : Nat := 2 * drainCost p 0 + sendCost + 12

/-- Steps of the command frame of the sequences. -/
def seqCmdCost (p : OpenParams) : Nat := headerCost p + 1 + dataCost 0 Params.payloadLen

/-- Steps of the status request of the sequences. -/
def seqStatusCost (p : OpenParams) : Nat := headerCost p + 1 + pollCost 0 Params.respMaxLen

/-- Steps from the look at the poll counter (R222 step 9, R226 step 6), with `polls` as its bound. -/
def pollsCost (p : OpenParams) (polls k : Nat) : Nat := 1 + (polls - (k + 1)) * (seqStatusCost p + 2)

/-- Steps of a command frame and its polls (R222 steps 6 to 9, R226 steps 3 to 6). -/
def attemptCost (p : OpenParams) (polls : Nat) : Nat := 2 + seqCmdCost p + seqStatusCost p + pollsCost p polls 0

/-- Steps from R222 step 10. -/
def startNextCost (p : OpenParams) (r : Nat) : Nat := 2 + (p.startRounds - (r + 1)) * (2 + attemptCost p p.startPolls)

/-- Steps from R222 step 9. -/
def startGapCost (p : OpenParams) (r k : Nat) : Nat := pollsCost p p.startPolls k + startNextCost p r

/-- Steps from R222 step 6. -/
def startRoundCost (p : OpenParams) (r : Nat) : Nat := attemptCost p p.startPolls + startNextCost p r

/-- Steps from R222 step 2. -/
def startRailCost (p : OpenParams) (a : Nat) : Nat := 3 + startRoundCost p 0 + 9 * (Params.railTries - a)

/-- Steps from R226 step 12. -/
def cutReadCost (j : Nat) : Nat := 1 + 5 * (Params.cutPulses - j)

/-- Steps from R226 step 10. -/
def confirmedCost : Nat := 1 + 3 + cutReadCost 1

/-- Steps from R226 step 9. -/
def dropCost (k : Nat) : Nat := 1 + 2 * (Params.railDropTries - k)

/-- Steps from R226 step 7. -/
def stopNextCost (p : OpenParams) (t : Nat) : Nat :=
  2 + dropCost 0 + confirmedCost + (p.stopTries - (t + 1)) * (1 + attemptCost p p.stopPolls)

/-- Steps from R226 step 6. -/
def stopGapCost (p : OpenParams) (t k : Nat) : Nat := pollsCost p p.stopPolls k + stopNextCost p t

/-- Steps from R226 step 3. -/
def stopTryCost (p : OpenParams) (t : Nat) : Nat := attemptCost p p.stopPolls + stopNextCost p t

/-- Steps from R230 step 4. -/
def loadGapCost (p : OpenParams) (i : Nat) : Nat := 1 + (Params.loadPolls - (i + 1)) * (seqStatusCost p + 2)

/-- An upper bound on the micro-steps run from this one on, up to the caller's next one. -/
def cost (p : OpenParams) (m : Micro) : Nat :=
  match m with
  | .rbEnq _ _ => 1
  | .rbDeq _ => 1
  | .rbLen _ => 1
  | .tryTest => 2
  | .tryTake => 1
  | .setRxie _ => 1
  | .sendEnq _ => 1
  | .sendKick => 1
  | .sendTest => 2
  | .sendWait => 1
  | .setLine _ => 1
  | .holdLine _ _ => 1
  | .lineToUart => 1
  | .drainTest k => drainCost p k
  | .drainWait k => 1 + drainCost p (k + 1)
  | .setBaud _ => 1
  | .headerPid _ => 2 + 2 * sendCost
  | .returnValue _ => 1
  | .dataInit len _ => 1 + dataCost 0 len
  | .dataInitHanded len => 1 + dataCost 0 len
  | .dataTest i len => dataCost i len
  | .dataByte i len => 2 + sendCost + dataCost (i + 1) len
  | .dataAdd _ i len => 1 + dataCost (i + 1) len
  | .dataFold => 1 + sendCost
  | .respInit maxLen => 1 + pollCost 0 maxLen
  | .respPoll k maxLen => pollCost k maxLen
  | .respWait k maxLen => 1 + againCost (k + 1) maxLen
  | .respAgain k maxLen => againCost k maxLen
  | .respLimit n maxLen => limitCost n maxLen
  | .respLook n maxLen => 3 + limitCost (n + 1) maxLen
  | .respTake n maxLen => 2 + limitCost (n + 1) maxLen
  | .respPause n maxLen => 1 + limitCost n maxLen
  | .respDone _ => 1
  | .waitMs _ => 1
  | .startBegin => 1 + startRailCost p 0
  | .startRail a => startRailCost p a
  | .startWake a => if a < Params.railTries then 8 + startRailCost p (a + 1) else 1
  | .startFlags => 1 + startRoundCost p 0
  | .startRound r _ _ => startRoundCost p r
  | .startJudge r k _ _ => 1 + startGapCost p r k
  | .startGap r k _ _ => startGapCost p r k
  | .startNext r _ _ => startNextCost p r
  | .startFail _ _ => 1
  | .stopRail _ => 2 + stopTryCost p 0
  | .stopBegin _ => 1 + stopTryCost p 0
  | .stopTry _ t => stopTryCost p t
  | .stopJudge _ t k => 1 + stopGapCost p t k
  | .stopGap _ t k => stopGapCost p t k
  | .stopNext _ t => stopNextCost p t
  | .stopUnconfirmed => 1 + dropCost 0
  | .stopDropRead k => dropCost k
  | .stopDropWait k => 1 + dropCost (k + 1)
  | .stopConfirmed _ => confirmedCost
  | .cutHigh j => 3 + cutReadCost (j + 1)
  | .cutHold j => 2 + cutReadCost (j + 1)
  | .cutLow j => 1 + cutReadCost (j + 1)
  | .cutRead j => cutReadCost j
  | .cutGap => 1
  | .loadBegin => 2 + seqStatusCost p + loadGapCost p 0
  | .loadJudge _ i => 1 + loadGapCost p i
  | .loadGap _ i => loadGapCost p i

/-- An upper bound on the micro-steps of a list. -/
def progCost (p : OpenParams) (todo : List Micro) : Nat := (todo.map (cost p)).sum

/-! ### Running a command -/

/-- Accepting a command sets SEQ to its first micro-step (R42). -/
def accept (i : Instr) (prog : List Micro) (s : State) : State :=
  s.setSeq { command := some i, todo := prog, ret := .nothing }

/-- At most `n` micro-steps of agent M, with an interruptible point between two of them (R14), until SEQ
is IDLE. -/
def runToIdle : Nat → State → State
  | 0, s => s
  | n + 1, s =>
    let t := mainStep s
    if t.isIdle then t else runToIdle n (point t)

/-- A command from its acceptance to its return. `progCost` is never too small
(`Laws/Sequencer.lean`). The interruptible point before the first micro-step is the machine's step's, and
the one after the last precedes whatever comes next. -/
def runCommand (i : Instr) (prog : List Micro) (s : State) : State :=
  runToIdle (progCost s.params prog) (accept i prog s)

end Sys2Proof.Machine
end

