-- ==== Sys2Proof/Machine/FrameExchange.lean ====
section
/-! DEFINITION. The frame exchanges FX.CMD and FX.STATUS (43_frame_exchange.md). -/

namespace Sys2Proof.Machine

/-- FX.CMD id, len (R211). A length above 8 is no command (R110). -/
def execFxCmd (id : BitVec 6) (len : BitVec 4) (s : State) : Host.Outcome State Fault Refusal :=
  if lenOk len then .next (runCommand (.fxCmd id len) (cmdProg id len.toNat) s) else .refused .reservedOperand

/-- FX.STATUS id, maxLen (R212). A length above 9 is no command (R110). -/
def execFxStatus (id : BitVec 6) (maxLen : BitVec 4) (s : State) : Host.Outcome State Fault Refusal :=
  if maxLenOk maxLen then .next (runCommand (.fxStatus id maxLen) (statusProg id maxLen.toNat) s)
  else .refused .reservedOperand

end Sys2Proof.Machine
end

