-- ==== Sys2Proof/Machine/LinMaster.lean ====
section
/-! DEFINITION. The LIN master commands LIN.WAKEUP, LIN.HEADER, LIN.DATA, LIN.RESP (42_linmaster.md). -/

namespace Sys2Proof.Machine

/-- LIN.WAKEUP (R171). With a character in flight the levels are appended all the same and the character
appears on WIRE where the schedule lets it leave (93_implementation_defined.md U3, log entry 9). -/
def execLinWakeup (s : State) : Host.Outcome State Fault Refusal :=
  .next (runCommand .linWakeup wakeupProg s)

/-- LIN.HEADER id (R173). -/
def execLinHeader (id : BitVec 6) (s : State) : Host.Outcome State Fault Refusal :=
  .next (runCommand (.linHeader id) (headerProg id) s)

/-- LIN.DATA len, pid (R177). A length above 8 is no command (R110). -/
def execLinData (len : BitVec 4) (p : Byte) (s : State) : Host.Outcome State Fault Refusal :=
  if lenOk len then .next (runCommand (.linData len p) (dataProg len.toNat p) s) else .refused .reservedOperand

/-- LIN.RESP maxLen (R181). A length above 9 is no command (R110). -/
def execLinResp (maxLen : BitVec 4) (s : State) : Host.Outcome State Fault Refusal :=
  if maxLenOk maxLen then .next (runCommand (.linResp maxLen) (respProg maxLen.toNat) s)
  else .refused .reservedOperand

end Sys2Proof.Machine
end

