-- ==== Sys2Proof/Machine/Orchestration.lean ====
section
/-! DEFINITION. The retry sequences SEQ.START, SEQ.STOP, SEQ.LOADCHK (44_orchestration.md). -/

namespace Sys2Proof.Machine

/-- SEQ.START (R222 to R225). -/
def execSeqStart (s : State) : Host.Outcome State Fault Refusal :=
  .next (runCommand .seqStart startProg s)

/-- SEQ.STOP c (R226 to R229). -/
def execSeqStop (c : Bool) (s : State) : Host.Outcome State Fault Refusal :=
  .next (runCommand (.seqStop c) (stopProg c) s)

/-- SEQ.LOADCHK (R230). -/
def execSeqLoadchk (s : State) : Host.Outcome State Fault Refusal :=
  .next (runCommand .seqLoadchk loadProg s)

end Sys2Proof.Machine
end

