-- ==== Sys2Proof/Machine/RingBuffer.lean ====
section
/-! DEFINITION. The ring-buffer commands RB.ENQ, RB.DEQ, RB.LEN (40_ringbuffer.md). -/

namespace Sys2Proof.Machine

/-- RB.ENQ b, byte (R121). -/
def execRbEnq (b : Buf) (byte : Byte) (s : State) : Host.Outcome State Fault Refusal :=
  .next (runCommand (.rbEnq b byte) [.rbEnq b byte] s)

/-- RB.DEQ b (R122). -/
def execRbDeq (b : Buf) (s : State) : Host.Outcome State Fault Refusal :=
  .next (runCommand (.rbDeq b) [.rbDeq b] s)

/-- RB.LEN b (R123). -/
def execRbLen (b : Buf) (s : State) : Host.Outcome State Fault Refusal :=
  .next (runCommand (.rbLen b) [.rbLen b] s)

end Sys2Proof.Machine
end

