-- ==== Sys2Proof/Machine/SerialLink.lean ====
section
/-! DEFINITION. The serial-link commands SL.SEND, SL.TRYREAD, SL.RXIE and the two services of the
interrupt handler, IRQ.RX and IRQ.TX (41_seriallink.md). -/

namespace Sys2Proof.Machine

/-- SL.SEND byte (R141 to R145). -/
def execSlSend (byte : Byte) (s : State) : Host.Outcome State Fault Refusal :=
  .next (runCommand (.slSend byte) (sendProg byte) s)

/-- SL.TRYREAD (R140). -/
def execSlTryread (s : State) : Host.Outcome State Fault Refusal :=
  .next (runCommand .slTryread [.tryTest] s)

/-- SL.RXIE e (R146). -/
def execSlRxie (e : Bool) (s : State) : Host.Outcome State Fault Refusal :=
  .next (runCommand (.slRxie e) [.setRxie e] s)

/-- IRQ.RX (R148). -/
def execIrqRx (s : State) : Host.Outcome State Fault Refusal := .next (serviceRx s)

/-- IRQ.TX (R149). -/
def execIrqTx (s : State) : Host.Outcome State Fault Refusal := .next (serviceTx s)

end Sys2Proof.Machine
end

