-- ==== Sys2Proof/Machine/Dispatch.lean ====
section
/-! DEFINITION. One arm per instruction, each a direct call of its meaning. -/

namespace Sys2Proof.Machine

def exec (i : Instr) (s : State) : Host.Outcome State Fault Refusal :=
  match i with
  | .rbEnq b byte => Sys2Proof.Machine.execRbEnq b byte s
  | .rbDeq b => Sys2Proof.Machine.execRbDeq b s
  | .rbLen b => Sys2Proof.Machine.execRbLen b s
  | .slSend byte => Sys2Proof.Machine.execSlSend byte s
  | .slTryread => Sys2Proof.Machine.execSlTryread s
  | .slRxie e => Sys2Proof.Machine.execSlRxie e s
  | .linWakeup => Sys2Proof.Machine.execLinWakeup s
  | .linHeader id => Sys2Proof.Machine.execLinHeader id s
  | .linData len p => Sys2Proof.Machine.execLinData len p s
  | .linResp maxLen => Sys2Proof.Machine.execLinResp maxLen s
  | .fxCmd id len => Sys2Proof.Machine.execFxCmd id len s
  | .fxStatus id maxLen => Sys2Proof.Machine.execFxStatus id maxLen s
  | .seqStart => Sys2Proof.Machine.execSeqStart s
  | .seqStop c => Sys2Proof.Machine.execSeqStop c s
  | .seqLoadchk => Sys2Proof.Machine.execSeqLoadchk s
  | .irqRx => Sys2Proof.Machine.execIrqRx s
  | .irqTx => Sys2Proof.Machine.execIrqTx s

end Sys2Proof.Machine
end

