-- ==== Sys2Proof/Machine/Fetch.lean ====
section
/-! DEFINITION. Agent M's turn: its next micro-step while it is busy, the command at the port while it is
idle (10_state.md R42, 30_encoding.md R93, R110), and the codes a caller places for the next step. -/

namespace Sys2Proof.Machine

/-- The command at the port, decoded; none where agent H presents no word (R42). -/
def fetched (s : State) : Option (Except Reject Instr) := s.cmd.map fun w => decode (.command w)

/-- The port after its word is sampled, once, at acceptance (R42, R77). -/
def takeCommand (s : State) : State := s.setCmd none

/-- Agent M's turn. A busy sequencer takes its next micro-step. An idle one accepts the command at the
port and runs it; a reserved word gives no step (R110); with no command the block waits (R280). -/
def mainTurn (s : State) : Host.Outcome State Fault Refusal :=
  if s.isIdle then
    match fetched s with
    | none => .next s
    | some (.ok i) => exec i (takeCommand s)
    | some (.error why) => .refused (.reservedCommand why)
  else .next (mainStep s)

/-- The move when nothing is scheduled: agent M's, or, where M has none (an idle sequencer and no command),
agent U's, which is weakly fair: a character in TXREG does leave (41_seriallink.md R151, log entry 29). -/
def unscheduledTurn (s : State) : Host.Outcome State Fault Refusal :=
  if s.isIdle && s.cmd.isNone then .next (txdone s) else mainTurn s

/-- A cause vector presented to the handler: exactly the services it selects are pending, and enabled
(R95). -/
def placeCause (c : Cause) (s : State) : State :=
  (((s.setTxirq (c.getLsbD 1)).setRxirq (c.getLsbD 0)).setRxie (s.rxie || c.getLsbD 0)).setGie true

/-- A command word presented at the port of an idle sequencer, with agent M's turn next. An interrupt
still pending is served first, as the urgent handler would (R147). -/
def placeCommand (w : CmdWord) (s : State) : State :=
  let t := urgent s
  ((t.setSeq Seq.idle).setCmd (some w)).setSched (.main :: t.sched)

end Sys2Proof.Machine
end

