-- ==== Sys2Proof/Machine/Step.lean ====
section
/-! DEFINITION. One step of the machine: one step of one agent (00_scope.md R6, R14), and where the next
instruction is placed. -/

namespace Sys2Proof.Machine

/-- One step. The handler is urgent (41_seriallink.md R147); otherwise the agent whose turn it is moves,
and with an empty schedule agent M does, or agent U where M waits. Agent M's move on an idle sequencer with a
command at the port is the whole command, run with the turns of the schedule at its interruptible points (log
entry 1). -/
def step (s : State) : Host.Outcome State Fault Refusal :=
  if handlerEnabled s then .next (invokeHandler s)
  else
    match s.sched with
    | [] => unscheduledTurn s
    | .main :: ts => mainTurn (s.setSched ts)
    | t :: ts => .next (applyTurn t (s.setSched ts))

/-- The state with an opcode-table word where the next step takes its instruction from: the pending bits
for a cause vector, the command port for a command word (log entry 13). -/
def State.withFetchWord (s : State) (nbits w : Nat) : State :=
  if nbits ≤ 8 then placeCause (BitVec.ofNat 2 w) s else placeCommand (BitVec.ofNat 16 w) s

end Sys2Proof.Machine
end

