-- ==== Sys2Proof/Safety.lean ====
section
/-! DEFINITION. The terms in which claims about runs are stated: the bytes a ring holds (10_state.md R23),
what is on its way to the line (20_memory.md R63), the invariants the spec names (R22, R23, R35, R153),
the resting state of an idle block, and quiet states, in which only agent M moves. The block has no
fault (60_exceptions.md R258), so a run is safe as long as these invariants hold. -/

namespace Sys2Proof.Machine

/-! ### Rings -/

/-- The bytes held, oldest first: `storage[(tail + k) mod 8]` for k below count (R23). -/
def Ring.contents (r : Ring) : List Byte :=
  (List.range r.count.toNat).map fun k =>
    r.storage[(r.tail.toNat + k) % 8]'(Nat.mod_lt _ (by decide))

/-- `0 ≤ count ≤ 8` (R22) and `head = (tail + count) mod 8` (R23). -/
abbrev Ring.Wf (r : Ring) : Prop :=
  r.count.toNat ≤ 8 ∧ r.head.toNat = (r.tail.toNat + r.count.toNat) % 8

/-! ### The line -/

/-- The character in the transmitter, if there is one (R31). -/
def inFlight (s : State) : List WireItem :=
  if s.txreg.full then [.char s.txreg.byte s.txreg.rate] else []

/-- What has left on the line, then the character being sent, then the bytes queued in RB[TX], each at
the rate now selected, which is the rate latched if it is handed over now (R150). -/
def lineStream (s : State) : List WireItem :=
  s.wire ++ inFlight s ++ s.rbTx.contents.map fun b => .char b s.baud

/-- The level segments of a trace, without the characters (R37). -/
def levelsOf (w : List WireItem) : List WireItem :=
  w.filter fun
    | .level _ _ => true
    | .char _ _ => false

/-- The data bytes of the characters of a trace, without rates and without the level segments (R37). -/
def bytesOf (w : List WireItem) : List Byte :=
  w.filterMap fun
    | .char b _ => some b
    | .level _ _ => none

/-- The characters of a trace, without the level segments (R37). -/
def charsOf (w : List WireItem) : List WireItem :=
  w.filter fun
    | .level _ _ => false
    | .char _ _ => true

/-! ### Invariants -/

/-- The transmitter: R35, R153, and that a transmit-ready event finds TXREG empty and TX_IDLE 0 (R144,
R149). -/
abbrev TxOk (s : State) : Prop :=
  (s.txIdle = true → s.txreg.full = false) ∧
  (s.txIdle = false → s.txreg.full = true ∨ s.txirq = true) ∧
  (s.txirq = true → s.txreg.full = false) ∧
  (s.txirq = true → s.txIdle = false)

/-- The receiver: a receive-ready event is pending exactly while RXREG holds a character (R32, R34). -/
abbrev RxOk (s : State) : Prop := s.rxirq = s.rxreg.full

/-- What the interrupt handler needs and keeps: well-formed rings (R76) and the transmitter and receiver
invariants. -/
abbrev LinkOk (s : State) : Prop := s.rbRx.Wf ∧ s.rbTx.Wf ∧ TxOk s ∧ RxOk s

/-- Locals of the micro-steps that index a store stay within it (20_memory.md R65). -/
def Micro.inBounds : Micro → Bool
  | .dataInit len _ => decide (len ≤ 8)
  | .dataInitHanded len => decide (len ≤ 8)
  | .dataTest i len => decide (i ≤ len ∧ len ≤ 8)
  | .dataByte i len => decide (i < len ∧ len ≤ 8)
  | .dataAdd _ i len => decide (i < len ∧ len ≤ 8)
  | .respInit m => decide (m ≤ 9)
  | .respPoll _ m => decide (m ≤ 9)
  | .respWait _ m => decide (m ≤ 9)
  | .respAgain _ m => decide (m ≤ 9)
  | .respLimit n m => decide (n ≤ m ∧ m ≤ 9)
  | .respLook n m => decide (n < m ∧ m ≤ 9)
  | .respTake n m => decide (n < m ∧ m ≤ 9)
  | .respPause n m => decide (n ≤ m ∧ m ≤ 9)
  | .respDone n => decide (n ≤ 9)
  | _ => true

/-- The invariant of every reachable state, at the points between agents' steps: both rings are well
formed (R22, R23), the transmitter and receiver invariants hold (R35, R153), interrupts are enabled
outside an atomic block (R28), RESP_LEN is 0..9 (R45), SEQ is IDLE exactly when no micro-step is left
(R41), and no micro-step of the list indexes outside a store (R65). -/
abbrev MachineInv (s : State) : Prop :=
  s.rbRx.Wf ∧ s.rbTx.Wf ∧ TxOk s ∧ RxOk s ∧ s.gie = true ∧ s.respLen.toNat ≤ 9 ∧
  (s.seq.todo = [] → s.seq = Seq.idle) ∧ s.seq.todo.all Micro.inBounds = true

/-- The block at rest: SEQ is IDLE (R41), BAUD is back at NORMAL (R173), the pin is back with the UART
(R171) and POWER_CUT is low (R228). -/
abbrev AtRest (s : State) : Prop :=
  s.seq = Seq.idle ∧ s.baud = .normal ∧ s.lineMode = .uart ∧ s.powerCut = false

/-! ### Ownership -/

/-- What only agents M and H write (R20, 60_exceptions.md R256) is as it was: SEQ and every register but
the rings, the UART's and the transmitter mark. -/
abbrev MainOwned (s t : State) : Prop :=
  t.rxie = s.rxie ∧ t.gie = s.gie ∧ t.baud = s.baud ∧ t.lineMode = s.lineMode ∧ t.csum = s.csum ∧
  t.result = s.result ∧ t.resultValid = s.resultValid ∧ t.resp = s.resp ∧ t.respLen = s.respLen ∧
  t.dbuf = s.dbuf ∧ t.seq = s.seq ∧ t.powerCut = s.powerCut ∧ t.pcutTrace = s.pcutTrace ∧ t.cmd = s.cmd ∧
  t.rails = s.rails ∧ t.freeCtr = s.freeCtr ∧ t.params = s.params

/-! ### Frames of the ring storages

RESP and DBUF are registers of the main context; `MainOwned` is their frame. -/

/-- TXBUF is unchanged but for the k slots from head on, where k calls of `enqueue` store (R121). -/
abbrev TxBufFrame (k : Nat) (s t : State) : Prop :=
  ∀ j, k ≤ (j + 8 - s.rbTx.head.toNat) % 8 → memRead .txbuf j t = memRead .txbuf j s

/-- RXBUF is unchanged: only the handler and RB.ENQ store there (R60). -/
abbrev RxBufFrame (s t : State) : Prop := ∀ j, memRead .rxbuf j t = memRead .rxbuf j s

/-! ### Schedules -/

/-- No other agent moves: no turn is scheduled and no interrupt is pending. -/
abbrev Quiet (s : State) : Prop := s.sched = [] ∧ s.txirq = false ∧ s.rxirq = false

/-- A turn other than an arriving character. -/
def Turn.notRx : Turn → Bool
  | .rx _ _ => false
  | .main => true
  | .txdone => true
  | .dbufWrite _ _ => true
  | .issue _ => true

/-- No character is scheduled to arrive and none is pending. -/
abbrev NoArrival (s : State) : Prop := s.sched.all Turn.notRx = true ∧ s.rxirq = false

/-- The byte a turn delivers to the receiver, if it is an arriving character (41_seriallink.md R152). -/
def Turn.arrival : Turn → Option Byte
  | .rx v _ => some v
  | .main => none
  | .txdone => none
  | .dbufWrite _ _ => none
  | .issue _ => none

/-- The byte that waits in RXREG, if there is one (R32, R34). -/
def waiting (s : State) : List Byte := if s.rxirq then [s.rxreg.byte] else []

/-- The bytes that arrive from here on, in order: the one that waits in RXREG, then those scheduled. -/
def arrivals (s : State) : List Byte := waiting s ++ s.sched.filterMap Turn.arrival

/-- What RB[RX] gained between s and t: in order, some of the bytes that arrived in between (R152, R156; a byte
may be lost to a full buffer or in the receiver). -/
abbrev Gained (new : List Byte) (s t : State) : Prop := List.Sublist (new ++ arrivals t) (arrivals s)

/-- The peer is silent: no character arrives and none is held. -/
abbrev SilentPeer (s : State) : Prop := NoArrival s ∧ s.rbRx.count = 0

/-- The transmitter has nothing to send: TX_IDLE is 1 and RB[TX] is empty. -/
abbrev TxDrained (s : State) : Prop := s.txIdle = true ∧ s.rbTx.count = 0

/-! ### Frames on the line, in plain arithmetic -/

/-- Break, sync and protected identifier (30_encoding.md R101 to R103). -/
def headerChars (id : BitVec 6) : List WireItem :=
  [.char 0x00 .brk, .char 0x55 .normal, .char (pid id) .normal]

/-- DBUF[0..len-1] (R46). -/
def payloadOf (len : Nat) (s : State) : List Byte := s.dbuf.toList.take len

/-- `s = (p + d[0] + ... + d[len-1]) mod 65536` (42_linmaster.md R176). -/
def sumOf (p : Byte) (d : List Byte) : Nat := (p.toNat + (d.map BitVec.toNat).sum) % 65536

/-- `(~((s & 0xFF) + (s >> 8))) & 0xFF` (R176): the complement of the low byte of the single fold. -/
def checksumOf (p : Byte) (d : List Byte) : Byte :=
  BitVec.ofNat 8 (255 - (sumOf p d % 256 + sumOf p d / 256) % 256)

/-- The three segments of the wakeup signal (30_encoding.md R109). -/
def wakeupLevels : List WireItem := [.level .high 10, .level .low 1, .level .high 105]

/-- One power-cut pulse: high for 100 ms, then low (44_orchestration.md R228). -/
def cutPulse : List CutItem := [.level true, .wait 100, .level false]

/-- PCUT_TRACE of k pulses, with a wait between two of them if the gap CUT_GAP_MS is not 0 (R38, R228). -/
def cutTrace (gap : Nat) : Nat → List CutItem
  | 0 => []
  | k + 1 => cutTrace gap k ++ (if k = 0 ∨ gap = 0 then [] else [.wait gap]) ++ cutPulse

/-- The start command frame, its break included (30_encoding.md R106, R108; K1 of 95_test_vectors.md). -/
def startFrameBytes : List Byte := [0x00, 0x55, 0xBA, 0x02, 0x00, 0x43]

/-- The stop command frame, its break included (the example of R226). -/
def stopFrameBytes : List Byte := [0x00, 0x55, 0xBA, 0x00, 0x00, 0x45]

/-- The status header, its break included (30_encoding.md R107). -/
def statusHeaderBytes : List Byte := [0x00, 0x55, 0xFB]

/-- The captured response reads ACK = 1 and PG = 1 (44_orchestration.md R221). -/
abbrev RunsWithPower (s : State) : Prop :=
  2 ≤ s.respLen.toNat ∧ s.resp[1].getLsbD 0 = true ∧ s.resp[1].getLsbD 1 = true

/-- The captured response reads ACK = 1 and PG = 0 (R221). -/
abbrev AcksWithoutPower (s : State) : Prop :=
  2 ≤ s.respLen.toNat ∧ s.resp[1].getLsbD 0 = true ∧ s.resp[1].getLsbD 1 = false

/-- The captured response carries the marker and a cleared ACK (R221, R227). -/
abbrev ConfirmsStop (s : State) : Prop :=
  4 ≤ s.respLen.toNat ∧ s.resp[3] = 0xFF ∧ s.resp[1].getLsbD 0 = false

/-- The captured response carries the marker, ACK = 1 and a nonzero power field (R221). -/
abbrev ShowsLoad (s : State) : Prop :=
  4 ≤ s.respLen.toNat ∧ s.resp[3] = 0xFF ∧ s.resp[1].getLsbD 0 = true ∧ s.resp[0] ≠ 0

/-! ### Histories of one ring -/

/-- An operation on a ring: the two commands of the main context and the handler's service of that ring. -/
inductive RingOp where
  | enq (v : Byte)
  | deq
  /-- A service. For RB[RX], of a character v that arrived since the last one (`U.rx`, R152). -/
  | irq (v : Byte)
deriving DecidableEq, Repr

/-- The instruction an operation on RB[b] is. -/
def RingOp.instr (b : Buf) : RingOp → Instr
  | .enq v => .rbEnq b v
  | .deq => .rbDeq b
  | .irq _ =>
    match b with
    | .rx => .irqRx
    | .tx => .irqTx

/-- The state an operation finds: a service of RB[RX] finds its character in RXREG (R148). -/
def RingOp.found (b : Buf) (o : RingOp) (s : State) : State :=
  match o, b with
  | .enq _, _ => s
  | .deq, _ => s
  | .irq v, .rx => s.setRxreg { full := true, byte := v }
  | .irq _, .tx => s

/-- The byte an operation put into RB[b], from the states before and after: RB.ENQ says so in RESULT, and
IRQ.RX enqueues the received byte if there was room (R121, R148). -/
def RingOp.accepted (b : Buf) (o : RingOp) (s t : State) : List Byte :=
  match o, b with
  | .enq v, _ => if t.result = 1 then [v] else []
  | .deq, _ => []
  | .irq v, .rx => if s.rbRx.count.toNat < 8 then [v] else []
  | .irq _, .tx => []

/-- The byte an operation took out of RB[b]: RB.DEQ gives it in RESULT, IRQ.TX hands it to the transmitter
(R122, R149). -/
def RingOp.taken (b : Buf) (o : RingOp) (s t : State) : List Byte :=
  match o, b with
  | .enq _, _ => []
  | .deq, _ => if t.resultValid then [t.result] else []
  | .irq _, .rx => []
  | .irq _, .tx => if s.rbTx.count.toNat = 0 then [] else [t.txreg.byte]

/-- A history of operations on RB[b]: the bytes accepted, the bytes taken and the last state; none if an
operation gave no next state. -/
def ringHistory (b : Buf) : List RingOp → State → Option (List Byte × List Byte × State)
  | [], s => some ([], [], s)
  | o :: os, s =>
    match exec (o.instr b) (o.found b s) with
    | .next t =>
      (ringHistory b os t).map fun r => (o.accepted b s t ++ r.1, o.taken b s t ++ r.2.1, r.2.2)
    | .fault _ => none
    | .refused _ => none

/-! ### Commands -/

/-- The bits of a command word that its instruction depends on: all, but for CMD[7:6] of the commands with
an identifier (30_encoding.md R91). -/
def significantBits : Instr → CmdWord
  | .linHeader _ => 0xFF3F
  | .fxCmd _ _ => 0xFF3F
  | .fxStatus _ _ => 0xFF3F
  | _ => 0xFFFF

/-- The reserved command words (30_encoding.md R110), by the fields of the word as numbers. -/
abbrev reservedWord (w : CmdWord) : Prop :=
  let op := w.toNat / 4096
  let sub := w.toNat / 256 % 16
  let imm := w.toNat % 256
  op = 15 ∨
  (op ∈ [0, 1, 2, 5, 13] ∧ 2 ≤ sub) ∨ (op ∈ [3, 4, 6, 7, 12, 14] ∧ sub ≠ 0) ∨
  (op ∈ [1, 2, 4, 5, 6, 9, 12, 13, 14] ∧ imm ≠ 0) ∨
  (op ∈ [8, 10] ∧ 9 ≤ sub) ∨ (op ∈ [9, 11] ∧ 10 ≤ sub)

/-- Agent M is the next to move: no interrupt is to be served and the schedule has no other agent first. -/
abbrev MainIsNext (s : State) : Prop :=
  handlerEnabled s = false ∧ (s.sched = [] ∨ ∃ ts, s.sched = .main :: ts)

/-- The count FX.STATUS handed over is that of the response in RESP (R210, R221). -/
abbrev HandsRespLen (s : State) : Prop := ∃ n : Byte, s.seq.ret = .value n ∧ n.toNat = s.respLen.toNat

/-- The state after a micro-step of agent M that changes nothing but what is left to run. -/
def movedOn (todo : List Micro) (s : State) : State :=
  { s with sched := s.sched.tail, seq := { s.seq with todo := todo } }

/-- The state after a micro-step of agent M that returns v as the command's result and changes nothing else
(R43). -/
def returned (v : Byte) (s : State) : State :=
  { s with sched := s.sched.tail, seq := Seq.idle, result := v, resultValid := true }

/-- The micro-steps a command starts with, none for the two interrupt services (R92, R95). -/
def programOf : Instr → List Micro
  | .rbEnq b v => [.rbEnq b v]
  | .rbDeq b => [.rbDeq b]
  | .rbLen b => [.rbLen b]
  | .slSend v => sendProg v
  | .slTryread => [.tryTest]
  | .slRxie e => [.setRxie e]
  | .linWakeup => wakeupProg
  | .linHeader id => headerProg id
  | .linData len p => dataProg len.toNat p
  | .linResp m => respProg m.toNat
  | .fxCmd id len => cmdProg id len.toNat
  | .fxStatus id m => statusProg id m.toNat
  | .seqStart => startProg
  | .seqStop c => stopProg c
  | .seqLoadchk => loadProg
  | .irqRx => []
  | .irqTx => []

/-- A command, as against a service of the interrupt handler. -/
def isCommand (i : Instr) : Bool := !(programOf i).isEmpty

end Sys2Proof.Machine
end

