-- ==== Sys2Proof/Certificates/Slice0/Obligations.lean ====
section
/-! DEFINITION. The statements about the model, one `def Obligations.<Name> : Prop` each. A statement for
every state is one for every schedule of the other agents, since the schedule is a field of State (log
entry 2). `MainOwned s' t` with updates of `s` as `s'` is a frame: t differs from s in the updated registers
of agents M and H and in nothing else of theirs. -/

open Sys2Proof Sys2Proof.Machine

/-! ### Encoding -/

/-- Decode and encode agree on every well-formed instruction, with every operand at every value. The
encoding is the spec's own (30_encoding.md R90 to R95, 92_eei_decisions.md D1, D2). -/
def Obligations.DecodeEncodeAgree : Prop :=
  ∀ i : Instr, i.wellFormed = true → decode (encode i) = .ok i

/-- A word that decodes is read in full: its instruction is well formed, and encodes to the same word but
for the ignored bits CMD[7:6] of the commands with an identifier (R91). -/
def Obligations.DecodedWordIsReadInFull : Prop :=
  ∀ (w : CmdWord) (i : Instr), decode (.command w) = .ok i →
    i.wellFormed = true ∧ encode i = .command (w &&& significantBits i)

/-- The decoder rejects exactly the words R110 lists, and a reserved word at the port of an idle block gives
no step. The refusal is the spec's own choice (R110, 92_eei_decisions.md D27; log entry 10). -/
def Obligations.ReservedWordsAreRefused : Prop :=
  (∀ w : CmdWord, (∃ why, decode (.command w) = .error why) ↔ reservedWord w) ∧
  (∀ (s : State) (w : CmdWord), MainIsNext s → s.isIdle = true → s.cmd = some w → reservedWord w →
    ∃ why, step s = .refused (.reservedCommand why))

/-- Words written out from the patterns of R92 and R95 decode to the instructions they stand for. -/
def Obligations.WordsFromThePatternsDecode : Prop :=
  decode (.command 0b0000000110101011) = .ok (.rbEnq .tx 0xAB) ∧
  decode (.command 0b0011000001010101) = .ok (.slSend 0x55) ∧
  decode (.command 0b0111000011111010) = .ok (.linHeader 0x3A) ∧
  decode (.command 0b1000001010111010) = .ok (.linData 2 0xBA) ∧
  decode (.command 0b1011100100111011) = .ok (.fxStatus 0x3B 9) ∧
  decode (.command 0b1101000100000000) = .ok (.seqStop true) ∧
  decode (.cause 0b01) = .ok .irqRx ∧
  decode (.cause 0b10) = .ok .irqTx

/-- A term no command word encodes has no meaning (R91, R110; log entry 11). -/
def Obligations.ReservedOperandsAreRefused : Prop :=
  ∀ (id : BitVec 6) (n : BitVec 4) (p : Byte) (s : State),
    (8 < n.toNat → exec (.linData n p) s = .refused .reservedOperand ∧
      exec (.fxCmd id n) s = .refused .reservedOperand) ∧
    (9 < n.toNat → exec (.linResp n) s = .refused .reservedOperand ∧
      exec (.fxStatus id n) s = .refused .reservedOperand)

/-! ### The step -/

/-- A step runs the decoded command: with M's turn next, SEQ = IDLE and a word at the port, the step is exec
of its instruction, the word sampled once and the turn taken off the schedule (R42, R77; log entry 1). -/
def Obligations.StepRunsTheDecodedCommand : Prop :=
  ∀ (s : State) (w : CmdWord) (i : Instr), MainIsNext s → s.isIdle = true → s.cmd = some w →
    decode (.command w) = .ok i → step s = exec i ((s.setCmd none).setSched s.sched.tail)

/-- A step serves a pending interrupt before anything else: IRQ.RX, IRQ.TX, or both in this order in one step
(R95, R147; order and urgency are the spec's choice, 92_eei_decisions.md D10; log entry 3). -/
def Obligations.StepServesThePendingCauses : Prop :=
  ∀ s : State, s.gie = true →
    (s.txirq = false → s.rxirq = true → s.rxie = true → step s = exec .irqRx s) ∧
    (s.txirq = true → (s.rxirq && s.rxie) = false → step s = exec .irqTx s) ∧
    (s.txirq = true → s.rxirq = true → s.rxie = true →
      ∃ t, exec .irqRx s = .next t ∧ step s = exec .irqTx t)

/-- A busy block takes one micro-step on M's turn; an idle one without a command waits (R14, R280). With nothing
scheduled agent U moves where M waits: a character in TXREG leaves (R151, weak fairness; log entry 29). -/
def Obligations.StepOfTheMainContext : Prop :=
  ∀ s : State, MainIsNext s →
    (s.isIdle = false → step s = .next (mainStep (s.setSched s.sched.tail))) ∧
    (s.isIdle = true → s.cmd = none → s.sched ≠ [] ∨ s.txreg.full = false →
      step s = .next (s.setSched s.sched.tail)) ∧
    (s.isIdle = true → s.cmd = none → s.sched = [] → s.txreg.full = true →
      step s = .next
        { s with
          wire := s.wire ++ [.char s.txreg.byte s.txreg.rate]
          txreg := { s.txreg with full := false }
          txirq := true })

/-- `U.txdone`: the character in TXREG is on WIRE with the rate latched at hand-over, TXREG is empty and a
transmit-ready event is pending (R151, a decision of the spec, D7). -/
def Obligations.TransmitterFinishesACharacter : Prop :=
  ∀ (s : State) (ts : List Turn), handlerEnabled s = false → s.sched = .txdone :: ts → s.txreg.full = true →
    step s = .next
      { s with
        sched := ts
        wire := s.wire ++ [.char s.txreg.byte s.txreg.rate]
        txreg := { s.txreg with full := false }
        txirq := true }

/-- `U.rx(v)`: with RXIE = 1 and RXREG empty the character is latched and pending (R152); with RXIE = 0 it is
latched, replacing an earlier one, or dropped, as the turn says (R156; D7, D12; log entry 5). -/
def Obligations.CharacterArrives : Prop :=
  ∀ (s : State) (ts : List Turn) (v : Byte) (kept : Bool), handlerEnabled s = false → s.sched = .rx v kept :: ts →
    ((s.rxie = true ∧ s.rxreg.full = false) ∨ (s.rxie = false ∧ kept = true) →
      step s = .next { s with sched := ts, rxreg := { full := true, byte := v }, rxirq := true }) ∧
    (s.rxie = false → kept = false → step s = .next { s with sched := ts })

/-- The host's port write of DBUF lands while SEQ = IDLE, in the byte addressed and in no other (R46, D4). -/
def Obligations.HostWritesDbufWhileIdle : Prop :=
  ∀ (s : State) (ts : List Turn) (i : BitVec 3) (v : Byte), handlerEnabled s = false →
    s.sched = .dbufWrite i v :: ts →
    ∃ t, step s = .next t ∧
      (s.isIdle = true → memRead .dbuf i.toNat t = some v) ∧
      (s.isIdle = false → memRead .dbuf i.toNat t = memRead .dbuf i.toNat s) ∧
      (∀ sp j, sp ≠ .dbuf ∨ j ≠ i.toNat → memRead sp j t = memRead sp j s) ∧
      MainOwned (s.setDbuf t.dbuf) t

/-- The host presents a command word while SEQ = IDLE, and cannot while it is busy (R17, R42, D3; log entry
12). -/
def Obligations.HostPresentsACommand : Prop :=
  ∀ (s : State) (ts : List Turn) (w : CmdWord), handlerEnabled s = false → s.sched = .issue w :: ts →
    (s.isIdle = true → step s = .next { s with sched := ts, cmd := some w }) ∧
    (s.isIdle = false → step s = .next { s with sched := ts })

/-! ### Reset -/

/-- The values R47 gives for reset (R280, R281; the spec's choice, D26). RESULT_VALID = 0 is log entry 8. The open
parameters have the values the spec uses (92_eei_decisions.md section 2, the code order of R259): log entry 15. -/
def Obligations.ResetValues : Prop :=
  let s := State.reset
  (s.rbRx.head = 0 ∧ s.rbRx.tail = 0 ∧ s.rbRx.count = 0) ∧
  (s.rbTx.head = 0 ∧ s.rbTx.tail = 0 ∧ s.rbTx.count = 0) ∧
  s.txIdle = true ∧ s.rxie = true ∧ s.gie = true ∧ s.baud = .normal ∧ s.lineMode = .uart ∧
  s.txreg.full = false ∧ s.rxreg.full = false ∧ s.txirq = false ∧ s.rxirq = false ∧
  s.resultValid = false ∧ s.respLen = 0 ∧ s.seq = Seq.idle ∧ s.powerCut = false ∧ s.wire = [] ∧ s.pcutTrace = [] ∧
  s.params =
    { drainPollMs := 1, cutGapMs := 0, baudNormal := 19200
      startRounds := 3, startPolls := 10, stopTries := 3, stopPolls := 10
      wakeupError := ⟨1, by decide⟩, responseError := ⟨2, by decide⟩, powerGoodError := ⟨3, by decide⟩
      startupError := ⟨4, by decide⟩, lowBattErr := ⟨5, by decide⟩ }

/-- Both invariants hold right after reset. -/
def Obligations.ResetMeetsTheInvariants : Prop := MachineInv State.reset ∧ AtRest State.reset

/-! ### Ring buffers -/

/-- RB.ENQ b, byte (R121): on a full buffer nothing but the result 0; otherwise the byte is stored at head,
head advances modulo 8, count goes up and the result is 1. Nothing else changes. -/
def Obligations.EnqueueStoresAtHead : Prop :=
  ∀ (b : Buf) (v : Byte) (s : State),
    let r := s.ring b
    (r.count = 8 → exec (.rbEnq b v) s =
      .next { s with result := 0, resultValid := true, seq := Seq.idle }) ∧
    (r.count ≠ 8 → exec (.rbEnq b v) s = .next
      { s.setRing b
          { storage := r.storage.set r.head.toNat v r.head.isLt, head := r.head + 1, tail := r.tail,
            count := r.count + 1 } with
        result := 1, resultValid := true, seq := Seq.idle })

/-- RB.DEQ b (R122): on an empty buffer None, with RESULT 0x00 and no other change (D6); otherwise the byte at
tail, tail advancing modulo 8 and count going down, the slot keeping its byte. -/
def Obligations.DequeueTakesAtTail : Prop :=
  ∀ (b : Buf) (s : State),
    let r := s.ring b
    (r.count = 0 → exec (.rbDeq b) s =
      .next { s with result := 0, resultValid := false, seq := Seq.idle }) ∧
    (r.count ≠ 0 → exec (.rbDeq b) s = .next
      { s.setRing b { storage := r.storage, head := r.head, tail := r.tail + 1, count := r.count - 1 } with
        result := r.storage[r.tail.toNat]'r.tail.isLt, resultValid := true, seq := Seq.idle })

/-- RB.LEN b (R123): RESULT is the count, and nothing else changes. -/
def Obligations.LenReadsTheCount : Prop :=
  ∀ (b : Buf) (s : State), ∃ n : Byte, n.toNat = (s.ring b).count.toNat ∧
    exec (.rbLen b) s = .next { s with result := n, resultValid := true, seq := Seq.idle }

/-- The FIFO law (R71, R124) over any history of RB.ENQ, RB.DEQ and the handler's services, each of RB[RX] with
the byte then received, of a well-formed ring (the other commands that enqueue or dequeue have statements of their
own): the bytes held and then accepted are the bytes taken and then held, in this order; from an empty ring
the bytes taken are a prefix of those accepted; and count stays at most 8. -/
def Obligations.RingIsFirstInFirstOut : Prop :=
  ∀ (b : Buf) (os : List RingOp) (s : State), (s.ring b).Wf →
    ∃ acc out t, ringHistory b os s = some (acc, out, t) ∧
      (s.ring b).contents ++ acc = out ++ (t.ring b).contents ∧
      ((s.ring b).count = 0 → out <+: acc) ∧
      (t.ring b).count.toNat ≤ 8

/-! ### Serial link -/

/-- SL.SEND byte (R141, R142), whatever the other agents do meanwhile: the byte is behind all that was on its
way to the line, or, if RB[TX] was full, dropped, with what was queued keeping its order; no register of the
main context changes, of TXBUF only the slot at head, and RB[RX] only gains bytes that arrive, in their order. -/
def Obligations.SendQueuesOrDropsTheByte : Prop :=
  ∀ (v : Byte) (s : State), LinkOk s →
    ∃ t, exec (.slSend v) s = .next t ∧
      (s.rbTx.count ≠ 8 → lineStream t = lineStream s ++ [.char v s.baud]) ∧
      (s.rbTx.count = 8 → lineStream t = lineStream s) ∧
      MainOwned (s.setSeq Seq.idle) t ∧
      TxBufFrame 1 s t ∧ (s.rbTx.count = 8 → TxBufFrame 0 s t) ∧
      (NoArrival s → t.rbRx = s.rbRx) ∧
      ∃ new, t.rbRx.contents = s.rbRx.contents ++ new ∧ Gained new s t

/-- No lost kick (R80): after SL.SEND no byte waits in RB[TX] behind a transmitter marked idle. -/
def Obligations.SendLeavesNoByteUnkicked : Prop :=
  ∀ (v : Byte) (s : State), LinkOk s →
    ∃ t, exec (.slSend v) s = .next t ∧ LinkOk t ∧ (t.txIdle = true → t.rbTx.count = 0)

/-- SL.SEND on a drained transmitter with no other agent moving (R143, R144, R149): the urgent handler (log
entry 3) hands the byte to the transmitter at the rate in force. Nothing else changes but the ring's indices
and the slot the byte passed through. -/
def Obligations.SendStartsAnIdleTransmitter : Prop :=
  ∀ (v : Byte) (s : State), Quiet s → s.gie = true → TxDrained s → s.rbTx.Wf →
    exec (.slSend v) s = .next
      { s with
        rbTx :=
          { storage := s.rbTx.storage.set s.rbTx.head.toNat v s.rbTx.head.isLt, head := s.rbTx.head + 1,
            tail := s.rbTx.tail + 1, count := 0 }
        txreg := { full := true, byte := v, rate := s.baud }
        txIdle := false
        seq := Seq.idle }

/-- SL.TRYREAD (R140), whatever the other agents do meanwhile: on an empty RB[RX] it returns None and changes
nothing else; otherwise it returns the oldest byte, and what is left is the rest and what arrives, in order. -/
def Obligations.TryReadTakesTheOldestByte : Prop :=
  ∀ s : State,
    (s.rbRx.count = 0 → exec .slTryread s =
      .next { s with result := 0, resultValid := false, seq := Seq.idle }) ∧
    (LinkOk s → s.rbRx.count ≠ 0 →
      ∃ t v new, exec .slTryread s = .next t ∧
        s.rbRx.contents ++ new = v :: t.rbRx.contents ∧ Gained new s t ∧ t.result = v ∧ t.resultValid = true ∧
        lineStream t = lineStream s ∧ TxBufFrame 0 s t ∧ (NoArrival s → RxBufFrame s t) ∧
        MainOwned (((s.setResult v).setResultValid true).setSeq Seq.idle) t)

/-- SL.RXIE e (R146): RXIE is e and nothing else changes, RB[RX] included. A character latched meanwhile is
then served with e = 1 and waits with e = 0; a transmit-ready event is served either way. -/
def Obligations.RxieIsWritten : Prop :=
  ∀ (e : Bool) (s : State),
    exec (.slRxie e) s = .next { s with rxie := e, seq := Seq.idle } ∧
    handlerEnabled { s with rxie := e, seq := Seq.idle } = (s.gie && (s.txirq || (s.rxirq && e)))

/-! ### The interrupt handler -/

/-- IRQ.RX (R148): RXREG is emptied and the event cleared; the byte is enqueued if there is room and lost
otherwise (the emptying in that case is the spec's choice, D11). Nothing else changes. -/
def Obligations.IrqRxEnqueuesOrDiscards : Prop :=
  ∀ s : State,
    let r := s.rbRx
    (r.count.toNat < 8 → exec .irqRx s = .next
      { s with
        rxreg := { s.rxreg with full := false }
        rxirq := false
        rbRx :=
          { storage := r.storage.set r.head.toNat s.rxreg.byte r.head.isLt, head := r.head + 1, tail := r.tail,
            count := r.count + 1 } }) ∧
    (8 ≤ r.count.toNat → exec .irqRx s = .next { s with rxreg := { s.rxreg with full := false }, rxirq := false })

/-- IRQ.TX (R149): the event is cleared; the next byte goes to the transmitter at the rate in force, or, with
nothing queued, the transmitter is marked idle (TX_IDLE <- 0 in the first case is the spec's choice, D8). -/
def Obligations.IrqTxTransmitsOrMarksIdle : Prop :=
  ∀ s : State,
    let r := s.rbTx
    (r.count ≠ 0 → exec .irqTx s = .next
      { s with
        txirq := false
        rbTx := { storage := r.storage, head := r.head, tail := r.tail + 1, count := r.count - 1 }
        txreg := { full := true, byte := r.storage[r.tail.toNat]'r.tail.isLt, rate := s.baud }
        txIdle := false }) ∧
    (r.count = 0 → exec .irqTx s = .next { s with txirq := false, txIdle := true })

/-- The order of the two services cannot be observed: they touch disjoint state (R147). -/
def Obligations.ServicesCommute : Prop :=
  ∀ s : State, ∃ t u v, exec .irqRx s = .next t ∧ exec .irqTx t = .next v ∧
    exec .irqTx s = .next u ∧ exec .irqRx u = .next v

/-- What the handler may not write (R256): a step that serves an interrupt leaves SEQ and its locals, RESP,
RESULT, DBUF, BAUD, LINE_MODE, POWER_CUT and every other register of the main context as they were, and puts
nothing on the line. -/
def Obligations.HandlerLeavesTheMainContext : Prop :=
  ∀ s : State, handlerEnabled s = true →
    ∃ t, step s = .next t ∧ MainOwned s t ∧ t.wire = s.wire ∧ t.rxreg.byte = s.rxreg.byte ∧ t.sched = s.sched ∧
      (s.txirq = false → t.rbTx = s.rbTx ∧ t.txreg = s.txreg ∧ t.txIdle = s.txIdle ∧ t.txirq = s.txirq) ∧
      ((s.rxirq && s.rxie) = false → t.rbRx = s.rbRx ∧ t.rxreg = s.rxreg ∧ t.rxirq = s.rxirq)

/-- Drain (R154, R296): if TX_IDLE is 0 or nothing is queued, and M does not move, then after one more
`U.txdone` than bytes queued all of it is on the line and the transmitter is marked idle. That one turn a byte
is enough rests on the urgent handler (R147, D10; log entry 3), which hands over the next byte before each turn. -/
def Obligations.TransmitterDrains : Prop :=
  ∀ (s : State) (ts : List Turn), LinkOk s → s.gie = true → (s.txIdle = false ∨ s.rbTx.count = 0) →
    s.sched = List.replicate (s.rbTx.count.toNat + 1) .txdone ++ .main :: ts →
    (point s).rbTx.count = 0 ∧ (point s).txreg.full = false ∧ (point s).txIdle = true ∧
      (point s).sched = ts ∧ (point s).wire = lineStream s

/-- A character in TXREG does leave eventually (R151, weak fairness of `U.txdone`; log entry 29), whatever is
scheduled and whatever command is in progress or at the port: after some number of steps it is on WIRE, at the
rate latched with it. A reserved word at the port gives no step (R110), and the run stops there. -/
def Obligations.CharacterLeavesEventually : Prop :=
  ∀ s : State, LinkOk s → s.txreg.full = true →
    ∃ k, (∃ t w, Host.Core.run Sys2Proof.core k s = .next t ∧ t.wire = s.wire ++ w ∧
        .char s.txreg.byte s.txreg.rate ∈ w) ∨
      ∃ why, Host.Core.run Sys2Proof.core k s = .refused (.reservedCommand why)

/-! ### LIN master -/

/-- LIN.WAKEUP (R109, R171), whatever the other agents do meanwhile: the three level segments and no other,
and the pin is back with the UART at the end (the spec's choice, D13); with the transmitter idle nothing else
gets on the line. With TX_IDLE = 0 the spec leaves the line open (R171, U3), and the level segments on WIRE are
the model's choice of U3's total variant (log entry 9). Its micro-steps take the pin from the UART for the levels,
LINE_MODE being FORCE_HIGH, FORCE_LOW and FORCE_HIGH again (R30), and give it back at the end. -/
def Obligations.WakeupDrivesThreeLevels : Prop :=
  (∀ s : State, ∃ t, exec .linWakeup s = .next t ∧
    levelsOf t.wire = levelsOf s.wire ++ wakeupLevels ∧
    MainOwned ((s.setLineMode .uart).setSeq Seq.idle) t ∧
    TxBufFrame 0 s t ∧ (NoArrival s → t.rbRx = s.rbRx) ∧
    (LinkOk s → s.txIdle = true → t.wire = s.wire ++ wakeupLevels)) ∧
  programOf .linWakeup =
    [.setLine .high, .holdLine .high 10, .setLine .low, .holdLine .low 1, .setLine .high, .holdLine .high 105,
      .lineToUart] ∧
  (∀ (s : State) (l : Level) (ms : Nat) (rest : List Micro), MainIsNext s → rest ≠ [] →
    (s.seq.todo = .setLine .high :: rest → step s = .next ((movedOn rest s).setLineMode .forceHigh)) ∧
    (s.seq.todo = .setLine .low :: rest → step s = .next ((movedOn rest s).setLineMode .forceLow)) ∧
    (s.seq.todo = .holdLine l ms :: rest → step s = .next ((movedOn rest s).setWire (s.wire ++ [.level l ms]))) ∧
    (s.seq.todo = .lineToUart :: rest → step s = .next
      { s with sched := s.sched.tail, lineMode := .uart, seq := { s.seq with todo := rest, ret := .nothing } })) ∧
  (∀ s : State, MainIsNext s → s.seq.todo = [.lineToUart] →
    step s = .next { s with sched := s.sched.tail, lineMode := .uart, seq := Seq.idle })

/-- LIN.HEADER id returns the protected identifier (R172): the identifier in bits 5..0, p0 in bit 6, p1 in
bit 7, whatever the other agents do meanwhile; CMD[7:6] do not enter it. BAUD is back at NORMAL, no other register
of the main context changes, and the three bytes sent are the only stores. -/
def Obligations.HeaderReturnsTheProtectedId : Prop :=
  (∀ (id : BitVec 6) (s : State), ∃ t, exec (.linHeader id) s = .next t ∧
    (∀ k, k < 6 → t.result.getLsbD k = id.getLsbD k) ∧
    t.result.getLsbD 6 = (id.getLsbD 0 ^^ id.getLsbD 1 ^^ id.getLsbD 2 ^^ id.getLsbD 4) ∧
    t.result.getLsbD 7 = !(id.getLsbD 1 ^^ id.getLsbD 3 ^^ id.getLsbD 4 ^^ id.getLsbD 5) ∧
    TxBufFrame 3 s t ∧ (NoArrival s → t.rbRx = s.rbRx) ∧
    MainOwned ((((s.setResult t.result).setResultValid true).setBaud .normal).setSeq Seq.idle) t) ∧
  (∀ imm : Byte, decode (.command (commandWord 0x7 0 imm)) = .ok (.linHeader (imm.setWidth 6)))

/-- LIN.HEADER (R173, with the second drain wait of D15), whatever the other agents do meanwhile: what is queued
behind all that was on its way to the line is, in order, a part of break, sync byte and protected identifier.
From a drained transmitter it is all three, the break at the BREAK rate and the others at the NORMAL rate; for
every schedule this rests on D15 and on the urgent handler (D10, log entry 3). LIN.HEADER waits for the
transmitter to drain before each change of the rate, and each wait ends when TX_IDLE is 1 or after
DRAIN_WAIT_MAX_MS / DRAIN_POLL_MS waits (R175; D14, log entry 15), and not before. -/
def Obligations.HeaderGoesOutInOrder : Prop :=
  (∀ (id : BitVec 6) (s : State), LinkOk s →
    ∃ t sent, exec (.linHeader id) s = .next t ∧ LinkOk t ∧
      List.Sublist sent [0x00, 0x55, pid id] ∧ bytesOf (lineStream t) = bytesOf (lineStream s) ++ sent ∧
      (s.gie = true → TxDrained s → lineStream t = lineStream s ++ headerChars id)) ∧
  (∀ id : BitVec 6, programOf (.linHeader id) =
    [.drainTest 0, .setBaud .brk, .sendEnq 0x00, .sendKick, .sendTest, .drainTest 0, .setBaud .normal, .headerPid id]) ∧
  (∀ (s : State) (k : Nat) (rest : List Micro), MainIsNext s → rest ≠ [] →
    (s.seq.todo = .drainTest k :: rest →
      (s.txIdle = true ∨ 100 / s.params.drainPollMs ≤ k → step s = .next (movedOn rest s)) ∧
      (s.txIdle = false → k < 100 / s.params.drainPollMs → step s = .next (movedOn (.drainWait k :: rest) s))) ∧
    (s.seq.todo = .drainWait k :: rest → step s = .next (movedOn (.drainTest (k + 1) :: rest) s)))

/-- LIN.DATA len, pid (R176, R177, R180), whatever the other agents do meanwhile: CSUM is the 16-bit sum of pid
and the data, a dropped byte included; what is queued is, in order, a part of the data bytes and the checksum,
and all of them if they fit. No other register of the main context changes. -/
def Obligations.DataEndsWithTheChecksum : Prop :=
  ∀ (len : BitVec 4) (p : Byte) (s : State), len.toNat ≤ 8 → LinkOk s →
    ∃ t sent, exec (.linData len p) s = .next t ∧
      t.csum.toNat = sumOf p (payloadOf len.toNat s) ∧
      List.Sublist sent (payloadOf len.toNat s ++ [checksumOf p (payloadOf len.toNat s)]) ∧
      (s.rbTx.count.toNat + len.toNat + 1 ≤ 8 →
        sent = payloadOf len.toNat s ++ [checksumOf p (payloadOf len.toNat s)]) ∧
      lineStream t = lineStream s ++ sent.map (fun b => .char b s.baud) ∧
      TxBufFrame (len.toNat + 1) s t ∧ (NoArrival s → t.rbRx = s.rbRx) ∧
      MainOwned ((s.setCsum t.csum).setSeq Seq.idle) t

/-- LIN.RESP maxLen with a silent peer (R181, R182): the timeout. The count is 0, RESP is unchanged, and with no
other agent moving nothing else changes. Its wait for the first byte is five polls (R182, D17), each unsuccessful
one followed by a wait and each a look at the count as it then is: a poll that finds a byte, the first or a later
one, goes on to the capture, and only the fifth unsuccessful one is the timeout. -/
def Obligations.ResponseTimesOut : Prop :=
  (∀ (m : BitVec 4) (s : State), m.toNat ≤ 9 → SilentPeer s →
    ∃ t, exec (.linResp m) s = .next t ∧ t.rbRx = s.rbRx ∧ TxBufFrame 0 s t ∧
      MainOwned ((((s.setResult 0).setResultValid true).setRespLen 0).setSeq Seq.idle) t ∧
      (Quiet s → t = { s with result := 0, resultValid := true, respLen := 0, seq := Seq.idle })) ∧
  (∀ m : BitVec 4, programOf (.linResp m) = [.respInit m.toNat]) ∧
  (∀ (s : State) (k m : Nat) (rest : List Micro), MainIsNext s →
    (s.seq.todo = .respInit m :: rest → step s = .next (movedOn (.respPoll 0 m :: rest) s)) ∧
    (s.seq.todo = .respPoll k m :: rest →
      (s.rbRx.count ≠ 0 → step s = .next (movedOn (.respLimit 0 m :: rest) s)) ∧
      (s.rbRx.count = 0 → step s = .next (movedOn (.respWait k m :: rest) s))) ∧
    (s.seq.todo = .respWait k m :: rest → step s = .next (movedOn (.respAgain (k + 1) m :: rest) s)) ∧
    (s.seq.todo = .respAgain k m :: rest →
      (k < 5 → step s = .next (movedOn (.respPoll k m :: rest) s)) ∧
      (5 ≤ k → rest = [] → step s = .next ((returned 0 s).setRespLen 0)) ∧
      (5 ≤ k → rest ≠ [] → step s = .next
        { s with sched := s.sched.tail, respLen := 0, seq := { s.seq with todo := rest, ret := .value 0 } })))

/-- LIN.RESP maxLen, whatever the other agents do meanwhile (R64, R181, R183): the count is at most maxLen, in
RESULT and RESP_LEN; the bytes captured and then those still in RB[RX] are the bytes it held and then, in the
order of arrival, bytes that arrived meanwhile; nothing on its way to the line changes (R170). RESP at and beyond
the count is a free value (log entry 6), of which this says nothing. -/
def Obligations.ResponseIsCapturedInOrder : Prop :=
  ∀ (m : BitVec 4) (s : State), m.toNat ≤ 9 → LinkOk s →
    ∃ t n new, exec (.linResp m) s = .next t ∧ n ≤ m.toNat ∧ t.result.toNat = n ∧ t.respLen.toNat = n ∧
      s.rbRx.contents ++ new = t.resp.toList.take n ++ t.rbRx.contents ∧ Gained new s t ∧
      lineStream t = lineStream s ∧ TxBufFrame 0 s t ∧ (NoArrival s → RxBufFrame s t) ∧
      MainOwned ((((((s.setResult t.result).setResultValid true).setResp t.resp).setRespLen t.respLen).setFreeCtr
        t.freeCtr).setSeq Seq.idle) t

/-- LIN.RESP maxLen with no other agent moving (R181, R183): it captures all that RB[RX] holds, up to maxLen, and
leaves the rest. Whatever moves meanwhile, the drain ends only at maxLen or at a look that finds RB[RX] empty. -/
def Obligations.ResponseTakesAllThatIsBuffered : Prop :=
  (∀ (m : BitVec 4) (s : State), m.toNat ≤ 9 → Quiet s → s.rbRx.Wf →
    ∃ t, exec (.linResp m) s = .next t ∧
      t.result.toNat = min m.toNat s.rbRx.count.toNat ∧ t.resultValid = true ∧
      t.respLen.toNat = min m.toNat s.rbRx.count.toNat ∧
      t.resp.toList.take (min m.toNat s.rbRx.count.toNat) = s.rbRx.contents.take m.toNat ∧
      t.rbRx.contents = s.rbRx.contents.drop m.toNat ∧
      t.rbTx = s.rbTx ∧ RxBufFrame s t) ∧
  (∀ (s : State) (n m : Nat) (rest : List Micro), MainIsNext s →
    (s.seq.todo = .respLimit n m :: rest →
      (m ≤ n → step s = .next (movedOn (.respDone n :: rest) s)) ∧
      (n < m → step s = .next (movedOn (.respLook n m :: rest) s))) ∧
    (s.seq.todo = .respLook n m :: rest →
      (s.rbRx.count = 0 → step s = .next (movedOn (.respDone n :: rest) s)) ∧
      (s.rbRx.count ≠ 0 → step s = .next (movedOn (.respTake n m :: rest) s))) ∧
    (s.seq.todo = .respPause n m :: rest → step s = .next (movedOn (.respLimit n m :: rest) s)))

/-! ### Frame exchange -/

/-- The master frame (R106, R211), whatever the other agents do meanwhile: CSUM is the sum over the protected
identifier and the data, and what FX.CMD queues behind all that was on its way to the line is, in order, a part
of the header, the data bytes and the checksum (R292). RESULT is not written (R210). From a drained transmitter
the break is at the BREAK rate and the rest at the NORMAL rate, and up to 5 data bytes none of it can be
dropped; for every schedule this rests on D15 and on the urgent handler (D10, log entry 3). -/
def Obligations.MasterFrameGoesOutInOrder : Prop :=
  ∀ (id : BitVec 6) (len : BitVec 4) (s : State), len.toNat ≤ 8 → LinkOk s →
    let frame := headerChars id ++
      (payloadOf len.toNat s ++ [checksumOf (pid id) (payloadOf len.toNat s)]).map (fun b => .char b .normal)
    ∃ t sent, exec (.fxCmd id len) s = .next t ∧
      t.csum.toNat = sumOf (pid id) (payloadOf len.toNat s) ∧
      List.Sublist sent (bytesOf frame) ∧ bytesOf (lineStream t) = bytesOf (lineStream s) ++ sent ∧
      TxBufFrame (len.toNat + 4) s t ∧ (NoArrival s → t.rbRx = s.rbRx) ∧
      MainOwned (((s.setCsum t.csum).setBaud .normal).setSeq Seq.idle) t ∧
      (s.gie = true → TxDrained s → ∃ w, List.Sublist w frame ∧ (len.toNat ≤ 5 → w = frame) ∧
        lineStream t = lineStream s ++ w)

/-- The status request (R107, R212), whatever the other agents do meanwhile: FX.STATUS queues, in order, a part of
the header, and captures a response of at most maxLen bytes in the order of arrival, behind what RB[RX] held
before the header (R291) the bytes that arrive; if no character arrives, all that RB[RX] held, up to maxLen. From
a drained transmitter the header is whole, the break at the BREAK rate; for every schedule this rests on D15 and
on the urgent handler (D10, log entry 3). -/
def Obligations.StatusRequestSendsAndCaptures : Prop :=
  ∀ (id : BitVec 6) (m : BitVec 4) (s : State), m.toNat ≤ 9 → LinkOk s →
    ∃ t n new sent, exec (.fxStatus id m) s = .next t ∧ n ≤ m.toNat ∧ t.result.toNat = n ∧ t.respLen.toNat = n ∧
      s.rbRx.contents ++ new = t.resp.toList.take n ++ t.rbRx.contents ∧ Gained new s t ∧
      (NoArrival s → n = min m.toNat s.rbRx.count.toNat) ∧
      List.Sublist sent [0x00, 0x55, pid id] ∧ bytesOf (lineStream t) = bytesOf (lineStream s) ++ sent ∧
      TxBufFrame 3 s t ∧ (NoArrival s → RxBufFrame s t) ∧
      MainOwned (((((((s.setResult t.result).setResultValid true).setResp t.resp).setRespLen t.respLen).setFreeCtr
        t.freeCtr).setBaud .normal).setSeq Seq.idle) t ∧
      (s.gie = true → TxDrained s → lineStream t = lineStream s ++ headerChars id)

/-! ### Orchestration -/

/-- SEQ.START, whatever the other agents do meanwhile: it ends with 0, and then the last response carried both
flags (R221, with the length guard that is the spec's decision D20, log entry 18), or with the code of one of the
four error kinds (R222, R224), 1 to 5 (R259); with the values the spec uses, 1 to 4 (D25, log entry 15). It writes
RESULT, RESP, RESP_LEN, DBUF[0..1] (R299), CSUM, BAUD and LINE_MODE, and no other register of the main context. -/
def Obligations.StartEndsWithACode : Prop :=
  ∀ s : State, ∃ t, exec .seqStart s = .next t ∧ t.resultValid = true ∧
    ((t.result = 0 ∧ RunsWithPower t) ∨
      t.result ∈ [ErrKind.wakeupError, .responseError, .powerGoodError, .startupError].map fun k => (s.params.errCode k).val) ∧
    t.result.toNat ≤ 5 ∧ (t.result = 0 → RunsWithPower t) ∧ (s.params = Params.specValues → t.result.toNat ≤ 4) ∧
    (t.baud = s.baud ∨ t.baud = .normal) ∧ (t.lineMode = s.lineMode ∨ t.lineMode = .uart) ∧
    (∀ j, 2 ≤ j → memRead .dbuf j t = memRead .dbuf j s) ∧ (NoArrival s → RxBufFrame s t) ∧
    MainOwned
      { s with
        result := t.result, resultValid := true, resp := t.resp, respLen := t.respLen, dbuf := t.dbuf
        csum := t.csum, baud := t.baud, lineMode := t.lineMode, rails := t.rails, freeCtr := t.freeCtr
        seq := Seq.idle } t

/-- SEQ.START with the rail absent at four reads (R223, D21), whatever the other agents do meanwhile: three
wakeups, then the code of WakeupError, with no character sent, DBUF and RESP untouched; with the transmitter
idle nothing but the levels gets on the line. With TX_IDLE = 0 the level segments on WIRE are the model's choice
(U3, log entry 9). -/
def Obligations.StartGivesUpWithoutTheRail : Prop :=
  ∀ (s : State) (rest : List Bool), s.rails = false :: false :: false :: false :: rest →
    ∃ t, exec .seqStart s = .next t ∧
      levelsOf t.wire = levelsOf s.wire ++ wakeupLevels ++ wakeupLevels ++ wakeupLevels ∧
      TxBufFrame 0 s t ∧ (NoArrival s → t.rbRx = s.rbRx) ∧
      (LinkOk s → charsOf (lineStream t) = charsOf (lineStream s)) ∧
      (LinkOk s → s.txIdle = true → t.wire = s.wire ++ wakeupLevels ++ wakeupLevels ++ wakeupLevels) ∧
      MainOwned (((((s.setResult (s.params.errCode .wakeupError)).setResultValid true).setRails rest).setLineMode .uart).setSeq
        Seq.idle) t

/-- SEQ.START with the rail up at one of the first four reads, n wakeups having preceded it (R223, D21), and a peer
that never responds (R222, R225): the code of ResponseError, after which the start payload is in DBUF and RESP_LEN
is 0. With TX_IDLE = 0 the level segments on WIRE are the model's choice (U3, log entry 9). -/
def Obligations.StartWithASilentPeer : Prop :=
  ∀ (s : State) (n : Nat) (rest : List Bool), n ≤ 3 → s.rails = List.replicate n false ++ true :: rest →
    SilentPeer s →
    ∃ t, exec .seqStart s = .next t ∧ t.result = s.params.errCode .responseError ∧ t.resultValid = true ∧
      t.rails = rest ∧ t.respLen = 0 ∧ memRead .dbuf 0 t = some 0x02 ∧ memRead .dbuf 1 t = some 0x00 ∧
      (∀ j, 2 ≤ j → memRead .dbuf j t = memRead .dbuf j s) ∧ t.resp = s.resp ∧
      levelsOf t.wire = levelsOf s.wire ++ (List.replicate n wakeupLevels).flatten ∧
      t.lineMode = if n = 0 then s.lineMode else .uart

/-- SEQ.START with the rail up at one of the first four reads, n wakeups having preceded it (R223, D21), and, in
RB[RX], a response with ACK and PG set (R222), whatever the other agents do meanwhile: success at the first poll,
with all that RB[RX] held captured first, and nothing else if no character arrives. From a drained transmitter
exactly the start frame and one status header go out, whatever the schedule (R220): the urgent handler (D10, log
entry 3) takes the first byte at once, and the other eight fit. With TX_IDLE = 0 the level segments on WIRE are
the model's choice (U3, log entry 9). -/
def Obligations.StartSucceedsAtTheFirstPoll : Prop :=
  ∀ (s : State) (n : Nat) (rest : List Bool) (b0 b1 : Byte) (more : List Byte), n ≤ 3 →
    s.rails = List.replicate n false ++ true :: rest → LinkOk s →
    s.rbRx.contents = b0 :: b1 :: more → b1.getLsbD 0 = true → b1.getLsbD 1 = true →
    ∃ t, exec .seqStart s = .next t ∧ t.result = 0 ∧ t.resultValid = true ∧ t.rails = rest ∧
      t.resp.toList.take (more.length + 2) = b0 :: b1 :: more ∧ more.length + 2 ≤ t.respLen.toNat ∧
      (NoArrival s → t.respLen.toNat = more.length + 2 ∧ t.rbRx.count = 0) ∧
      memRead .dbuf 0 t = some 0x02 ∧ memRead .dbuf 1 t = some 0x00 ∧
      levelsOf t.wire = levelsOf s.wire ++ (List.replicate n wakeupLevels).flatten ∧
      (s.gie = true → TxDrained s →
        bytesOf (lineStream t) = bytesOf (lineStream s) ++ startFrameBytes ++ statusHeaderBytes)

/-- The judgement of one response in SEQ.START (R222 step 8, R225), on a busy block: with both flags the command
succeeds, at any round and poll; otherwise a nonempty response sets ANY_RESP, an ACK without PG sets ACK_NO_PG, a
flag once set stays set, and nothing else changes. That a response of fewer than two bytes shows neither flag is
the guard of R221, the spec's decision D20 (log entry 18). -/
def Obligations.StartJudgesAResponse : Prop :=
  ∀ (s : State) (r p : Nat) (anyResp ackNoPg : Bool), MainIsNext s → HandsRespLen s →
    s.seq.todo = [.startJudge r p anyResp ackNoPg] →
    (RunsWithPower s → step s = .next (returned 0 s)) ∧
    (¬ RunsWithPower s → ∃ anyResp' ackNoPg',
      step s = .next (movedOn [.startGap r p anyResp' ackNoPg'] s) ∧
      (anyResp' = true ↔ anyResp = true ∨ 0 < s.respLen.toNat) ∧
      (ackNoPg' = true ↔ ackNoPg = true ∨ AcksWithoutPower s))

/-- The bounds of SEQ.START (R222 steps 9 to 11, R224), on a busy block: another status request while fewer than
START_POLLS were made in the round, another round, 250 ms later, while fewer than START_ROUNDS were made, and
then the classification. The bounds are the open parameters (R232, log entry 15). -/
def Obligations.StartCountsItsPollsAndRounds : Prop :=
  ∀ (s : State) (r p : Nat) (anyResp ackNoPg : Bool), MainIsNext s →
    (s.seq.todo = [.startGap r p anyResp ackNoPg] →
      (p + 1 < s.params.startPolls →
        step s = .next (movedOn (programOf (.fxStatus 0x3B 9) ++ [.startJudge r (p + 1) anyResp ackNoPg]) s)) ∧
      (s.params.startPolls ≤ p + 1 → step s = .next (movedOn [.startNext r anyResp ackNoPg] s))) ∧
    (s.seq.todo = [.startNext r anyResp ackNoPg] →
      (r + 1 < s.params.startRounds →
        step s = .next (movedOn [.waitMs 250, .startRound (r + 1) anyResp ackNoPg] s)) ∧
      (s.params.startRounds ≤ r + 1 → step s = .next (movedOn [.startFail anyResp ackNoPg] s)))

/-- SEQ.STOP with the rail already absent (R226 step 1): nothing to stop. -/
def Obligations.StopWithoutTheRail : Prop :=
  ∀ (c : Bool) (s : State) (rest : List Bool), s.rails = false :: rest →
    exec (.seqStop c) s = .next { s with rails := rest, seq := Seq.idle }

/-- SEQ.STOP, whatever the other agents do meanwhile (R226, R228): a number of whole power-cut pulses, at most
ten, with CUT_GAP_MS (log entry 15) between two of them, none of them unless c is 1 and the last response
confirmed the stop (R221, with the length guard that is the spec's decision D20, log entry 18); POWER_CUT is low
after a pulse; no result is written. It writes RESP, RESP_LEN, DBUF[0..1], CSUM, BAUD and POWER_CUT, and no other
register of the main context. With c = 1 and a confirmation in RB[RX] there is a pulse for each read of the rail up
to the first that finds it gone, and ten if none does. POWER_CUT is high from the first micro-step of a pulse to
its third. -/
def Obligations.StopCutsPowerOnlyWhenConfirmed : Prop :=
  (∀ (c : Bool) (s : State), ∃ t k, exec (.seqStop c) s = .next t ∧
    t.pcutTrace = s.pcutTrace ++ cutTrace s.params.cutGapMs k ∧ k ≤ 10 ∧
    (k ≠ 0 → c = true ∧ ConfirmsStop t ∧ t.powerCut = false) ∧ (k = 0 → t.powerCut = s.powerCut) ∧
    (t.baud = s.baud ∨ t.baud = .normal) ∧
    (∀ j, 2 ≤ j → memRead .dbuf j t = memRead .dbuf j s) ∧ (NoArrival s → RxBufFrame s t) ∧
    MainOwned
      { s with
        resp := t.resp, respLen := t.respLen, dbuf := t.dbuf, csum := t.csum, baud := t.baud
        powerCut := t.powerCut, pcutTrace := t.pcutTrace, rails := t.rails, freeCtr := t.freeCtr
        seq := Seq.idle } t) ∧
  (∀ (s : State) (n : Nat) (rest : List Bool) (b0 b1 b2 : Byte) (more : List Byte), LinkOk s →
    s.rbRx.contents = b0 :: b1 :: b2 :: 0xFF :: more → b1.getLsbD 0 = false →
    (n < 10 → s.rails = true :: List.replicate n true ++ false :: rest →
      ∃ t, exec (.seqStop true) s = .next t ∧ t.rails = rest ∧ t.powerCut = false ∧
        t.pcutTrace = s.pcutTrace ++ cutTrace s.params.cutGapMs (n + 1)) ∧
    (s.rails = true :: List.replicate 10 true ++ rest →
      ∃ t, exec (.seqStop true) s = .next t ∧ t.rails = rest ∧ t.powerCut = false ∧
        t.pcutTrace = s.pcutTrace ++ cutTrace s.params.cutGapMs 10)) ∧
  (∀ (s : State) (j : Nat) (rest : List Micro), MainIsNext s →
    (s.seq.todo = .cutHigh j :: rest → step s = .next
      { movedOn (.cutHold j :: rest) s with powerCut := true, pcutTrace := s.pcutTrace ++ [.level true] }) ∧
    (s.seq.todo = .cutHold j :: rest → step s = .next
      { movedOn (.cutLow j :: rest) s with pcutTrace := s.pcutTrace ++ [.wait 100] }) ∧
    (s.seq.todo = .cutLow j :: rest → step s = .next
      { movedOn (.cutRead (j + 1) :: rest) s with powerCut := false, pcutTrace := s.pcutTrace ++ [.level false] }))

/-- SEQ.STOP with the rail present and, in RB[RX], a response with the marker and ACK cleared (R226, R227), whatever
the other agents do meanwhile: confirmed at the first poll, with all that RB[RX] held captured first, and nothing
else if no character arrives. A soft stop ends there and looks at the rail no more; with c = 1, a pulse after which
the rail is gone ends it. From a drained transmitter exactly the stop frame and one status header go out, whatever
the schedule (R220): the urgent handler (D10, log entry 3) takes the first byte at once, and the other eight fit. -/
def Obligations.StopIsConfirmedAtTheFirstPoll : Prop :=
  ∀ (c : Bool) (s : State) (rest : List Bool) (b0 b1 b2 : Byte) (more : List Byte), s.rails = true :: rest → LinkOk s →
    s.rbRx.contents = b0 :: b1 :: b2 :: 0xFF :: more → b1.getLsbD 0 = false →
    ∃ t, exec (.seqStop c) s = .next t ∧
      (c = false → t.rails = rest ∧ t.pcutTrace = s.pcutTrace ∧ t.powerCut = s.powerCut) ∧
      (∀ rest', c = true → rest = false :: rest' →
        t.rails = rest' ∧ t.pcutTrace = s.pcutTrace ++ cutPulse ∧ t.powerCut = false) ∧
      t.resp.toList.take (more.length + 4) = b0 :: b1 :: b2 :: 0xFF :: more ∧ more.length + 4 ≤ t.respLen.toNat ∧
      (NoArrival s → t.respLen.toNat = more.length + 4 ∧ t.rbRx.count = 0) ∧
      memRead .dbuf 0 t = some 0x00 ∧ memRead .dbuf 1 t = some 0x00 ∧ t.result = s.result ∧
      (s.gie = true → TxDrained s →
        bytesOf (lineStream t) = bytesOf (lineStream s) ++ stopFrameBytes ++ statusHeaderBytes)

/-- SEQ.STOP with the rail present and a silent peer (R229, D23), whatever else happens meanwhile: after the last
attempt it looks at the rail until a look finds it gone, ten times at most, and there is no pulse, whatever c is.
From a drained transmitter that sends nothing meanwhile, the first nine bytes, all it can hold, are those of the
stop frame and the first status header (R220; the urgent handler, D10, log entry 3, takes the first byte). -/
def Obligations.StopUnconfirmedNeverCutsPower : Prop :=
  ∀ (c : Bool) (s : State) (n : Nat) (rest : List Bool),
    (n < 10 ∧ s.rails = true :: List.replicate n true ++ false :: rest) ∨
      (n = 10 ∧ s.rails = true :: List.replicate n true ++ rest) →
    SilentPeer s →
    ∃ t, exec (.seqStop c) s = .next t ∧ t.rails = rest ∧ t.pcutTrace = s.pcutTrace ∧ t.powerCut = s.powerCut ∧
      t.respLen = 0 ∧ memRead .dbuf 0 t = some 0x00 ∧ memRead .dbuf 1 t = some 0x00 ∧
      (Quiet s → LinkOk s → s.gie = true → TxDrained s →
        bytesOf (lineStream t) = bytesOf (lineStream s) ++ stopFrameBytes ++ statusHeaderBytes)

/-- A round of SEQ.START (R220, R222 steps 5 to 7) and an attempt of SEQ.STOP (R226 steps 2 to 4), on a busy
block: the first one starts with the two flags cleared; each writes its payload to DBUF[0..1], 02 00 or 00 00,
then sends the command frame of FX.CMD 0x3A with two data bytes and makes its first status request, FX.STATUS
0x3B with maxLen 9. Nothing else changes. -/
def Obligations.SequencesSendTheirCommandFrames : Prop :=
  ∀ (s : State) (r : Nat) (anyResp ackNoPg c : Bool), MainIsNext s →
    (s.seq.todo = [.startFlags] → step s = .next (movedOn [.startRound 0 false false] s)) ∧
    (s.seq.todo = [.startRound r anyResp ackNoPg] →
      ∃ d, step s = .next
          ((movedOn (programOf (.fxCmd 0x3A 2) ++ programOf (.fxStatus 0x3B 9) ++ [.startJudge r 0 anyResp ackNoPg])
            s).setDbuf d) ∧
        d[0] = 0x02 ∧ d[1] = 0x00 ∧ d.toList.drop 2 = s.dbuf.toList.drop 2) ∧
    (s.seq.todo = [.stopBegin c] → step s = .next (movedOn [.stopTry c 0] s)) ∧
    (s.seq.todo = [.stopTry c r] →
      ∃ d, step s = .next
          ((movedOn (programOf (.fxCmd 0x3A 2) ++ programOf (.fxStatus 0x3B 9) ++ [.stopJudge c r 0]) s).setDbuf d) ∧
        d[0] = 0x00 ∧ d[1] = 0x00 ∧ d.toList.drop 2 = s.dbuf.toList.drop 2)

/-- The judgement of one response in SEQ.STOP (R226 step 5, R227), on a busy block: at any attempt and poll, the
marker with a cleared ACK confirms the stop, and then c chooses between the pulses and the soft stop (step 10);
any other response uses up one poll. Nothing else changes. That a response of fewer than four bytes confirms
nothing is the guard of R221, the spec's decision D20 (log entry 18). -/
def Obligations.StopJudgesAResponse : Prop :=
  ∀ (s : State) (c : Bool) (n p : Nat), MainIsNext s →
    (HandsRespLen s → s.seq.todo = [.stopJudge c n p] →
      (ConfirmsStop s → step s = .next (movedOn [.stopConfirmed c] s)) ∧
      (¬ ConfirmsStop s → step s = .next (movedOn [.stopGap c n p] s))) ∧
    (s.seq.todo = [.stopConfirmed c] →
      (c = true → step s = .next (movedOn [.cutHigh 0] s)) ∧
      (c = false → step s = .next { s with sched := s.sched.tail, seq := Seq.idle }))

/-- The bounds of SEQ.STOP (R226 steps 6 to 8, R227), on a busy block: another status request while fewer than
STOP_POLLS were made in the attempt, another attempt while fewer than STOP_TRIES were made, and then the looks at
the rail. The bounds are the open parameters (R232, log entry 15). -/
def Obligations.StopCountsItsPollsAndTries : Prop :=
  ∀ (s : State) (c : Bool) (n p : Nat), MainIsNext s →
    (s.seq.todo = [.stopGap c n p] →
      (p + 1 < s.params.stopPolls →
        step s = .next (movedOn (programOf (.fxStatus 0x3B 9) ++ [.stopJudge c n (p + 1)]) s)) ∧
      (s.params.stopPolls ≤ p + 1 → step s = .next (movedOn [.stopNext c n] s))) ∧
    (s.seq.todo = [.stopNext c n] →
      (n + 1 < s.params.stopTries → step s = .next (movedOn [.stopTry c (n + 1)] s)) ∧
      (s.params.stopTries ≤ n + 1 → step s = .next (movedOn [.stopUnconfirmed] s)))

/-- SEQ.LOADCHK returns a bool (R230), whatever the other agents do meanwhile: 1 only if the last response showed
a load (LOADED of R221, with the length guard that is the spec's decision D20, log entry 18). It writes RESULT,
RESP, RESP_LEN and BAUD, ends with BAUD = NORMAL, and writes no other register of the
main context; it reads no pin. -/
def Obligations.LoadCheckReturnsABool : Prop :=
  ∀ s : State, ∃ t, exec .seqLoadchk s = .next t ∧ t.resultValid = true ∧ (t.result = 0 ∨ t.result = 1) ∧
    (t.result = 1 → ShowsLoad t) ∧ (NoArrival s → RxBufFrame s t) ∧
    MainOwned
      { s with
        result := t.result, resultValid := true, resp := t.resp, respLen := t.respLen, freeCtr := t.freeCtr
        baud := .normal, seq := Seq.idle } t

/-- SEQ.LOADCHK with a silent peer (R230): no request qualifies, so the result is 0, whatever else happens
meanwhile; what goes out is, in order, a part of ten status headers. From a drained transmitter that sends
nothing meanwhile it is the first three of them, the nine bytes it can hold (the urgent handler, D10, log entry 3,
takes the first byte). -/
def Obligations.LoadCheckWithASilentPeer : Prop :=
  ∀ s : State, SilentPeer s →
    ∃ t, exec .seqLoadchk s = .next t ∧ t.result = 0 ∧ t.resultValid = true ∧ t.respLen = 0 ∧ t.resp = s.resp ∧
      (LinkOk s → ∃ sent, List.Sublist sent (List.replicate 10 statusHeaderBytes).flatten ∧
        bytesOf (lineStream t) = bytesOf (lineStream s) ++ sent ∧
        (Quiet s → s.gie = true → TxDrained s → sent = (List.replicate 3 statusHeaderBytes).flatten))

/-- The judgement of one response in SEQ.LOADCHK (R230 steps 1 to 4), on a busy block: a qualifying response adds
one and the fifth ends the command with 1; after any other outcome another status request, FX.STATUS 0x3B with
maxLen 9, follows while fewer than ten were made, and the tenth ends the command with 0. Nothing else changes.
That a response of fewer than four bytes does not qualify is the guard of R221, the spec's decision D20 (log
entry 18). -/
def Obligations.LoadCheckCountsToFive : Prop :=
  ∀ (s : State) (cnt i : Nat), MainIsNext s →
    (s.seq.todo = [.loadBegin] → step s = .next (movedOn (programOf (.fxStatus 0x3B 9) ++ [.loadJudge 0 0]) s)) ∧
    (HandsRespLen s → s.seq.todo = [.loadJudge cnt i] → cnt ≤ 4 →
      (ShowsLoad s → cnt = 4 → step s = .next (returned 1 s)) ∧
      (ShowsLoad s → cnt ≠ 4 → step s = .next (movedOn [.loadGap (cnt + 1) i] s)) ∧
      (¬ ShowsLoad s → step s = .next (movedOn [.loadGap cnt i] s))) ∧
    (s.seq.todo = [.loadGap cnt i] →
      (i + 1 < 10 → step s = .next (movedOn (programOf (.fxStatus 0x3B 9) ++ [.loadJudge cnt (i + 1)]) s)) ∧
      (10 ≤ i + 1 → step s = .next (returned 0 s)))

/-- The classification of a failed start (R222 step 11, R225, as C4 resolves it; D22), on a busy block: no
response gives the code of ResponseError, an ACK without PG that of PowerGoodError, anything else that of
StartupError. Nothing else changes. -/
def Obligations.StartFailureIsClassified : Prop :=
  ∀ (s : State) (anyResp ackNoPg : Bool), MainIsNext s → s.seq.todo = [.startFail anyResp ackNoPg] →
    (anyResp = false → step s = .next (returned (s.params.errCode .responseError) s)) ∧
    (anyResp = true → ackNoPg = true → step s = .next (returned (s.params.errCode .powerGoodError) s)) ∧
    (anyResp = true → ackNoPg = false → step s = .next (returned (s.params.errCode .startupError) s))

/-! ### The whole machine -/

/-- Every command comes to its return, whatever the other agents do meanwhile: no wait blocks for ever (R16,
R155, R187, R233). -/
def Obligations.EveryCommandReturns : Prop :=
  ∀ (i : Instr) (s : State), isCommand i = true → i.wellFormed = true →
    ∃ t, exec i s = .next t ∧ t.seq = Seq.idle

/-- A command run as a whole is a run of steps: from its acceptance, with M's turn next, some number of steps,
each one agent's, reaches the very state exec answers (R14, R17; log entry 1). -/
def Obligations.CommandIsARunOfSteps : Prop :=
  ∀ (i : Instr) (s : State), isCommand i = true → i.wellFormed = true → handlerEnabled s = false →
    ∃ k, Host.Core.run Sys2Proof.core k ((accept i (programOf i) s).setSched (.main :: s.sched)) = exec i s

/-- Every step keeps the invariant: rings well formed, transmitter and receiver consistent, RESP_LEN at most 9,
interrupts enabled, SEQ and its locals in bounds (R22, R23, R28, R35, R45, R65, R153). -/
def Obligations.EveryStepKeepsTheInvariant : Prop :=
  ∀ s t : State, MachineInv s → step s = .next t → MachineInv t

/-- A block at rest is at rest after every step: each command, whatever the other agents do meanwhile, ends with
SEQ = IDLE, BAUD = NORMAL, the pin with the UART and POWER_CUT low (R171, R173, R228). A step that accepts a
command is the whole command (log entry 1); within it, at the granularity of R14, the block is not at rest. -/
def Obligations.EveryStepEndsAtRest : Prop :=
  ∀ s t : State, AtRest s → step s = .next t → AtRest t

/-- What an observer of the pins saw is never taken back: WIRE and PCUT_TRACE only grow at the end (R37, R38);
and no step changes an open parameter (R8, log entry 15). -/
def Obligations.TracesOnlyGrowAndParametersStay : Prop :=
  ∀ s t : State, step s = .next t → s.wire <+: t.wire ∧ s.pcutTrace <+: t.pcutTrace ∧ t.params = s.params
end

