-- ==== Sys2Proof/Laws/State.lean ====
section
/-! SUPPORT. One lemma per field per register update, each true by rfl, so that no later proof unfolds a
record update. -/

namespace Sys2Proof.Machine

@[simp] theorem State.setRbRx_rbRx (s : State) v : (s.setRbRx v).rbRx = v := rfl
@[simp] theorem State.setRbRx_rbTx (s : State) v : (s.setRbRx v).rbTx = s.rbTx := rfl
@[simp] theorem State.setRbRx_txIdle (s : State) v : (s.setRbRx v).txIdle = s.txIdle := rfl
@[simp] theorem State.setRbRx_rxie (s : State) v : (s.setRbRx v).rxie = s.rxie := rfl
@[simp] theorem State.setRbRx_gie (s : State) v : (s.setRbRx v).gie = s.gie := rfl
@[simp] theorem State.setRbRx_baud (s : State) v : (s.setRbRx v).baud = s.baud := rfl
@[simp] theorem State.setRbRx_lineMode (s : State) v : (s.setRbRx v).lineMode = s.lineMode := rfl
@[simp] theorem State.setRbRx_txreg (s : State) v : (s.setRbRx v).txreg = s.txreg := rfl
@[simp] theorem State.setRbRx_rxreg (s : State) v : (s.setRbRx v).rxreg = s.rxreg := rfl
@[simp] theorem State.setRbRx_txirq (s : State) v : (s.setRbRx v).txirq = s.txirq := rfl
@[simp] theorem State.setRbRx_rxirq (s : State) v : (s.setRbRx v).rxirq = s.rxirq := rfl
@[simp] theorem State.setRbRx_csum (s : State) v : (s.setRbRx v).csum = s.csum := rfl
@[simp] theorem State.setRbRx_result (s : State) v : (s.setRbRx v).result = s.result := rfl
@[simp] theorem State.setRbRx_resultValid (s : State) v : (s.setRbRx v).resultValid = s.resultValid := rfl
@[simp] theorem State.setRbRx_resp (s : State) v : (s.setRbRx v).resp = s.resp := rfl
@[simp] theorem State.setRbRx_respLen (s : State) v : (s.setRbRx v).respLen = s.respLen := rfl
@[simp] theorem State.setRbRx_dbuf (s : State) v : (s.setRbRx v).dbuf = s.dbuf := rfl
@[simp] theorem State.setRbRx_seq (s : State) v : (s.setRbRx v).seq = s.seq := rfl
@[simp] theorem State.setRbRx_powerCut (s : State) v : (s.setRbRx v).powerCut = s.powerCut := rfl
@[simp] theorem State.setRbRx_wire (s : State) v : (s.setRbRx v).wire = s.wire := rfl
@[simp] theorem State.setRbRx_pcutTrace (s : State) v : (s.setRbRx v).pcutTrace = s.pcutTrace := rfl
@[simp] theorem State.setRbRx_cmd (s : State) v : (s.setRbRx v).cmd = s.cmd := rfl
@[simp] theorem State.setRbRx_sched (s : State) v : (s.setRbRx v).sched = s.sched := rfl
@[simp] theorem State.setRbRx_rails (s : State) v : (s.setRbRx v).rails = s.rails := rfl
@[simp] theorem State.setRbRx_freeCtr (s : State) v : (s.setRbRx v).freeCtr = s.freeCtr := rfl
@[simp] theorem State.setRbRx_params (s : State) v : (s.setRbRx v).params = s.params := rfl
@[simp] theorem State.setRbTx_rbRx (s : State) v : (s.setRbTx v).rbRx = s.rbRx := rfl
@[simp] theorem State.setRbTx_rbTx (s : State) v : (s.setRbTx v).rbTx = v := rfl
@[simp] theorem State.setRbTx_txIdle (s : State) v : (s.setRbTx v).txIdle = s.txIdle := rfl
@[simp] theorem State.setRbTx_rxie (s : State) v : (s.setRbTx v).rxie = s.rxie := rfl
@[simp] theorem State.setRbTx_gie (s : State) v : (s.setRbTx v).gie = s.gie := rfl
@[simp] theorem State.setRbTx_baud (s : State) v : (s.setRbTx v).baud = s.baud := rfl
@[simp] theorem State.setRbTx_lineMode (s : State) v : (s.setRbTx v).lineMode = s.lineMode := rfl
@[simp] theorem State.setRbTx_txreg (s : State) v : (s.setRbTx v).txreg = s.txreg := rfl
@[simp] theorem State.setRbTx_rxreg (s : State) v : (s.setRbTx v).rxreg = s.rxreg := rfl
@[simp] theorem State.setRbTx_txirq (s : State) v : (s.setRbTx v).txirq = s.txirq := rfl
@[simp] theorem State.setRbTx_rxirq (s : State) v : (s.setRbTx v).rxirq = s.rxirq := rfl
@[simp] theorem State.setRbTx_csum (s : State) v : (s.setRbTx v).csum = s.csum := rfl
@[simp] theorem State.setRbTx_result (s : State) v : (s.setRbTx v).result = s.result := rfl
@[simp] theorem State.setRbTx_resultValid (s : State) v : (s.setRbTx v).resultValid = s.resultValid := rfl
@[simp] theorem State.setRbTx_resp (s : State) v : (s.setRbTx v).resp = s.resp := rfl
@[simp] theorem State.setRbTx_respLen (s : State) v : (s.setRbTx v).respLen = s.respLen := rfl
@[simp] theorem State.setRbTx_dbuf (s : State) v : (s.setRbTx v).dbuf = s.dbuf := rfl
@[simp] theorem State.setRbTx_seq (s : State) v : (s.setRbTx v).seq = s.seq := rfl
@[simp] theorem State.setRbTx_powerCut (s : State) v : (s.setRbTx v).powerCut = s.powerCut := rfl
@[simp] theorem State.setRbTx_wire (s : State) v : (s.setRbTx v).wire = s.wire := rfl
@[simp] theorem State.setRbTx_pcutTrace (s : State) v : (s.setRbTx v).pcutTrace = s.pcutTrace := rfl
@[simp] theorem State.setRbTx_cmd (s : State) v : (s.setRbTx v).cmd = s.cmd := rfl
@[simp] theorem State.setRbTx_sched (s : State) v : (s.setRbTx v).sched = s.sched := rfl
@[simp] theorem State.setRbTx_rails (s : State) v : (s.setRbTx v).rails = s.rails := rfl
@[simp] theorem State.setRbTx_freeCtr (s : State) v : (s.setRbTx v).freeCtr = s.freeCtr := rfl
@[simp] theorem State.setRbTx_params (s : State) v : (s.setRbTx v).params = s.params := rfl
@[simp] theorem State.setTxIdle_rbRx (s : State) v : (s.setTxIdle v).rbRx = s.rbRx := rfl
@[simp] theorem State.setTxIdle_rbTx (s : State) v : (s.setTxIdle v).rbTx = s.rbTx := rfl
@[simp] theorem State.setTxIdle_txIdle (s : State) v : (s.setTxIdle v).txIdle = v := rfl
@[simp] theorem State.setTxIdle_rxie (s : State) v : (s.setTxIdle v).rxie = s.rxie := rfl
@[simp] theorem State.setTxIdle_gie (s : State) v : (s.setTxIdle v).gie = s.gie := rfl
@[simp] theorem State.setTxIdle_baud (s : State) v : (s.setTxIdle v).baud = s.baud := rfl
@[simp] theorem State.setTxIdle_lineMode (s : State) v : (s.setTxIdle v).lineMode = s.lineMode := rfl
@[simp] theorem State.setTxIdle_txreg (s : State) v : (s.setTxIdle v).txreg = s.txreg := rfl
@[simp] theorem State.setTxIdle_rxreg (s : State) v : (s.setTxIdle v).rxreg = s.rxreg := rfl
@[simp] theorem State.setTxIdle_txirq (s : State) v : (s.setTxIdle v).txirq = s.txirq := rfl
@[simp] theorem State.setTxIdle_rxirq (s : State) v : (s.setTxIdle v).rxirq = s.rxirq := rfl
@[simp] theorem State.setTxIdle_csum (s : State) v : (s.setTxIdle v).csum = s.csum := rfl
@[simp] theorem State.setTxIdle_result (s : State) v : (s.setTxIdle v).result = s.result := rfl
@[simp] theorem State.setTxIdle_resultValid (s : State) v : (s.setTxIdle v).resultValid = s.resultValid := rfl
@[simp] theorem State.setTxIdle_resp (s : State) v : (s.setTxIdle v).resp = s.resp := rfl
@[simp] theorem State.setTxIdle_respLen (s : State) v : (s.setTxIdle v).respLen = s.respLen := rfl
@[simp] theorem State.setTxIdle_dbuf (s : State) v : (s.setTxIdle v).dbuf = s.dbuf := rfl
@[simp] theorem State.setTxIdle_seq (s : State) v : (s.setTxIdle v).seq = s.seq := rfl
@[simp] theorem State.setTxIdle_powerCut (s : State) v : (s.setTxIdle v).powerCut = s.powerCut := rfl
@[simp] theorem State.setTxIdle_wire (s : State) v : (s.setTxIdle v).wire = s.wire := rfl
@[simp] theorem State.setTxIdle_pcutTrace (s : State) v : (s.setTxIdle v).pcutTrace = s.pcutTrace := rfl
@[simp] theorem State.setTxIdle_cmd (s : State) v : (s.setTxIdle v).cmd = s.cmd := rfl
@[simp] theorem State.setTxIdle_sched (s : State) v : (s.setTxIdle v).sched = s.sched := rfl
@[simp] theorem State.setTxIdle_rails (s : State) v : (s.setTxIdle v).rails = s.rails := rfl
@[simp] theorem State.setTxIdle_freeCtr (s : State) v : (s.setTxIdle v).freeCtr = s.freeCtr := rfl
@[simp] theorem State.setTxIdle_params (s : State) v : (s.setTxIdle v).params = s.params := rfl
@[simp] theorem State.setRxie_rbRx (s : State) v : (s.setRxie v).rbRx = s.rbRx := rfl
@[simp] theorem State.setRxie_rbTx (s : State) v : (s.setRxie v).rbTx = s.rbTx := rfl
@[simp] theorem State.setRxie_txIdle (s : State) v : (s.setRxie v).txIdle = s.txIdle := rfl
@[simp] theorem State.setRxie_rxie (s : State) v : (s.setRxie v).rxie = v := rfl
@[simp] theorem State.setRxie_gie (s : State) v : (s.setRxie v).gie = s.gie := rfl
@[simp] theorem State.setRxie_baud (s : State) v : (s.setRxie v).baud = s.baud := rfl
@[simp] theorem State.setRxie_lineMode (s : State) v : (s.setRxie v).lineMode = s.lineMode := rfl
@[simp] theorem State.setRxie_txreg (s : State) v : (s.setRxie v).txreg = s.txreg := rfl
@[simp] theorem State.setRxie_rxreg (s : State) v : (s.setRxie v).rxreg = s.rxreg := rfl
@[simp] theorem State.setRxie_txirq (s : State) v : (s.setRxie v).txirq = s.txirq := rfl
@[simp] theorem State.setRxie_rxirq (s : State) v : (s.setRxie v).rxirq = s.rxirq := rfl
@[simp] theorem State.setRxie_csum (s : State) v : (s.setRxie v).csum = s.csum := rfl
@[simp] theorem State.setRxie_result (s : State) v : (s.setRxie v).result = s.result := rfl
@[simp] theorem State.setRxie_resultValid (s : State) v : (s.setRxie v).resultValid = s.resultValid := rfl
@[simp] theorem State.setRxie_resp (s : State) v : (s.setRxie v).resp = s.resp := rfl
@[simp] theorem State.setRxie_respLen (s : State) v : (s.setRxie v).respLen = s.respLen := rfl
@[simp] theorem State.setRxie_dbuf (s : State) v : (s.setRxie v).dbuf = s.dbuf := rfl
@[simp] theorem State.setRxie_seq (s : State) v : (s.setRxie v).seq = s.seq := rfl
@[simp] theorem State.setRxie_powerCut (s : State) v : (s.setRxie v).powerCut = s.powerCut := rfl
@[simp] theorem State.setRxie_wire (s : State) v : (s.setRxie v).wire = s.wire := rfl
@[simp] theorem State.setRxie_pcutTrace (s : State) v : (s.setRxie v).pcutTrace = s.pcutTrace := rfl
@[simp] theorem State.setRxie_cmd (s : State) v : (s.setRxie v).cmd = s.cmd := rfl
@[simp] theorem State.setRxie_sched (s : State) v : (s.setRxie v).sched = s.sched := rfl
@[simp] theorem State.setRxie_rails (s : State) v : (s.setRxie v).rails = s.rails := rfl
@[simp] theorem State.setRxie_freeCtr (s : State) v : (s.setRxie v).freeCtr = s.freeCtr := rfl
@[simp] theorem State.setRxie_params (s : State) v : (s.setRxie v).params = s.params := rfl
@[simp] theorem State.setGie_rbRx (s : State) v : (s.setGie v).rbRx = s.rbRx := rfl
@[simp] theorem State.setGie_rbTx (s : State) v : (s.setGie v).rbTx = s.rbTx := rfl
@[simp] theorem State.setGie_txIdle (s : State) v : (s.setGie v).txIdle = s.txIdle := rfl
@[simp] theorem State.setGie_rxie (s : State) v : (s.setGie v).rxie = s.rxie := rfl
@[simp] theorem State.setGie_gie (s : State) v : (s.setGie v).gie = v := rfl
@[simp] theorem State.setGie_baud (s : State) v : (s.setGie v).baud = s.baud := rfl
@[simp] theorem State.setGie_lineMode (s : State) v : (s.setGie v).lineMode = s.lineMode := rfl
@[simp] theorem State.setGie_txreg (s : State) v : (s.setGie v).txreg = s.txreg := rfl
@[simp] theorem State.setGie_rxreg (s : State) v : (s.setGie v).rxreg = s.rxreg := rfl
@[simp] theorem State.setGie_txirq (s : State) v : (s.setGie v).txirq = s.txirq := rfl
@[simp] theorem State.setGie_rxirq (s : State) v : (s.setGie v).rxirq = s.rxirq := rfl
@[simp] theorem State.setGie_csum (s : State) v : (s.setGie v).csum = s.csum := rfl
@[simp] theorem State.setGie_result (s : State) v : (s.setGie v).result = s.result := rfl
@[simp] theorem State.setGie_resultValid (s : State) v : (s.setGie v).resultValid = s.resultValid := rfl
@[simp] theorem State.setGie_resp (s : State) v : (s.setGie v).resp = s.resp := rfl
@[simp] theorem State.setGie_respLen (s : State) v : (s.setGie v).respLen = s.respLen := rfl
@[simp] theorem State.setGie_dbuf (s : State) v : (s.setGie v).dbuf = s.dbuf := rfl
@[simp] theorem State.setGie_seq (s : State) v : (s.setGie v).seq = s.seq := rfl
@[simp] theorem State.setGie_powerCut (s : State) v : (s.setGie v).powerCut = s.powerCut := rfl
@[simp] theorem State.setGie_wire (s : State) v : (s.setGie v).wire = s.wire := rfl
@[simp] theorem State.setGie_pcutTrace (s : State) v : (s.setGie v).pcutTrace = s.pcutTrace := rfl
@[simp] theorem State.setGie_cmd (s : State) v : (s.setGie v).cmd = s.cmd := rfl
@[simp] theorem State.setGie_sched (s : State) v : (s.setGie v).sched = s.sched := rfl
@[simp] theorem State.setGie_rails (s : State) v : (s.setGie v).rails = s.rails := rfl
@[simp] theorem State.setGie_freeCtr (s : State) v : (s.setGie v).freeCtr = s.freeCtr := rfl
@[simp] theorem State.setGie_params (s : State) v : (s.setGie v).params = s.params := rfl
@[simp] theorem State.setBaud_rbRx (s : State) v : (s.setBaud v).rbRx = s.rbRx := rfl
@[simp] theorem State.setBaud_rbTx (s : State) v : (s.setBaud v).rbTx = s.rbTx := rfl
@[simp] theorem State.setBaud_txIdle (s : State) v : (s.setBaud v).txIdle = s.txIdle := rfl
@[simp] theorem State.setBaud_rxie (s : State) v : (s.setBaud v).rxie = s.rxie := rfl
@[simp] theorem State.setBaud_gie (s : State) v : (s.setBaud v).gie = s.gie := rfl
@[simp] theorem State.setBaud_baud (s : State) v : (s.setBaud v).baud = v := rfl
@[simp] theorem State.setBaud_lineMode (s : State) v : (s.setBaud v).lineMode = s.lineMode := rfl
@[simp] theorem State.setBaud_txreg (s : State) v : (s.setBaud v).txreg = s.txreg := rfl
@[simp] theorem State.setBaud_rxreg (s : State) v : (s.setBaud v).rxreg = s.rxreg := rfl
@[simp] theorem State.setBaud_txirq (s : State) v : (s.setBaud v).txirq = s.txirq := rfl
@[simp] theorem State.setBaud_rxirq (s : State) v : (s.setBaud v).rxirq = s.rxirq := rfl
@[simp] theorem State.setBaud_csum (s : State) v : (s.setBaud v).csum = s.csum := rfl
@[simp] theorem State.setBaud_result (s : State) v : (s.setBaud v).result = s.result := rfl
@[simp] theorem State.setBaud_resultValid (s : State) v : (s.setBaud v).resultValid = s.resultValid := rfl
@[simp] theorem State.setBaud_resp (s : State) v : (s.setBaud v).resp = s.resp := rfl
@[simp] theorem State.setBaud_respLen (s : State) v : (s.setBaud v).respLen = s.respLen := rfl
@[simp] theorem State.setBaud_dbuf (s : State) v : (s.setBaud v).dbuf = s.dbuf := rfl
@[simp] theorem State.setBaud_seq (s : State) v : (s.setBaud v).seq = s.seq := rfl
@[simp] theorem State.setBaud_powerCut (s : State) v : (s.setBaud v).powerCut = s.powerCut := rfl
@[simp] theorem State.setBaud_wire (s : State) v : (s.setBaud v).wire = s.wire := rfl
@[simp] theorem State.setBaud_pcutTrace (s : State) v : (s.setBaud v).pcutTrace = s.pcutTrace := rfl
@[simp] theorem State.setBaud_cmd (s : State) v : (s.setBaud v).cmd = s.cmd := rfl
@[simp] theorem State.setBaud_sched (s : State) v : (s.setBaud v).sched = s.sched := rfl
@[simp] theorem State.setBaud_rails (s : State) v : (s.setBaud v).rails = s.rails := rfl
@[simp] theorem State.setBaud_freeCtr (s : State) v : (s.setBaud v).freeCtr = s.freeCtr := rfl
@[simp] theorem State.setBaud_params (s : State) v : (s.setBaud v).params = s.params := rfl
@[simp] theorem State.setLineMode_rbRx (s : State) v : (s.setLineMode v).rbRx = s.rbRx := rfl
@[simp] theorem State.setLineMode_rbTx (s : State) v : (s.setLineMode v).rbTx = s.rbTx := rfl
@[simp] theorem State.setLineMode_txIdle (s : State) v : (s.setLineMode v).txIdle = s.txIdle := rfl
@[simp] theorem State.setLineMode_rxie (s : State) v : (s.setLineMode v).rxie = s.rxie := rfl
@[simp] theorem State.setLineMode_gie (s : State) v : (s.setLineMode v).gie = s.gie := rfl
@[simp] theorem State.setLineMode_baud (s : State) v : (s.setLineMode v).baud = s.baud := rfl
@[simp] theorem State.setLineMode_lineMode (s : State) v : (s.setLineMode v).lineMode = v := rfl
@[simp] theorem State.setLineMode_txreg (s : State) v : (s.setLineMode v).txreg = s.txreg := rfl
@[simp] theorem State.setLineMode_rxreg (s : State) v : (s.setLineMode v).rxreg = s.rxreg := rfl
@[simp] theorem State.setLineMode_txirq (s : State) v : (s.setLineMode v).txirq = s.txirq := rfl
@[simp] theorem State.setLineMode_rxirq (s : State) v : (s.setLineMode v).rxirq = s.rxirq := rfl
@[simp] theorem State.setLineMode_csum (s : State) v : (s.setLineMode v).csum = s.csum := rfl
@[simp] theorem State.setLineMode_result (s : State) v : (s.setLineMode v).result = s.result := rfl
@[simp] theorem State.setLineMode_resultValid (s : State) v : (s.setLineMode v).resultValid = s.resultValid := rfl
@[simp] theorem State.setLineMode_resp (s : State) v : (s.setLineMode v).resp = s.resp := rfl
@[simp] theorem State.setLineMode_respLen (s : State) v : (s.setLineMode v).respLen = s.respLen := rfl
@[simp] theorem State.setLineMode_dbuf (s : State) v : (s.setLineMode v).dbuf = s.dbuf := rfl
@[simp] theorem State.setLineMode_seq (s : State) v : (s.setLineMode v).seq = s.seq := rfl
@[simp] theorem State.setLineMode_powerCut (s : State) v : (s.setLineMode v).powerCut = s.powerCut := rfl
@[simp] theorem State.setLineMode_wire (s : State) v : (s.setLineMode v).wire = s.wire := rfl
@[simp] theorem State.setLineMode_pcutTrace (s : State) v : (s.setLineMode v).pcutTrace = s.pcutTrace := rfl
@[simp] theorem State.setLineMode_cmd (s : State) v : (s.setLineMode v).cmd = s.cmd := rfl
@[simp] theorem State.setLineMode_sched (s : State) v : (s.setLineMode v).sched = s.sched := rfl
@[simp] theorem State.setLineMode_rails (s : State) v : (s.setLineMode v).rails = s.rails := rfl
@[simp] theorem State.setLineMode_freeCtr (s : State) v : (s.setLineMode v).freeCtr = s.freeCtr := rfl
@[simp] theorem State.setLineMode_params (s : State) v : (s.setLineMode v).params = s.params := rfl
@[simp] theorem State.setTxreg_rbRx (s : State) v : (s.setTxreg v).rbRx = s.rbRx := rfl
@[simp] theorem State.setTxreg_rbTx (s : State) v : (s.setTxreg v).rbTx = s.rbTx := rfl
@[simp] theorem State.setTxreg_txIdle (s : State) v : (s.setTxreg v).txIdle = s.txIdle := rfl
@[simp] theorem State.setTxreg_rxie (s : State) v : (s.setTxreg v).rxie = s.rxie := rfl
@[simp] theorem State.setTxreg_gie (s : State) v : (s.setTxreg v).gie = s.gie := rfl
@[simp] theorem State.setTxreg_baud (s : State) v : (s.setTxreg v).baud = s.baud := rfl
@[simp] theorem State.setTxreg_lineMode (s : State) v : (s.setTxreg v).lineMode = s.lineMode := rfl
@[simp] theorem State.setTxreg_txreg (s : State) v : (s.setTxreg v).txreg = v := rfl
@[simp] theorem State.setTxreg_rxreg (s : State) v : (s.setTxreg v).rxreg = s.rxreg := rfl
@[simp] theorem State.setTxreg_txirq (s : State) v : (s.setTxreg v).txirq = s.txirq := rfl
@[simp] theorem State.setTxreg_rxirq (s : State) v : (s.setTxreg v).rxirq = s.rxirq := rfl
@[simp] theorem State.setTxreg_csum (s : State) v : (s.setTxreg v).csum = s.csum := rfl
@[simp] theorem State.setTxreg_result (s : State) v : (s.setTxreg v).result = s.result := rfl
@[simp] theorem State.setTxreg_resultValid (s : State) v : (s.setTxreg v).resultValid = s.resultValid := rfl
@[simp] theorem State.setTxreg_resp (s : State) v : (s.setTxreg v).resp = s.resp := rfl
@[simp] theorem State.setTxreg_respLen (s : State) v : (s.setTxreg v).respLen = s.respLen := rfl
@[simp] theorem State.setTxreg_dbuf (s : State) v : (s.setTxreg v).dbuf = s.dbuf := rfl
@[simp] theorem State.setTxreg_seq (s : State) v : (s.setTxreg v).seq = s.seq := rfl
@[simp] theorem State.setTxreg_powerCut (s : State) v : (s.setTxreg v).powerCut = s.powerCut := rfl
@[simp] theorem State.setTxreg_wire (s : State) v : (s.setTxreg v).wire = s.wire := rfl
@[simp] theorem State.setTxreg_pcutTrace (s : State) v : (s.setTxreg v).pcutTrace = s.pcutTrace := rfl
@[simp] theorem State.setTxreg_cmd (s : State) v : (s.setTxreg v).cmd = s.cmd := rfl
@[simp] theorem State.setTxreg_sched (s : State) v : (s.setTxreg v).sched = s.sched := rfl
@[simp] theorem State.setTxreg_rails (s : State) v : (s.setTxreg v).rails = s.rails := rfl
@[simp] theorem State.setTxreg_freeCtr (s : State) v : (s.setTxreg v).freeCtr = s.freeCtr := rfl
@[simp] theorem State.setTxreg_params (s : State) v : (s.setTxreg v).params = s.params := rfl
@[simp] theorem State.setRxreg_rbRx (s : State) v : (s.setRxreg v).rbRx = s.rbRx := rfl
@[simp] theorem State.setRxreg_rbTx (s : State) v : (s.setRxreg v).rbTx = s.rbTx := rfl
@[simp] theorem State.setRxreg_txIdle (s : State) v : (s.setRxreg v).txIdle = s.txIdle := rfl
@[simp] theorem State.setRxreg_rxie (s : State) v : (s.setRxreg v).rxie = s.rxie := rfl
@[simp] theorem State.setRxreg_gie (s : State) v : (s.setRxreg v).gie = s.gie := rfl
@[simp] theorem State.setRxreg_baud (s : State) v : (s.setRxreg v).baud = s.baud := rfl
@[simp] theorem State.setRxreg_lineMode (s : State) v : (s.setRxreg v).lineMode = s.lineMode := rfl
@[simp] theorem State.setRxreg_txreg (s : State) v : (s.setRxreg v).txreg = s.txreg := rfl
@[simp] theorem State.setRxreg_rxreg (s : State) v : (s.setRxreg v).rxreg = v := rfl
@[simp] theorem State.setRxreg_txirq (s : State) v : (s.setRxreg v).txirq = s.txirq := rfl
@[simp] theorem State.setRxreg_rxirq (s : State) v : (s.setRxreg v).rxirq = s.rxirq := rfl
@[simp] theorem State.setRxreg_csum (s : State) v : (s.setRxreg v).csum = s.csum := rfl
@[simp] theorem State.setRxreg_result (s : State) v : (s.setRxreg v).result = s.result := rfl
@[simp] theorem State.setRxreg_resultValid (s : State) v : (s.setRxreg v).resultValid = s.resultValid := rfl
@[simp] theorem State.setRxreg_resp (s : State) v : (s.setRxreg v).resp = s.resp := rfl
@[simp] theorem State.setRxreg_respLen (s : State) v : (s.setRxreg v).respLen = s.respLen := rfl
@[simp] theorem State.setRxreg_dbuf (s : State) v : (s.setRxreg v).dbuf = s.dbuf := rfl
@[simp] theorem State.setRxreg_seq (s : State) v : (s.setRxreg v).seq = s.seq := rfl
@[simp] theorem State.setRxreg_powerCut (s : State) v : (s.setRxreg v).powerCut = s.powerCut := rfl
@[simp] theorem State.setRxreg_wire (s : State) v : (s.setRxreg v).wire = s.wire := rfl
@[simp] theorem State.setRxreg_pcutTrace (s : State) v : (s.setRxreg v).pcutTrace = s.pcutTrace := rfl
@[simp] theorem State.setRxreg_cmd (s : State) v : (s.setRxreg v).cmd = s.cmd := rfl
@[simp] theorem State.setRxreg_sched (s : State) v : (s.setRxreg v).sched = s.sched := rfl
@[simp] theorem State.setRxreg_rails (s : State) v : (s.setRxreg v).rails = s.rails := rfl
@[simp] theorem State.setRxreg_freeCtr (s : State) v : (s.setRxreg v).freeCtr = s.freeCtr := rfl
@[simp] theorem State.setRxreg_params (s : State) v : (s.setRxreg v).params = s.params := rfl
@[simp] theorem State.setTxirq_rbRx (s : State) v : (s.setTxirq v).rbRx = s.rbRx := rfl
@[simp] theorem State.setTxirq_rbTx (s : State) v : (s.setTxirq v).rbTx = s.rbTx := rfl
@[simp] theorem State.setTxirq_txIdle (s : State) v : (s.setTxirq v).txIdle = s.txIdle := rfl
@[simp] theorem State.setTxirq_rxie (s : State) v : (s.setTxirq v).rxie = s.rxie := rfl
@[simp] theorem State.setTxirq_gie (s : State) v : (s.setTxirq v).gie = s.gie := rfl
@[simp] theorem State.setTxirq_baud (s : State) v : (s.setTxirq v).baud = s.baud := rfl
@[simp] theorem State.setTxirq_lineMode (s : State) v : (s.setTxirq v).lineMode = s.lineMode := rfl
@[simp] theorem State.setTxirq_txreg (s : State) v : (s.setTxirq v).txreg = s.txreg := rfl
@[simp] theorem State.setTxirq_rxreg (s : State) v : (s.setTxirq v).rxreg = s.rxreg := rfl
@[simp] theorem State.setTxirq_txirq (s : State) v : (s.setTxirq v).txirq = v := rfl
@[simp] theorem State.setTxirq_rxirq (s : State) v : (s.setTxirq v).rxirq = s.rxirq := rfl
@[simp] theorem State.setTxirq_csum (s : State) v : (s.setTxirq v).csum = s.csum := rfl
@[simp] theorem State.setTxirq_result (s : State) v : (s.setTxirq v).result = s.result := rfl
@[simp] theorem State.setTxirq_resultValid (s : State) v : (s.setTxirq v).resultValid = s.resultValid := rfl
@[simp] theorem State.setTxirq_resp (s : State) v : (s.setTxirq v).resp = s.resp := rfl
@[simp] theorem State.setTxirq_respLen (s : State) v : (s.setTxirq v).respLen = s.respLen := rfl
@[simp] theorem State.setTxirq_dbuf (s : State) v : (s.setTxirq v).dbuf = s.dbuf := rfl
@[simp] theorem State.setTxirq_seq (s : State) v : (s.setTxirq v).seq = s.seq := rfl
@[simp] theorem State.setTxirq_powerCut (s : State) v : (s.setTxirq v).powerCut = s.powerCut := rfl
@[simp] theorem State.setTxirq_wire (s : State) v : (s.setTxirq v).wire = s.wire := rfl
@[simp] theorem State.setTxirq_pcutTrace (s : State) v : (s.setTxirq v).pcutTrace = s.pcutTrace := rfl
@[simp] theorem State.setTxirq_cmd (s : State) v : (s.setTxirq v).cmd = s.cmd := rfl
@[simp] theorem State.setTxirq_sched (s : State) v : (s.setTxirq v).sched = s.sched := rfl
@[simp] theorem State.setTxirq_rails (s : State) v : (s.setTxirq v).rails = s.rails := rfl
@[simp] theorem State.setTxirq_freeCtr (s : State) v : (s.setTxirq v).freeCtr = s.freeCtr := rfl
@[simp] theorem State.setTxirq_params (s : State) v : (s.setTxirq v).params = s.params := rfl
@[simp] theorem State.setRxirq_rbRx (s : State) v : (s.setRxirq v).rbRx = s.rbRx := rfl
@[simp] theorem State.setRxirq_rbTx (s : State) v : (s.setRxirq v).rbTx = s.rbTx := rfl
@[simp] theorem State.setRxirq_txIdle (s : State) v : (s.setRxirq v).txIdle = s.txIdle := rfl
@[simp] theorem State.setRxirq_rxie (s : State) v : (s.setRxirq v).rxie = s.rxie := rfl
@[simp] theorem State.setRxirq_gie (s : State) v : (s.setRxirq v).gie = s.gie := rfl
@[simp] theorem State.setRxirq_baud (s : State) v : (s.setRxirq v).baud = s.baud := rfl
@[simp] theorem State.setRxirq_lineMode (s : State) v : (s.setRxirq v).lineMode = s.lineMode := rfl
@[simp] theorem State.setRxirq_txreg (s : State) v : (s.setRxirq v).txreg = s.txreg := rfl
@[simp] theorem State.setRxirq_rxreg (s : State) v : (s.setRxirq v).rxreg = s.rxreg := rfl
@[simp] theorem State.setRxirq_txirq (s : State) v : (s.setRxirq v).txirq = s.txirq := rfl
@[simp] theorem State.setRxirq_rxirq (s : State) v : (s.setRxirq v).rxirq = v := rfl
@[simp] theorem State.setRxirq_csum (s : State) v : (s.setRxirq v).csum = s.csum := rfl
@[simp] theorem State.setRxirq_result (s : State) v : (s.setRxirq v).result = s.result := rfl
@[simp] theorem State.setRxirq_resultValid (s : State) v : (s.setRxirq v).resultValid = s.resultValid := rfl
@[simp] theorem State.setRxirq_resp (s : State) v : (s.setRxirq v).resp = s.resp := rfl
@[simp] theorem State.setRxirq_respLen (s : State) v : (s.setRxirq v).respLen = s.respLen := rfl
@[simp] theorem State.setRxirq_dbuf (s : State) v : (s.setRxirq v).dbuf = s.dbuf := rfl
@[simp] theorem State.setRxirq_seq (s : State) v : (s.setRxirq v).seq = s.seq := rfl
@[simp] theorem State.setRxirq_powerCut (s : State) v : (s.setRxirq v).powerCut = s.powerCut := rfl
@[simp] theorem State.setRxirq_wire (s : State) v : (s.setRxirq v).wire = s.wire := rfl
@[simp] theorem State.setRxirq_pcutTrace (s : State) v : (s.setRxirq v).pcutTrace = s.pcutTrace := rfl
@[simp] theorem State.setRxirq_cmd (s : State) v : (s.setRxirq v).cmd = s.cmd := rfl
@[simp] theorem State.setRxirq_sched (s : State) v : (s.setRxirq v).sched = s.sched := rfl
@[simp] theorem State.setRxirq_rails (s : State) v : (s.setRxirq v).rails = s.rails := rfl
@[simp] theorem State.setRxirq_freeCtr (s : State) v : (s.setRxirq v).freeCtr = s.freeCtr := rfl
@[simp] theorem State.setRxirq_params (s : State) v : (s.setRxirq v).params = s.params := rfl
@[simp] theorem State.setCsum_rbRx (s : State) v : (s.setCsum v).rbRx = s.rbRx := rfl
@[simp] theorem State.setCsum_rbTx (s : State) v : (s.setCsum v).rbTx = s.rbTx := rfl
@[simp] theorem State.setCsum_txIdle (s : State) v : (s.setCsum v).txIdle = s.txIdle := rfl
@[simp] theorem State.setCsum_rxie (s : State) v : (s.setCsum v).rxie = s.rxie := rfl
@[simp] theorem State.setCsum_gie (s : State) v : (s.setCsum v).gie = s.gie := rfl
@[simp] theorem State.setCsum_baud (s : State) v : (s.setCsum v).baud = s.baud := rfl
@[simp] theorem State.setCsum_lineMode (s : State) v : (s.setCsum v).lineMode = s.lineMode := rfl
@[simp] theorem State.setCsum_txreg (s : State) v : (s.setCsum v).txreg = s.txreg := rfl
@[simp] theorem State.setCsum_rxreg (s : State) v : (s.setCsum v).rxreg = s.rxreg := rfl
@[simp] theorem State.setCsum_txirq (s : State) v : (s.setCsum v).txirq = s.txirq := rfl
@[simp] theorem State.setCsum_rxirq (s : State) v : (s.setCsum v).rxirq = s.rxirq := rfl
@[simp] theorem State.setCsum_csum (s : State) v : (s.setCsum v).csum = v := rfl
@[simp] theorem State.setCsum_result (s : State) v : (s.setCsum v).result = s.result := rfl
@[simp] theorem State.setCsum_resultValid (s : State) v : (s.setCsum v).resultValid = s.resultValid := rfl
@[simp] theorem State.setCsum_resp (s : State) v : (s.setCsum v).resp = s.resp := rfl
@[simp] theorem State.setCsum_respLen (s : State) v : (s.setCsum v).respLen = s.respLen := rfl
@[simp] theorem State.setCsum_dbuf (s : State) v : (s.setCsum v).dbuf = s.dbuf := rfl
@[simp] theorem State.setCsum_seq (s : State) v : (s.setCsum v).seq = s.seq := rfl
@[simp] theorem State.setCsum_powerCut (s : State) v : (s.setCsum v).powerCut = s.powerCut := rfl
@[simp] theorem State.setCsum_wire (s : State) v : (s.setCsum v).wire = s.wire := rfl
@[simp] theorem State.setCsum_pcutTrace (s : State) v : (s.setCsum v).pcutTrace = s.pcutTrace := rfl
@[simp] theorem State.setCsum_cmd (s : State) v : (s.setCsum v).cmd = s.cmd := rfl
@[simp] theorem State.setCsum_sched (s : State) v : (s.setCsum v).sched = s.sched := rfl
@[simp] theorem State.setCsum_rails (s : State) v : (s.setCsum v).rails = s.rails := rfl
@[simp] theorem State.setCsum_freeCtr (s : State) v : (s.setCsum v).freeCtr = s.freeCtr := rfl
@[simp] theorem State.setCsum_params (s : State) v : (s.setCsum v).params = s.params := rfl
@[simp] theorem State.setResult_rbRx (s : State) v : (s.setResult v).rbRx = s.rbRx := rfl
@[simp] theorem State.setResult_rbTx (s : State) v : (s.setResult v).rbTx = s.rbTx := rfl
@[simp] theorem State.setResult_txIdle (s : State) v : (s.setResult v).txIdle = s.txIdle := rfl
@[simp] theorem State.setResult_rxie (s : State) v : (s.setResult v).rxie = s.rxie := rfl
@[simp] theorem State.setResult_gie (s : State) v : (s.setResult v).gie = s.gie := rfl
@[simp] theorem State.setResult_baud (s : State) v : (s.setResult v).baud = s.baud := rfl
@[simp] theorem State.setResult_lineMode (s : State) v : (s.setResult v).lineMode = s.lineMode := rfl
@[simp] theorem State.setResult_txreg (s : State) v : (s.setResult v).txreg = s.txreg := rfl
@[simp] theorem State.setResult_rxreg (s : State) v : (s.setResult v).rxreg = s.rxreg := rfl
@[simp] theorem State.setResult_txirq (s : State) v : (s.setResult v).txirq = s.txirq := rfl
@[simp] theorem State.setResult_rxirq (s : State) v : (s.setResult v).rxirq = s.rxirq := rfl
@[simp] theorem State.setResult_csum (s : State) v : (s.setResult v).csum = s.csum := rfl
@[simp] theorem State.setResult_result (s : State) v : (s.setResult v).result = v := rfl
@[simp] theorem State.setResult_resultValid (s : State) v : (s.setResult v).resultValid = s.resultValid := rfl
@[simp] theorem State.setResult_resp (s : State) v : (s.setResult v).resp = s.resp := rfl
@[simp] theorem State.setResult_respLen (s : State) v : (s.setResult v).respLen = s.respLen := rfl
@[simp] theorem State.setResult_dbuf (s : State) v : (s.setResult v).dbuf = s.dbuf := rfl
@[simp] theorem State.setResult_seq (s : State) v : (s.setResult v).seq = s.seq := rfl
@[simp] theorem State.setResult_powerCut (s : State) v : (s.setResult v).powerCut = s.powerCut := rfl
@[simp] theorem State.setResult_wire (s : State) v : (s.setResult v).wire = s.wire := rfl
@[simp] theorem State.setResult_pcutTrace (s : State) v : (s.setResult v).pcutTrace = s.pcutTrace := rfl
@[simp] theorem State.setResult_cmd (s : State) v : (s.setResult v).cmd = s.cmd := rfl
@[simp] theorem State.setResult_sched (s : State) v : (s.setResult v).sched = s.sched := rfl
@[simp] theorem State.setResult_rails (s : State) v : (s.setResult v).rails = s.rails := rfl
@[simp] theorem State.setResult_freeCtr (s : State) v : (s.setResult v).freeCtr = s.freeCtr := rfl
@[simp] theorem State.setResult_params (s : State) v : (s.setResult v).params = s.params := rfl
@[simp] theorem State.setResultValid_rbRx (s : State) v : (s.setResultValid v).rbRx = s.rbRx := rfl
@[simp] theorem State.setResultValid_rbTx (s : State) v : (s.setResultValid v).rbTx = s.rbTx := rfl
@[simp] theorem State.setResultValid_txIdle (s : State) v : (s.setResultValid v).txIdle = s.txIdle := rfl
@[simp] theorem State.setResultValid_rxie (s : State) v : (s.setResultValid v).rxie = s.rxie := rfl
@[simp] theorem State.setResultValid_gie (s : State) v : (s.setResultValid v).gie = s.gie := rfl
@[simp] theorem State.setResultValid_baud (s : State) v : (s.setResultValid v).baud = s.baud := rfl
@[simp] theorem State.setResultValid_lineMode (s : State) v : (s.setResultValid v).lineMode = s.lineMode := rfl
@[simp] theorem State.setResultValid_txreg (s : State) v : (s.setResultValid v).txreg = s.txreg := rfl
@[simp] theorem State.setResultValid_rxreg (s : State) v : (s.setResultValid v).rxreg = s.rxreg := rfl
@[simp] theorem State.setResultValid_txirq (s : State) v : (s.setResultValid v).txirq = s.txirq := rfl
@[simp] theorem State.setResultValid_rxirq (s : State) v : (s.setResultValid v).rxirq = s.rxirq := rfl
@[simp] theorem State.setResultValid_csum (s : State) v : (s.setResultValid v).csum = s.csum := rfl
@[simp] theorem State.setResultValid_result (s : State) v : (s.setResultValid v).result = s.result := rfl
@[simp] theorem State.setResultValid_resultValid (s : State) v : (s.setResultValid v).resultValid = v := rfl
@[simp] theorem State.setResultValid_resp (s : State) v : (s.setResultValid v).resp = s.resp := rfl
@[simp] theorem State.setResultValid_respLen (s : State) v : (s.setResultValid v).respLen = s.respLen := rfl
@[simp] theorem State.setResultValid_dbuf (s : State) v : (s.setResultValid v).dbuf = s.dbuf := rfl
@[simp] theorem State.setResultValid_seq (s : State) v : (s.setResultValid v).seq = s.seq := rfl
@[simp] theorem State.setResultValid_powerCut (s : State) v : (s.setResultValid v).powerCut = s.powerCut := rfl
@[simp] theorem State.setResultValid_wire (s : State) v : (s.setResultValid v).wire = s.wire := rfl
@[simp] theorem State.setResultValid_pcutTrace (s : State) v : (s.setResultValid v).pcutTrace = s.pcutTrace := rfl
@[simp] theorem State.setResultValid_cmd (s : State) v : (s.setResultValid v).cmd = s.cmd := rfl
@[simp] theorem State.setResultValid_sched (s : State) v : (s.setResultValid v).sched = s.sched := rfl
@[simp] theorem State.setResultValid_rails (s : State) v : (s.setResultValid v).rails = s.rails := rfl
@[simp] theorem State.setResultValid_freeCtr (s : State) v : (s.setResultValid v).freeCtr = s.freeCtr := rfl
@[simp] theorem State.setResultValid_params (s : State) v : (s.setResultValid v).params = s.params := rfl
@[simp] theorem State.setResp_rbRx (s : State) v : (s.setResp v).rbRx = s.rbRx := rfl
@[simp] theorem State.setResp_rbTx (s : State) v : (s.setResp v).rbTx = s.rbTx := rfl
@[simp] theorem State.setResp_txIdle (s : State) v : (s.setResp v).txIdle = s.txIdle := rfl
@[simp] theorem State.setResp_rxie (s : State) v : (s.setResp v).rxie = s.rxie := rfl
@[simp] theorem State.setResp_gie (s : State) v : (s.setResp v).gie = s.gie := rfl
@[simp] theorem State.setResp_baud (s : State) v : (s.setResp v).baud = s.baud := rfl
@[simp] theorem State.setResp_lineMode (s : State) v : (s.setResp v).lineMode = s.lineMode := rfl
@[simp] theorem State.setResp_txreg (s : State) v : (s.setResp v).txreg = s.txreg := rfl
@[simp] theorem State.setResp_rxreg (s : State) v : (s.setResp v).rxreg = s.rxreg := rfl
@[simp] theorem State.setResp_txirq (s : State) v : (s.setResp v).txirq = s.txirq := rfl
@[simp] theorem State.setResp_rxirq (s : State) v : (s.setResp v).rxirq = s.rxirq := rfl
@[simp] theorem State.setResp_csum (s : State) v : (s.setResp v).csum = s.csum := rfl
@[simp] theorem State.setResp_result (s : State) v : (s.setResp v).result = s.result := rfl
@[simp] theorem State.setResp_resultValid (s : State) v : (s.setResp v).resultValid = s.resultValid := rfl
@[simp] theorem State.setResp_resp (s : State) v : (s.setResp v).resp = v := rfl
@[simp] theorem State.setResp_respLen (s : State) v : (s.setResp v).respLen = s.respLen := rfl
@[simp] theorem State.setResp_dbuf (s : State) v : (s.setResp v).dbuf = s.dbuf := rfl
@[simp] theorem State.setResp_seq (s : State) v : (s.setResp v).seq = s.seq := rfl
@[simp] theorem State.setResp_powerCut (s : State) v : (s.setResp v).powerCut = s.powerCut := rfl
@[simp] theorem State.setResp_wire (s : State) v : (s.setResp v).wire = s.wire := rfl
@[simp] theorem State.setResp_pcutTrace (s : State) v : (s.setResp v).pcutTrace = s.pcutTrace := rfl
@[simp] theorem State.setResp_cmd (s : State) v : (s.setResp v).cmd = s.cmd := rfl
@[simp] theorem State.setResp_sched (s : State) v : (s.setResp v).sched = s.sched := rfl
@[simp] theorem State.setResp_rails (s : State) v : (s.setResp v).rails = s.rails := rfl
@[simp] theorem State.setResp_freeCtr (s : State) v : (s.setResp v).freeCtr = s.freeCtr := rfl
@[simp] theorem State.setResp_params (s : State) v : (s.setResp v).params = s.params := rfl
@[simp] theorem State.setRespLen_rbRx (s : State) v : (s.setRespLen v).rbRx = s.rbRx := rfl
@[simp] theorem State.setRespLen_rbTx (s : State) v : (s.setRespLen v).rbTx = s.rbTx := rfl
@[simp] theorem State.setRespLen_txIdle (s : State) v : (s.setRespLen v).txIdle = s.txIdle := rfl
@[simp] theorem State.setRespLen_rxie (s : State) v : (s.setRespLen v).rxie = s.rxie := rfl
@[simp] theorem State.setRespLen_gie (s : State) v : (s.setRespLen v).gie = s.gie := rfl
@[simp] theorem State.setRespLen_baud (s : State) v : (s.setRespLen v).baud = s.baud := rfl
@[simp] theorem State.setRespLen_lineMode (s : State) v : (s.setRespLen v).lineMode = s.lineMode := rfl
@[simp] theorem State.setRespLen_txreg (s : State) v : (s.setRespLen v).txreg = s.txreg := rfl
@[simp] theorem State.setRespLen_rxreg (s : State) v : (s.setRespLen v).rxreg = s.rxreg := rfl
@[simp] theorem State.setRespLen_txirq (s : State) v : (s.setRespLen v).txirq = s.txirq := rfl
@[simp] theorem State.setRespLen_rxirq (s : State) v : (s.setRespLen v).rxirq = s.rxirq := rfl
@[simp] theorem State.setRespLen_csum (s : State) v : (s.setRespLen v).csum = s.csum := rfl
@[simp] theorem State.setRespLen_result (s : State) v : (s.setRespLen v).result = s.result := rfl
@[simp] theorem State.setRespLen_resultValid (s : State) v : (s.setRespLen v).resultValid = s.resultValid := rfl
@[simp] theorem State.setRespLen_resp (s : State) v : (s.setRespLen v).resp = s.resp := rfl
@[simp] theorem State.setRespLen_respLen (s : State) v : (s.setRespLen v).respLen = v := rfl
@[simp] theorem State.setRespLen_dbuf (s : State) v : (s.setRespLen v).dbuf = s.dbuf := rfl
@[simp] theorem State.setRespLen_seq (s : State) v : (s.setRespLen v).seq = s.seq := rfl
@[simp] theorem State.setRespLen_powerCut (s : State) v : (s.setRespLen v).powerCut = s.powerCut := rfl
@[simp] theorem State.setRespLen_wire (s : State) v : (s.setRespLen v).wire = s.wire := rfl
@[simp] theorem State.setRespLen_pcutTrace (s : State) v : (s.setRespLen v).pcutTrace = s.pcutTrace := rfl
@[simp] theorem State.setRespLen_cmd (s : State) v : (s.setRespLen v).cmd = s.cmd := rfl
@[simp] theorem State.setRespLen_sched (s : State) v : (s.setRespLen v).sched = s.sched := rfl
@[simp] theorem State.setRespLen_rails (s : State) v : (s.setRespLen v).rails = s.rails := rfl
@[simp] theorem State.setRespLen_freeCtr (s : State) v : (s.setRespLen v).freeCtr = s.freeCtr := rfl
@[simp] theorem State.setRespLen_params (s : State) v : (s.setRespLen v).params = s.params := rfl
@[simp] theorem State.setDbuf_rbRx (s : State) v : (s.setDbuf v).rbRx = s.rbRx := rfl
@[simp] theorem State.setDbuf_rbTx (s : State) v : (s.setDbuf v).rbTx = s.rbTx := rfl
@[simp] theorem State.setDbuf_txIdle (s : State) v : (s.setDbuf v).txIdle = s.txIdle := rfl
@[simp] theorem State.setDbuf_rxie (s : State) v : (s.setDbuf v).rxie = s.rxie := rfl
@[simp] theorem State.setDbuf_gie (s : State) v : (s.setDbuf v).gie = s.gie := rfl
@[simp] theorem State.setDbuf_baud (s : State) v : (s.setDbuf v).baud = s.baud := rfl
@[simp] theorem State.setDbuf_lineMode (s : State) v : (s.setDbuf v).lineMode = s.lineMode := rfl
@[simp] theorem State.setDbuf_txreg (s : State) v : (s.setDbuf v).txreg = s.txreg := rfl
@[simp] theorem State.setDbuf_rxreg (s : State) v : (s.setDbuf v).rxreg = s.rxreg := rfl
@[simp] theorem State.setDbuf_txirq (s : State) v : (s.setDbuf v).txirq = s.txirq := rfl
@[simp] theorem State.setDbuf_rxirq (s : State) v : (s.setDbuf v).rxirq = s.rxirq := rfl
@[simp] theorem State.setDbuf_csum (s : State) v : (s.setDbuf v).csum = s.csum := rfl
@[simp] theorem State.setDbuf_result (s : State) v : (s.setDbuf v).result = s.result := rfl
@[simp] theorem State.setDbuf_resultValid (s : State) v : (s.setDbuf v).resultValid = s.resultValid := rfl
@[simp] theorem State.setDbuf_resp (s : State) v : (s.setDbuf v).resp = s.resp := rfl
@[simp] theorem State.setDbuf_respLen (s : State) v : (s.setDbuf v).respLen = s.respLen := rfl
@[simp] theorem State.setDbuf_dbuf (s : State) v : (s.setDbuf v).dbuf = v := rfl
@[simp] theorem State.setDbuf_seq (s : State) v : (s.setDbuf v).seq = s.seq := rfl
@[simp] theorem State.setDbuf_powerCut (s : State) v : (s.setDbuf v).powerCut = s.powerCut := rfl
@[simp] theorem State.setDbuf_wire (s : State) v : (s.setDbuf v).wire = s.wire := rfl
@[simp] theorem State.setDbuf_pcutTrace (s : State) v : (s.setDbuf v).pcutTrace = s.pcutTrace := rfl
@[simp] theorem State.setDbuf_cmd (s : State) v : (s.setDbuf v).cmd = s.cmd := rfl
@[simp] theorem State.setDbuf_sched (s : State) v : (s.setDbuf v).sched = s.sched := rfl
@[simp] theorem State.setDbuf_rails (s : State) v : (s.setDbuf v).rails = s.rails := rfl
@[simp] theorem State.setDbuf_freeCtr (s : State) v : (s.setDbuf v).freeCtr = s.freeCtr := rfl
@[simp] theorem State.setDbuf_params (s : State) v : (s.setDbuf v).params = s.params := rfl
@[simp] theorem State.setSeq_rbRx (s : State) v : (s.setSeq v).rbRx = s.rbRx := rfl
@[simp] theorem State.setSeq_rbTx (s : State) v : (s.setSeq v).rbTx = s.rbTx := rfl
@[simp] theorem State.setSeq_txIdle (s : State) v : (s.setSeq v).txIdle = s.txIdle := rfl
@[simp] theorem State.setSeq_rxie (s : State) v : (s.setSeq v).rxie = s.rxie := rfl
@[simp] theorem State.setSeq_gie (s : State) v : (s.setSeq v).gie = s.gie := rfl
@[simp] theorem State.setSeq_baud (s : State) v : (s.setSeq v).baud = s.baud := rfl
@[simp] theorem State.setSeq_lineMode (s : State) v : (s.setSeq v).lineMode = s.lineMode := rfl
@[simp] theorem State.setSeq_txreg (s : State) v : (s.setSeq v).txreg = s.txreg := rfl
@[simp] theorem State.setSeq_rxreg (s : State) v : (s.setSeq v).rxreg = s.rxreg := rfl
@[simp] theorem State.setSeq_txirq (s : State) v : (s.setSeq v).txirq = s.txirq := rfl
@[simp] theorem State.setSeq_rxirq (s : State) v : (s.setSeq v).rxirq = s.rxirq := rfl
@[simp] theorem State.setSeq_csum (s : State) v : (s.setSeq v).csum = s.csum := rfl
@[simp] theorem State.setSeq_result (s : State) v : (s.setSeq v).result = s.result := rfl
@[simp] theorem State.setSeq_resultValid (s : State) v : (s.setSeq v).resultValid = s.resultValid := rfl
@[simp] theorem State.setSeq_resp (s : State) v : (s.setSeq v).resp = s.resp := rfl
@[simp] theorem State.setSeq_respLen (s : State) v : (s.setSeq v).respLen = s.respLen := rfl
@[simp] theorem State.setSeq_dbuf (s : State) v : (s.setSeq v).dbuf = s.dbuf := rfl
@[simp] theorem State.setSeq_seq (s : State) v : (s.setSeq v).seq = v := rfl
@[simp] theorem State.setSeq_powerCut (s : State) v : (s.setSeq v).powerCut = s.powerCut := rfl
@[simp] theorem State.setSeq_wire (s : State) v : (s.setSeq v).wire = s.wire := rfl
@[simp] theorem State.setSeq_pcutTrace (s : State) v : (s.setSeq v).pcutTrace = s.pcutTrace := rfl
@[simp] theorem State.setSeq_cmd (s : State) v : (s.setSeq v).cmd = s.cmd := rfl
@[simp] theorem State.setSeq_sched (s : State) v : (s.setSeq v).sched = s.sched := rfl
@[simp] theorem State.setSeq_rails (s : State) v : (s.setSeq v).rails = s.rails := rfl
@[simp] theorem State.setSeq_freeCtr (s : State) v : (s.setSeq v).freeCtr = s.freeCtr := rfl
@[simp] theorem State.setSeq_params (s : State) v : (s.setSeq v).params = s.params := rfl
@[simp] theorem State.setPowerCut_rbRx (s : State) v : (s.setPowerCut v).rbRx = s.rbRx := rfl
@[simp] theorem State.setPowerCut_rbTx (s : State) v : (s.setPowerCut v).rbTx = s.rbTx := rfl
@[simp] theorem State.setPowerCut_txIdle (s : State) v : (s.setPowerCut v).txIdle = s.txIdle := rfl
@[simp] theorem State.setPowerCut_rxie (s : State) v : (s.setPowerCut v).rxie = s.rxie := rfl
@[simp] theorem State.setPowerCut_gie (s : State) v : (s.setPowerCut v).gie = s.gie := rfl
@[simp] theorem State.setPowerCut_baud (s : State) v : (s.setPowerCut v).baud = s.baud := rfl
@[simp] theorem State.setPowerCut_lineMode (s : State) v : (s.setPowerCut v).lineMode = s.lineMode := rfl
@[simp] theorem State.setPowerCut_txreg (s : State) v : (s.setPowerCut v).txreg = s.txreg := rfl
@[simp] theorem State.setPowerCut_rxreg (s : State) v : (s.setPowerCut v).rxreg = s.rxreg := rfl
@[simp] theorem State.setPowerCut_txirq (s : State) v : (s.setPowerCut v).txirq = s.txirq := rfl
@[simp] theorem State.setPowerCut_rxirq (s : State) v : (s.setPowerCut v).rxirq = s.rxirq := rfl
@[simp] theorem State.setPowerCut_csum (s : State) v : (s.setPowerCut v).csum = s.csum := rfl
@[simp] theorem State.setPowerCut_result (s : State) v : (s.setPowerCut v).result = s.result := rfl
@[simp] theorem State.setPowerCut_resultValid (s : State) v : (s.setPowerCut v).resultValid = s.resultValid := rfl
@[simp] theorem State.setPowerCut_resp (s : State) v : (s.setPowerCut v).resp = s.resp := rfl
@[simp] theorem State.setPowerCut_respLen (s : State) v : (s.setPowerCut v).respLen = s.respLen := rfl
@[simp] theorem State.setPowerCut_dbuf (s : State) v : (s.setPowerCut v).dbuf = s.dbuf := rfl
@[simp] theorem State.setPowerCut_seq (s : State) v : (s.setPowerCut v).seq = s.seq := rfl
@[simp] theorem State.setPowerCut_powerCut (s : State) v : (s.setPowerCut v).powerCut = v := rfl
@[simp] theorem State.setPowerCut_wire (s : State) v : (s.setPowerCut v).wire = s.wire := rfl
@[simp] theorem State.setPowerCut_pcutTrace (s : State) v : (s.setPowerCut v).pcutTrace = s.pcutTrace := rfl
@[simp] theorem State.setPowerCut_cmd (s : State) v : (s.setPowerCut v).cmd = s.cmd := rfl
@[simp] theorem State.setPowerCut_sched (s : State) v : (s.setPowerCut v).sched = s.sched := rfl
@[simp] theorem State.setPowerCut_rails (s : State) v : (s.setPowerCut v).rails = s.rails := rfl
@[simp] theorem State.setPowerCut_freeCtr (s : State) v : (s.setPowerCut v).freeCtr = s.freeCtr := rfl
@[simp] theorem State.setPowerCut_params (s : State) v : (s.setPowerCut v).params = s.params := rfl
@[simp] theorem State.setWire_rbRx (s : State) v : (s.setWire v).rbRx = s.rbRx := rfl
@[simp] theorem State.setWire_rbTx (s : State) v : (s.setWire v).rbTx = s.rbTx := rfl
@[simp] theorem State.setWire_txIdle (s : State) v : (s.setWire v).txIdle = s.txIdle := rfl
@[simp] theorem State.setWire_rxie (s : State) v : (s.setWire v).rxie = s.rxie := rfl
@[simp] theorem State.setWire_gie (s : State) v : (s.setWire v).gie = s.gie := rfl
@[simp] theorem State.setWire_baud (s : State) v : (s.setWire v).baud = s.baud := rfl
@[simp] theorem State.setWire_lineMode (s : State) v : (s.setWire v).lineMode = s.lineMode := rfl
@[simp] theorem State.setWire_txreg (s : State) v : (s.setWire v).txreg = s.txreg := rfl
@[simp] theorem State.setWire_rxreg (s : State) v : (s.setWire v).rxreg = s.rxreg := rfl
@[simp] theorem State.setWire_txirq (s : State) v : (s.setWire v).txirq = s.txirq := rfl
@[simp] theorem State.setWire_rxirq (s : State) v : (s.setWire v).rxirq = s.rxirq := rfl
@[simp] theorem State.setWire_csum (s : State) v : (s.setWire v).csum = s.csum := rfl
@[simp] theorem State.setWire_result (s : State) v : (s.setWire v).result = s.result := rfl
@[simp] theorem State.setWire_resultValid (s : State) v : (s.setWire v).resultValid = s.resultValid := rfl
@[simp] theorem State.setWire_resp (s : State) v : (s.setWire v).resp = s.resp := rfl
@[simp] theorem State.setWire_respLen (s : State) v : (s.setWire v).respLen = s.respLen := rfl
@[simp] theorem State.setWire_dbuf (s : State) v : (s.setWire v).dbuf = s.dbuf := rfl
@[simp] theorem State.setWire_seq (s : State) v : (s.setWire v).seq = s.seq := rfl
@[simp] theorem State.setWire_powerCut (s : State) v : (s.setWire v).powerCut = s.powerCut := rfl
@[simp] theorem State.setWire_wire (s : State) v : (s.setWire v).wire = v := rfl
@[simp] theorem State.setWire_pcutTrace (s : State) v : (s.setWire v).pcutTrace = s.pcutTrace := rfl
@[simp] theorem State.setWire_cmd (s : State) v : (s.setWire v).cmd = s.cmd := rfl
@[simp] theorem State.setWire_sched (s : State) v : (s.setWire v).sched = s.sched := rfl
@[simp] theorem State.setWire_rails (s : State) v : (s.setWire v).rails = s.rails := rfl
@[simp] theorem State.setWire_freeCtr (s : State) v : (s.setWire v).freeCtr = s.freeCtr := rfl
@[simp] theorem State.setWire_params (s : State) v : (s.setWire v).params = s.params := rfl
@[simp] theorem State.setPcutTrace_rbRx (s : State) v : (s.setPcutTrace v).rbRx = s.rbRx := rfl
@[simp] theorem State.setPcutTrace_rbTx (s : State) v : (s.setPcutTrace v).rbTx = s.rbTx := rfl
@[simp] theorem State.setPcutTrace_txIdle (s : State) v : (s.setPcutTrace v).txIdle = s.txIdle := rfl
@[simp] theorem State.setPcutTrace_rxie (s : State) v : (s.setPcutTrace v).rxie = s.rxie := rfl
@[simp] theorem State.setPcutTrace_gie (s : State) v : (s.setPcutTrace v).gie = s.gie := rfl
@[simp] theorem State.setPcutTrace_baud (s : State) v : (s.setPcutTrace v).baud = s.baud := rfl
@[simp] theorem State.setPcutTrace_lineMode (s : State) v : (s.setPcutTrace v).lineMode = s.lineMode := rfl
@[simp] theorem State.setPcutTrace_txreg (s : State) v : (s.setPcutTrace v).txreg = s.txreg := rfl
@[simp] theorem State.setPcutTrace_rxreg (s : State) v : (s.setPcutTrace v).rxreg = s.rxreg := rfl
@[simp] theorem State.setPcutTrace_txirq (s : State) v : (s.setPcutTrace v).txirq = s.txirq := rfl
@[simp] theorem State.setPcutTrace_rxirq (s : State) v : (s.setPcutTrace v).rxirq = s.rxirq := rfl
@[simp] theorem State.setPcutTrace_csum (s : State) v : (s.setPcutTrace v).csum = s.csum := rfl
@[simp] theorem State.setPcutTrace_result (s : State) v : (s.setPcutTrace v).result = s.result := rfl
@[simp] theorem State.setPcutTrace_resultValid (s : State) v : (s.setPcutTrace v).resultValid = s.resultValid := rfl
@[simp] theorem State.setPcutTrace_resp (s : State) v : (s.setPcutTrace v).resp = s.resp := rfl
@[simp] theorem State.setPcutTrace_respLen (s : State) v : (s.setPcutTrace v).respLen = s.respLen := rfl
@[simp] theorem State.setPcutTrace_dbuf (s : State) v : (s.setPcutTrace v).dbuf = s.dbuf := rfl
@[simp] theorem State.setPcutTrace_seq (s : State) v : (s.setPcutTrace v).seq = s.seq := rfl
@[simp] theorem State.setPcutTrace_powerCut (s : State) v : (s.setPcutTrace v).powerCut = s.powerCut := rfl
@[simp] theorem State.setPcutTrace_wire (s : State) v : (s.setPcutTrace v).wire = s.wire := rfl
@[simp] theorem State.setPcutTrace_pcutTrace (s : State) v : (s.setPcutTrace v).pcutTrace = v := rfl
@[simp] theorem State.setPcutTrace_cmd (s : State) v : (s.setPcutTrace v).cmd = s.cmd := rfl
@[simp] theorem State.setPcutTrace_sched (s : State) v : (s.setPcutTrace v).sched = s.sched := rfl
@[simp] theorem State.setPcutTrace_rails (s : State) v : (s.setPcutTrace v).rails = s.rails := rfl
@[simp] theorem State.setPcutTrace_freeCtr (s : State) v : (s.setPcutTrace v).freeCtr = s.freeCtr := rfl
@[simp] theorem State.setPcutTrace_params (s : State) v : (s.setPcutTrace v).params = s.params := rfl
@[simp] theorem State.setCmd_rbRx (s : State) v : (s.setCmd v).rbRx = s.rbRx := rfl
@[simp] theorem State.setCmd_rbTx (s : State) v : (s.setCmd v).rbTx = s.rbTx := rfl
@[simp] theorem State.setCmd_txIdle (s : State) v : (s.setCmd v).txIdle = s.txIdle := rfl
@[simp] theorem State.setCmd_rxie (s : State) v : (s.setCmd v).rxie = s.rxie := rfl
@[simp] theorem State.setCmd_gie (s : State) v : (s.setCmd v).gie = s.gie := rfl
@[simp] theorem State.setCmd_baud (s : State) v : (s.setCmd v).baud = s.baud := rfl
@[simp] theorem State.setCmd_lineMode (s : State) v : (s.setCmd v).lineMode = s.lineMode := rfl
@[simp] theorem State.setCmd_txreg (s : State) v : (s.setCmd v).txreg = s.txreg := rfl
@[simp] theorem State.setCmd_rxreg (s : State) v : (s.setCmd v).rxreg = s.rxreg := rfl
@[simp] theorem State.setCmd_txirq (s : State) v : (s.setCmd v).txirq = s.txirq := rfl
@[simp] theorem State.setCmd_rxirq (s : State) v : (s.setCmd v).rxirq = s.rxirq := rfl
@[simp] theorem State.setCmd_csum (s : State) v : (s.setCmd v).csum = s.csum := rfl
@[simp] theorem State.setCmd_result (s : State) v : (s.setCmd v).result = s.result := rfl
@[simp] theorem State.setCmd_resultValid (s : State) v : (s.setCmd v).resultValid = s.resultValid := rfl
@[simp] theorem State.setCmd_resp (s : State) v : (s.setCmd v).resp = s.resp := rfl
@[simp] theorem State.setCmd_respLen (s : State) v : (s.setCmd v).respLen = s.respLen := rfl
@[simp] theorem State.setCmd_dbuf (s : State) v : (s.setCmd v).dbuf = s.dbuf := rfl
@[simp] theorem State.setCmd_seq (s : State) v : (s.setCmd v).seq = s.seq := rfl
@[simp] theorem State.setCmd_powerCut (s : State) v : (s.setCmd v).powerCut = s.powerCut := rfl
@[simp] theorem State.setCmd_wire (s : State) v : (s.setCmd v).wire = s.wire := rfl
@[simp] theorem State.setCmd_pcutTrace (s : State) v : (s.setCmd v).pcutTrace = s.pcutTrace := rfl
@[simp] theorem State.setCmd_cmd (s : State) v : (s.setCmd v).cmd = v := rfl
@[simp] theorem State.setCmd_sched (s : State) v : (s.setCmd v).sched = s.sched := rfl
@[simp] theorem State.setCmd_rails (s : State) v : (s.setCmd v).rails = s.rails := rfl
@[simp] theorem State.setCmd_freeCtr (s : State) v : (s.setCmd v).freeCtr = s.freeCtr := rfl
@[simp] theorem State.setCmd_params (s : State) v : (s.setCmd v).params = s.params := rfl
@[simp] theorem State.setSched_rbRx (s : State) v : (s.setSched v).rbRx = s.rbRx := rfl
@[simp] theorem State.setSched_rbTx (s : State) v : (s.setSched v).rbTx = s.rbTx := rfl
@[simp] theorem State.setSched_txIdle (s : State) v : (s.setSched v).txIdle = s.txIdle := rfl
@[simp] theorem State.setSched_rxie (s : State) v : (s.setSched v).rxie = s.rxie := rfl
@[simp] theorem State.setSched_gie (s : State) v : (s.setSched v).gie = s.gie := rfl
@[simp] theorem State.setSched_baud (s : State) v : (s.setSched v).baud = s.baud := rfl
@[simp] theorem State.setSched_lineMode (s : State) v : (s.setSched v).lineMode = s.lineMode := rfl
@[simp] theorem State.setSched_txreg (s : State) v : (s.setSched v).txreg = s.txreg := rfl
@[simp] theorem State.setSched_rxreg (s : State) v : (s.setSched v).rxreg = s.rxreg := rfl
@[simp] theorem State.setSched_txirq (s : State) v : (s.setSched v).txirq = s.txirq := rfl
@[simp] theorem State.setSched_rxirq (s : State) v : (s.setSched v).rxirq = s.rxirq := rfl
@[simp] theorem State.setSched_csum (s : State) v : (s.setSched v).csum = s.csum := rfl
@[simp] theorem State.setSched_result (s : State) v : (s.setSched v).result = s.result := rfl
@[simp] theorem State.setSched_resultValid (s : State) v : (s.setSched v).resultValid = s.resultValid := rfl
@[simp] theorem State.setSched_resp (s : State) v : (s.setSched v).resp = s.resp := rfl
@[simp] theorem State.setSched_respLen (s : State) v : (s.setSched v).respLen = s.respLen := rfl
@[simp] theorem State.setSched_dbuf (s : State) v : (s.setSched v).dbuf = s.dbuf := rfl
@[simp] theorem State.setSched_seq (s : State) v : (s.setSched v).seq = s.seq := rfl
@[simp] theorem State.setSched_powerCut (s : State) v : (s.setSched v).powerCut = s.powerCut := rfl
@[simp] theorem State.setSched_wire (s : State) v : (s.setSched v).wire = s.wire := rfl
@[simp] theorem State.setSched_pcutTrace (s : State) v : (s.setSched v).pcutTrace = s.pcutTrace := rfl
@[simp] theorem State.setSched_cmd (s : State) v : (s.setSched v).cmd = s.cmd := rfl
@[simp] theorem State.setSched_sched (s : State) v : (s.setSched v).sched = v := rfl
@[simp] theorem State.setSched_rails (s : State) v : (s.setSched v).rails = s.rails := rfl
@[simp] theorem State.setSched_freeCtr (s : State) v : (s.setSched v).freeCtr = s.freeCtr := rfl
@[simp] theorem State.setSched_params (s : State) v : (s.setSched v).params = s.params := rfl
@[simp] theorem State.setRails_rbRx (s : State) v : (s.setRails v).rbRx = s.rbRx := rfl
@[simp] theorem State.setRails_rbTx (s : State) v : (s.setRails v).rbTx = s.rbTx := rfl
@[simp] theorem State.setRails_txIdle (s : State) v : (s.setRails v).txIdle = s.txIdle := rfl
@[simp] theorem State.setRails_rxie (s : State) v : (s.setRails v).rxie = s.rxie := rfl
@[simp] theorem State.setRails_gie (s : State) v : (s.setRails v).gie = s.gie := rfl
@[simp] theorem State.setRails_baud (s : State) v : (s.setRails v).baud = s.baud := rfl
@[simp] theorem State.setRails_lineMode (s : State) v : (s.setRails v).lineMode = s.lineMode := rfl
@[simp] theorem State.setRails_txreg (s : State) v : (s.setRails v).txreg = s.txreg := rfl
@[simp] theorem State.setRails_rxreg (s : State) v : (s.setRails v).rxreg = s.rxreg := rfl
@[simp] theorem State.setRails_txirq (s : State) v : (s.setRails v).txirq = s.txirq := rfl
@[simp] theorem State.setRails_rxirq (s : State) v : (s.setRails v).rxirq = s.rxirq := rfl
@[simp] theorem State.setRails_csum (s : State) v : (s.setRails v).csum = s.csum := rfl
@[simp] theorem State.setRails_result (s : State) v : (s.setRails v).result = s.result := rfl
@[simp] theorem State.setRails_resultValid (s : State) v : (s.setRails v).resultValid = s.resultValid := rfl
@[simp] theorem State.setRails_resp (s : State) v : (s.setRails v).resp = s.resp := rfl
@[simp] theorem State.setRails_respLen (s : State) v : (s.setRails v).respLen = s.respLen := rfl
@[simp] theorem State.setRails_dbuf (s : State) v : (s.setRails v).dbuf = s.dbuf := rfl
@[simp] theorem State.setRails_seq (s : State) v : (s.setRails v).seq = s.seq := rfl
@[simp] theorem State.setRails_powerCut (s : State) v : (s.setRails v).powerCut = s.powerCut := rfl
@[simp] theorem State.setRails_wire (s : State) v : (s.setRails v).wire = s.wire := rfl
@[simp] theorem State.setRails_pcutTrace (s : State) v : (s.setRails v).pcutTrace = s.pcutTrace := rfl
@[simp] theorem State.setRails_cmd (s : State) v : (s.setRails v).cmd = s.cmd := rfl
@[simp] theorem State.setRails_sched (s : State) v : (s.setRails v).sched = s.sched := rfl
@[simp] theorem State.setRails_rails (s : State) v : (s.setRails v).rails = v := rfl
@[simp] theorem State.setRails_freeCtr (s : State) v : (s.setRails v).freeCtr = s.freeCtr := rfl
@[simp] theorem State.setRails_params (s : State) v : (s.setRails v).params = s.params := rfl
@[simp] theorem State.setFreeCtr_rbRx (s : State) v : (s.setFreeCtr v).rbRx = s.rbRx := rfl
@[simp] theorem State.setFreeCtr_rbTx (s : State) v : (s.setFreeCtr v).rbTx = s.rbTx := rfl
@[simp] theorem State.setFreeCtr_txIdle (s : State) v : (s.setFreeCtr v).txIdle = s.txIdle := rfl
@[simp] theorem State.setFreeCtr_rxie (s : State) v : (s.setFreeCtr v).rxie = s.rxie := rfl
@[simp] theorem State.setFreeCtr_gie (s : State) v : (s.setFreeCtr v).gie = s.gie := rfl
@[simp] theorem State.setFreeCtr_baud (s : State) v : (s.setFreeCtr v).baud = s.baud := rfl
@[simp] theorem State.setFreeCtr_lineMode (s : State) v : (s.setFreeCtr v).lineMode = s.lineMode := rfl
@[simp] theorem State.setFreeCtr_txreg (s : State) v : (s.setFreeCtr v).txreg = s.txreg := rfl
@[simp] theorem State.setFreeCtr_rxreg (s : State) v : (s.setFreeCtr v).rxreg = s.rxreg := rfl
@[simp] theorem State.setFreeCtr_txirq (s : State) v : (s.setFreeCtr v).txirq = s.txirq := rfl
@[simp] theorem State.setFreeCtr_rxirq (s : State) v : (s.setFreeCtr v).rxirq = s.rxirq := rfl
@[simp] theorem State.setFreeCtr_csum (s : State) v : (s.setFreeCtr v).csum = s.csum := rfl
@[simp] theorem State.setFreeCtr_result (s : State) v : (s.setFreeCtr v).result = s.result := rfl
@[simp] theorem State.setFreeCtr_resultValid (s : State) v : (s.setFreeCtr v).resultValid = s.resultValid := rfl
@[simp] theorem State.setFreeCtr_resp (s : State) v : (s.setFreeCtr v).resp = s.resp := rfl
@[simp] theorem State.setFreeCtr_respLen (s : State) v : (s.setFreeCtr v).respLen = s.respLen := rfl
@[simp] theorem State.setFreeCtr_dbuf (s : State) v : (s.setFreeCtr v).dbuf = s.dbuf := rfl
@[simp] theorem State.setFreeCtr_seq (s : State) v : (s.setFreeCtr v).seq = s.seq := rfl
@[simp] theorem State.setFreeCtr_powerCut (s : State) v : (s.setFreeCtr v).powerCut = s.powerCut := rfl
@[simp] theorem State.setFreeCtr_wire (s : State) v : (s.setFreeCtr v).wire = s.wire := rfl
@[simp] theorem State.setFreeCtr_pcutTrace (s : State) v : (s.setFreeCtr v).pcutTrace = s.pcutTrace := rfl
@[simp] theorem State.setFreeCtr_cmd (s : State) v : (s.setFreeCtr v).cmd = s.cmd := rfl
@[simp] theorem State.setFreeCtr_sched (s : State) v : (s.setFreeCtr v).sched = s.sched := rfl
@[simp] theorem State.setFreeCtr_rails (s : State) v : (s.setFreeCtr v).rails = s.rails := rfl
@[simp] theorem State.setFreeCtr_freeCtr (s : State) v : (s.setFreeCtr v).freeCtr = v := rfl
@[simp] theorem State.setFreeCtr_params (s : State) v : (s.setFreeCtr v).params = s.params := rfl
@[simp] theorem State.setParams_rbRx (s : State) v : (s.setParams v).rbRx = s.rbRx := rfl
@[simp] theorem State.setParams_rbTx (s : State) v : (s.setParams v).rbTx = s.rbTx := rfl
@[simp] theorem State.setParams_txIdle (s : State) v : (s.setParams v).txIdle = s.txIdle := rfl
@[simp] theorem State.setParams_rxie (s : State) v : (s.setParams v).rxie = s.rxie := rfl
@[simp] theorem State.setParams_gie (s : State) v : (s.setParams v).gie = s.gie := rfl
@[simp] theorem State.setParams_baud (s : State) v : (s.setParams v).baud = s.baud := rfl
@[simp] theorem State.setParams_lineMode (s : State) v : (s.setParams v).lineMode = s.lineMode := rfl
@[simp] theorem State.setParams_txreg (s : State) v : (s.setParams v).txreg = s.txreg := rfl
@[simp] theorem State.setParams_rxreg (s : State) v : (s.setParams v).rxreg = s.rxreg := rfl
@[simp] theorem State.setParams_txirq (s : State) v : (s.setParams v).txirq = s.txirq := rfl
@[simp] theorem State.setParams_rxirq (s : State) v : (s.setParams v).rxirq = s.rxirq := rfl
@[simp] theorem State.setParams_csum (s : State) v : (s.setParams v).csum = s.csum := rfl
@[simp] theorem State.setParams_result (s : State) v : (s.setParams v).result = s.result := rfl
@[simp] theorem State.setParams_resultValid (s : State) v : (s.setParams v).resultValid = s.resultValid := rfl
@[simp] theorem State.setParams_resp (s : State) v : (s.setParams v).resp = s.resp := rfl
@[simp] theorem State.setParams_respLen (s : State) v : (s.setParams v).respLen = s.respLen := rfl
@[simp] theorem State.setParams_dbuf (s : State) v : (s.setParams v).dbuf = s.dbuf := rfl
@[simp] theorem State.setParams_seq (s : State) v : (s.setParams v).seq = s.seq := rfl
@[simp] theorem State.setParams_powerCut (s : State) v : (s.setParams v).powerCut = s.powerCut := rfl
@[simp] theorem State.setParams_wire (s : State) v : (s.setParams v).wire = s.wire := rfl
@[simp] theorem State.setParams_pcutTrace (s : State) v : (s.setParams v).pcutTrace = s.pcutTrace := rfl
@[simp] theorem State.setParams_cmd (s : State) v : (s.setParams v).cmd = s.cmd := rfl
@[simp] theorem State.setParams_sched (s : State) v : (s.setParams v).sched = s.sched := rfl
@[simp] theorem State.setParams_rails (s : State) v : (s.setParams v).rails = s.rails := rfl
@[simp] theorem State.setParams_freeCtr (s : State) v : (s.setParams v).freeCtr = s.freeCtr := rfl
@[simp] theorem State.setParams_params (s : State) v : (s.setParams v).params = v := rfl

/-! ### Ring buffers by select -/

@[simp] theorem State.setRing_txIdle (s : State) (b : Buf) (r : Ring) : (s.setRing b r).txIdle = s.txIdle := by cases b <;> rfl
@[simp] theorem State.setRing_rxie (s : State) (b : Buf) (r : Ring) : (s.setRing b r).rxie = s.rxie := by cases b <;> rfl
@[simp] theorem State.setRing_gie (s : State) (b : Buf) (r : Ring) : (s.setRing b r).gie = s.gie := by cases b <;> rfl
@[simp] theorem State.setRing_baud (s : State) (b : Buf) (r : Ring) : (s.setRing b r).baud = s.baud := by cases b <;> rfl
@[simp] theorem State.setRing_lineMode (s : State) (b : Buf) (r : Ring) : (s.setRing b r).lineMode = s.lineMode := by cases b <;> rfl
@[simp] theorem State.setRing_txreg (s : State) (b : Buf) (r : Ring) : (s.setRing b r).txreg = s.txreg := by cases b <;> rfl
@[simp] theorem State.setRing_rxreg (s : State) (b : Buf) (r : Ring) : (s.setRing b r).rxreg = s.rxreg := by cases b <;> rfl
@[simp] theorem State.setRing_txirq (s : State) (b : Buf) (r : Ring) : (s.setRing b r).txirq = s.txirq := by cases b <;> rfl
@[simp] theorem State.setRing_rxirq (s : State) (b : Buf) (r : Ring) : (s.setRing b r).rxirq = s.rxirq := by cases b <;> rfl
@[simp] theorem State.setRing_csum (s : State) (b : Buf) (r : Ring) : (s.setRing b r).csum = s.csum := by cases b <;> rfl
@[simp] theorem State.setRing_result (s : State) (b : Buf) (r : Ring) : (s.setRing b r).result = s.result := by cases b <;> rfl
@[simp] theorem State.setRing_resultValid (s : State) (b : Buf) (r : Ring) : (s.setRing b r).resultValid = s.resultValid := by cases b <;> rfl
@[simp] theorem State.setRing_resp (s : State) (b : Buf) (r : Ring) : (s.setRing b r).resp = s.resp := by cases b <;> rfl
@[simp] theorem State.setRing_respLen (s : State) (b : Buf) (r : Ring) : (s.setRing b r).respLen = s.respLen := by cases b <;> rfl
@[simp] theorem State.setRing_dbuf (s : State) (b : Buf) (r : Ring) : (s.setRing b r).dbuf = s.dbuf := by cases b <;> rfl
@[simp] theorem State.setRing_seq (s : State) (b : Buf) (r : Ring) : (s.setRing b r).seq = s.seq := by cases b <;> rfl
@[simp] theorem State.setRing_powerCut (s : State) (b : Buf) (r : Ring) : (s.setRing b r).powerCut = s.powerCut := by cases b <;> rfl
@[simp] theorem State.setRing_wire (s : State) (b : Buf) (r : Ring) : (s.setRing b r).wire = s.wire := by cases b <;> rfl
@[simp] theorem State.setRing_pcutTrace (s : State) (b : Buf) (r : Ring) : (s.setRing b r).pcutTrace = s.pcutTrace := by cases b <;> rfl
@[simp] theorem State.setRing_cmd (s : State) (b : Buf) (r : Ring) : (s.setRing b r).cmd = s.cmd := by cases b <;> rfl
@[simp] theorem State.setRing_sched (s : State) (b : Buf) (r : Ring) : (s.setRing b r).sched = s.sched := by cases b <;> rfl
@[simp] theorem State.setRing_rails (s : State) (b : Buf) (r : Ring) : (s.setRing b r).rails = s.rails := by cases b <;> rfl
@[simp] theorem State.setRing_freeCtr (s : State) (b : Buf) (r : Ring) : (s.setRing b r).freeCtr = s.freeCtr := by cases b <;> rfl
@[simp] theorem State.setRing_params (s : State) (b : Buf) (r : Ring) : (s.setRing b r).params = s.params := by cases b <;> rfl
@[simp] theorem State.ring_rx (s : State) : s.ring .rx = s.rbRx := rfl
@[simp] theorem State.ring_tx (s : State) : s.ring .tx = s.rbTx := rfl
@[simp] theorem State.setRing_rx (s : State) (r : Ring) : s.setRing .rx r = s.setRbRx r := rfl
@[simp] theorem State.setRing_tx (s : State) (r : Ring) : s.setRing .tx r = s.setRbTx r := rfl
@[simp] theorem State.ring_setRing_same (s : State) (b : Buf) (r : Ring) : (s.setRing b r).ring b = r := by cases b <;> rfl
theorem State.ring_setRing_other (s : State) {b c : Buf} (h : c ≠ b) (r : Ring) : (s.setRing b r).ring c = s.ring c := by
  cases b <;> cases c <;> first | rfl | exact absurd rfl h

end Sys2Proof.Machine
end

