-- ==== Sys2Proof/Laws/Ring.lean ====
section
/-! SUPPORT. What the ring-buffer procedures do (40_ringbuffer.md R121 to R124): they keep a ring well
formed, an accepted byte joins at the end, a taken byte leaves at the front. -/

namespace Sys2Proof.Machine

theorem BitVec3_toNat_add_one (x : BitVec 3) : (x + 1).toNat = (x.toNat + 1) % 8 := by
  simp [BitVec.toNat_add]

theorem BitVec4_toNat_add_one (x : BitVec 4) (h : x.toNat < 8) : (x + 1).toNat = x.toNat + 1 := by
  have : (x + 1).toNat = (x.toNat + 1) % 16 := by simp [BitVec.toNat_add]
  omega

theorem BitVec4_toNat_sub_one (x : BitVec 4) (h : 0 < x.toNat) : (x - 1).toNat = x.toNat - 1 := by
  have : (x - 1).toNat = (15 + x.toNat) % 16 := by simp [BitVec.toNat_sub]
  have := x.isLt
  omega

theorem Ring.isFull_eq_true (r : Ring) : r.isFull = true ↔ r.count.toNat = 8 := by
  simp [Ring.isFull, Params.rbCapacity, BitVec.toNat_eq]

theorem Ring.isEmpty_eq_true (r : Ring) : r.isEmpty = true ↔ r.count.toNat = 0 := by
  simp [Ring.isEmpty, BitVec.toNat_eq]

theorem Ring.contents_length (r : Ring) : r.contents.length = r.count.toNat := by
  simp [Ring.contents]

theorem Ring.contents_of_empty (r : Ring) (h : r.count = 0) : r.contents = [] := by
  simp [Ring.contents, h]

/-! ### push -/

theorem Ring.push_count (r : Ring) (v : Byte) (h : r.count.toNat < 8) :
    (r.push v).count.toNat = r.count.toNat + 1 := BitVec4_toNat_add_one r.count h

theorem Ring.push_wf (r : Ring) (v : Byte) (hw : r.Wf) (h : r.count.toNat < 8) : (r.push v).Wf := by
  have hc := r.push_count v h
  refine ⟨by omega, ?_⟩
  have h1 : (r.push v).head.toNat = (r.head.toNat + 1) % 8 := BitVec3_toNat_add_one r.head
  have h2 : (r.push v).tail = r.tail := rfl
  have := hw.2
  rw [h1, h2, hc]
  omega

theorem Ring.contents_push (r : Ring) (v : Byte) (hw : r.Wf) (h : r.count.toNat < 8) :
    (r.push v).contents = r.contents ++ [v] := by
  have hhead := hw.2
  have htail := r.tail.isLt
  unfold Ring.contents
  rw [r.push_count v h, List.range_succ, List.map_append]
  congr 1
  · apply List.map_congr_left
    intro k hk
    have hk : k < r.count.toNat := List.mem_range.mp hk
    have hne : r.head.toNat ≠ (r.tail.toNat + k) % 8 := by omega
    simpa [Ring.push] using Vector.getElem_set_ne (xs := r.storage) (i := r.head.toNat) (x := v)
      r.head.isLt (Nat.mod_lt _ (by decide)) hne
  · simp [Ring.push, ← hhead]

/-! ### pop -/

theorem Ring.pop_count (r : Ring) (h : 0 < r.count.toNat) : r.pop.count.toNat = r.count.toNat - 1 :=
  BitVec4_toNat_sub_one r.count h

theorem Ring.pop_wf (r : Ring) (hw : r.Wf) (h : 0 < r.count.toNat) : r.pop.Wf := by
  have hc := r.pop_count h
  have h1 : r.pop.tail.toNat = (r.tail.toNat + 1) % 8 := BitVec3_toNat_add_one r.tail
  have h2 : r.pop.head = r.head := rfl
  have := hw.1
  have := hw.2
  refine ⟨by omega, ?_⟩
  rw [h1, h2, hc]
  omega

theorem Ring.contents_eq_front_cons (r : Ring) (h : 0 < r.count.toNat) :
    r.contents = r.front :: r.pop.contents := by
  have htail : r.tail.toNat < 8 := r.tail.isLt
  obtain ⟨n, hn⟩ : ∃ n, r.count.toNat = n + 1 := ⟨r.count.toNat - 1, by omega⟩
  have hpc : r.pop.count.toNat = n := by rw [r.pop_count h]; omega
  unfold Ring.contents
  rw [hn, hpc, List.range_succ_eq_map, List.map_cons, List.map_map]
  congr 1
  · simp [Ring.front, Nat.mod_eq_of_lt htail]
  · apply List.map_congr_left
    intro k _
    have ht : r.pop.tail.toNat = (r.tail.toNat + 1) % 8 := BitVec3_toNat_add_one r.tail
    have hi : (r.tail.toNat + (k + 1)) % 8 = (r.pop.tail.toNat + k) % 8 := by rw [ht]; omega
    simp only [Function.comp, Nat.succ_eq_add_one, hi]
    rfl

/-! ### enqueue and dequeue, once and for all -/

/-- All that `enqueue` can do (R121). -/
theorem enqueue_cases (b : Buf) (v : Byte) (s : State) :
    ((s.ring b).count.toNat = 8 ∧ enqueue b v s = (false, s)) ∨
    ((s.ring b).count.toNat ≠ 8 ∧ enqueue b v s = (true, s.setRing b ((s.ring b).push v))) := by
  unfold enqueue
  by_cases h : (s.ring b).isFull = true
  · exact .inl ⟨(Ring.isFull_eq_true _).mp h, by simp [h]⟩
  · exact .inr ⟨fun hc => h ((Ring.isFull_eq_true _).mpr hc), by simp [h]⟩

/-- All that `dequeue` can do (R122). -/
theorem dequeue_cases (b : Buf) (s : State) :
    ((s.ring b).count.toNat = 0 ∧ dequeue b s = (none, s)) ∨
    (0 < (s.ring b).count.toNat ∧ dequeue b s = (some (s.ring b).front, s.setRing b (s.ring b).pop)) := by
  unfold dequeue
  by_cases h : (s.ring b).isEmpty = true
  · exact .inl ⟨(Ring.isEmpty_eq_true _).mp h, by simp [h]⟩
  · exact .inr ⟨Nat.pos_of_ne_zero fun hc => h ((Ring.isEmpty_eq_true _).mpr hc), by simp [h]⟩

/-- The atomic guard around an enqueue leaves GIE as it was (R13). -/
theorem atomic_enqueue (b : Buf) (v : Byte) (s : State) : atomic (enqueue b v) s = enqueue b v s := by
  have hr : (s.setGie false).ring b = s.ring b := by cases b <;> rfl
  unfold atomic enqueue
  rw [hr]
  by_cases h : (s.ring b).isFull = true
  · simp only [h]; rfl
  · simp only [h]; cases b <;> rfl

/-- The atomic guard around a dequeue leaves GIE as it was (R13). -/
theorem atomic_dequeue (b : Buf) (s : State) : atomic (dequeue b) s = dequeue b s := by
  have hr : (s.setGie false).ring b = s.ring b := by cases b <;> rfl
  unfold atomic dequeue
  rw [hr]
  by_cases h : (s.ring b).isEmpty = true
  · simp only [h]; rfl
  · simp only [h]; cases b <;> rfl

@[simp] theorem atomicLen_eq (b : Buf) (s : State) : atomicLen b s = (s.ring b).count := by
  cases b <;> rfl

/-! ### Reading one byte of a store -/

theorem memRead_memWrite_same (sp : Space) (i : Nat) (v : Byte) (s : State) (h : i < sp.size) :
    memRead sp i (memWrite sp i v s) = some v := by
  cases sp <;> simp [memRead, memWrite, Space.size] at * <;> simp [h]

theorem memRead_memWrite_other (sp sq : Space) (i j : Nat) (v : Byte) (s : State) (h : sp ≠ sq ∨ i ≠ j) :
    memRead sq j (memWrite sp i v s) = memRead sq j s := by
  cases sp <;> cases sq <;> simp_all [memRead, memWrite]

end Sys2Proof.Machine
end

