-- ==== Sys2Proof/Laws/Sequencer.lean ====
section
/-! SUPPORT. The sequencer: an interruptible point leaves SEQ alone (60_exceptions.md R254), every
micro-step leaves fewer steps to run than before, so that a command always comes to its return
(00_scope.md R16, 41_seriallink.md R155), and the induction over a run is done once. -/

namespace Sys2Proof.Machine

/-! ### SEQ at an interruptible point -/

@[simp] theorem serviceRx_seq (s : State) : (serviceRx s).seq = s.seq := by
  unfold serviceRx enqueue; dsimp only; split_ifs <;> simp

@[simp] theorem serviceTx_seq (s : State) : (serviceTx s).seq = s.seq := by
  unfold serviceTx dequeue uartTransmit; dsimp only; split_ifs <;> simp

@[simp] theorem invokeHandler_seq (s : State) : (invokeHandler s).seq = s.seq := by
  unfold invokeHandler; dsimp only; split_ifs <;> simp

@[simp] theorem urgent_seq (s : State) : (urgent s).seq = s.seq := by
  unfold urgent; split <;> simp

@[simp] theorem applyTurn_seq (t : Turn) (s : State) : (applyTurn t s).seq = s.seq := by
  cases t <;> simp only [applyTurn, txdone, rxArrive, hostDbufWrite, hostIssue, memWrite] <;> split_ifs <;> simp

@[simp] theorem runTurns_seq (ts : List Turn) (s : State) : (runTurns ts s).seq = s.seq := by
  induction ts generalizing s with
  | nil => simp [runTurns]
  | cons t ts ih => cases t <;> simp [runTurns, ih]

@[simp] theorem point_seq (s : State) : (point s).seq = s.seq := runTurns_seq _ _

/-! ### No step changes the open parameters (00_scope.md R8) -/

@[simp] theorem serviceRx_params (s : State) : (serviceRx s).params = s.params := by
  unfold serviceRx enqueue; dsimp only; split_ifs <;> simp

@[simp] theorem serviceTx_params (s : State) : (serviceTx s).params = s.params := by
  unfold serviceTx dequeue uartTransmit; dsimp only; split_ifs <;> simp

@[simp] theorem invokeHandler_params (s : State) : (invokeHandler s).params = s.params := by
  unfold invokeHandler; dsimp only; split_ifs <;> simp

@[simp] theorem urgent_params (s : State) : (urgent s).params = s.params := by
  unfold urgent; split <;> simp

@[simp] theorem applyTurn_params (t : Turn) (s : State) : (applyTurn t s).params = s.params := by
  cases t <;> simp only [applyTurn, txdone, rxArrive, hostDbufWrite, hostIssue, memWrite] <;> split_ifs <;> simp

@[simp] theorem runTurns_params (ts : List Turn) (s : State) : (runTurns ts s).params = s.params := by
  induction ts generalizing s with
  | nil => simp [runTurns]
  | cons t ts ih => cases t <;> simp [runTurns, ih]

@[simp] theorem point_params (s : State) : (point s).params = s.params := runTurns_params _ _

@[simp] theorem readRail_params (s : State) : (readRail s).2.params = s.params := by
  unfold readRail; split <;> simp

@[simp] theorem waitMs_eq (n : Nat) (s : State) : waitMs n s = s := rfl

@[simp] theorem memWrite_params (sp : Space) (i : Nat) (v : Byte) (s : State) : (memWrite sp i v s).params = s.params := by
  cases sp <;> rfl

@[simp] theorem enqueue_params (b : Buf) (v : Byte) (s : State) : (enqueue b v s).2.params = s.params := by
  unfold enqueue; split <;> simp

@[simp] theorem dequeue_params (b : Buf) (s : State) : (dequeue b s).2.params = s.params := by
  unfold dequeue; split <;> simp

@[simp] theorem commitResult_params (r : Ret) (s : State) : (commitResult r s).params = s.params := by
  cases r <;> simp [commitResult]

@[simp] theorem retire_params (s : State) : (retire s).params = s.params := by
  unfold retire; split <;> simp

@[simp] theorem setTodo_params (todo : List Micro) (s : State) : (setTodo todo s).params = s.params := rfl

@[simp] theorem microEffect_params (m : Micro) (s : State) : (microEffect m s).1.params = s.params := by
  cases m <;>
    simp only [microEffect, microRbEnq, microRbDeq, microRbLen, microTryTest, microTryTake, microSetRxie,
      microSendEnq, microSendKick, microSendTest, microSendWait, microSetLine, microHoldLine, microLineToUart,
      microDrainTest, microDrainWait, microSetBaud, microHeaderPid, microReturnValue, microDataInit,
      microDataTest, microDataByte, microDataAdd, microDataFold, microRespInit, microRespPoll, microRespWait,
      microRespAgain, microRespLimit, microRespLook, microRespTake, microRespPause, microRespDone,
      microStartBegin, microStartRail, microStartWake, microStartFlags, microStartRound, microStartJudge,
      microStartGap, microStartNext, microStartFail, microStopRail, microStopBegin, microStopTry,
      microStopJudge, microStopGap, microStopNext, microStopUnconfirmed, microStopDropRead, microStopDropWait,
      microStopConfirmed, microCutHigh, microCutHold, microCutLow, microCutRead, microCutGap, microLoadBegin,
      microLoadJudge, microLoadGap, microWaitMs, goOn, ret, giveRet, kick, forceTxIrq, setRespCount, releaseTail,
      loadPayload, driveLine, setBaudRate, setPowerCutPin, atomic_enqueue, atomic_dequeue, waitMs_eq] <;>
    (try split_ifs) <;> (try simp)

@[simp] theorem mainStep_params (s : State) : (mainStep s).params = s.params := by
  unfold mainStep; split <;> simp

/-! ### Every micro-step makes progress -/

theorem progCost_append (par : OpenParams) (p q : List Micro) :
    progCost par (p ++ q) = progCost par p + progCost par q := by
  simp [progCost]

theorem cost_pos (p : OpenParams) (m : Micro) : 0 < cost p m := by
  cases m <;> simp only [cost, drainCost, dataCost, pollCost, againCost, limitCost, startRailCost,
    startGapCost, startNextCost, startRoundCost, stopTryCost, stopGapCost, stopNextCost, pollsCost, attemptCost,
    dropCost, confirmedCost, cutReadCost, loadGapCost] <;> (try split_ifs) <;> omega

/-- One iteration of a counted loop. -/
theorem countdown_cost {k n : Nat} (x : Nat) (h : k < n) : (n - k) * x = x + (n - (k + 1)) * x := by
  obtain ⟨d, rfl⟩ := Nat.exists_eq_add_of_lt h
  rw [show k + d + 1 - k = d + 1 by omega, show k + d + 1 - (k + 1) = d by omega, Nat.add_mul]
  omega

theorem microCutRead_cost (j : Nat) (s : State) : progCost s.params (microCutRead j s).2 < cutReadCost j := by
  unfold microCutRead
  by_cases h : j < Params.cutPulses
  · have hc : cutReadCost j = 5 + cutReadCost (j + 1) := by
      simp only [cutReadCost]
      omega
    rw [hc]
    by_cases hr : (readRail s).1 = true
    · simp only [hr, h, decide_true, Bool.and_self, if_true, goOn]
      split_ifs <;> simp [progCost, cost] <;> omega
    · simp [hr, ret, progCost]
  · simp [h, ret, progCost, cutReadCost]

/-- The splices of the sequences cost what is reckoned for them. -/
theorem seqCmdProg_cost (p : OpenParams) : progCost p seqCmdProg ≤ seqCmdCost p := by
  simp [seqCmdProg, cmdProg, headerProg, drainProg, sendProg, progCost, cost, seqCmdCost, headerCost, sendCost]
  omega

theorem seqStatusProg_cost (p : OpenParams) : progCost p seqStatusProg ≤ seqStatusCost p := by
  simp [seqStatusProg, statusProg, respProg, headerProg, drainProg, sendProg, progCost, cost, seqStatusCost, headerCost,
    sendCost]
  omega

theorem progCost_cons (p : OpenParams) (m : Micro) (q : List Micro) : progCost p (m :: q) = cost p m + progCost p q := by
  simp [progCost]

theorem progCost_nil (p : OpenParams) : progCost p [] = 0 := rfl

theorem microStart_cost (s : State) (r k : Nat) (a b : Bool) :
    progCost s.params (microStartRound r a b s).2 < startRoundCost s.params r ∧
    progCost s.params (microStartGap r k a b s).2 < startGapCost s.params r k ∧
    progCost s.params (microStartNext r a b s).2 < startNextCost s.params r := by
  have hc := seqCmdProg_cost s.params
  have hs := seqStatusProg_cost s.params
  refine ⟨?_, ?_, ?_⟩
  · simp only [microStartRound, goOn, progCost_append, progCost_cons, progCost_nil, cost, startGapCost, startRoundCost,
      attemptCost]
    omega
  · by_cases h : k + 1 < s.params.startPolls
    · have := countdown_cost (seqStatusCost s.params + 2) h
      simp only [microStartGap, goOn, waitMs_eq, if_pos h, progCost_append, progCost_cons, progCost_nil, cost,
        startGapCost, pollsCost]
      omega
    · simp only [microStartGap, goOn, waitMs_eq, if_neg h, progCost_cons, progCost_nil, cost, startGapCost, pollsCost]
      omega
  · by_cases h : r + 1 < s.params.startRounds
    · have := countdown_cost (2 + attemptCost s.params s.params.startPolls) h
      simp only [microStartNext, goOn, if_pos h, progCost_cons, progCost_nil, cost, startRoundCost, startNextCost]
      omega
    · simp only [microStartNext, goOn, if_neg h, progCost_cons, progCost_nil, cost, startNextCost]
      omega

theorem microStop_cost (s : State) (c : Bool) (t k : Nat) :
    progCost s.params (microStopTry c t s).2 < stopTryCost s.params t ∧
    progCost s.params (microStopGap c t k s).2 < stopGapCost s.params t k ∧
    progCost s.params (microStopNext c t s).2 < stopNextCost s.params t := by
  have hc := seqCmdProg_cost s.params
  have hs := seqStatusProg_cost s.params
  refine ⟨?_, ?_, ?_⟩
  · simp only [microStopTry, goOn, progCost_append, progCost_cons, progCost_nil, cost, stopGapCost, stopTryCost, attemptCost]
    omega
  · by_cases h : k + 1 < s.params.stopPolls
    · have := countdown_cost (seqStatusCost s.params + 2) h
      simp only [microStopGap, goOn, waitMs_eq, if_pos h, progCost_append, progCost_cons, progCost_nil, cost,
        stopGapCost, pollsCost]
      omega
    · simp only [microStopGap, goOn, waitMs_eq, if_neg h, progCost_cons, progCost_nil, cost, stopGapCost, pollsCost]
      omega
  · by_cases h : t + 1 < s.params.stopTries
    · have := countdown_cost (1 + attemptCost s.params s.params.stopPolls) h
      simp only [microStopNext, goOn, if_pos h, progCost_cons, progCost_nil, cost, stopTryCost, stopNextCost]
      omega
    · simp only [microStopNext, goOn, if_neg h, progCost_cons, progCost_nil, cost, stopNextCost]
      omega

theorem microLoadGap_cost (s : State) (cnt i : Nat) :
    progCost s.params (microLoadGap cnt i s).2 < loadGapCost s.params i := by
  have hs := seqStatusProg_cost s.params
  by_cases h : i + 1 < Params.loadPolls
  · have := countdown_cost (seqStatusCost s.params + 2) h
    simp only [microLoadGap, goOn, waitMs_eq, if_pos h, progCost_append, progCost_cons, progCost_nil, cost, loadGapCost]
    omega
  · simp only [microLoadGap, waitMs_eq, if_neg h, ret, progCost_nil, loadGapCost]
    omega

/-- What follows a micro-step costs less than the micro-step. -/
theorem microEffect_cost (m : Micro) (s : State) : progCost s.params (microEffect m s).2 < cost s.params m := by
  cases m with
  | cutRead j => exact microCutRead_cost j s
  | startRound r a b => exact (microStart_cost s r 0 a b).1
  | startGap r k a b => exact (microStart_cost s r k a b).2.1
  | startNext r a b => exact (microStart_cost s r 0 a b).2.2
  | stopTry c t => exact (microStop_cost s c t 0).1
  | stopGap c t k => exact (microStop_cost s c t k).2.1
  | stopNext c t => exact (microStop_cost s c t 0).2.2
  | loadGap cnt i => exact microLoadGap_cost s cnt i
  | loadBegin =>
    have := seqStatusProg_cost s.params
    simp only [microEffect, microLoadBegin, goOn, progCost_append, progCost_cons, progCost_nil, cost]
    omega
  | _ =>
    simp only [microEffect, microRbEnq, microRbDeq, microRbLen, microTryTest, microTryTake, microSetRxie,
      microSendEnq, microSendKick, microSendTest, microSendWait, microSetLine, microHoldLine, microLineToUart,
      microDrainTest, microDrainWait, microSetBaud, microHeaderPid, microReturnValue, microDataInit,
      microDataTest, microDataByte, microDataAdd, microDataFold, microRespInit, microRespPoll, microRespWait,
      microRespAgain, microRespLimit, microRespLook, microRespTake, microRespPause, microRespDone,
      microStartBegin, microStartRail, microStartWake, microStartFlags, microStartJudge,
      microStartFail, microStopRail, microStopBegin,
      microStopJudge, microStopUnconfirmed, microStopDropRead, microStopDropWait,
      microStopConfirmed, microCutHigh, microCutHold, microCutLow, microCutGap,
      microLoadJudge, microWaitMs, goOn, ret] <;>
    (try split_ifs) <;>
    simp_all [progCost, cost, sendProg, wakeupProg, drainCost, dataCost, limitCost, pollCost, againCost, sendCost,
      startGapCost, startRailCost, cutReadCost, confirmedCost, dropCost, stopNextCost, stopGapCost, Params.respPolls,
      Params.railTries, Params.railDropTries, Params.cutPulses, Params.loadNeed] <;>
    (try split_ifs) <;>
    omega

/-! ### One micro-step -/

theorem mainStep_cons (s : State) (m : Micro) (rest : List Micro) (h : s.seq.todo = m :: rest) :
    mainStep s = retire (setTodo ((microEffect m s).2 ++ rest) (microEffect m s).1) := by
  simp [mainStep, h]

@[simp] theorem commitResult_seq (r : Ret) (s : State) : (commitResult r s).seq = s.seq := by
  cases r <;> simp [commitResult]

/-- What is left to run after a micro-step. -/
theorem mainStep_todo (s : State) (m : Micro) (rest : List Micro) (h : s.seq.todo = m :: rest) :
    (mainStep s).seq.todo = (microEffect m s).2 ++ rest := by
  rw [mainStep_cons s m rest h]
  unfold retire setTodo
  by_cases he : (microEffect m s).2 ++ rest = []
  · rw [he, if_pos (by simp)]
    rfl
  · rw [if_neg (by simpa using he)]
    rfl

/-- A micro-step that leaves nothing to run leaves SEQ = IDLE (R43). -/
theorem mainStep_idle (s : State) (h : s.seq.todo ≠ []) (hi : (mainStep s).seq.todo = []) :
    (mainStep s).seq = Seq.idle := by
  obtain ⟨m, rest, hm⟩ := List.exists_cons_of_ne_nil h
  have ht := mainStep_todo s m rest hm
  rw [hi] at ht
  rw [mainStep_cons s m rest hm]
  simp [retire, setTodo, ← ht]

/-- A micro-step leaves fewer steps to run. -/
theorem mainStep_progress (s : State) (h : s.seq.todo ≠ []) :
    progCost s.params (mainStep s).seq.todo < progCost s.params s.seq.todo := by
  obtain ⟨m, rest, hm⟩ := List.exists_cons_of_ne_nil h
  rw [mainStep_todo s m rest hm, hm, progCost_append]
  have := microEffect_cost m s
  have hc := progCost_cons s.params m rest
  omega

/-! ### A run -/

theorem isIdle_iff (s : State) : s.isIdle = true ↔ s.seq.todo = [] := by simp [State.isIdle]

theorem isIdle_of_seq {s t : State} (h : s.seq = t.seq) : s.isIdle = t.isIdle := by
  simp [State.isIdle, h]

theorem runToIdle_succ_idle (n : Nat) (s : State) (h : (mainStep s).seq.todo = []) :
    runToIdle (n + 1) s = mainStep s := by
  simp [runToIdle, (isIdle_iff _).mpr h]

theorem runToIdle_succ_busy (n : Nat) (s : State) (h : (mainStep s).seq.todo ≠ []) :
    runToIdle (n + 1) s = runToIdle n (point (mainStep s)) := by
  have : (mainStep s).isIdle = false := by simpa [State.isIdle] using h
  simp [runToIdle, this]

/-- The bound is enough: the run ends with SEQ = IDLE. -/
theorem runToIdle_idle (n : Nat) (s : State) (h : s.seq.todo ≠ []) (hn : progCost s.params s.seq.todo ≤ n) :
    (runToIdle n s).seq = Seq.idle := by
  induction n generalizing s with
  | zero =>
    have := mainStep_progress s h
    omega
  | succ n ih =>
    have hp := mainStep_progress s h
    by_cases hi : (mainStep s).seq.todo = []
    · rw [runToIdle_succ_idle n s hi]
      exact mainStep_idle s h hi
    · rw [runToIdle_succ_busy n s hi]
      exact ih _ (by simpa using hi) (by simpa using by omega)

/-- A larger bound changes nothing. -/
theorem runToIdle_bound (n k : Nat) (s : State) (h : s.seq.todo ≠ []) (hn : progCost s.params s.seq.todo ≤ n) :
    runToIdle (n + k) s = runToIdle n s := by
  induction n generalizing s with
  | zero =>
    have := mainStep_progress s h
    omega
  | succ n ih =>
    have hp := mainStep_progress s h
    rw [Nat.add_right_comm]
    by_cases hi : (mainStep s).seq.todo = []
    · rw [runToIdle_succ_idle _ s hi, runToIdle_succ_idle _ s hi]
    · rw [runToIdle_succ_busy _ s hi, runToIdle_succ_busy _ s hi]
      exact ih _ (by simpa using hi) (by simpa using by omega)

/-- What a micro-step of a busy block and an interruptible point of a busy block both keep, and a
last micro-step turns into `Q`, a run gives. The induction over a run, once. -/
theorem runToIdle_induction (P Q : State → Prop)
    (hmain : ∀ s, s.seq.todo ≠ [] → P s → (mainStep s).seq.todo ≠ [] → P (mainStep s))
    (hlast : ∀ s, s.seq.todo ≠ [] → P s → (mainStep s).seq.todo = [] → Q (mainStep s))
    (hpoint : ∀ s, s.seq.todo ≠ [] → P s → P (point s))
    (n : Nat) (s : State) (h : s.seq.todo ≠ []) (hn : progCost s.params s.seq.todo ≤ n) (hP : P s) :
    Q (runToIdle n s) := by
  induction n generalizing s with
  | zero =>
    have := mainStep_progress s h
    omega
  | succ n ih =>
    have hp := mainStep_progress s h
    by_cases hi : (mainStep s).seq.todo = []
    · rw [runToIdle_succ_idle n s hi]
      exact hlast s h hP hi
    · rw [runToIdle_succ_busy n s hi]
      exact ih _ (by simpa using hi) (by simpa using by omega) (hpoint _ hi (hmain s h hP hi))

theorem accept_todo (i : Instr) (prog : List Micro) (s : State) : (accept i prog s).seq.todo = prog := by
  simp [accept]

@[simp] theorem accept_params (i : Instr) (prog : List Micro) (s : State) : (accept i prog s).params = s.params := rfl

/-- A command always comes to its return (R155, R187, R233). -/
theorem runCommand_idle (i : Instr) (prog : List Micro) (s : State) (h : prog ≠ []) :
    (runCommand i prog s).seq = Seq.idle :=
  runToIdle_idle _ _ (by simpa [accept_todo] using h) (by simp [accept_todo])

/-- The induction over a run, for a command. -/
theorem runCommand_induction (P Q : State → Prop)
    (hmain : ∀ s, s.seq.todo ≠ [] → P s → (mainStep s).seq.todo ≠ [] → P (mainStep s))
    (hlast : ∀ s, s.seq.todo ≠ [] → P s → (mainStep s).seq.todo = [] → Q (mainStep s))
    (hpoint : ∀ s, s.seq.todo ≠ [] → P s → P (point s))
    (i : Instr) (prog : List Micro) (s : State) (h : prog ≠ []) (hP : P (accept i prog s)) :
    Q (runCommand i prog s) :=
  runToIdle_induction P Q hmain hlast hpoint _ _ (by simpa [accept_todo] using h) (by simp [accept_todo]) hP

/-- A command of one micro-step is that micro-step and its return. -/
theorem runCommand_single (i : Instr) (m : Micro) (s : State)
    (h : (microEffect m (accept i [m] s)).2 = []) :
    runCommand i [m] s = mainStep (accept i [m] s) := by
  have hpos := cost_pos s.params m
  have hc : progCost s.params [m] = (progCost s.params [m] - 1) + 1 := by simp [progCost]; omega
  unfold runCommand
  rw [hc]
  exact runToIdle_succ_idle _ _ (by rw [mainStep_todo _ m [] (accept_todo i [m] s), h]; rfl)

end Sys2Proof.Machine
end

