-- ==== Sys2Proof/Laws/Interrupts.lean ====
section
/-! SUPPORT. What the interrupt handler and an interruptible point can do (41_seriallink.md R147 to
R153, 60_exceptions.md R254 to R256): they leave the main context's registers alone, keep the rings and
the transmitter invariants, keep the order of what goes to the line, and only add to RB[RX]. -/

namespace Sys2Proof.Machine

/-! ### The two services, once and for all -/

/-- All that IRQ.RX can do (R148). -/
theorem serviceRx_cases (s : State) :
    (s.rbRx.count.toNat < 8 ∧
      serviceRx s = ((s.setRxreg { s.rxreg with full := false }).setRxirq false).setRbRx (s.rbRx.push s.rxreg.byte)) ∨
    (8 ≤ s.rbRx.count.toNat ∧ serviceRx s = (s.setRxreg { s.rxreg with full := false }).setRxirq false) := by
  unfold serviceRx
  by_cases h : s.rbRx.count.toNat < 8
  · have hlt : s.rbRx.count < Params.rbCapacity := by
      simpa [Params.rbCapacity, BitVec.lt_def] using h
    have hf : s.rbRx.isFull = false := by
      simpa [← Bool.not_eq_true, Ring.isFull_eq_true] using Nat.ne_of_lt h
    refine .inl ⟨h, ?_⟩
    simp [hlt, enqueue, hf]
  · have hlt : ¬ s.rbRx.count < Params.rbCapacity := by
      simpa [Params.rbCapacity, BitVec.lt_def] using h
    refine .inr ⟨by omega, ?_⟩
    simp [hlt]

/-- All that IRQ.TX can do (R149). -/
theorem serviceTx_cases (s : State) :
    (0 < s.rbTx.count.toNat ∧
      serviceTx s = (((s.setTxirq false).setRbTx s.rbTx.pop).setTxreg
        { full := true, byte := s.rbTx.front, rate := s.baud }).setTxIdle false) ∨
    (s.rbTx.count.toNat = 0 ∧ serviceTx s = (s.setTxirq false).setTxIdle true) := by
  unfold serviceTx
  by_cases h : 0 < s.rbTx.count.toNat
  · have hlt : 0 < s.rbTx.count := by simpa [BitVec.lt_def] using h
    have he : s.rbTx.isEmpty = false := by
      simpa [← Bool.not_eq_true, Ring.isEmpty_eq_true] using Nat.pos_iff_ne_zero.mp h
    refine .inl ⟨h, ?_⟩
    dsimp only
    rw [State.setTxirq_rbTx, if_pos hlt]
    simp [dequeue, he, uartTransmit, optionByte]
  · have hlt : ¬ 0 < s.rbTx.count := by simpa [BitVec.lt_def] using h
    refine .inr ⟨by omega, ?_⟩
    simp only [State.setTxirq_rbTx, hlt, if_false]

/-! ### The main context's registers -/

theorem MainOwned.refl (s : State) : MainOwned s s := by simp [MainOwned]

theorem MainOwned.trans {s t u : State} (h : MainOwned s t) (k : MainOwned t u) : MainOwned s u := by
  simp_all [MainOwned]

theorem setSched_mainOwned (s : State) (ts : List Turn) : MainOwned s (s.setSched ts) := by simp [MainOwned]

theorem serviceRx_mainOwned (s : State) : MainOwned s (serviceRx s) := by
  obtain ⟨-, h⟩ | ⟨-, h⟩ := serviceRx_cases s <;> simp [h, MainOwned]

theorem serviceTx_mainOwned (s : State) : MainOwned s (serviceTx s) := by
  obtain ⟨-, h⟩ | ⟨-, h⟩ := serviceTx_cases s <;> simp [h, MainOwned]

/-- Interrupt entry, body and return leave the main context's registers alone (R254, R255, R256). -/
theorem invokeHandler_mainOwned (s : State) : MainOwned s (invokeHandler s) := by
  unfold invokeHandler
  dsimp only
  split_ifs
  · exact (serviceRx_mainOwned s).trans (serviceTx_mainOwned _)
  · exact serviceRx_mainOwned s
  · exact serviceTx_mainOwned s
  · exact MainOwned.refl s

theorem urgent_mainOwned (s : State) : MainOwned s (urgent s) := by
  unfold urgent
  split
  · exact invokeHandler_mainOwned s
  · exact MainOwned.refl s

/-- While the block is busy the other agents' turns leave the main context's registers alone: the host
may write DBUF and issue a command only while SEQ = IDLE (R17, R46). -/
theorem applyTurn_mainOwned (t : Turn) (s : State) (h : s.seq.todo ≠ []) : MainOwned s (applyTurn t s) := by
  have hb : s.isIdle = false := by simpa [State.isIdle] using h
  cases t with
  | main => exact MainOwned.refl s
  | txdone => simp only [applyTurn, txdone]; split <;> simp [MainOwned]
  | rx v kept => simp only [applyTurn, rxArrive]; split_ifs <;> simp [MainOwned]
  | dbufWrite i v => simp [applyTurn, hostDbufWrite, hb, MainOwned]
  | issue w => simp [applyTurn, hostIssue, hb, MainOwned]

/-- A property that the handler and every turn of another agent keep while the block is busy, whatever
is left of the schedule, is kept by an interruptible point. -/
theorem runTurns_induction (P : State → Prop)
    (hsched : ∀ s ts, P s → P (s.setSched ts))
    (hhandler : ∀ s, handlerEnabled s = true → P s → P (invokeHandler s))
    (hturn : ∀ s t, s.seq.todo ≠ [] → P s → P (applyTurn t s))
    (ts : List Turn) (s : State) (hb : s.seq.todo ≠ []) (hP : P s) : P (runTurns ts s) := by
  have hu : ∀ s, P s → P (urgent s) := by
    intro s hs
    unfold urgent
    split
    · next h => exact hhandler s h hs
    · exact hs
  induction ts generalizing s with
  | nil => exact hu _ (hsched _ _ hP)
  | cons t ts ih =>
    have hgo : P (runTurns ts (applyTurn t (urgent (s.setSched ts)))) :=
      ih _ (by simpa using hb) (hturn _ t (by simpa using hb) (hu _ (hsched s ts hP)))
    cases t with
    | main => exact hu _ (hsched _ _ hP)
    | txdone => exact hgo
    | rx v kept => exact hgo
    | dbufWrite i v => exact hgo
    | issue w => exact hgo

theorem point_induction (P : State → Prop)
    (hsched : ∀ s ts, P s → P (s.setSched ts))
    (hhandler : ∀ s, handlerEnabled s = true → P s → P (invokeHandler s))
    (hturn : ∀ s t, s.seq.todo ≠ [] → P s → P (applyTurn t s))
    (s : State) (hb : s.seq.todo ≠ []) (hP : P s) : P (point s) :=
  runTurns_induction P hsched hhandler hturn s.sched s hb hP

/-- An interruptible point leaves the main context's registers alone (R254). -/
theorem point_mainOwned (s : State) (hb : s.seq.todo ≠ []) : MainOwned s (point s) :=
  point_induction (MainOwned s) (fun t ts h => h.trans (setSched_mainOwned t ts))
    (fun t _ h => h.trans (invokeHandler_mainOwned t)) (fun t u hb h => h.trans (applyTurn_mainOwned u t hb))
    s hb (MainOwned.refl s)

/-- With nothing scheduled and nothing pending an interruptible point does nothing (R16). -/
theorem point_quiet (s : State) (h : Quiet s) : point s = s := by
  obtain ⟨h1, h2, h3⟩ := h
  have hc : handlerEnabled s = false := by simp [handlerEnabled, cause, h2, h3]
  have hs : s.setSched [] = s := by rw [← h1]; rfl
  unfold point
  rw [h1]
  simp [runTurns, hs, urgent, hc]

/-! ### Rings and transmitter -/

theorem serviceRx_linkOk (s : State) (h : LinkOk s) : LinkOk (serviceRx s) := by
  obtain ⟨h1, h2, h3, h4⟩ := h
  obtain ⟨hc, hs⟩ | ⟨hc, hs⟩ := serviceRx_cases s
  · refine ⟨?_, ?_, ?_, ?_⟩
    · simpa [hs] using s.rbRx.push_wf s.rxreg.byte h1 hc
    · simpa [hs] using h2
    · simpa [hs, TxOk] using h3
    · simp [hs, RxOk]
  · refine ⟨?_, ?_, ?_, ?_⟩
    · simpa [hs] using h1
    · simpa [hs] using h2
    · simpa [hs, TxOk] using h3
    · simp [hs, RxOk]

theorem serviceTx_linkOk (s : State) (hirq : s.txirq = true) (h : LinkOk s) : LinkOk (serviceTx s) := by
  obtain ⟨h1, h2, h3, h4⟩ := h
  have hfull := h3.2.2.1 hirq
  obtain ⟨hc, hs⟩ | ⟨hc, hs⟩ := serviceTx_cases s
  · refine ⟨?_, ?_, ?_, ?_⟩
    · simpa [hs] using h1
    · simpa [hs] using s.rbTx.pop_wf h2 hc
    · simp [hs, TxOk]
    · simpa [hs, RxOk] using h4
  · refine ⟨?_, ?_, ?_, ?_⟩
    · simpa [hs] using h1
    · simpa [hs] using h2
    · simp [hs, TxOk, hfull]
    · simpa [hs, RxOk] using h4

@[simp] theorem serviceRx_txirq (s : State) : (serviceRx s).txirq = s.txirq := by
  obtain ⟨-, h⟩ | ⟨-, h⟩ := serviceRx_cases s <;> simp [h]

theorem invokeHandler_linkOk (s : State) (h : LinkOk s) : LinkOk (invokeHandler s) := by
  unfold invokeHandler
  dsimp only
  split_ifs with _ hi hi
  · exact serviceTx_linkOk _ hi (serviceRx_linkOk s h)
  · exact serviceRx_linkOk s h
  · exact serviceTx_linkOk s hi h
  · exact h

theorem applyTurn_linkOk (t : Turn) (s : State) (h : LinkOk s) : LinkOk (applyTurn t s) := by
  obtain ⟨h1, h2, h3, h4⟩ := h
  cases t with
  | main => exact ⟨h1, h2, h3, h4⟩
  | txdone =>
    simp only [applyTurn, txdone]
    split
    · next hf =>
      have hi : s.txIdle = false := by
        cases hi : s.txIdle
        · rfl
        · simp [h3.1 hi] at hf
      refine ⟨by simpa using h1, by simpa using h2, ?_, by simpa [RxOk] using h4⟩
      simp [TxOk, hi]
    · exact ⟨h1, h2, h3, h4⟩
  | rx v kept =>
    simp only [applyTurn, rxArrive]
    by_cases he : s.rxie = true
    · rw [if_pos he]
      exact ⟨by simpa using h1, by simpa using h2, by simpa [TxOk] using h3, by simp [RxOk]⟩
    · rw [if_neg he]
      split
      · exact ⟨by simpa using h1, by simpa using h2, by simpa [TxOk] using h3, by simp [RxOk]⟩
      · exact ⟨h1, h2, h3, h4⟩
  | dbufWrite i v =>
    simp only [applyTurn, hostDbufWrite, memWrite]
    split
    · exact ⟨by simpa using h1, by simpa using h2, by simpa [TxOk] using h3, by simpa [RxOk] using h4⟩
    · exact ⟨h1, h2, h3, h4⟩
  | issue w =>
    simp only [applyTurn, hostIssue]
    split
    · exact ⟨by simpa using h1, by simpa using h2, by simpa [TxOk] using h3, by simpa [RxOk] using h4⟩
    · exact ⟨h1, h2, h3, h4⟩

theorem setSched_linkOk (s : State) (ts : List Turn) (h : LinkOk s) : LinkOk (s.setSched ts) := h

/-! ### Order on the line (R63, R150, R151) -/

theorem lineStream_congr {s t : State} (h1 : t.wire = s.wire) (h2 : t.txreg = s.txreg) (h3 : t.rbTx = s.rbTx)
    (h4 : t.baud = s.baud) : lineStream t = lineStream s := by
  simp [lineStream, inFlight, h1, h2, h3, h4]

theorem serviceRx_lineStream (s : State) : lineStream (serviceRx s) = lineStream s := by
  obtain ⟨-, h⟩ | ⟨-, h⟩ := serviceRx_cases s <;> exact lineStream_congr (by simp [h]) (by simp [h]) (by simp [h]) (by simp [h])

theorem serviceTx_lineStream (s : State) (hfull : s.txreg.full = false) : lineStream (serviceTx s) = lineStream s := by
  obtain ⟨hc, h⟩ | ⟨-, h⟩ := serviceTx_cases s
  · simp [lineStream, inFlight, h, hfull, s.rbTx.contents_eq_front_cons hc]
  · exact lineStream_congr (by simp [h]) (by simp [h]) (by simp [h]) (by simp [h])

theorem invokeHandler_lineStream (s : State) (h : LinkOk s) : lineStream (invokeHandler s) = lineStream s := by
  unfold invokeHandler
  dsimp only
  split_ifs with h1 h2 h2
  · rw [serviceTx_lineStream _ ((serviceRx_linkOk s h).2.2.1.2.2.1 h2), serviceRx_lineStream]
  · exact serviceRx_lineStream s
  · exact serviceTx_lineStream s (h.2.2.1.2.2.1 h2)
  · rfl

theorem applyTurn_lineStream (t : Turn) (s : State) : lineStream (applyTurn t s) = lineStream s := by
  cases t with
  | main => rfl
  | txdone =>
    simp only [applyTurn, txdone]
    split
    · next hf => simp [lineStream, inFlight, hf]
    · rfl
  | rx v kept => simp only [applyTurn, rxArrive]; split_ifs <;> rfl
  | dbufWrite i v => simp only [applyTurn, hostDbufWrite, memWrite]; split <;> rfl
  | issue w => simp only [applyTurn, hostIssue]; split <;> rfl

theorem point_linkOk (s : State) (hb : s.seq.todo ≠ []) (h : LinkOk s) : LinkOk (point s) :=
  point_induction LinkOk setSched_linkOk (fun t _ => invokeHandler_linkOk t)
    (fun t u _ => applyTurn_linkOk u t) s hb h

/-- Whatever the other agents do at an interruptible point, nothing is lost, added or reordered on the way
to the line. -/
theorem point_lineStream (s : State) (hb : s.seq.todo ≠ []) (h : LinkOk s) : lineStream (point s) = lineStream s :=
  (point_induction (fun t => LinkOk t ∧ lineStream t = lineStream s)
    (fun t ts h => ⟨setSched_linkOk t ts h.1, h.2⟩)
    (fun t _ h => ⟨invokeHandler_linkOk t h.1, (invokeHandler_lineStream t h.1).trans h.2⟩)
    (fun t u _ h => ⟨applyTurn_linkOk u t h.1, (applyTurn_lineStream u t).trans h.2⟩) s hb ⟨h, rfl⟩).2

/-! ### RB[TX] and RB[RX] at an interruptible point (20_memory.md R74) -/

/-- The other agents never add to RB[TX]. -/
theorem point_txCount (s : State) (hb : s.seq.todo ≠ []) : (point s).rbTx.count.toNat ≤ s.rbTx.count.toNat := by
  refine point_induction (fun t => t.rbTx.count.toNat ≤ s.rbTx.count.toNat) (fun t ts h => h) ?_ ?_ s hb le_rfl
  · intro t _ h
    have hrx : ∀ u, (serviceRx u).rbTx = u.rbTx := fun u => by
      obtain ⟨-, e⟩ | ⟨-, e⟩ := serviceRx_cases u <;> simp [e]
    have htx : ∀ u, (serviceTx u).rbTx.count.toNat ≤ u.rbTx.count.toNat := fun u => by
      obtain ⟨hc, e⟩ | ⟨-, e⟩ := serviceTx_cases u
      · have := u.rbTx.pop_count hc
        simp [e, this]
      · simp [e]
    unfold invokeHandler
    dsimp only
    split_ifs
    · exact (htx _).trans (by simpa [hrx] using h)
    · simpa [hrx] using h
    · exact (htx _).trans h
    · exact h
  · intro t u _ h
    cases u <;> simp only [applyTurn, txdone, rxArrive, hostDbufWrite, hostIssue, memWrite] <;>
      (try split_ifs) <;> exact h

/-! ### What arrives (R148, R152, R156) -/

@[simp] theorem waiting_setSched (s : State) (ts : List Turn) : waiting (s.setSched ts) = waiting s := rfl

@[simp] theorem arrivals_setSched (s : State) (ts : List Turn) :
    arrivals (s.setSched ts) = waiting s ++ ts.filterMap Turn.arrival := rfl

theorem Gained.refl (s : State) : Gained [] s s := List.Sublist.refl _

theorem Gained.trans {a b : List Byte} {s t u : State} (h : Gained a s t) (k : Gained b t u) : Gained (a ++ b) s u := by
  have := (List.Sublist.refl a).append k
  rw [← List.append_assoc] at this
  exact this.trans h

@[simp] theorem serviceRx_sched (s : State) : (serviceRx s).sched = s.sched := by
  obtain ⟨-, h⟩ | ⟨-, h⟩ := serviceRx_cases s <;> simp [h]

@[simp] theorem serviceTx_sched (s : State) : (serviceTx s).sched = s.sched := by
  obtain ⟨-, h⟩ | ⟨-, h⟩ := serviceTx_cases s <;> simp [h]

@[simp] theorem invokeHandler_sched (s : State) : (invokeHandler s).sched = s.sched := by
  unfold invokeHandler
  dsimp only
  split_ifs <;> simp

@[simp] theorem urgent_sched (s : State) : (urgent s).sched = s.sched := by
  unfold urgent
  split <;> simp

@[simp] theorem applyTurn_sched (t : Turn) (s : State) : (applyTurn t s).sched = s.sched := by
  cases t <;> simp only [applyTurn, txdone, rxArrive, hostDbufWrite, hostIssue, memWrite] <;> split_ifs <;> simp

theorem serviceTx_rx (s : State) :
    (serviceTx s).rbRx = s.rbRx ∧ (serviceTx s).rxirq = s.rxirq ∧ (serviceTx s).rxreg = s.rxreg := by
  obtain ⟨-, e⟩ | ⟨-, e⟩ := serviceTx_cases s <;> simp [e]

/-- The handler moves the waiting byte to RB[RX], loses it, or leaves it where it is. -/
theorem invokeHandler_gained (s : State) (h : LinkOk s) :
    ∃ new, (invokeHandler s).rbRx.contents = s.rbRx.contents ++ new ∧
      List.Sublist (new ++ waiting (invokeHandler s)) (waiting s) := by
  have hrx : s.rxirq = true → ∃ new, (serviceRx s).rbRx.contents = s.rbRx.contents ++ new ∧
      List.Sublist (new ++ waiting (serviceRx s)) (waiting s) := fun hi => by
    obtain ⟨hc, e⟩ | ⟨-, e⟩ := serviceRx_cases s
    · exact ⟨[s.rxreg.byte], by simpa [e] using s.rbRx.contents_push s.rxreg.byte h.1 hc, by simp [e, waiting, hi]⟩
    · exact ⟨[], by simp [e], by simp [e, waiting]⟩
  have htx : ∀ u, (serviceTx u).rbRx = u.rbRx ∧ waiting (serviceTx u) = waiting u := fun u => by
    obtain ⟨h1, h2, h3⟩ := serviceTx_rx u
    simp [waiting, h1, h2, h3]
  unfold invokeHandler
  dsimp only
  split_ifs with h1 _ _
  · simpa [htx] using hrx (by simp_all)
  · exact hrx (by simp_all)
  · exact ⟨[], by simp [htx], by simp [htx]⟩
  · exact ⟨[], by simp, by simp⟩

theorem urgent_gained (s : State) (h : LinkOk s) :
    ∃ new, (urgent s).rbRx.contents = s.rbRx.contents ++ new ∧ List.Sublist (new ++ waiting (urgent s)) (waiting s) := by
  unfold urgent
  split
  · exact invokeHandler_gained s h
  · exact ⟨[], by simp, by simp⟩

theorem urgent_linkOk (s : State) (h : LinkOk s) : LinkOk (urgent s) := by
  unfold urgent
  split
  · exact invokeHandler_linkOk s h
  · exact h

theorem applyTurn_rbRx (t : Turn) (s : State) : (applyTurn t s).rbRx = s.rbRx := by
  cases t <;> simp only [applyTurn, txdone, rxArrive, hostDbufWrite, hostIssue, memWrite] <;> (try split_ifs) <;> rfl

/-- After a turn, one of the waiting byte and the byte it delivers waits, or neither. -/
theorem applyTurn_waiting (t : Turn) (s : State) (h : LinkOk s) :
    List.Sublist (waiting (applyTurn t s)) (waiting s ++ t.arrival.toList) := by
  have hr : s.rxirq = s.rxreg.full := h.2.2.2
  cases t with
  | rx v kept =>
    simp only [applyTurn, rxArrive, Turn.arrival, Option.toList_some]
    by_cases he : s.rxie = true <;> by_cases hf : s.rxreg.full = true <;> cases kept <;> simp [waiting, hr, he, hf]
  | main => simp [applyTurn, Turn.arrival]
  | txdone =>
    simp only [applyTurn, txdone, Turn.arrival, Option.toList_none, List.append_nil]
    split <;> exact List.Sublist.refl (waiting s)
  | dbufWrite i v =>
    simp only [applyTurn, hostDbufWrite, memWrite, Turn.arrival, Option.toList_none, List.append_nil]
    split <;> exact List.Sublist.refl (waiting s)
  | issue w =>
    simp only [applyTurn, hostIssue, Turn.arrival, Option.toList_none, List.append_nil]
    split <;> exact List.Sublist.refl (waiting s)

/-- The turns up to M's next one only add to RB[RX], behind what it holds, in order some of the bytes that wait or
arrive. -/
theorem runTurns_gained (ts : List Turn) (s : State) (h : LinkOk s) :
    ∃ new, (runTurns ts s).rbRx.contents = s.rbRx.contents ++ new ∧ Gained new (s.setSched ts) (runTurns ts s) := by
  have last : ∀ t ts, Turn.arrival t = none → ∃ new, (urgent (s.setSched ts)).rbRx.contents = s.rbRx.contents ++ new ∧
      Gained new (s.setSched (t :: ts)) (urgent (s.setSched ts)) := fun t ts ht => by
    obtain ⟨new, h1, h2⟩ := urgent_gained (s.setSched ts) h
    refine ⟨new, h1, ?_⟩
    have := h2.append (List.Sublist.refl (ts.filterMap Turn.arrival))
    simpa [Gained, arrivals, ht] using this
  induction ts generalizing s with
  | nil =>
    obtain ⟨new, h1, h2⟩ := urgent_gained (s.setSched []) h
    exact ⟨new, h1, by simpa [Gained, arrivals, runTurns] using h2⟩
  | cons t ts ih =>
    let u := urgent (s.setSched ts)
    have hu : LinkOk u := urgent_linkOk _ h
    obtain ⟨a, a1, a2⟩ := urgent_gained (s.setSched ts) h
    have hgo : ∃ new, (runTurns ts (applyTurn t u)).rbRx.contents = s.rbRx.contents ++ new ∧
        Gained new (s.setSched (t :: ts)) (runTurns ts (applyTurn t u)) := by
      obtain ⟨b, b1, b2⟩ := ih (applyTurn t u) (applyTurn_linkOk t u hu) (fun t' ts' ht => by
        obtain ⟨new, h1, h2⟩ := urgent_gained ((applyTurn t u).setSched ts') (applyTurn_linkOk t u hu)
        refine ⟨new, h1, ?_⟩
        simpa [Gained, arrivals, ht] using h2.append (List.Sublist.refl (ts'.filterMap Turn.arrival)))
      refine ⟨a ++ b, by rw [b1, applyTurn_rbRx, a1]; simp, ?_⟩
      have hw : List.Sublist (a ++ waiting (applyTurn t u)) (waiting s ++ t.arrival.toList) := by
        have := (List.Sublist.refl a).append (applyTurn_waiting t u hu)
        rw [← List.append_assoc] at this
        exact this.trans (a2.append (List.Sublist.refl _))
      have hs : Gained a (s.setSched (t :: ts)) ((applyTurn t u).setSched ts) := by
        have := hw.append (List.Sublist.refl (ts.filterMap Turn.arrival))
        have hc : (t :: ts).filterMap Turn.arrival = t.arrival.toList ++ ts.filterMap Turn.arrival := by
          cases ha : t.arrival <;> simp [ha]
        simpa [Gained, hc] using this
      exact hs.trans b2
    cases t with
    | main => exact last .main ts rfl
    | txdone => exact hgo
    | rx v kept => exact hgo
    | dbufWrite i v => exact hgo
    | issue w => exact hgo

/-- The other agents only add to RB[RX], behind what it holds, in order some of the bytes that arrive. -/
theorem point_rxContents (s : State) (h : LinkOk s) :
    ∃ new, (point s).rbRx.contents = s.rbRx.contents ++ new ∧ Gained new s (point s) :=
  runTurns_gained s.sched s h

end Sys2Proof.Machine
end

