-- ==== Sys2Proof/Laws/Leads.lean ====
section
/-! SUPPORT. Reasoning about a run piece by piece: `Leads s t` says that a busy run comes from s to t at
interruptible points, so that a sub-operation can be described once and used wherever its micro-steps are
spliced in (00_scope.md R17). -/

namespace Sys2Proof.Machine

/-- A run that is at an interruptible point with `s` comes, still busy, to `t`: each step is a micro-step and
the interruptible point after it. -/
inductive Leads : State → State → Prop where
  | refl (s : State) : Leads s s
  | step {s t : State} : s.seq.todo ≠ [] → (mainStep s).seq.todo ≠ [] → Leads (point (mainStep s)) t → Leads s t

theorem Leads.trans {s t u : State} (h : Leads s t) (k : Leads t u) : Leads s u := by
  induction h with
  | refl _ => exact k
  | step h1 h2 _ ih => exact .step h1 h2 (ih k)

theorem Leads.busy {s t : State} (h : Leads s t) (hs : s.seq.todo ≠ []) : t.seq.todo ≠ [] := by
  induction h with
  | refl _ => exact hs
  | step _ h2 _ ih => exact ih (by simpa using h2)

/-- The run from s is the run from t. -/
theorem Leads.run {s t : State} (h : Leads s t) (hs : s.seq.todo ≠ []) :
    runToIdle (progCost s.params s.seq.todo) s = runToIdle (progCost t.params t.seq.todo) t := by
  induction h with
  | refl _ => rfl
  | @step s t h1 h2 hl ih =>
    have hp := mainStep_progress s h1
    have hb : (point (mainStep s)).seq.todo ≠ [] := by simpa using h2
    have hc : progCost (point (mainStep s)).params (point (mainStep s)).seq.todo = progCost s.params (mainStep s).seq.todo := by
      simp
    obtain ⟨k, hk⟩ := Nat.exists_eq_add_of_lt hp
    rw [hk, runToIdle_succ_busy _ s h2, ← hc, runToIdle_bound _ _ _ hb le_rfl]
    exact ih hb

/-- A command whose run leads to a state with one micro-step left, after which nothing follows, ends with that
micro-step. -/
theorem runCommand_of_leads {i : Instr} {prog : List Micro} {s t : State} {m : Micro}
    (h : Leads (accept i prog s) t) (hp : prog ≠ []) (ht : t.seq.todo = [m]) (hm : (microEffect m t).2 = []) :
    runCommand i prog s = mainStep t := by
  have hb : (accept i prog s).seq.todo ≠ [] := by simpa [accept_todo] using hp
  have hi : (mainStep t).seq.todo = [] := by rw [mainStep_todo t m [] ht, hm]; rfl
  have hpos := cost_pos t.params m
  have hc : progCost t.params [m] = (progCost t.params [m] - 1) + 1 := by simp [progCost]; omega
  have := h.run hb
  rw [accept_todo, ht, hc, runToIdle_succ_idle _ _ hi] at this
  exact this

/-- A micro-step that leaves something to run, without the return. -/
theorem mainStep_busy (s : State) (m : Micro) (rest : List Micro) (h : s.seq.todo = m :: rest)
    (hn : (microEffect m s).2 ++ rest ≠ []) :
    mainStep s = setTodo ((microEffect m s).2 ++ rest) (microEffect m s).1 := by
  have hf : (setTodo ((microEffect m s).2 ++ rest) (microEffect m s).1).seq.todo.isEmpty = false := by
    simpa [setTodo] using hn
  rw [mainStep_cons s m rest h, retire, hf]
  rfl

/-- One micro-step and the point after it. -/
theorem Leads.micro {s : State} {m : Micro} {rest : List Micro} (h : s.seq.todo = m :: rest)
    (hn : (microEffect m s).2 ++ rest ≠ []) :
    Leads s (point (setTodo ((microEffect m s).2 ++ rest) (microEffect m s).1)) := by
  have hb := mainStep_busy s m rest h hn
  rw [← hb]
  exact .step (by simp [h]) (by rw [mainStep_todo s m rest h]; exact hn) (.refl _)

/-! ### What the other agents keep at a point, in one statement -/

/-- The transmitter rests: marked idle, empty, no event pending. `TxOk` gives the last two (R35). -/
def TxIdle (s : State) : Prop := s.txIdle = true ∧ s.txreg.full = false ∧ s.txirq = false

theorem TxOk.txIdle {s : State} (h : TxOk s) (hi : s.txIdle = true) : TxIdle s :=
  ⟨hi, h.1 hi, by
    cases hq : s.txirq
    · rfl
    · simp [h.2.2.2 hq] at hi⟩

/-- What is kept while agent M changes nothing but SEQ and the other agents move. -/
structure Keeps (s t : State) : Prop where
  own : MainOwned (s.setSeq t.seq) t
  link : LinkOk s → LinkOk t
  line : LinkOk s → lineStream t = lineStream s
  txCount : t.rbTx.count.toNat ≤ s.rbTx.count.toNat
  txStorage : t.rbTx.storage = s.rbTx.storage
  txHead : t.rbTx.head = s.rbTx.head
  rx : LinkOk s → ∃ new, t.rbRx.contents = s.rbRx.contents ++ new ∧ Gained new s t
  idle : TxIdle s → TxIdle t ∧ t.wire = s.wire ∧ t.rbTx = s.rbTx
  drained : LinkOk s → (s.txIdle = true → s.rbTx.count = 0) → (t.txIdle = true → t.rbTx.count = 0)
  noArrival : NoArrival s → NoArrival t ∧ t.rbRx = s.rbRx

theorem invokeHandler_tx (s : State) :
    (invokeHandler s).rbTx.storage = s.rbTx.storage ∧ (invokeHandler s).rbTx.head = s.rbTx.head := by
  have hrx : ∀ u, (serviceRx u).rbTx = u.rbTx := fun u => by
    obtain ⟨-, e⟩ | ⟨-, e⟩ := serviceRx_cases u <;> simp [e]
  have htx : ∀ u, (serviceTx u).rbTx.storage = u.rbTx.storage ∧ (serviceTx u).rbTx.head = u.rbTx.head := fun u => by
    obtain ⟨-, e⟩ | ⟨-, e⟩ := serviceTx_cases u <;> simp [e, Ring.pop]
  unfold invokeHandler
  dsimp only
  split_ifs <;> simp [hrx, htx]

/-- The handler marks the transmitter idle only when nothing is queued (R149). -/
theorem invokeHandler_drained (s : State) (h : s.txIdle = true → s.rbTx.count = 0) :
    (invokeHandler s).txIdle = true → (invokeHandler s).rbTx.count = 0 := by
  have hrx : ∀ u, (serviceRx u).rbTx = u.rbTx ∧ (serviceRx u).txIdle = u.txIdle := fun u => by
    obtain ⟨-, e⟩ | ⟨-, e⟩ := serviceRx_cases u <;> simp [e]
  have htx : ∀ u, (serviceTx u).txIdle = true → (serviceTx u).rbTx.count = 0 := fun u => by
    obtain ⟨-, e⟩ | ⟨hc, e⟩ := serviceTx_cases u
    · simp [e]
    · intro _
      rw [e]
      exact BitVec.eq_of_toNat_eq hc
  unfold invokeHandler
  dsimp only
  split_ifs
  · exact htx _
  · simpa [hrx] using h
  · exact htx _
  · exact h

theorem invokeHandler_idle (s : State) (h : TxIdle s) :
    TxIdle (invokeHandler s) ∧ (invokeHandler s).wire = s.wire ∧ (invokeHandler s).rbTx = s.rbTx := by
  obtain ⟨h1, h2, h3⟩ := h
  have hrx : (serviceRx s).txIdle = s.txIdle ∧ (serviceRx s).txreg = s.txreg ∧ (serviceRx s).wire = s.wire ∧
      (serviceRx s).rbTx = s.rbTx := by
    obtain ⟨-, e⟩ | ⟨-, e⟩ := serviceRx_cases s <;> simp [e]
  unfold invokeHandler
  dsimp only
  split_ifs <;> simp_all [TxIdle]

theorem applyTurn_idle (t : Turn) (s : State) (h : TxIdle s) :
    TxIdle (applyTurn t s) ∧ (applyTurn t s).wire = s.wire ∧ (applyTurn t s).rbTx = s.rbTx := by
  obtain ⟨h1, h2, h3⟩ := h
  cases t <;> simp only [applyTurn, txdone, rxArrive, hostDbufWrite, hostIssue, memWrite, h2, Bool.false_eq_true,
    if_false] <;> (try split_ifs) <;> simp_all [TxIdle]

theorem invokeHandler_noArrival (s : State) (h : s.rxirq = false) :
    (invokeHandler s).rxirq = false ∧ (invokeHandler s).rbRx = s.rbRx ∧ (invokeHandler s).sched = s.sched := by
  have htx : ∀ u, (serviceTx u).rxirq = u.rxirq ∧ (serviceTx u).rbRx = u.rbRx ∧ (serviceTx u).sched = u.sched := fun u => by
    obtain ⟨-, e⟩ | ⟨-, e⟩ := serviceTx_cases u <;> simp [e]
  unfold invokeHandler
  simp only [h, Bool.false_and, Bool.false_eq_true, if_false]
  split_ifs
  · simpa [h] using htx s
  · simp [h]

/-- A turn other than an arrival leaves the receiver alone. -/
theorem applyTurn_noArrival (t : Turn) (s : State) (ht : t.notRx = true) :
    (applyTurn t s).rxirq = s.rxirq ∧ (applyTurn t s).rbRx = s.rbRx ∧ (applyTurn t s).sched = s.sched := by
  cases t <;> simp [Turn.notRx] at ht <;> simp only [applyTurn, txdone, hostDbufWrite, hostIssue, memWrite] <;>
    (try split_ifs) <;> simp

theorem runTurns_noArrival (ts : List Turn) (s : State) (ht : ts.all Turn.notRx = true) (hi : s.rxirq = false) :
    NoArrival (runTurns ts s) ∧ (runTurns ts s).rbRx = s.rbRx := by
  have hu : ∀ u : State, u.rxirq = false →
      (urgent u).rxirq = false ∧ (urgent u).rbRx = u.rbRx ∧ (urgent u).sched = u.sched := fun u h => by
    unfold urgent
    split
    · exact invokeHandler_noArrival u h
    · exact ⟨h, rfl, rfl⟩
  have last : ∀ l : List Turn, l.all Turn.notRx = true →
      NoArrival (urgent (s.setSched l)) ∧ (urgent (s.setSched l)).rbRx = s.rbRx := fun l hl => by
    obtain ⟨h1, h2, h3⟩ := hu (s.setSched l) (by simpa using hi)
    exact ⟨⟨by simpa [h3] using hl, h1⟩, by simpa using h2⟩
  induction ts generalizing s with
  | nil => exact last [] rfl
  | cons t ts ih =>
    have hts : ts.all Turn.notRx = true := by simp_all
    have htn : t.notRx = true := by simp_all
    have hgo : NoArrival (runTurns ts (applyTurn t (urgent (s.setSched ts)))) ∧
        (runTurns ts (applyTurn t (urgent (s.setSched ts)))).rbRx = s.rbRx := by
      obtain ⟨h1, h2, -⟩ := hu (s.setSched ts) (by simpa using hi)
      obtain ⟨k1, k2, -⟩ := applyTurn_noArrival t (urgent (s.setSched ts)) htn
      have hi' : (applyTurn t (urgent (s.setSched ts))).rxirq = false := by rw [k1, h1]
      have := ih (applyTurn t (urgent (s.setSched ts))) hts hi' (fun l hl => by
        obtain ⟨a, b, c⟩ := hu ((applyTurn t (urgent (s.setSched ts))).setSched l) (by simpa using hi')
        exact ⟨⟨by simpa [c] using hl, a⟩, by simpa using b⟩)
      exact ⟨this.1, by rw [this.2, k2, h2]; rfl⟩
    cases t with
    | main => exact last ts hts
    | txdone => exact hgo
    | rx v kept => simp [Turn.notRx] at htn
    | dbufWrite i v => exact hgo
    | issue w => exact hgo

/-- All that an interruptible point keeps. -/
theorem point_keeps (s : State) (hb : s.seq.todo ≠ []) : Keeps s (point s) where
  own := by simpa [MainOwned] using point_mainOwned s hb
  link := point_linkOk s hb
  line := point_lineStream s hb
  txCount := point_txCount s hb
  txStorage := point_induction (fun t => t.rbTx.storage = s.rbTx.storage) (fun _ _ h => h)
    (fun t _ h => (invokeHandler_tx t).1.trans h)
    (fun t u _ h => by
      cases u <;> simp only [applyTurn, txdone, rxArrive, hostDbufWrite, hostIssue, memWrite] <;>
        (try split_ifs) <;> exact h) s hb rfl
  txHead := point_induction (fun t => t.rbTx.head = s.rbTx.head) (fun _ _ h => h)
    (fun t _ h => (invokeHandler_tx t).2.trans h)
    (fun t u _ h => by
      cases u <;> simp only [applyTurn, txdone, rxArrive, hostDbufWrite, hostIssue, memWrite] <;>
        (try split_ifs) <;> exact h) s hb rfl
  rx := point_rxContents s
  idle := fun hi => point_induction (fun t => TxIdle t ∧ t.wire = s.wire ∧ t.rbTx = s.rbTx) (fun _ _ h => h)
    (fun t _ h => by
      obtain ⟨a, b, c⟩ := invokeHandler_idle t h.1
      exact ⟨a, b.trans h.2.1, c.trans h.2.2⟩)
    (fun t u _ h => by
      obtain ⟨a, b, c⟩ := applyTurn_idle u t h.1
      exact ⟨a, b.trans h.2.1, c.trans h.2.2⟩) s hb ⟨hi, rfl, rfl⟩
  drained := fun hl hd => (point_induction (fun t => LinkOk t ∧ (t.txIdle = true → t.rbTx.count = 0))
    (fun _ _ h => h) (fun t _ h => ⟨invokeHandler_linkOk t h.1, invokeHandler_drained t h.2⟩)
    (fun t u _ h => ⟨applyTurn_linkOk u t h.1, by
      cases u <;> simp only [applyTurn, txdone, rxArrive, hostDbufWrite, hostIssue, memWrite] <;>
        (try split_ifs) <;> exact h.2⟩) s hb ⟨hl, hd⟩).2
  noArrival := fun h => runTurns_noArrival s.sched s h.1 h.2

/-- Frames up to SEQ compose. -/
theorem MainOwned.seqTrans {s t u : State} (h : MainOwned (s.setSeq t.seq) t) (k : MainOwned (t.setSeq u.seq) u) :
    MainOwned (s.setSeq u.seq) u := by
  simp_all [MainOwned]

theorem Keeps.setSeq (s : State) (q : Seq) : Keeps s (s.setSeq q) where
  own := MainOwned.refl _
  link := id
  line := fun _ => rfl
  txCount := le_rfl
  txStorage := rfl
  txHead := rfl
  rx := fun _ => ⟨[], by simp, Gained.refl s⟩
  idle := fun h => ⟨h, rfl, rfl⟩
  drained := fun _ h => h
  noArrival := fun h => ⟨h, rfl⟩

theorem Keeps.trans {s t u : State} (h : Keeps s t) (k : Keeps t u) : Keeps s u where
  own := h.own.seqTrans k.own
  link := fun hl => k.link (h.link hl)
  line := fun hl => (k.line (h.link hl)).trans (h.line hl)
  txCount := k.txCount.trans h.txCount
  txStorage := k.txStorage.trans h.txStorage
  txHead := k.txHead.trans h.txHead
  rx := fun hl => by
    obtain ⟨a, ha, ga⟩ := h.rx hl
    obtain ⟨b, hb, gb⟩ := k.rx (h.link hl)
    exact ⟨a ++ b, by rw [hb, ha, List.append_assoc], ga.trans gb⟩
  idle := fun hi => by
    obtain ⟨a1, a2, a3⟩ := h.idle hi
    obtain ⟨b1, b2, b3⟩ := k.idle a1
    exact ⟨b1, b2.trans a2, b3.trans a3⟩
  drained := fun hl hd => k.drained (h.link hl) (h.drained hl hd)
  noArrival := fun hn => by
    obtain ⟨a1, a2⟩ := h.noArrival hn
    obtain ⟨b1, b2⟩ := k.noArrival a1
    exact ⟨b1, b2.trans a2⟩

theorem Keeps.params {s t : State} (h : Keeps s t) : t.params = s.params := by
  obtain ⟨-, -, -, -, -, -, -, -, -, -, -, -, -, -, -, -, hp⟩ := h.own
  exact hp

/-! ### Sub-operations -/

/-- A micro-step that changes only SEQ, with the point after it. -/
theorem Leads.quietMicro {s : State} {m : Micro} {rest : List Micro} (h : s.seq.todo = m :: rest) (q : Seq)
    (he : (microEffect m s).1 = s.setSeq q) (hn : (microEffect m s).2 ++ rest ≠ []) :
    ∃ t, Leads s t ∧ t.seq.todo = (microEffect m s).2 ++ rest ∧ t.seq.ret = q.ret ∧ Keeps s t := by
  refine ⟨_, Leads.micro h hn, ?_, ?_, ?_⟩
  · simp [setTodo]
  · simp [setTodo, he]
  · have hk : Keeps s (setTodo ((microEffect m s).2 ++ rest) (microEffect m s).1) := by
      rw [he]
      exact Keeps.setSeq s _
    exact hk.trans (point_keeps _ (by simpa [setTodo] using hn))

/-- The drain wait (R175): it ends, and M changes nothing but SEQ. -/
theorem drain_leads (rest : List Micro) (hr : rest ≠ []) (n k : Nat) (s : State) (hk : s.params.drainPolls ≤ k + n)
    (h : s.seq.todo = .drainTest k :: rest) : ∃ t, Leads s t ∧ t.seq.todo = rest ∧ Keeps s t := by
  have stop : (microEffect (.drainTest k) s) = (s, []) → ∃ t, Leads s t ∧ t.seq.todo = rest ∧ Keeps s t := by
    intro he
    obtain ⟨t, h1, h2, -, h4⟩ := Leads.quietMicro h s.seq (by rw [he]; rfl) (by rw [he]; simpa using hr)
    exact ⟨t, h1, by simpa [he] using h2, h4⟩
  induction n generalizing k s with
  | zero =>
    refine stop ?_
    simp only [microEffect, microDrainTest, goOn, if_pos (show s.params.drainPolls ≤ k by omega)]
    split <;> rfl
  | succ n ih =>
    by_cases hi : s.txIdle = true
    · exact stop (by simp [microEffect, microDrainTest, goOn, hi])
    by_cases hle : s.params.drainPolls ≤ k
    · exact stop (by simp [microEffect, microDrainTest, goOn, hle])
    have he : microEffect (.drainTest k) s = (s, [.drainWait k]) := by
      simp [microEffect, microDrainTest, goOn, hi, hle]
    obtain ⟨t, h1, h2, -, h4⟩ := Leads.quietMicro h s.seq (by rw [he]; rfl) (by rw [he]; simp)
    rw [he] at h2
    obtain ⟨u, k1, k2, -, k4⟩ := Leads.quietMicro (m := .drainWait k) (rest := rest) h2 t.seq rfl (by
      simp [microEffect, microDrainWait, goOn])
    have hstop : microEffect (.drainTest (k + 1)) u = (u, []) →
        ∃ v, Leads u v ∧ v.seq.todo = rest ∧ Keeps u v := by
      intro he
      obtain ⟨v, l1, l2, -, l4⟩ := Leads.quietMicro (m := .drainTest (k + 1)) (rest := rest) k2 u.seq (by rw [he]; rfl)
        (by rw [he]; simpa using hr)
      exact ⟨v, l1, by simpa [he] using l2, l4⟩
    obtain ⟨v, l1, l2, l3⟩ := ih (k + 1) u (by rw [k4.params, h4.params]; omega) k2 hstop
    exact ⟨v, (h1.trans k1).trans l1, l2, (h4.trans k4).trans l3⟩

/-- Steps 3 and 4 of SL.SEND (R145): nothing but SEQ changes. -/
theorem sendTest_leads (rest : List Micro) (hr : rest ≠ []) (s : State) (h : s.seq.todo = .sendTest :: rest) :
    ∃ t, Leads s t ∧ t.seq.todo = rest ∧ t.seq.ret = .nothing ∧ Keeps s t := by
  by_cases hc : s.rbTx.count < Params.rbCapacity
  · have he : microEffect .sendTest s = (giveRet .nothing s, []) := by
      simp [microEffect, microSendTest, ret, State.ring, hc]
    obtain ⟨t, h1, h2, h3, h4⟩ := Leads.quietMicro h { s.seq with ret := .nothing } (by rw [he]; rfl) (by
      rw [he]
      simpa using hr)
    exact ⟨t, h1, by simpa [he] using h2, h3, h4⟩
  · have he : microEffect .sendTest s = (s, [.sendWait]) := by
      simp [microEffect, microSendTest, goOn, State.ring, hc]
    obtain ⟨t, h1, h2, -, h4⟩ := Leads.quietMicro h s.seq (by rw [he]; rfl) (by rw [he]; simp)
    rw [he] at h2
    have he2 : microEffect .sendWait t = (giveRet .nothing t, []) := rfl
    obtain ⟨u, k1, k2, k3, k4⟩ := Leads.quietMicro (m := .sendWait) (rest := rest) h2 { t.seq with ret := .nothing }
      (by rw [he2]; rfl) (by rw [he2]; simpa using hr)
    exact ⟨u, h1.trans k1, by simpa [he2] using k2, k3, h4.trans k4⟩

/-! ### Traces -/

@[simp] theorem bytesOf_append (v w : List WireItem) : bytesOf (v ++ w) = bytesOf v ++ bytesOf w := by
  simp [bytesOf]

@[simp] theorem charsOf_append (v w : List WireItem) : charsOf (v ++ w) = charsOf v ++ charsOf w := by
  simp [charsOf]

@[simp] theorem bytesOf_chars (l : List Byte) (r : Rate) : bytesOf (l.map fun b => .char b r) = l := by
  induction l with
  | nil => rfl
  | cons b l ih => exact congrArg (b :: ·) ih

/-- The bytes on their way to the line do not depend on the rate selected. -/
theorem bytesOf_lineStream (s : State) :
    bytesOf (lineStream s) = bytesOf s.wire ++ bytesOf (inFlight s) ++ s.rbTx.contents := by
  simp [lineStream]

/-! ### Enqueue and kick -/

/-- A byte queued for the line goes behind all that is on its way (R142, R63). -/
theorem lineStream_push (s : State) (v : Byte) (hw : s.rbTx.Wf) (h : s.rbTx.count.toNat < 8) :
    lineStream (s.setRbTx (s.rbTx.push v)) = lineStream s ++ [.char v s.baud] := by
  simp only [lineStream, inFlight, State.setRbTx_wire, State.setRbTx_txreg, State.setRbTx_rbTx, State.setRbTx_baud,
    s.rbTx.contents_push v hw h, List.map_append, List.map_cons, List.map_nil, List.append_assoc]
  rfl

theorem linkOk_push (s : State) (v : Byte) (hl : LinkOk s) (h : s.rbTx.count.toNat < 8) :
    LinkOk (s.setRbTx (s.rbTx.push v)) :=
  ⟨hl.1, s.rbTx.push_wf v hl.2.1 h, hl.2.2.1, hl.2.2.2⟩

/-- All that the kick can do (R143, R144). -/
theorem kick_cases (s : State) :
    (s.txIdle = true ∧ kick s = (s.setTxIdle false).setTxirq true) ∨ (s.txIdle = false ∧ kick s = s) := by
  cases h : s.txIdle
  · exact .inr ⟨rfl, by simp [kick, h]⟩
  · exact .inl ⟨rfl, by simp [kick, h, forceTxIrq]⟩

theorem kick_linkOk (s : State) (hl : LinkOk s) : LinkOk (kick s) := by
  obtain ⟨hi, h⟩ | ⟨-, h⟩ := kick_cases s
  · have hf := hl.2.2.1.1 hi
    exact ⟨by simpa [h] using hl.1, by simpa [h] using hl.2.1, by simp [h, TxOk, hf], by simpa [h, RxOk] using hl.2.2.2⟩
  · rw [h]
    exact hl

theorem kick_lineStream (s : State) : lineStream (kick s) = lineStream s := by
  obtain ⟨-, h⟩ | ⟨-, h⟩ := kick_cases s <;> rw [h]
  rfl

theorem kick_arrivals (s : State) : arrivals (kick s) = arrivals s := by
  obtain ⟨-, h⟩ | ⟨-, h⟩ := kick_cases s <;> rw [h]
  rfl

/-- All that a call of SL.SEND does, up to the look at the count of step 3 (R141 to R144). -/
structure Sent (v : Byte) (s t : State) : Prop where
  own : MainOwned (s.setSeq t.seq) t
  link : LinkOk t
  queued : s.rbTx.count.toNat < 8 → lineStream t = lineStream s ++ [.char v s.baud]
  dropped : s.rbTx.count.toNat = 8 → lineStream t = lineStream s ∧ t.rbTx.storage = s.rbTx.storage
  txCount : t.rbTx.count.toNat ≤ s.rbTx.count.toNat + 1
  txHead : t.rbTx.head = if s.rbTx.count.toNat < 8 then s.rbTx.head + 1 else s.rbTx.head
  txFrame : ∀ j, j ≠ s.rbTx.head.toNat → memRead .txbuf j t = memRead .txbuf j s
  rx : ∃ new, t.rbRx.contents = s.rbRx.contents ++ new ∧ Gained new s t
  kicked : t.txIdle = true → t.rbTx.count = 0
  noArrival : NoArrival s → NoArrival t ∧ t.rbRx = s.rbRx

/-- The enqueue of step 1 and what the callers need of it. -/
theorem sendEnq_effect (v : Byte) (s : State) (hl : LinkOk s) :
    ∃ u, microEffect (.sendEnq v) s = (u, []) ∧ u.seq = s.seq ∧ MainOwned s u ∧ LinkOk u ∧
      (s.rbTx.count.toNat < 8 → lineStream u = lineStream s ++ [.char v s.baud] ∧ u.rbTx.head = s.rbTx.head + 1 ∧
        u.rbTx.count.toNat = s.rbTx.count.toNat + 1) ∧
      (s.rbTx.count.toNat = 8 → u = s) ∧
      (∀ j, j ≠ s.rbTx.head.toNat → memRead .txbuf j u = memRead .txbuf j s) ∧
      u.rbRx = s.rbRx ∧ u.sched = s.sched ∧ u.rxirq = s.rxirq ∧ u.txIdle = s.txIdle ∧ arrivals u = arrivals s := by
  have hle := hl.2.1.1
  obtain ⟨hc, he⟩ | ⟨hc, he⟩ := enqueue_cases .tx v s
  · refine ⟨s, ?_, rfl, MainOwned.refl s, hl, ?_, fun _ => rfl, fun _ _ => rfl, rfl, rfl, rfl, rfl, rfl⟩
    · simp [microEffect, microSendEnq, goOn, atomic_enqueue, he]
    · intro h
      simp only [State.ring] at hc
      omega
  · simp only [State.ring] at hc
    have hlt : s.rbTx.count.toNat < 8 := by omega
    refine ⟨s.setRbTx (s.rbTx.push v), ?_, rfl, by simp [MainOwned], linkOk_push s v hl hlt, ?_, ?_, ?_, rfl, rfl, rfl,
      rfl, rfl⟩
    · simp [microEffect, microSendEnq, goOn, atomic_enqueue, he, State.ring, State.setRing]
    · exact fun _ => ⟨lineStream_push s v hl.2.1 hlt, rfl, s.rbTx.push_count v hlt⟩
    · intro h
      omega
    · intro j hj
      simp [memRead, Ring.push, Ne.symm hj]

theorem send_leads (v : Byte) (rest : List Micro) (s : State) (h : s.seq.todo = sendProg v ++ rest) (hl : LinkOk s) :
    ∃ t, Leads s t ∧ t.seq.todo = .sendTest :: rest ∧ t.seq.command = s.seq.command ∧ Sent v s t := by
  obtain ⟨u, he, hseq, hown, hlu, hq, hd, hf, hrx, hsch, hirq, hidle, harr⟩ := sendEnq_effect v s hl
  have h' : s.seq.todo = .sendEnq v :: ([.sendKick, .sendTest] ++ rest) := h
  -- step 1 and its point
  have l1 := Leads.micro (s := s) (m := .sendEnq v) (rest := [.sendKick, .sendTest] ++ rest) h' (by simp [he])
  rw [he] at l1
  let a := setTodo ([.sendKick, .sendTest] ++ rest) u
  have ka : Keeps a (point a) := point_keeps a (by simp [a, setTodo])
  have hla : LinkOk a := hlu
  have ta : (point a).seq.todo = .sendKick :: .sendTest :: rest := by simp [a, setTodo]
  -- step 2 and its point
  have l2 := Leads.micro (s := point a) (m := .sendKick) (rest := .sendTest :: rest) ta (by simp)
  have hk : microEffect .sendKick (point a) = (kick (point a), []) := rfl
  rw [hk] at l2
  let b := setTodo (.sendTest :: rest) (kick (point a))
  have kb : Keeps b (point b) := point_keeps b (by simp [b, setTodo])
  have hlp : LinkOk (point a) := ka.link hla
  have hlb : LinkOk b := kick_linkOk _ hlp
  have hkick := kick_cases (point a)
  have bown : MainOwned ((point a).setSeq b.seq) b := by
    obtain ⟨-, e⟩ | ⟨-, e⟩ := hkick <;> simp [b, setTodo, e, MainOwned]
  have brb : b.rbTx = (point a).rbTx ∧ b.rbRx = (point a).rbRx ∧ b.sched = (point a).sched ∧
      b.rxirq = (point a).rxirq ∧ b.txIdle = false := by
    obtain ⟨-, e⟩ | ⟨hi, e⟩ := hkick
    · simp [b, setTodo, e]
    · simp [b, setTodo, e, hi]
  have bline : lineStream b = lineStream (point a) := kick_lineStream (point a)
  have line : lineStream (point b) = lineStream u := by
    rw [kb.line hlb, bline, ka.line hla]
    rfl
  have txs : (point b).rbTx.storage = u.rbTx.storage := by
    rw [kb.txStorage, brb.1, ka.txStorage]
    rfl
  have txh : (point b).rbTx.head = u.rbTx.head := by
    rw [kb.txHead, brb.1, ka.txHead]
    rfl
  refine ⟨point b, l1.trans l2, by simp [b, setTodo], ?_, ?_⟩
  · have : (point b).seq.command = (point a).seq.command := by
      obtain ⟨-, e⟩ | ⟨-, e⟩ := hkick <;> simp [b, setTodo, e]
    rw [this]
    simp [a, setTodo, hseq]
  · constructor
    · have hsa : MainOwned (s.setSeq a.seq) a := by
        have h1 := hown
        simp only [MainOwned, a, setTodo, State.setSeq_seq] at h1 ⊢
        simp [h1]
      exact ((hsa.seqTrans ka.own).seqTrans bown).seqTrans kb.own
    · exact kb.link hlb
    · intro hlt
      rw [line, (hq hlt).1]
    · intro h8
      rw [line, txs, hd h8]
      exact ⟨rfl, rfl⟩
    · have h1 := kb.txCount
      have h2 := ka.txCount
      rw [brb.1] at h1
      have h3 : a.rbTx.count.toNat ≤ s.rbTx.count.toNat + 1 := by
        have : a.rbTx = u.rbTx := rfl
        rw [this]
        by_cases hlt : s.rbTx.count.toNat < 8
        · exact le_of_eq (hq hlt).2.2
        · rw [hd (by have := hl.2.1.1; omega)]
          omega
      omega
    · rw [txh]
      split
      · next hlt => exact (hq hlt).2.1
      · next hge => rw [hd (by have := hl.2.1.1; omega)]
    · intro j hj
      have := hf j hj
      simp only [memRead] at this ⊢
      rw [txs]
      exact this
    · obtain ⟨x, hx, gx⟩ := ka.rx hla
      obtain ⟨y, hy, gy⟩ := kb.rx hlb
      have ha : a.rbRx.contents = s.rbRx.contents := congrArg Ring.contents hrx
      have gxs : Gained x s (point a) := by
        rw [Gained, ← harr]
        exact gx
      have gyb : Gained y (point a) (point b) := by
        rw [Gained, ← kick_arrivals (point a)]
        exact gy
      exact ⟨x ++ y, by rw [hy, brb.2.1, hx, ha, List.append_assoc], gxs.trans gyb⟩
    · exact kb.drained hlb (fun hi => by simp [brb.2.2.2.2] at hi)
    · intro hn
      have hna : NoArrival a := ⟨hsch ▸ hn.1, hirq ▸ hn.2⟩
      obtain ⟨a1, a2⟩ := ka.noArrival hna
      have hnb : NoArrival b := ⟨brb.2.2.1 ▸ a1.1, brb.2.2.2.1 ▸ a1.2⟩
      obtain ⟨b1, b2⟩ := kb.noArrival hnb
      exact ⟨b1, by rw [b2, brb.2.1, a2]; exact hrx⟩

/-! ### A pending transmit-ready event is served first (R147) -/

/-- The handler runs before any turn of an interruptible point. -/
theorem runTurns_urgent_first (ts : List Turn) (s : State) :
    ∃ l, runTurns ts s = urgent (s.setSched l) ∨
      ∃ t ts', runTurns ts s = runTurns ts' (applyTurn t (urgent (s.setSched l))) := by
  cases ts with
  | nil => exact ⟨[], .inl rfl⟩
  | cons t ts =>
    cases t with
    | main => exact ⟨ts, .inl rfl⟩
    | txdone => exact ⟨ts, .inr ⟨_, ts, rfl⟩⟩
    | rx v kept => exact ⟨ts, .inr ⟨_, ts, rfl⟩⟩
    | dbufWrite i v => exact ⟨ts, .inr ⟨_, ts, rfl⟩⟩
    | issue w => exact ⟨ts, .inr ⟨_, ts, rfl⟩⟩

/-- With a transmit-ready event pending, an interruptible point takes a byte out of RB[TX] if there is one: it
is handed to the transmitter at the rate in force, before anything else happens (R149, R150). -/
theorem point_hands_over (s : State) (hb : s.seq.todo ≠ []) (hg : s.gie = true) (hi : s.txirq = true) :
    (point s).rbTx.count.toNat ≤ s.rbTx.count.toNat - 1 := by
  have hu : ∀ l, (urgent (s.setSched l)).rbTx.count.toNat ≤ s.rbTx.count.toNat - 1 := fun l => by
    have he : handlerEnabled (s.setSched l) = true := by
      have hc : cause (s.setSched l) ≠ 0 := by
        simp only [cause, State.setSched_txirq, hi]
        generalize ((s.setSched l).rxirq && (s.setSched l).rxie) = r
        cases r <;> decide
      simp only [handlerEnabled, State.setSched_gie, hg, Bool.true_and, bne_iff_ne]
      exact hc
    have htx : ∀ u, (serviceTx u).rbTx.count.toNat ≤ u.rbTx.count.toNat - 1 := fun u => by
      obtain ⟨hc, e⟩ | ⟨hc, e⟩ := serviceTx_cases u
      · rw [e]
        exact le_of_eq (u.rbTx.pop_count hc)
      · rw [e]
        simp [hc]
    have hrx : (serviceRx (s.setSched l)).rbTx = s.rbTx := by
      obtain ⟨-, e⟩ | ⟨-, e⟩ := serviceRx_cases (s.setSched l) <;> simp [e]
    unfold urgent
    rw [if_pos he]
    unfold invokeHandler
    dsimp only
    split_ifs with h1 h2 h2
    · exact (htx _).trans (by rw [hrx])
    · simp [hi] at h2
    · exact htx _
    · simp [hi] at h2
  obtain ⟨l, h | ⟨t, ts', h⟩⟩ := runTurns_urgent_first s.sched s
  · unfold point
    rw [h]
    exact hu l
  · have hbu : (applyTurn t (urgent (s.setSched l))).seq.todo ≠ [] := by simpa using hb
    have hk := point_txCount ((applyTurn t (urgent (s.setSched l))).setSched ts') (by simpa using hb)
    have ht : (applyTurn t (urgent (s.setSched l))).rbTx = (urgent (s.setSched l)).rbTx := by
      cases t <;> simp only [applyTurn, txdone, rxArrive, hostDbufWrite, hostIssue, memWrite] <;>
        (try split_ifs) <;> rfl
    have hs : ∀ u : State, runTurns ts' (u.setSched ts') = runTurns ts' u := fun u => by
      cases ts' with
      | nil => rfl
      | cons a as => cases a <;> rfl
    unfold point at hk ⊢
    rw [State.setSched_sched, hs] at hk
    rw [h]
    refine hk.trans ?_
    rw [State.setSched_rbTx, ht]
    exact hu l

end Sys2Proof.Machine
end

