-- ==== Sys2Proof/Laws/PerInstr.lean ====
section
/-! SUPPORT. The encoding of every instruction fits its row of the opcode table, one lemma per
constructor (30_encoding.md R92, R95). -/

namespace Sys2Proof.Laws

theorem commandWord_and (op op' sub sub' : BitVec 4) (imm imm' : Byte) :
    commandWord op sub imm &&& commandWord op' sub' imm' =
      commandWord (op &&& op') (sub &&& sub') (imm &&& imm') :=
  BitVec.and_append.trans (congrArg (· ++ (imm &&& imm')) BitVec.and_append)

/-- A word built from fields fits a row, field by field. -/
theorem fits_of_fields (r : Row) {op sub : BitVec 4} {imm : Byte} (mop msub : BitVec 4) (mimm : Byte)
    (hm : r.mask = commandWord mop msub mimm)
    (hp : commandWord (op &&& mop) (sub &&& msub) (imm &&& mimm) = r.pattern) :
    r.fits (commandWord op sub imm) = true := by
  simp only [Row.fits, hm, commandWord_and, hp, decide_true]

/-- The row of an instruction in `commandRows`; none for the two services, which are cause vectors. -/
def EncodingPattern.row : Instr → Option Row
  | .rbEnq _ _ => commandRows[0]?
  | .rbDeq _ => commandRows[1]?
  | .rbLen _ => commandRows[2]?
  | .slSend _ => commandRows[3]?
  | .slTryread => commandRows[4]?
  | .slRxie _ => commandRows[5]?
  | .linWakeup => commandRows[6]?
  | .linHeader _ => commandRows[7]?
  | .linData _ _ => commandRows[8]?
  | .linResp _ => commandRows[9]?
  | .fxCmd _ _ => commandRows[10]?
  | .fxStatus _ _ => commandRows[11]?
  | .seqStart => commandRows[12]?
  | .seqStop _ => commandRows[13]?
  | .seqLoadchk => commandRows[14]?
  | .irqRx => none
  | .irqTx => none

/-- A command's word fits its row; a service's cause vector selects that service alone. -/
def EncodingPattern.Statement (i : Instr) : Prop :=
  (∃ r w, EncodingPattern.row i = some r ∧ encode i = .command w ∧ r.fits w = true) ∨
  (∃ c, EncodingPattern.row i = none ∧ encode i = .cause c ∧ causeServices c = [i])

namespace EncodingPattern

theorem rbEnq (b : Buf) (byte : Byte) : Statement (.rbEnq b byte) := by
  cases b <;> exact .inl ⟨_, _, rfl, rfl, fits_of_fields _ 0xF 0xE 0 (by decide) (by simp; decide)⟩

theorem rbDeq (b : Buf) : Statement (.rbDeq b) := by cases b <;> exact .inl ⟨_, _, rfl, rfl, rfl⟩

theorem rbLen (b : Buf) : Statement (.rbLen b) := by cases b <;> exact .inl ⟨_, _, rfl, rfl, rfl⟩

theorem slSend (byte : Byte) : Statement (.slSend byte) :=
  .inl ⟨_, _, rfl, rfl, fits_of_fields _ 0xF 0xF 0 (by decide) (by simp; decide)⟩

theorem slTryread : Statement .slTryread := .inl ⟨_, _, rfl, rfl, rfl⟩

theorem slRxie (e : Bool) : Statement (.slRxie e) := by cases e <;> exact .inl ⟨_, _, rfl, rfl, rfl⟩

theorem linWakeup : Statement .linWakeup := .inl ⟨_, _, rfl, rfl, rfl⟩

theorem linHeader (id : BitVec 6) : Statement (.linHeader id) :=
  .inl ⟨_, _, rfl, rfl, fits_of_fields _ 0xF 0xF 0 (by decide) (by simp; decide)⟩

theorem linData (len : BitVec 4) (pid : Byte) : Statement (.linData len pid) :=
  .inl ⟨_, _, rfl, rfl, fits_of_fields _ 0xF 0 0 (by decide) (by simp; decide)⟩

theorem linResp (maxLen : BitVec 4) : Statement (.linResp maxLen) :=
  .inl ⟨_, _, rfl, rfl, fits_of_fields _ 0xF 0 0xFF (by decide) (by simp; decide)⟩

theorem fxCmd (id : BitVec 6) (len : BitVec 4) : Statement (.fxCmd id len) :=
  .inl ⟨_, _, rfl, rfl, fits_of_fields _ 0xF 0 0 (by decide) (by simp; decide)⟩

theorem fxStatus (id : BitVec 6) (maxLen : BitVec 4) : Statement (.fxStatus id maxLen) :=
  .inl ⟨_, _, rfl, rfl, fits_of_fields _ 0xF 0 0 (by decide) (by simp; decide)⟩

theorem seqStart : Statement .seqStart := .inl ⟨_, _, rfl, rfl, rfl⟩

theorem seqStop (c : Bool) : Statement (.seqStop c) := by cases c <;> exact .inl ⟨_, _, rfl, rfl, rfl⟩

theorem seqLoadchk : Statement .seqLoadchk := .inl ⟨_, _, rfl, rfl, rfl⟩

theorem irqRx : Statement .irqRx := .inr ⟨_, rfl, rfl, rfl⟩

theorem irqTx : Statement .irqTx := .inr ⟨_, rfl, rfl, rfl⟩

end EncodingPattern

end Sys2Proof.Laws
end

