-- ==== Sys2Proof/Tests/Slice0.lean ====
section
/-! SUPPORT. Tests: the smoke test of well-formedness, decoding of words written out from 30_encoding.md
R92 and listed in 95_test_vectors.md section 4, at most two one-command tests per instruction with expected
results from 95_test_vectors.md or by hand from the rules, and for every obligation with hypotheses a state
and operands that meet them. -/

namespace Sys2Proof.Tests

open Sys2Proof.Machine

set_option Elab.async false

/-! ### Helpers -/

/-- The next state of an outcome. -/
def after : Host.Outcome State Fault Refusal → Option State
  | .next t => some t
  | .fault _ => none
  | .refused _ => none

/-- The refusal of an outcome. -/
def refusal : Host.Outcome State Fault Refusal → Option Refusal
  | .next _ => none
  | .fault _ => none
  | .refused r => some r

/-- A ring that holds these bytes, from slot `start` on. -/
def ringOf (start : BitVec 3) (l : List Byte) : Ring :=
  l.foldl Ring.push { Ring.reset with head := start, tail := start }

/-- Reset with bytes in RB[RX]. -/
def rxState (l : List Byte) : State := State.reset.setRbRx (ringOf 0 l)

/-- Reset with bytes in RB[TX], the transmitter sending 0x11. -/
def txState (l : List Byte) : State :=
  ((State.reset.setRbTx (ringOf 0 l)).setTxIdle false).setTxreg { full := true, byte := 0x11, rate := .normal }

/-- Reset with the first bytes of DBUF. -/
def dbufState (b0 b1 : Byte) : State := memWrite .dbuf 1 b1 (memWrite .dbuf 0 b0 State.reset)

/-- A busy block with these micro-steps left. -/
def busy (todo : List Micro) (s : State) : State :=
  s.setSeq { command := some .seqStart, todo := todo, ret := .nothing }

/-- A transmitter that finishes a character at every interruptible point, n times. -/
def eagerU (n : Nat) (s : State) : State := s.setSched (List.replicate n [Turn.txdone, Turn.main]).flatten

/-- Eight bytes. -/
def eight : List Byte := [0xA1, 0xA2, 0xA3, 0xA4, 0xA5, 0xA6, 0xA7, 0xA8]

/-! ### Well-formedness -/

theorem test_wf_len : (Instr.linData 9 0).wellFormed = false ∧ (Instr.linData 8 0).wellFormed = true := by decide
theorem test_wf_maxLen : (Instr.linResp 10).wellFormed = false ∧ (Instr.linResp 9).wellFormed = true := by decide
theorem test_wf_cmd_len : (Instr.fxCmd 0x3A 9).wellFormed = false ∧ (Instr.fxCmd 0x3A 8).wellFormed = true := by decide
theorem test_wf_status_maxLen :
    (Instr.fxStatus 0x3B 10).wellFormed = false ∧ (Instr.fxStatus 0x3B 9).wellFormed = true := by decide

/-! ### Decoding -/

theorem test_decode_rbEnq : decode (.command 0x01AB) = .ok (.rbEnq .tx 0xAB) ∧
    decode (.command 0x0000) = .ok (.rbEnq .rx 0) ∧ decode (.command 0x0200) = .error .mustBeZero := by decide
theorem test_decode_rbDeq : decode (.command 0x1000) = .ok (.rbDeq .rx) ∧
    decode (.command 0x1100) = .ok (.rbDeq .tx) ∧ decode (.command 0x1001) = .error .mustBeZero := by decide
theorem test_decode_rbLen : decode (.command 0x2000) = .ok (.rbLen .rx) ∧
    decode (.command 0x2100) = .ok (.rbLen .tx) := by decide
theorem test_decode_slSend : decode (.command 0x3055) = .ok (.slSend 0x55) ∧
    decode (.command 0x3155) = .error .mustBeZero := by decide
theorem test_decode_slTryread : decode (.command 0x4000) = .ok .slTryread ∧
    decode (.command 0x4001) = .error .mustBeZero := by decide
theorem test_decode_slRxie : decode (.command 0x5000) = .ok (.slRxie false) ∧
    decode (.command 0x5100) = .ok (.slRxie true) ∧ decode (.command 0x5200) = .error .mustBeZero := by decide
theorem test_decode_linWakeup : decode (.command 0x6000) = .ok .linWakeup := by decide
theorem test_decode_linHeader : decode (.command 0x703A) = .ok (.linHeader 0x3A) ∧
    decode (.command 0x70FA) = .ok (.linHeader 0x3A) ∧ decode (.command 0x7100) = .error .mustBeZero := by decide
theorem test_decode_linData : decode (.command 0x82BA) = .ok (.linData 2 0xBA) ∧
    decode (.command 0x88FF) = .ok (.linData 8 0xFF) ∧ decode (.command 0x89BA) = .error .lenOutOfRange := by decide
theorem test_decode_linResp : decode (.command 0x9900) = .ok (.linResp 9) ∧
    decode (.command 0x9A00) = .error .maxLenOutOfRange ∧ decode (.command 0x9901) = .error .mustBeZero := by decide
theorem test_decode_fxCmd : decode (.command 0xA23A) = .ok (.fxCmd 0x3A 2) ∧
    decode (.command 0xA93A) = .error .lenOutOfRange := by decide
theorem test_decode_fxStatus : decode (.command 0xB93B) = .ok (.fxStatus 0x3B 9) ∧
    decode (.command 0xBA3B) = .error .maxLenOutOfRange := by decide
theorem test_decode_seqStart : decode (.command 0xC000) = .ok .seqStart ∧
    decode (.command 0xC001) = .error .mustBeZero := by decide
theorem test_decode_seqStop : decode (.command 0xD000) = .ok (.seqStop false) ∧
    decode (.command 0xD100) = .ok (.seqStop true) ∧ decode (.command 0xD200) = .error .mustBeZero := by decide
theorem test_decode_seqLoadchk : decode (.command 0xE000) = .ok .seqLoadchk ∧
    decode (.command 0xE100) = .error .mustBeZero := by decide
theorem test_decode_reserved : decode (.command 0xF000) = .error .reservedOpcode ∧
    decode (.command 0xFFFF) = .error .reservedOpcode := by decide
theorem test_decode_irqRx : decode (.cause 0b01) = .ok .irqRx ∧ causeServices 0b11 = [.irqRx, .irqTx] := by decide
theorem test_decode_irqTx : decode (.cause 0b10) = .ok .irqTx ∧ decode (.cause 0b00) = .error .noCause := by decide
theorem test_decodeTableWord :
    decodeTableWord 8 2 = some .irqTx ∧ decodeTableWord 16 0xD000 = some (.seqStop false) := by decide

/-- No word fits two rows of the opcode table. -/
theorem test_rows_disjoint :
    commandRows.Pairwise fun r q => r.pattern &&& (r.mask &&& q.mask) ≠ q.pattern &&& (r.mask &&& q.mask) := by decide

/-! ### Where the next step fetches -/

/-- A command word placed by withFetchWord on the reset state is what the next step runs. -/
theorem test_fetch_command (w : Nat) (i : Instr) (h : decodeTableWord 16 w = some i) :
    step (State.reset.withFetchWord 16 w) = exec i State.reset := by
  have hd : decode (.command (BitVec.ofNat 16 w)) = .ok i := by
    simp only [decodeTableWord, show ¬ (16 : Nat) ≤ 8 by decide, ite_false] at h
    cases hx : decode (.command (BitVec.ofNat 16 w)) with
    | ok j => rw [hx] at h; exact congrArg _ (Option.some.inj h)
    | error r => rw [hx] at h; exact nomatch h
  have hu : urgent State.reset = State.reset := by decide +kernel
  have he : handlerEnabled State.reset = false := by decide +kernel
  have hw : State.reset.withFetchWord 16 w =
      { State.reset with cmd := some (BitVec.ofNat 16 w), sched := [.main] } := by
    simp only [State.withFetchWord, show ¬ (16 : Nat) ≤ 8 by decide, ite_false, placeCommand, hu]
    rfl
  have hf : fetched { State.reset with cmd := some (BitVec.ofNat 16 w) } = some (.ok i) := congrArg some hd
  have hs : step { State.reset with cmd := some (BitVec.ofNat 16 w), sched := [.main] } =
      mainTurn { State.reset with cmd := some (BitVec.ofNat 16 w) } := if_neg (by
        rw [Bool.not_eq_true]
        exact he)
  rw [hw, hs, mainTurn, hf]
  rfl

/-- A cause vector placed by withFetchWord is served by the next step. -/
theorem test_fetch_cause :
    after (step (State.reset.withFetchWord 8 1)) = after (exec .irqRx (placeCause 1 State.reset)) ∧
    after (step (State.reset.withFetchWord 8 2)) = after (exec .irqTx (placeCause 2 State.reset)) := by decide +kernel

/-! ### Ring buffers (95_test_vectors.md section 5) -/

/-- B6: head wraps from 7 to 0. -/
theorem test_rbEnq_wraps :
    (after (exec (.rbEnq .rx 0x5A) (State.reset.setRbRx (ringOf 6 [0x41])))).map
      (fun t => (t.rbRx.head, t.rbRx.tail, t.rbRx.count, t.rbRx.storage[7], t.result)) = some (0, 6, 2, 0x5A, 1) := by
  decide +kernel

/-- B5: a byte for a full buffer is dropped. -/
theorem test_rbEnq_full :
    (after (exec (.rbEnq .rx 0x99) (rxState eight))).map (fun t => (t.rbRx, t.result, t.resultValid)) =
      some (ringOf 0 eight, 0, true) := by decide +kernel

/-- B7: tail wraps from 7 to 0. -/
theorem test_rbDeq_wraps :
    (after (exec (.rbDeq .tx) (State.reset.setRbTx (ringOf 7 [1, 2, 3])))).map
      (fun t => (t.rbTx.head, t.rbTx.tail, t.rbTx.count, t.result, t.resultValid)) = some (2, 0, 2, 1, true) := by
  decide +kernel

/-- B3: nothing to take. -/
theorem test_rbDeq_empty :
    (after (exec (.rbDeq .rx) (State.reset.setResult 7))).map (fun t => (t.rbRx, t.result, t.resultValid)) =
      some (Ring.reset, 0, false) := by decide +kernel

/-- R123: the count 8 of a full buffer. -/
theorem test_rbLen : (after (exec (.rbLen .rx) (rxState eight))).map (fun t => (t.result, t.resultValid)) = some (8, true) := by
  decide +kernel

/-! ### Serial link (section 6) -/

/-- X1, up to the hand-over. -/
theorem test_slSend_starts :
    (after (exec (.slSend 0x55) State.reset)).map
      (fun t => (t.txreg, t.txIdle, t.txirq, t.rbTx.head, t.rbTx.tail, t.rbTx.count)) =
      some (⟨true, 0x55, .normal⟩, false, false, 1, 1, 0) := by decide +kernel

/-- X3, the last command: the new byte is dropped. -/
theorem test_slSend_drops :
    (after (exec (.slSend 0xA9) (txState eight))).map (fun t => (t.rbTx, t.txirq)) = some (ringOf 0 eight, false) := by
  decide +kernel

/-- X5: a genuine zero byte. -/
theorem test_slTryread_zero :
    (after (exec .slTryread (rxState [0x00]))).map (fun t => (t.result, t.resultValid, t.rbRx.count)) = some (0, true, 0) := by
  decide +kernel

/-- X5: nothing received. -/
theorem test_slTryread_none :
    (after (exec .slTryread State.reset)).map (fun t => (t.result, t.resultValid)) = some (0, false) := by decide +kernel

/-- X6: disabled, a latched character is not a cause. -/
theorem test_slRxie :
    (after (exec (.slRxie false) (State.reset.setRxirq true))).map (fun t => (t.rxie, cause t, t.resultValid)) =
      some (false, 0, false) := by decide +kernel

/-- X4: the ninth byte is taken from the UART and lost. -/
theorem test_irqRx_full :
    (after (exec .irqRx (((rxState eight).setRxreg ⟨true, 0x38⟩).setRxirq true))).map
      (fun t => (t.rbRx, t.rxreg.full, t.rxirq)) = some (ringOf 0 eight, false, false) := by decide +kernel

/-- The example of R149. -/
theorem test_irqTx :
    (after (exec .irqTx ((State.reset.setRbTx (ringOf 0 [0xBA, 0x02])).setTxirq true))).map
      (fun t => (t.rbTx.contents, t.txreg, t.txIdle, t.txirq)) = some ([0x02], ⟨true, 0xBA, .normal⟩, false, false) := by
  decide +kernel

/-- The last line of X1: with nothing queued the transmitter is marked idle. -/
theorem test_irqTx_idle :
    (after (exec .irqTx ((State.reset.setTxIdle false).setTxirq true))).map (fun t => (t.txIdle, t.txirq)) =
      some (true, false) := by decide +kernel

/-- X7: both causes in one step. -/
theorem test_step_both_causes :
    (after (step ((((State.reset.setRbTx (ringOf 0 [0x02])).setTxirq true).setRxirq true).setRxreg ⟨true, 0x7E⟩))).map
      (fun t => (t.rbRx.contents, t.txreg.byte, t.rbTx.count, t.txirq, t.rxirq)) = some ([0x7E], 0x02, 0, false, false) := by
  decide +kernel

/-- X6 (a): a character latched while RXIE = 0 replaces the earlier one. -/
theorem test_step_latch :
    (after (step (((State.reset.setRxie false).setRxreg ⟨true, 0x41⟩).setSched [.rx 0x42 true]))).map
      (fun t => (t.rxreg, t.rxirq)) = some (⟨true, 0x42⟩, true) := by decide +kernel

/-- R151, weak fairness: with nothing scheduled and no command, the character in TXREG leaves. -/
theorem test_step_txdone_unscheduled :
    (after (step (txState [0x22]))).map (fun t => (t.wire, t.txreg.full, t.txirq, t.rbTx.contents)) =
      some ([.char 0x11 .normal], false, true, [0x22]) := by decide +kernel

/-! ### LIN master (sections 2, 3 and 7) -/

/-- L1. -/
theorem test_linWakeup :
    (after (exec .linWakeup State.reset)).map (fun t => (t.wire, t.lineMode, t.resultValid)) =
      some ([.level .high 10, .level .low 1, .level .high 105], .uart, false) := by decide +kernel

/-- V1 and its neighbours, from the table of section 2. -/
theorem test_pid : pid 0x3A = 0xBA ∧ pid 0x3B = 0xFB ∧ pid 0x00 = 0x80 ∧ pid 0x3F = 0xBF ∧ pid 0x1D = 0xDD := by decide

/-- L2. -/
theorem test_linHeader :
    (after (exec (.linHeader 0x3A) (eagerU 20 State.reset))).map (fun t => (t.result, t.baud, lineStream t)) =
      some (0xBA, .normal, [.char 0x00 .brk, .char 0x55 .normal, .char 0xBA .normal]) := by decide +kernel

/-- L3: the transmitter is stuck, the break keeps its rate. -/
theorem test_linHeader_stalled :
    (after (exec (.linHeader 0x3A) State.reset)).map (fun t => (t.txreg, t.rbTx.contents, t.result)) =
      some (⟨true, 0x00, .brk⟩, [0x55, 0xBA], 0xBA) := by decide +kernel

/-- K1 (V2) and K7, whose fold carries. -/
theorem test_checksum : checksum 0xBA [0x02, 0x00] = 0x43 ∧ checksum 0xBA [0xFF, 0x46] = 0xFF := by decide

/-- L4, first row. -/
theorem test_linData :
    (after (exec (.linData 2 0xBA) (dbufState 0x02 0x00))).map (fun t => (t.txreg.byte, t.rbTx.contents, t.csum)) =
      some (0x02, [0x00, 0x43], 0x00BC) := by decide +kernel

/-- L4, third row. -/
theorem test_linData_empty :
    (after (exec (.linData 0 0xFB) State.reset)).map (fun t => (t.txreg.byte, t.csum)) = some (0x04, 0x00FB) := by
  decide +kernel

/-- Q1. -/
theorem test_linResp :
    (after (exec (.linResp 9) (rxState [0x14, 0x03, 0x00, 0xFF]))).map
      (fun t => (t.result, t.respLen, t.resp[0], t.resp[1], t.resp[2], t.resp[3], t.rbRx.count)) =
      some (4, 4, 0x14, 0x03, 0x00, 0xFF, 0) := by decide +kernel

/-- Q5. -/
theorem test_linResp_maxLen :
    (after (exec (.linResp 2) (rxState [0x14, 0x03, 0x00, 0xFF]))).map
      (fun t => (t.result, t.resp[0], t.resp[1], t.rbRx.contents)) = some (2, 0x14, 0x03, [0x00, 0xFF]) := by decide +kernel

/-! ### Frame exchange (section 8) -/

/-- F1. -/
theorem test_fxCmd :
    (after (exec (.fxCmd 0x3A 2) (eagerU 40 (dbufState 0x02 0x00)))).map (fun t => (lineStream t, t.csum, t.resultValid)) =
      some ([.char 0x00 .brk, .char 0x55 .normal, .char 0xBA .normal, .char 0x02 .normal, .char 0x00 .normal,
        .char 0x43 .normal], 0x00BC, false) := by decide +kernel

/-- F3, second row. -/
theorem test_fxStatus :
    (after (exec (.fxStatus 0x3B 9) (eagerU 20 (rxState [0x14, 0x03, 0x00, 0xFF])))).map
      (fun t => (t.result, t.respLen, t.resp[3], lineStream t)) =
      some (4, 4, 0xFF, [.char 0x00 .brk, .char 0x55 .normal, .char 0xFB .normal]) := by decide +kernel

/-! ### Orchestration (section 9) -/

/-- S1. -/
theorem test_seqStart :
    (after (exec .seqStart ((eagerU 80 (rxState [0x14, 0x03, 0x00, 0xFF])).setRails [true]))).map
      (fun t => (t.result, t.resultValid, bytesOf (lineStream t), t.rails)) =
      some (0, true, [0x00, 0x55, 0xBA, 0x02, 0x00, 0x43, 0x00, 0x55, 0xFB], []) := by decide +kernel

/-- S7. -/
theorem test_seqStart_no_rail :
    (after (exec .seqStart (State.reset.setRails [false, false, false, false]))).map
      (fun t => (t.result, t.wire.length, t.rails)) = some (1, 9, []) := by decide +kernel

/-- The example of R226. -/
theorem test_seqStop_soft :
    (after (exec (.seqStop false) ((eagerU 80 (rxState [0x00, 0x00, 0x00, 0xFF])).setRails [true]))).map
      (fun t => (t.pcutTrace, bytesOf (lineStream t), t.powerCut)) =
      some ([], [0x00, 0x55, 0xBA, 0x00, 0x00, 0x45, 0x00, 0x55, 0xFB], false) := by decide +kernel

/-- R228: two pulses until the rail is gone. -/
theorem test_seqStop_cut :
    (after (exec (.seqStop true) ((eagerU 80 (rxState [0x00, 0x00, 0x00, 0xFF])).setRails [true, true, false]))).map
      (fun t => (t.pcutTrace, t.powerCut)) =
      some ([.level true, .wait 100, .level false, .level true, .wait 100, .level false], false) := by decide +kernel

/-- R8: CUT_GAP_MS = 7 between two pulses. -/
theorem test_cutRead_gap :
    (after (step (busy [.cutRead 1] ((State.reset.setRails [true]).setParams { Params.specValues with cutGapMs := 7 })))).map
      (fun t => t.seq.todo) = some [.cutGap, .cutHigh 1] ∧
    (after (step (busy [.cutGap, .cutHigh 1] (State.reset.setParams { Params.specValues with cutGapMs := 7 })))).map
      (fun t => t.pcutTrace) = some [.wait 7] := by decide +kernel

/-- R230 step 3: the fifth qualifying response. -/
theorem test_seqLoadchk_fifth :
    (after (step (((rxState []).setRespLen 4 |>.setResp #v[0x14, 1, 0, 0xFF, 0, 0, 0, 0, 0]).setSeq
      { command := some .seqLoadchk, todo := [.loadJudge 4 9], ret := .value 4 }))).map
      (fun t => (t.result, t.seq)) = some (1, Seq.idle) := by decide +kernel

/-- Silent peer: ten status headers of three characters, and 0. -/
theorem test_seqLoadchk_silent :
    (after (exec .seqLoadchk (eagerU 500 State.reset))).map (fun t => (t.result, (lineStream t).length)) = some (0, 30) := by
  decide +kernel

/-! ### The hypotheses of the obligations are met

One theorem per obligation with hypotheses, named after it, with a case for each clause at the ends of its
range. `encode` and `decode` values are those of section 4. -/

/-- Reset with a turn scheduled and, in `cmd`, a word. -/
def due (ts : List Turn) (cmd : Option CmdWord) : State := (State.reset.setSched ts).setCmd cmd

/-- Both interrupts pending, a byte received and a byte queued. -/
def bothPending : State :=
  (((State.reset.setRbTx (ringOf 0 [0x02])).setTxIdle false).setTxirq true).setRxreg ⟨true, 0x7E⟩ |>.setRxirq true

/-- A busy block that has just been handed a captured response of four bytes, b0 b1 00 b3. -/
def judging (todo : List Micro) (b0 b1 b3 : Byte) : State :=
  ((State.reset.setRespLen 4).setResp #v[b0, b1, 0, b3, 0, 0, 0, 0, 0]).setSeq
    { command := some .seqStart, todo := todo, ret := .value 4 }

theorem mainIsNext_busy (todo : List Micro) : MainIsNext (busy todo State.reset) :=
  ⟨(by decide +kernel : handlerEnabled State.reset = false), .inl rfl⟩

theorem mainIsNext_judging (todo : List Micro) (b0 b1 b3 : Byte) : MainIsNext (judging todo b0 b1 b3) :=
  ⟨(by decide +kernel : handlerEnabled State.reset = false), .inl rfl⟩

theorem handsRespLen_judging (todo : List Micro) (b0 b1 b3 : Byte) : HandsRespLen (judging todo b0 b1 b3) :=
  ⟨4, rfl, rfl⟩

/-- A transmitter at rest that sends nothing, in a block where no other agent moves. -/
abbrev DrainedAndQuiet (s : State) : Prop := Quiet s ∧ LinkOk s ∧ s.gie = true ∧ TxDrained s

/-- The longest schedules of the witnesses: arrivals and finished characters between micro-steps. -/
def turns : List Turn := [.rx 0x14 true, .main, .txdone, .main, .dbufWrite 0 0xEE, .issue 0x3055, .main]

theorem test_hyp_DecodeEncodeAgree : (Instr.linData 8 0xFF).wellFormed = true ∧ (Instr.linResp 9).wellFormed = true ∧
    (Instr.fxCmd 0x3F 8).wellFormed = true ∧ (Instr.fxStatus 0x3F 9).wellFormed = true := by decide

theorem test_hyp_DecodedWordIsReadInFull : decode (.command 0x70FA) = .ok (.linHeader 0x3A) ∧
    decode (.command 0x88FF) = .ok (.linData 8 0xFF) := by decide

/-- One word per clause of R110, at the first reserved value. -/
theorem test_hyp_ReservedWordsAreRefused :
    reservedWord 0xF000 ∧ reservedWord 0x0200 ∧ reservedWord 0x7100 ∧ reservedWord 0x1001 ∧ reservedWord 0x89BA ∧
    reservedWord 0xA93A ∧ reservedWord 0x9A00 ∧ reservedWord 0xBA3B ∧ ¬ reservedWord 0x88FF ∧ ¬ reservedWord 0xB93B ∧
    MainIsNext (due [] (some 0xF000)) ∧ (due [] (some 0xF000)).isIdle = true :=
  ⟨by decide, by decide, by decide, by decide, by decide, by decide, by decide, by decide, by decide, by decide,
    ⟨by decide +kernel, .inl rfl⟩, rfl⟩

theorem test_hyp_ReservedOperandsAreRefused : 8 < (9 : BitVec 4).toNat ∧ 9 < (10 : BitVec 4).toNat ∧
    refusal (exec (.linData 9 0) State.reset) = some .reservedOperand := by decide +kernel

theorem test_hyp_StepRunsTheDecodedCommand :
    (MainIsNext (due [] (some 0x4000)) ∧ MainIsNext (due [.main, .txdone] (some 0x4000))) ∧
    (due [] (some 0x4000)).isIdle = true ∧ decode (.command 0x4000) = .ok .slTryread :=
  ⟨⟨⟨by decide +kernel, .inl rfl⟩, ⟨by decide +kernel, .inr ⟨_, rfl⟩⟩⟩, rfl, by decide⟩

theorem test_hyp_StepServesThePendingCauses :
    (State.reset.gie = true ∧ (State.reset.setRxirq true).txirq = false ∧ (State.reset.setRxirq true).rxie = true) ∧
    (((State.reset.setTxirq true).rxirq && (State.reset.setTxirq true).rxie) = false) ∧
    (bothPending.gie = true ∧ bothPending.txirq = true ∧ bothPending.rxirq = true ∧ bothPending.rxie = true) := by
  decide +kernel

/-- A busy block; an idle one with a turn scheduled, with nothing to do, and with a character to finish. -/
theorem test_hyp_StepOfTheMainContext :
    (MainIsNext (busy [.sendKick] State.reset) ∧ (busy [.sendKick] State.reset).isIdle = false) ∧
    (MainIsNext ((txState []).setSched [.main]) ∧ ((txState []).setSched [.main]).sched ≠ []) ∧
    (MainIsNext State.reset ∧ State.reset.isIdle = true ∧ State.reset.cmd = none ∧ State.reset.txreg.full = false) ∧
    (MainIsNext (txState []) ∧ (txState []).isIdle = true ∧ (txState []).cmd = none ∧ (txState []).sched = [] ∧
      (txState []).txreg.full = true) :=
  ⟨⟨mainIsNext_busy _, rfl⟩, ⟨⟨by decide +kernel, .inr ⟨_, rfl⟩⟩, by decide +kernel⟩,
    ⟨⟨by decide +kernel, .inl rfl⟩, rfl, rfl, rfl⟩, ⟨⟨by decide +kernel, .inl rfl⟩, rfl, rfl, rfl, rfl⟩⟩

theorem test_hyp_TransmitterFinishesACharacter :
    handlerEnabled ((txState []).setSched [.txdone]) = false ∧ ((txState []).setSched [.txdone]).txreg.full = true := by
  decide +kernel

theorem test_hyp_CharacterArrives :
    (handlerEnabled (due [.rx 0x41 true] none) = false ∧ (due [.rx 0x41 true] none).rxie = true ∧
      (due [.rx 0x41 true] none).rxreg.full = false) ∧
    (handlerEnabled ((due [.rx 0x41 false] none).setRxie false) = false) := by decide +kernel

theorem test_hyp_HostWritesDbufWhileIdle :
    (handlerEnabled (due [.dbufWrite 7 0xFF] none) = false ∧ (due [.dbufWrite 7 0xFF] none).isIdle = true) ∧
    (busy [.sendKick] (due [.dbufWrite 0 0xFF] none)).isIdle = false := by decide +kernel

theorem test_hyp_HostPresentsACommand :
    (handlerEnabled (due [.issue 0xE000] none) = false ∧ (due [.issue 0xE000] none).isIdle = true) ∧
    (busy [.sendKick] (due [.issue 0xE000] none)).isIdle = false := by decide +kernel

theorem test_hyp_EnqueueStoresAtHead : (rxState eight).rbRx.count = 8 ∧ (rxState (eight.take 7)).rbRx.count ≠ 8 := by
  decide +kernel

theorem test_hyp_DequeueTakesAtTail : State.reset.rbTx.count = 0 ∧ (txState [1]).rbTx.count ≠ 0 := by decide +kernel

theorem test_hyp_RingIsFirstInFirstOut : (State.reset.ring .rx).Wf ∧ ((rxState eight).ring .rx).Wf ∧
    ((txState eight).ring .tx).Wf := by decide +kernel

theorem test_hyp_SendQueuesOrDropsTheByte :
    (LinkOk (txState eight) ∧ (txState eight).rbTx.count = 8) ∧
    (LinkOk (txState (eight.take 7)) ∧ (txState (eight.take 7)).rbTx.count ≠ 8) ∧
    LinkOk ((txState []).setSched turns) ∧ NoArrival State.reset := by decide +kernel

theorem test_hyp_SendLeavesNoByteUnkicked : LinkOk State.reset ∧ LinkOk ((txState eight).setSched turns) := by
  decide +kernel

theorem test_hyp_SendStartsAnIdleTransmitter :
    Quiet State.reset ∧ State.reset.gie = true ∧ TxDrained State.reset ∧ State.reset.rbTx.Wf := by decide +kernel

theorem test_hyp_TryReadTakesTheOldestByte : State.reset.rbRx.count = 0 ∧
    LinkOk (rxState [0x14]) ∧ (rxState [0x14]).rbRx.count ≠ 0 ∧ LinkOk (rxState eight) := by decide +kernel

theorem test_hyp_IrqRxEnqueuesOrDiscards :
    (rxState (eight.take 7)).rbRx.count.toNat < 8 ∧ 8 ≤ (rxState eight).rbRx.count.toNat := by decide +kernel

theorem test_hyp_IrqTxTransmitsOrMarksIdle :
    bothPending.rbTx.count ≠ 0 ∧ State.reset.rbTx.count = 0 := by decide +kernel

theorem test_hyp_HandlerLeavesTheMainContext :
    handlerEnabled bothPending = true ∧
    (handlerEnabled (State.reset.setRxirq true) = true ∧ (State.reset.setRxirq true).txirq = false) ∧
    (handlerEnabled (State.reset.setTxirq true) = true ∧
      ((State.reset.setTxirq true).rxirq && (State.reset.setTxirq true).rxie) = false) := by decide +kernel

theorem test_hyp_TransmitterDrains :
    (LinkOk (txState eight) ∧ (txState eight).gie = true ∧ (txState eight).txIdle = false ∧
      (txState eight).rbTx.count.toNat + 1 = 9) ∧
    (LinkOk State.reset ∧ State.reset.rbTx.count = 0) := by decide +kernel

/-- Idle, busy with a command, and with a reserved word at the port. -/
theorem test_hyp_CharacterLeavesEventually :
    (LinkOk (txState eight) ∧ (txState eight).txreg.full = true) ∧
    LinkOk (busy [.startBegin] ((txState []).setSched turns)) ∧ LinkOk ((txState []).setCmd (some 0xF000)) := by
  decide +kernel

theorem test_hyp_WakeupDrivesThreeLevels : LinkOk State.reset ∧ State.reset.txIdle = true ∧ NoArrival State.reset := by
  decide +kernel

/-- One busy block per micro-step, inside a sequence and, for the last, as the end of the command. -/
theorem test_hyp_WakeupDrivesThreeLevels_steps :
    (∀ l, MainIsNext (busy [.setLine l, .lineToUart] State.reset)) ∧
    (∀ l ms, MainIsNext (busy [.holdLine l ms, .lineToUart] State.reset)) ∧
    MainIsNext (busy [.lineToUart, .startRail 1] State.reset) ∧ MainIsNext (busy [.lineToUart] State.reset) ∧
    [Micro.lineToUart] ≠ [] ∧ [Micro.startRail 1] ≠ [] :=
  ⟨fun _ => mainIsNext_busy _, fun _ _ => mainIsNext_busy _, mainIsNext_busy _, mainIsNext_busy _, by decide, by decide⟩

theorem test_hyp_HeaderReturnsTheProtectedId : NoArrival ((txState []).setSched [.txdone, .main]) := by decide +kernel

theorem test_hyp_HeaderGoesOutInOrder :
    (LinkOk (State.reset.setSched turns) ∧ State.reset.gie = true ∧ TxDrained (State.reset.setSched turns)) ∧
    (LinkOk (txState eight) ∧ ¬ TxDrained (txState eight)) := by decide +kernel

/-- The clauses of the drain wait: transmitter idle, bound reached, and one short of it. -/
theorem test_hyp_HeaderGoesOutInOrder_drain :
    (MainIsNext (busy [.drainTest 0, .setBaud .brk] State.reset) ∧ State.reset.txIdle = true) ∧
    (∀ k, MainIsNext (busy [.drainTest k, .setBaud .brk] (txState []))) ∧ (txState []).txIdle = false ∧
    99 < 100 / (txState []).params.drainPollMs ∧ 100 / (txState []).params.drainPollMs ≤ 100 ∧
    MainIsNext (busy [.drainWait 99, .setBaud .brk] State.reset) ∧ [Micro.setBaud .brk] ≠ [] :=
  ⟨⟨mainIsNext_busy _, rfl⟩, fun _ => ⟨(by decide +kernel : handlerEnabled (txState []) = false), .inl rfl⟩, rfl,
    by decide, by decide, mainIsNext_busy _, by decide⟩

theorem test_hyp_DataEndsWithTheChecksum :
    (8 : BitVec 4).toNat ≤ 8 ∧ LinkOk (txState eight) ∧
    (LinkOk (txState [1]) ∧ (txState [1]).rbTx.count.toNat + (6 : BitVec 4).toNat + 1 = 8) := by decide +kernel

theorem test_hyp_ResponseTimesOut : (9 : BitVec 4).toNat ≤ 9 ∧ SilentPeer State.reset ∧ Quiet State.reset ∧
    SilentPeer ((txState []).setSched [.txdone, .main, .issue 0]) := by decide +kernel

/-- The clauses of the five polls: a byte at a later poll, none, the fourth and the fifth unsuccessful one. -/
theorem test_hyp_ResponseTimesOut_polls :
    (MainIsNext (busy [.respPoll 3 9] (rxState [0x14])) ∧ (rxState [0x14]).rbRx.count ≠ 0) ∧
    (MainIsNext (busy [.respPoll 4 9] State.reset) ∧ State.reset.rbRx.count = 0) ∧
    MainIsNext (busy [.respInit 9] State.reset) ∧ MainIsNext (busy [.respWait 4 9] State.reset) ∧
    MainIsNext (busy [.respAgain 4 9] State.reset) ∧ MainIsNext (busy [.respAgain 5 9] State.reset) ∧
    MainIsNext (busy [.respAgain 5 9, .loadJudge 0 0] State.reset) :=
  ⟨⟨⟨by decide +kernel, .inl rfl⟩, by decide +kernel⟩, ⟨mainIsNext_busy _, rfl⟩, mainIsNext_busy _, mainIsNext_busy _,
    mainIsNext_busy _, mainIsNext_busy _, mainIsNext_busy _⟩

theorem test_hyp_ResponseIsCapturedInOrder :
    (9 : BitVec 4).toNat ≤ 9 ∧ LinkOk ((rxState eight).setSched turns) ∧ NoArrival (rxState eight) := by decide +kernel

theorem test_hyp_ResponseTakesAllThatIsBuffered :
    (0 : BitVec 4).toNat ≤ 9 ∧ Quiet (rxState eight) ∧ (rxState eight).rbRx.Wf := by decide +kernel

/-- The clauses of the drain: maxLen reached and not, a look that finds a byte and one that does not. -/
theorem test_hyp_ResponseTakesAllThatIsBuffered_looks :
    MainIsNext (busy [.respLimit 9 9] State.reset) ∧ MainIsNext (busy [.respLimit 8 9] State.reset) ∧
    (MainIsNext (busy [.respLook 8 9] State.reset) ∧ State.reset.rbRx.count = 0) ∧
    (MainIsNext (busy [.respLook 8 9] (rxState [0x14])) ∧ (rxState [0x14]).rbRx.count ≠ 0) ∧
    MainIsNext (busy [.respPause 9 9] State.reset) :=
  ⟨mainIsNext_busy _, mainIsNext_busy _, ⟨mainIsNext_busy _, rfl⟩, ⟨⟨by decide +kernel, .inl rfl⟩, by decide +kernel⟩,
    mainIsNext_busy _⟩

theorem test_hyp_MasterFrameGoesOutInOrder :
    ((8 : BitVec 4).toNat ≤ 8 ∧ (5 : BitVec 4).toNat ≤ 5) ∧ NoArrival State.reset ∧
    (LinkOk (State.reset.setSched turns) ∧ State.reset.gie = true ∧ TxDrained (State.reset.setSched turns)) ∧
    (LinkOk (txState eight) ∧ ¬ TxDrained (txState eight)) := by decide +kernel

theorem test_hyp_StatusRequestSendsAndCaptures :
    (9 : BitVec 4).toNat ≤ 9 ∧ (LinkOk ((rxState eight).setSched turns) ∧ (rxState eight).gie = true ∧
      TxDrained ((rxState eight).setSched turns)) ∧ NoArrival (rxState eight) ∧
    (LinkOk (txState eight) ∧ ¬ TxDrained (txState eight)) := by decide +kernel

theorem test_hyp_StartEndsWithACode :
    NoArrival (State.reset.setSched [.txdone, .main]) ∧ State.reset.params = Params.specValues := by decide +kernel

/-- With the transmitter idle and with a character in flight. -/
theorem test_hyp_StartGivesUpWithoutTheRail :
    let s := State.reset.setRails [false, false, false, false, true]
    let u := (txState eight).setRails [false, false, false, false]
    (s.rails = false :: false :: false :: false :: [true] ∧ LinkOk s ∧ s.txIdle = true ∧ NoArrival s) ∧
    (u.rails = false :: false :: false :: false :: [] ∧ LinkOk u) := by decide +kernel

/-- The rail up at the first and at the fourth read. -/
theorem test_hyp_StartWithASilentPeer :
    let s := fun l => State.reset.setRails l
    SilentPeer (s []) ∧ (s [true]).rails = List.replicate 0 false ++ true :: [] ∧
    (s [false, false, false, true]).rails = List.replicate 3 false ++ true :: [] := by decide +kernel

theorem test_hyp_StartSucceedsAtTheFirstPoll :
    let s := fun l => (rxState [0x14, 0x03, 0x00, 0xFF]).setRails l
    (s [true]).rails = List.replicate 0 false ++ true :: [] ∧
    (s [false, false, false, true]).rails = List.replicate 3 false ++ true :: [] ∧
    LinkOk ((s []).setSched turns) ∧ TxDrained ((s []).setSched turns) ∧ (s []).gie = true ∧ NoArrival (s []) ∧
    (s []).rbRx.contents = 0x14 :: 0x03 :: [0x00, 0xFF] ∧
    (0x03 : Byte).getLsbD 0 = true ∧ (0x03 : Byte).getLsbD 1 = true := by decide +kernel

theorem test_hyp_SequencesSendTheirCommandFrames :
    MainIsNext (busy [.startFlags] State.reset) ∧ MainIsNext (busy [.startRound 2 true false] State.reset) ∧
    MainIsNext (busy [.stopBegin true] State.reset) ∧ MainIsNext (busy [.stopTry false 2] State.reset) :=
  ⟨mainIsNext_busy _, mainIsNext_busy _, mainIsNext_busy _, mainIsNext_busy _⟩

/-- Both flags, ACK alone, and neither, at the last poll of the last round. -/
theorem test_hyp_StartJudgesAResponse :
    let s := fun b1 => judging [.startJudge 2 9 false false] 0x14 b1 0
    (∀ b1, MainIsNext (s b1) ∧ HandsRespLen (s b1) ∧ (s b1).seq.todo = [.startJudge 2 9 false false]) ∧
    RunsWithPower (s 3) ∧ (¬ RunsWithPower (s 1) ∧ AcksWithoutPower (s 1)) ∧
    (¬ RunsWithPower (s 2) ∧ ¬ AcksWithoutPower (s 2) ∧ 0 < (s 2).respLen.toNat) :=
  ⟨fun _ => ⟨mainIsNext_judging _ _ _ _, handsRespLen_judging _ _ _ _, rfl⟩, by decide, by decide, by decide⟩

/-- Both sides of both bounds. -/
theorem test_hyp_StartCountsItsPollsAndRounds :
    let p := State.reset.params
    (MainIsNext (busy [.startGap 0 8 true false] State.reset) ∧ 8 + 1 < p.startPolls ∧ p.startPolls ≤ 9 + 1) ∧
    (MainIsNext (busy [.startNext 1 true false] State.reset) ∧ 1 + 1 < p.startRounds ∧ p.startRounds ≤ 2 + 1) :=
  ⟨⟨mainIsNext_busy _, by decide, by decide⟩, mainIsNext_busy _, by decide, by decide⟩

theorem test_hyp_StopWithoutTheRail : (State.reset.setRails [false]).rails = false :: [] := rfl

theorem test_hyp_StopCutsPowerOnlyWhenConfirmed : NoArrival (State.reset.setRails [true, true]) := by decide +kernel

/-- The rail gone after the first pulse, after the tenth, and never. -/
theorem test_hyp_StopCutsPowerOnlyWhenConfirmed_pulses :
    let s := fun l => (rxState [0x00, 0x00, 0x00, 0xFF]).setRails l
    (LinkOk ((s []).setSched turns) ∧ (s []).rbRx.contents = 0x00 :: 0x00 :: 0x00 :: 0xFF :: [] ∧
      (0x00 : Byte).getLsbD 0 = false) ∧
    (s [true, false]).rails = true :: List.replicate 0 true ++ false :: [] ∧
    (s (true :: List.replicate 9 true ++ [false])).rails = true :: List.replicate 9 true ++ false :: [] ∧
    (s (List.replicate 11 true)).rails = true :: List.replicate 10 true ++ [] := by decide +kernel

theorem test_hyp_StopCutsPowerOnlyWhenConfirmed_steps :
    MainIsNext (busy [.cutHigh 9] State.reset) ∧ MainIsNext (busy [.cutHold 9] State.reset) ∧
    MainIsNext (busy [.cutLow 9] State.reset) :=
  ⟨mainIsNext_busy _, mainIsNext_busy _, mainIsNext_busy _⟩

theorem test_hyp_StopIsConfirmedAtTheFirstPoll :
    let s := ((rxState [0x00, 0x00, 0x00, 0xFF]).setRails [true, false]).setSched turns
    s.rails = true :: [false] ∧ [false] = false :: [] ∧ LinkOk s ∧ TxDrained s ∧ s.gie = true ∧
    NoArrival (s.setSched []) ∧ s.rbRx.contents = 0x00 :: 0x00 :: 0x00 :: 0xFF :: [] ∧
    (0x00 : Byte).getLsbD 0 = false := by decide +kernel

theorem test_hyp_StopUnconfirmedNeverCutsPower :
    let s := fun l => State.reset.setRails l
    ((s (List.replicate 11 true)).rails = true :: List.replicate 10 true ++ []) ∧
    ((s [true, false]).rails = true :: List.replicate 0 true ++ false :: []) ∧
    ((s (true :: List.replicate 9 true ++ [false])).rails = true :: List.replicate 9 true ++ false :: []) ∧
    SilentPeer (s []) ∧ DrainedAndQuiet (s []) := by decide +kernel

/-- A confirmation, a set ACK and a missing marker, at the last poll of the last attempt. -/
theorem test_hyp_StopJudgesAResponse :
    let s := fun b1 b3 => judging [.stopJudge true 2 9] 0 b1 b3
    (∀ b1 b3, MainIsNext (s b1 b3) ∧ HandsRespLen (s b1 b3) ∧ (s b1 b3).seq.todo = [.stopJudge true 2 9]) ∧
    ConfirmsStop (s 2 0xFF) ∧ ¬ ConfirmsStop (s 1 0xFF) ∧ ¬ ConfirmsStop (s 0 0xFE) ∧
    MainIsNext (busy [.stopConfirmed true] State.reset) :=
  ⟨fun _ _ => ⟨mainIsNext_judging _ _ _ _, handsRespLen_judging _ _ _ _, rfl⟩, by decide, by decide, by decide,
    mainIsNext_busy _⟩

/-- Both sides of both bounds. -/
theorem test_hyp_StopCountsItsPollsAndTries :
    let p := State.reset.params
    (MainIsNext (busy [.stopGap true 0 8] State.reset) ∧ 8 + 1 < p.stopPolls ∧ p.stopPolls ≤ 9 + 1) ∧
    (MainIsNext (busy [.stopNext true 1] State.reset) ∧ 1 + 1 < p.stopTries ∧ p.stopTries ≤ 2 + 1) :=
  ⟨⟨mainIsNext_busy _, by decide, by decide⟩, mainIsNext_busy _, by decide, by decide⟩

theorem test_hyp_LoadCheckReturnsABool : NoArrival State.reset := by decide +kernel

theorem test_hyp_LoadCheckWithASilentPeer : SilentPeer (State.reset.setSched [.txdone, .main]) ∧
    SilentPeer State.reset ∧ DrainedAndQuiet State.reset := by decide +kernel

/-- The judgement of a fifth, an earlier and a non-qualifying response, and both sides of the bound. -/
theorem test_hyp_LoadCheckCountsToFive :
    let s := fun cnt b0 => judging [.loadJudge cnt 9] b0 1 0xFF
    (∀ cnt b0, MainIsNext (s cnt b0) ∧ HandsRespLen (s cnt b0) ∧ (s cnt b0).seq.todo = [.loadJudge cnt 9]) ∧
    ShowsLoad (s 4 0x14) ∧ ShowsLoad (s 0 0x14) ∧ ¬ ShowsLoad (s 4 0x00) ∧
    MainIsNext (busy [.loadBegin] State.reset) ∧ MainIsNext (busy [.loadGap 4 8] State.reset) ∧
    MainIsNext (busy [.loadGap 4 9] State.reset) :=
  ⟨fun _ _ => ⟨mainIsNext_judging _ _ _ _, handsRespLen_judging _ _ _ _, rfl⟩, by decide, by decide, by decide,
    mainIsNext_busy _, mainIsNext_busy _, mainIsNext_busy _⟩

theorem test_hyp_StartFailureIsClassified (anyResp ackNoPg : Bool) :
    MainIsNext (busy [.startFail anyResp ackNoPg] State.reset) ∧
    (busy [.startFail anyResp ackNoPg] State.reset).seq.todo = [.startFail anyResp ackNoPg] :=
  ⟨⟨by cases anyResp <;> cases ackNoPg <;> decide +kernel, .inl rfl⟩, rfl⟩

theorem test_hyp_EveryCommandReturns : isCommand (.fxStatus 0x3B 9) = true ∧ (Instr.fxStatus 0x3B 9).wellFormed = true := by
  decide +kernel

theorem test_hyp_CommandIsARunOfSteps :
    isCommand (.linData 8 0xBA) = true ∧ (Instr.linData 8 0xBA).wellFormed = true ∧
    handlerEnabled (State.reset.setSched turns) = false := by decide +kernel

theorem test_hyp_EveryStepKeepsTheInvariant :
    MachineInv State.reset ∧ MachineInv bothPending ∧ (after (step bothPending)).isSome = true ∧
    MachineInv (busy [.respTake 8 9] ((rxState eight).setSched turns)) :=
  ⟨by decide +kernel, by decide +kernel, by decide +kernel, by decide +kernel⟩

theorem test_hyp_EveryStepEndsAtRest :
    AtRest (due [.main, .txdone] (some 0xB93B)) ∧ (after (step (due [.main, .txdone] (some 0xB93B)))).isSome = true := by
  decide +kernel

theorem test_hyp_TracesOnlyGrowAndParametersStay : (after (step (due [] (some 0x6000)))).isSome = true := by decide +kernel

end Sys2Proof.Tests
end

section
/-! The ring-buffer commands RB.ENQ and RB.LEN (40_ringbuffer.md R121, R123): the return of a command of one
micro-step, how the ring operations pass over SEQ, and the two statements. -/

namespace Sys2Proof.Machine

/-! ### The return of a command of one micro-step -/

theorem setSeq_setSeq (s : State) (p q : Seq) : (s.setSeq p).setSeq q = s.setSeq q := rfl

theorem commitResult_setSeq (r : Ret) (s : State) (q : Seq) :
    commitResult r (s.setSeq q) = (commitResult r s).setSeq q := by
  cases r <;> rfl

/-- A command whose only micro-step, whatever SEQ holds, returns `r` commits `r` and leaves SEQ = IDLE (R43). -/
theorem runCommand_ret (i : Instr) {m : Micro} {r : Ret} {s t : State}
    (h : ∀ q, microEffect m (s.setSeq q) = ret r (t.setSeq q)) :
    runCommand i [m] s = (commitResult r t).setSeq Seq.idle := by
  have hm : microEffect m (accept i [m] s) = ret r (accept i [m] t) := h _
  rw [runCommand_single i m s (by rw [hm]; rfl), mainStep_cons _ m [] (accept_todo i [m] s), hm]
  simp [ret, giveRet, setTodo, retire, accept, setSeq_setSeq, commitResult_setSeq]

/-! ### Ring buffers and SEQ -/

@[simp] theorem ring_setSeq (b : Buf) (s : State) (q : Seq) : (s.setSeq q).ring b = s.ring b := by
  cases b <;> rfl

theorem setRing_setSeq (b : Buf) (r : Ring) (s : State) (q : Seq) :
    (s.setSeq q).setRing b r = (s.setRing b r).setSeq q := by
  cases b <;> rfl

/-- `enqueue` neither reads nor writes SEQ. -/
theorem enqueue_setSeq (b : Buf) (v : Byte) (s : State) (q : Seq) :
    enqueue b v (s.setSeq q) = ((enqueue b v s).1, (enqueue b v s).2.setSeq q) := by
  unfold enqueue
  rw [ring_setSeq, setRing_setSeq]
  split <;> rfl

/-! ### RB.ENQ and RB.LEN -/

/-- RB.ENQ is `enqueue`, its success the result (R121). -/
theorem exec_rbEnq (b : Buf) (v : Byte) (s : State) :
    exec (.rbEnq b v) s =
      .next ((commitResult (boolRet (enqueue b v s).1) (enqueue b v s).2).setSeq Seq.idle) := by
  refine congrArg Host.Outcome.next (runCommand_ret (.rbEnq b v) fun q => ?_)
  simp only [microEffect, microRbEnq, atomic_enqueue, enqueue_setSeq]

/-- RB.LEN returns the count, extended to a byte (R123). -/
theorem exec_rbLen (b : Buf) (s : State) :
    exec (.rbLen b) s =
      .next ((commitResult (.value ((s.ring b).count.setWidth 8)) s).setSeq Seq.idle) := by
  refine congrArg Host.Outcome.next (runCommand_ret (.rbLen b) fun q => ?_)
  simp only [microEffect, microRbLen, atomicLen_eq, ring_setSeq]

/-! ### The statements -/

/-- Settles O15, by the two cases of `enqueue`: the buffer is full, or the byte is pushed. -/
theorem enqueueStoresAtHead : Obligations.EnqueueStoresAtHead := by
  intro b v s
  have hfull : (s.ring b).count = 8 ↔ (s.ring b).count.toNat = 8 := by simp [BitVec.toNat_eq]
  dsimp only
  rw [exec_rbEnq, hfull, ne_eq, hfull]
  obtain ⟨hc, he⟩ | ⟨hc, he⟩ := enqueue_cases b v s
  · rw [he]
    exact ⟨fun _ => rfl, fun hn => absurd hc hn⟩
  · rw [he]
    exact ⟨fun h => absurd h hc, fun _ => rfl⟩

/-- Settles O17: the count is below 16, so the extension to a byte keeps its value. -/
theorem lenReadsTheCount : Obligations.LenReadsTheCount := by
  intro b s
  refine ⟨(s.ring b).count.setWidth 8, BitVec.toNat_setWidth_of_le (by decide), ?_⟩
  exact exec_rbLen b s

end Sys2Proof.Machine
end

section
/-! The serial-link commands SL.SEND and SL.RXIE (41_seriallink.md R141 to R146): the return that closes a command
with no result, the whole of SL.SEND under every schedule, when the handler is invoked, and the two statements. -/

namespace Sys2Proof.Machine

/-! ### SL.SEND -/

theorem Ring.count_eq_eight (r : Ring) : r.count = 8 ↔ r.count.toNat = 8 := by simp [BitVec.toNat_eq]

/-- The return of a command that has no result: SEQ becomes IDLE and nothing else changes (R43). -/
theorem mainStep_ret_nothing {s : State} {m : Micro} (h : s.seq.todo = [m]) (hm : microEffect m s = ret .nothing s) :
    mainStep s = s.setSeq Seq.idle := by
  rw [mainStep_cons s m [] h, hm]
  rfl

/-- Steps 3 and 4 as the end of a command (R145): the last micro-step, be it the look at the count or the wait,
returns with no result, and up to it nothing but SEQ changes. -/
theorem sendTest_last (s : State) (h : s.seq.todo = [.sendTest]) :
    ∃ t m, Leads s t ∧ t.seq.todo = [m] ∧ microEffect m t = ret .nothing t ∧ Keeps s t := by
  by_cases hc : s.rbTx.count < Params.rbCapacity
  · have he : microEffect .sendTest s = ret .nothing s := by simp [microEffect, microSendTest, State.ring, hc]
    exact ⟨s, .sendTest, .refl s, h, he, Keeps.setSeq s s.seq⟩
  · have he : microEffect .sendTest s = (s, [.sendWait]) := by
      simp [microEffect, microSendTest, goOn, State.ring, hc]
    obtain ⟨t, hl, ht, -, hk⟩ := Leads.quietMicro h s.seq (by rw [he]; rfl) (by simp [he])
    exact ⟨t, .sendWait, hl, by simpa [he] using ht, rfl, hk⟩

theorem memRead_txbuf_congr {s t : State} (h : t.rbTx.storage = s.rbTx.storage) (j : Nat) :
    memRead .txbuf j t = memRead .txbuf j s :=
  congrArg (·[j]?) h

/-- A byte sent from `s` stays sent while agent M changes nothing but SEQ and the other agents move. -/
theorem Sent.keeps {v : Byte} {s t u : State} (h : Sent v s t) (k : Keeps t u) : Sent v s u where
  own := h.own.seqTrans k.own
  link := k.link h.link
  queued hlt := (k.line h.link).trans (h.queued hlt)
  dropped h8 := ⟨(k.line h.link).trans (h.dropped h8).1, k.txStorage.trans (h.dropped h8).2⟩
  txCount := k.txCount.trans h.txCount
  txHead := k.txHead.trans h.txHead
  txFrame j hj := (memRead_txbuf_congr k.txStorage j).trans (h.txFrame j hj)
  rx := by
    obtain ⟨a, ha, ga⟩ := h.rx
    obtain ⟨b, hb, gb⟩ := k.rx h.link
    exact ⟨a ++ b, by rw [hb, ha, List.append_assoc], ga.trans gb⟩
  kicked := k.drained h.link h.kicked
  noArrival hn := by
    obtain ⟨ht, hrx⟩ := h.noArrival hn
    exact ⟨(k.noArrival ht).1, (k.noArrival ht).2.trans hrx⟩

/-- What SEQ was before the call does not matter. -/
theorem Sent.of_setSeq {v : Byte} {s t : State} {q : Seq} (h : Sent v (s.setSeq q) t) : Sent v s t :=
  ⟨h.own, h.link, h.queued, h.dropped, h.txCount, h.txHead, h.txFrame, h.rx, h.kicked, h.noArrival⟩

/-- All that SL.SEND does, under every schedule (R141 to R145). -/
theorem exec_slSend (v : Byte) (s : State) (hl : LinkOk s) :
    ∃ t, exec (.slSend v) s = .next t ∧ t.seq = Seq.idle ∧ Sent v s t := by
  obtain ⟨a, la, ta, -, sa⟩ := send_leads v [] (accept (.slSend v) (sendProg v) s) (accept_todo _ _ s) hl
  obtain ⟨b, m, lb, tb, hm, kb⟩ := sendTest_last a ta
  have hrun : runCommand (.slSend v) (sendProg v) s = b.setSeq Seq.idle := by
    rw [runCommand_of_leads (la.trans lb) (by simp [sendProg]) tb (by rw [hm]; rfl), mainStep_ret_nothing tb hm]
  exact ⟨b.setSeq Seq.idle, congrArg Host.Outcome.next hrun, rfl,
    ((sa.keeps kb).keeps (Keeps.setSeq b Seq.idle)).of_setSeq⟩

/-- Of TXBUF only the slot at head is written. -/
theorem Sent.txBufFrame {v : Byte} {s t : State} (h : Sent v s t) : TxBufFrame 1 s t :=
  fun j hj => h.txFrame j (by omega)

/-- A dropped byte leaves TXBUF as it was. -/
theorem Sent.txBufFrame_dropped {v : Byte} {s t : State} (h : Sent v s t) (h8 : s.rbTx.count.toNat = 8) :
    TxBufFrame 0 s t :=
  fun j _ => memRead_txbuf_congr (h.dropped h8).2 j

/-! ### When the handler is invoked -/

/-- CAUSE is not 0 when a transmit-ready event or an enabled receive-ready event is pending (R95). -/
theorem cause_bne_zero (s : State) : (cause s != 0) = (s.txirq || (s.rxirq && s.rxie)) := by
  unfold cause
  cases s.txirq <;> cases s.rxirq && s.rxie <;> rfl

/-! ### SL.RXIE -/

/-- SL.RXIE writes RXIE and returns no result (R146). -/
theorem exec_slRxie (e : Bool) (s : State) : exec (.slRxie e) s = .next ((s.setRxie e).setSeq Seq.idle) :=
  congrArg Host.Outcome.next (runCommand_ret (.slRxie e) (r := .nothing) fun _ => rfl)

/-! ### The statements -/

/-- Settles O19: `Sent` holds of the whole command under every schedule, and a ring of well-formed count is full
or has room for the byte. -/
theorem sendQueuesOrDropsTheByte : Obligations.SendQueuesOrDropsTheByte := by
  intro v s hl
  have hfull := s.rbTx.count_eq_eight
  have hle : s.rbTx.count.toNat ≤ 8 := hl.2.1.1
  obtain ⟨t, he, hidle, hs⟩ := exec_slSend v s hl
  refine ⟨t, he, fun hn => ?_, fun h8 => (hs.dropped (hfull.mp h8)).1, hidle ▸ hs.own, hs.txBufFrame,
    fun h8 => hs.txBufFrame_dropped (hfull.mp h8), fun hn => (hs.noArrival hn).2, hs.rx⟩
  rw [ne_eq, hfull] at hn
  exact hs.queued (by omega)

/-- Settles O23: RXIE enters CAUSE with the receive-ready event alone. -/
theorem rxieIsWritten : Obligations.RxieIsWritten := by
  intro e s
  refine ⟨exec_slRxie e s, ?_⟩
  rw [handlerEnabled, cause_bne_zero]

end Sys2Proof.Machine
end

section
/-! LIN.HEADER (42_linmaster.md R172 to R174): where the calls of SL.SEND of a run store in TXBUF, with no premise
on the state, the run of LIN.HEADER as its five sub-operations, the bits of the protected identifier, and the
statement. -/

namespace Sys2Proof.Machine

/-! ### What a part of a run stores in RB[TX] -/

/-- Between `s` and `t` at most `k` bytes are stored in RB[TX], each in the slot after the last, and RB[RX] gains
nothing unless a character arrives. -/
structure TxStores (k : Nat) (s t : State) : Prop where
  slots : ∃ d, d ≤ k ∧ t.rbTx.head.toNat = (s.rbTx.head.toNat + d) % 8 ∧ TxBufFrame d s t
  noArrival : NoArrival s → NoArrival t ∧ t.rbRx = s.rbRx

theorem TxStores.trans {k l : Nat} {s t u : State} (h : TxStores k s t) (g : TxStores l t u) :
    TxStores (k + l) s u where
  slots := by
    obtain ⟨d, hd, hh, hf⟩ := h.slots
    obtain ⟨e, he, gh, gf⟩ := g.slots
    exact ⟨d + e, by omega, by omega, fun j hj => (gf j (by omega)).trans (hf j (by omega))⟩
  noArrival hn := by
    obtain ⟨ht, hrx⟩ := h.noArrival hn
    exact ⟨(g.noArrival ht).1, (g.noArrival ht).2.trans hrx⟩

theorem TxStores.frame {k : Nat} {s t : State} (h : TxStores k s t) : TxBufFrame k s t := by
  obtain ⟨d, hd, -, hf⟩ := h.slots
  exact fun j hj => hf j (by omega)

/-- Where RB[TX] keeps its storage and head, nothing is stored. -/
theorem TxStores.of_unchanged {s t : State} (hs : t.rbTx.storage = s.rbTx.storage) (hh : t.rbTx.head = s.rbTx.head)
    (hn : NoArrival s → NoArrival t ∧ t.rbRx = s.rbRx) : TxStores 0 s t where
  slots := ⟨0, le_rfl, by rw [hh]; omega, fun j _ => memRead_txbuf_congr hs j⟩
  noArrival := hn

theorem Keeps.txStores {s t : State} (h : Keeps s t) : TxStores 0 s t :=
  .of_unchanged h.txStorage h.txHead h.noArrival

/-- One byte is stored at head, or none (R121). -/
theorem enqueue_txStores (v : Byte) (s : State) : TxStores 1 s (enqueue .tx v s).2 := by
  obtain ⟨-, he⟩ | ⟨-, he⟩ := enqueue_cases .tx v s <;> simp only [he, State.setRing_tx, State.ring_tx]
  · exact ⟨⟨0, by omega, by omega, fun _ _ => rfl⟩, fun hn => ⟨hn, rfl⟩⟩
  · refine ⟨⟨1, le_rfl, BitVec3_toNat_add_one _, fun j hj => ?_⟩, fun hn => ⟨hn, rfl⟩⟩
    have hj' : s.rbTx.head.toNat ≠ j := by omega
    simp [memRead, Ring.push, hj']

theorem kick_txStores (s : State) : TxStores 0 s (kick s) := by
  obtain ⟨-, he⟩ | ⟨-, he⟩ := kick_cases s <;> rw [he] <;> exact .of_unchanged rfl rfl fun hn => ⟨hn, rfl⟩

theorem enqueue_tx_mainOwned (v : Byte) (s : State) : MainOwned s (enqueue .tx v s).2 := by
  obtain ⟨-, he⟩ | ⟨-, he⟩ := enqueue_cases .tx v s <;> simp [he, MainOwned]

theorem kick_mainOwned (s : State) : MainOwned s (kick s) := by
  obtain ⟨-, he⟩ | ⟨-, he⟩ := kick_cases s <;> simp [he, MainOwned]

/-! ### Parts of a run that select a rate and send -/

/-- A part of a run in which agent M changes no register of its own but SEQ and BAUD, which is `r` at the end, and
stores at most `k` bytes in RB[TX]. -/
structure Queues (k : Nat) (r : Rate) (s t : State) : Prop where
  own : MainOwned ((s.setBaud r).setSeq t.seq) t
  tx : TxStores k s t

theorem Queues.trans {k l : Nat} {r q : Rate} {s t u : State} (h : Queues k r s t) (g : Queues l q t u) :
    Queues (k + l) q s u where
  own := by
    have h' := h.own
    have g' := g.own
    simp_all [MainOwned]
  tx := h.tx.trans g.tx

theorem Queues.baud {k : Nat} {r : Rate} {s t : State} (h : Queues k r s t) : t.baud = r := by
  obtain ⟨-, -, hb, -⟩ := h.own
  exact hb

theorem Keeps.queues {s t : State} (h : Keeps s t) : Queues 0 s.baud s t := ⟨h.own, h.txStores⟩

/-- A part that selects no rate, before or after any other. -/
theorem Queues.stay {k l : Nat} {r : Rate} {s t u : State} (h : Queues k r s t) (g : Queues l t.baud t u) :
    Queues (k + l) r s u := by
  rw [h.baud] at g
  exact h.trans g

/-- A micro-step with the point after it stores what the micro-step stores. -/
theorem Leads.microQueues {k : Nat} {r : Rate} {s : State} {m : Micro} {rest : List Micro}
    (h : s.seq.todo = m :: rest) (hn : (microEffect m s).2 ++ rest ≠ [])
    (hown : MainOwned (s.setBaud r) (microEffect m s).1) (htx : TxStores k s (microEffect m s).1) :
    ∃ t, Leads s t ∧ t.seq.todo = (microEffect m s).2 ++ rest ∧ Queues k r s t := by
  have hq : Queues k r s (setTodo ((microEffect m s).2 ++ rest) (microEffect m s).1) :=
    ⟨by simp_all [MainOwned, setTodo], htx.slots, htx.noArrival⟩
  have hk := point_keeps (setTodo ((microEffect m s).2 ++ rest) (microEffect m s).1) (by simpa [setTodo] using hn)
  exact ⟨_, Leads.micro h hn, by simp [setTodo], hq.stay hk.queues⟩

/-- SL.SEND from any state (R141): at most one byte is stored, and nothing else of agent M's changes. -/
theorem send_queues (v : Byte) {rest : List Micro} (hr : rest ≠ []) {s : State} (h : s.seq.todo = sendProg v ++ rest) :
    ∃ t, Leads s t ∧ t.seq.todo = rest ∧ Queues 1 s.baud s t := by
  have he : microEffect (.sendEnq v) s = ((enqueue .tx v s).2, []) := by
    simp [microEffect, microSendEnq, goOn, atomic_enqueue]
  obtain ⟨a, la, ta, qa⟩ := Leads.microQueues (m := .sendEnq v) (rest := .sendKick :: .sendTest :: rest) (r := s.baud) h
    (by simp) (by rw [he]; exact enqueue_tx_mainOwned v s) (by rw [he]; exact enqueue_txStores v s)
  rw [he] at ta
  obtain ⟨b, lb, tb, qb⟩ := Leads.microQueues (m := .sendKick) (rest := .sendTest :: rest) (r := a.baud) ta
    (by simp) (kick_mainOwned a) (kick_txStores a)
  obtain ⟨c, lc, tc, -, kc⟩ := sendTest_leads rest hr b tb
  exact ⟨c, (la.trans lb).trans lc, tc, (qa.stay qb).stay kc.queues⟩

/-- The drain wait from its first test (R175). -/
theorem drainProg_queues {rest : List Micro} (hr : rest ≠ []) {s : State} (h : s.seq.todo = drainProg ++ rest) :
    ∃ t, Leads s t ∧ t.seq.todo = rest ∧ Queues 0 s.baud s t := by
  obtain ⟨t, hl, ht, hk⟩ := drain_leads rest hr s.params.drainPolls 0 s (by omega) h
  exact ⟨t, hl, ht, hk.queues⟩

/-- A rate is selected (R174). -/
theorem setBaud_queues (r : Rate) {rest : List Micro} (hr : rest ≠ []) {s : State} (h : s.seq.todo = .setBaud r :: rest) :
    ∃ t, Leads s t ∧ t.seq.todo = rest ∧ Queues 0 r s t :=
  Leads.microQueues (m := .setBaud r) h hr (MainOwned.refl _) (.of_unchanged rfl rfl fun hn => ⟨hn, rfl⟩)

/-! ### LIN.HEADER -/

/-- A last micro-step that returns: the result is committed and SEQ becomes IDLE (R43). -/
theorem mainStep_ret {s : State} {m : Micro} {r : Ret} (h : s.seq.todo = [m]) (hm : microEffect m s = ret r s) :
    mainStep s = (commitResult r s).setSeq Seq.idle := by
  rw [mainStep_cons s m [] h, hm]
  simp [ret, giveRet, setTodo, retire, setSeq_setSeq, commitResult_setSeq]

/-- LIN.HEADER up to its `return` (R173): both drain waits, both changes of the rate and the three bytes. -/
theorem headerProg_queues (id : BitVec 6) (rest : List Micro) (s : State) (h : s.seq.todo = headerProg id ++ rest) :
    ∃ t, Leads s t ∧ t.seq.todo = .returnValue (pid id) :: rest ∧ Queues 3 .normal s t := by
  have h' : s.seq.todo = drainProg ++ .setBaud .brk :: (sendProg Params.breakByte ++
      (drainProg ++ .setBaud .normal :: .headerPid id :: rest)) := h
  obtain ⟨a, la, ta, qa⟩ := drainProg_queues (by simp) h'
  obtain ⟨b, lb, tb, qb⟩ := setBaud_queues .brk (by simp [sendProg]) ta
  obtain ⟨c, lc, tc, qc⟩ := send_queues Params.breakByte (by simp [drainProg]) tb
  obtain ⟨d, ld, td, qd⟩ := drainProg_queues (by simp) tc
  obtain ⟨e, le, te, qe⟩ := setBaud_queues .normal (by simp) td
  obtain ⟨f, lf, tf, qf⟩ := Leads.microQueues (m := .headerPid id) (k := 0) (r := e.baud) (rest := rest) te
    (by simp [microEffect, microHeaderPid, goOn]) (MainOwned.refl _) (.of_unchanged rfl rfl fun hn => ⟨hn, rfl⟩)
  have tf' : f.seq.todo = sendProg Params.syncByte ++ (sendProg (pid id) ++ .returnValue (pid id) :: rest) := tf
  obtain ⟨g, lg, tg, qg⟩ := send_queues Params.syncByte (by simp) tf'
  obtain ⟨i, li, ti, qi⟩ := send_queues (pid id) (by simp) tg
  exact ⟨i, ((((((la.trans lb).trans lc).trans ld).trans le).trans lf).trans lg).trans li, ti,
    ((((((qa.trans qb).stay qc).stay qd).trans qe).stay qf).stay qg).stay qi⟩

/-- LIN.HEADER from any state and under every schedule: the protected identifier is the result (R173). -/
theorem exec_linHeader (id : BitVec 6) (s : State) :
    ∃ t, exec (.linHeader id) s = .next ((commitResult (.value (pid id)) t).setSeq Seq.idle) ∧ Queues 3 .normal s t := by
  obtain ⟨t, hl, ht, hq⟩ := headerProg_queues id [] (accept (.linHeader id) (headerProg id) s) (by simp [accept_todo])
  have hrun : runCommand (.linHeader id) (headerProg id) s = (commitResult (.value (pid id)) t).setSeq Seq.idle := by
    rw [runCommand_of_leads hl (by simp [headerProg]) ht rfl, mainStep_ret ht rfl]
  exact ⟨t, congrArg Host.Outcome.next hrun, hq.own, hq.tx.slots, hq.tx.noArrival⟩

/-! ### The protected identifier (R172) -/

/-- The protected identifier bit by bit, as the two appends of its definition lay it out. -/
theorem pid_getLsbD (id : BitVec 6) (k : Nat) :
    (pid id).getLsbD k =
      if k < 6 then id.getLsbD k
      else if k - 6 < 1 then
        (BitVec.ofBool (id.getLsbD 0 ^^ id.getLsbD 1 ^^ id.getLsbD 2 ^^ id.getLsbD 4)).getLsbD (k - 6)
      else (BitVec.ofBool (!(id.getLsbD 1 ^^ id.getLsbD 3 ^^ id.getLsbD 4 ^^ id.getLsbD 5))).getLsbD (k - 6 - 1) :=
  BitVec.getLsbD_append.trans (if_congr Iff.rfl rfl BitVec.getLsbD_append)

/-! ### CMD[7:6] (R91) -/

theorem opField_commandWord (op sub : BitVec 4) (imm : Byte) : opField (commandWord op sub imm) = op :=
  (BitVec.extractLsb'_append_eq_of_le (by decide)).trans BitVec.extractLsb'_append_eq_left

theorem subField_commandWord (op sub : BitVec 4) (imm : Byte) : subField (commandWord op sub imm) = sub :=
  (BitVec.extractLsb'_append_eq_of_le (by decide)).trans BitVec.extractLsb'_append_eq_right

theorem immField_commandWord (op sub : BitVec 4) (imm : Byte) : immField (commandWord op sub imm) = imm :=
  BitVec.extractLsb'_append_eq_right

/-- The mask and the narrowing to six bits both drop CMD[7:6]. -/
theorem idField_commandWord (op sub : BitVec 4) (imm : Byte) : idField (commandWord op sub imm) = imm.setWidth 6 := by
  rw [idField, immField_commandWord, BitVec.setWidth_and]
  exact BitVec.and_allOnes

theorem decode_linHeader (imm : Byte) : decode (.command (commandWord 7 0 imm)) = .ok (.linHeader (imm.setWidth 6)) := by
  simp [decode, decodeCommand, whenSubZero, opField_commandWord, subField_commandWord, idField_commandWord]

/-! ### The statement -/

/-- Settles O31: the run of LIN.HEADER stores at most the three bytes it sends, and its result is `pid id`. -/
theorem headerReturnsTheProtectedId : Obligations.HeaderReturnsTheProtectedId := by
  refine ⟨fun id s => ?_, decode_linHeader⟩
  obtain ⟨t, he, hq⟩ := exec_linHeader id s
  refine ⟨_, he, fun k hk => (pid_getLsbD id k).trans (if_pos hk), (pid_getLsbD id 6).trans (by simp),
    (pid_getLsbD id 7).trans (by simp), hq.tx.frame, fun hn => (hq.tx.noArrival hn).2, ?_⟩
  have hown := hq.own
  simp_all [MainOwned, commitResult]

end Sys2Proof.Machine
end

section
/-! LIN.DATA (42_linmaster.md R176 to R180): the bytes a run offers to the line, the loop over DBUF, the checksum
in plain arithmetic, and the statement. -/

namespace Sys2Proof.Machine

/-! ### Bytes offered to the line -/

/-- A part of a run in which agent M sends the bytes `d` in order, each queued or dropped (R142), and changes no
register of its own but SEQ and CSUM. -/
structure Offered (d : List Byte) (s t : State) : Prop where
  own : MainOwned ((s.setCsum t.csum).setSeq t.seq) t
  link : LinkOk t
  line : ∃ sent, List.Sublist sent d ∧ (s.rbTx.count.toNat + d.length ≤ 8 → sent = d) ∧
    lineStream t = lineStream s ++ sent.map fun b => .char b s.baud
  txCount : t.rbTx.count.toNat ≤ s.rbTx.count.toNat + d.length
  tx : TxStores d.length s t

theorem Offered.baud {d : List Byte} {s t : State} (h : Offered d s t) : t.baud = s.baud := by
  obtain ⟨-, -, hb, -⟩ := h.own
  exact hb

theorem Offered.dbuf {d : List Byte} {s t : State} (h : Offered d s t) : t.dbuf = s.dbuf := by
  obtain ⟨-, -, -, -, -, -, -, -, -, hd, -⟩ := h.own
  exact hd

theorem Offered.trans {d e : List Byte} {s t u : State} (h : Offered d s t) (g : Offered e t u) :
    Offered (d ++ e) s u where
  own := by
    have h' := h.own
    have g' := g.own
    simp_all [MainOwned]
  link := g.link
  line := by
    obtain ⟨x, hx, hfit, hline⟩ := h.line
    obtain ⟨y, gy, gfit, gline⟩ := g.line
    have hc := h.txCount
    refine ⟨x ++ y, hx.append gy, fun hle => ?_, by rw [gline, hline, h.baud, List.append_assoc, ← List.map_append]⟩
    rw [List.length_append] at hle
    rw [hfit (by omega), gfit (by omega)]
  txCount := by
    have hc := h.txCount
    have gc := g.txCount
    rw [List.length_append]
    omega
  tx := by
    rw [List.length_append]
    exact h.tx.trans g.tx

/-- What CSUM and SEQ were before does not matter. -/
theorem Offered.of_setCsum_setSeq {d : List Byte} {s t : State} {c : BitVec 16} {q : Seq}
    (h : Offered d ((s.setCsum c).setSeq q) t) : Offered d s t :=
  ⟨h.own, h.link, h.line, h.txCount, h.tx.slots, h.tx.noArrival⟩

/-- Nothing is offered while agent M changes nothing but SEQ. -/
theorem Keeps.offered {s t : State} (h : Keeps s t) (hl : LinkOk s) : Offered [] s t where
  own := by
    have hown := h.own
    simp_all [MainOwned]
  link := h.link hl
  line := ⟨[], .refl _, fun _ => rfl, by simpa using h.line hl⟩
  txCount := h.txCount
  tx := h.txStores

theorem Sent.txStores {v : Byte} {s t : State} (h : Sent v s t) (hl : LinkOk s) : TxStores 1 s t := by
  have hle : s.rbTx.count.toNat ≤ 8 := hl.2.1.1
  have hhead := h.txHead
  refine ⟨?_, h.noArrival⟩
  by_cases hc : s.rbTx.count.toNat < 8
  · rw [if_pos hc] at hhead
    exact ⟨1, le_rfl, by rw [hhead, BitVec3_toNat_add_one], h.txBufFrame⟩
  · rw [if_neg hc] at hhead
    exact ⟨0, by omega, by rw [hhead]; omega, h.txBufFrame_dropped (by omega)⟩

theorem Sent.offered {v : Byte} {s t : State} (h : Sent v s t) (hl : LinkOk s) : Offered [v] s t where
  own := by
    have hown := h.own
    simp_all [MainOwned]
  link := h.link
  line := by
    have hle : s.rbTx.count.toNat ≤ 8 := hl.2.1.1
    by_cases hc : s.rbTx.count.toNat < 8
    · exact ⟨[v], .refl _, fun _ => rfl, h.queued hc⟩
    · exact ⟨[], List.nil_sublist _, fun hfit => absurd hfit (by simp; omega),
        by simpa using (h.dropped (by omega)).1⟩
  txCount := h.txCount
  tx := h.txStores hl

theorem Sent.csum {v : Byte} {s t : State} (h : Sent v s t) : t.csum = s.csum := by
  obtain ⟨-, -, -, -, hc, -⟩ := h.own
  exact hc

/-! ### Micro-steps of LIN.DATA -/

/-- A call of SL.SEND inside a command. -/
theorem send_sent (v : Byte) {rest : List Micro} (hr : rest ≠ []) {s : State} (h : s.seq.todo = sendProg v ++ rest)
    (hl : LinkOk s) : ∃ t, Leads s t ∧ t.seq.todo = rest ∧ Sent v s t := by
  obtain ⟨a, la, ta, -, sa⟩ := send_leads v rest s h hl
  obtain ⟨b, lb, tb, -, kb⟩ := sendTest_leads rest hr a ta
  exact ⟨b, la.trans lb, tb, sa.keeps kb⟩

/-- A call of SL.SEND whose return is that of the command (R177 step 5). -/
theorem send_sent_last (v : Byte) {s : State} (h : s.seq.todo = sendProg v) (hl : LinkOk s) :
    ∃ t m, Leads s t ∧ t.seq.todo = [m] ∧ microEffect m t = ret .nothing t ∧ Sent v s t := by
  obtain ⟨a, la, ta, -, sa⟩ := send_leads v [] s (by simpa using h) hl
  obtain ⟨b, m, lb, tb, hm, kb⟩ := sendTest_last a ta
  exact ⟨b, m, la.trans lb, tb, hm, sa.keeps kb⟩

/-- A micro-step that at most writes CSUM, with the point after it. -/
theorem Leads.microCsum {s : State} {m : Micro} {rest : List Micro} (h : s.seq.todo = m :: rest) (c : BitVec 16)
    (he : (microEffect m s).1 = s.setCsum c) (hn : (microEffect m s).2 ++ rest ≠ []) (hl : LinkOk s) :
    ∃ t, Leads s t ∧ t.seq.todo = (microEffect m s).2 ++ rest ∧ Offered [] s t ∧ t.csum = c := by
  have hk := point_keeps (setTodo ((microEffect m s).2 ++ rest) (microEffect m s).1) (by simpa [setTodo] using hn)
  have hlead := Leads.micro h hn
  rw [he] at hk hlead
  obtain ⟨-, -, -, -, hc, -⟩ := hk.own
  exact ⟨_, hlead, by simp [setTodo], (hk.offered hl).of_setCsum_setSeq, hc⟩

/-! ### The loop over DBUF -/

theorem payloadOf_length {len : Nat} (h : len ≤ 8) (s : State) : (payloadOf len s).length = len := by
  simp [payloadOf, h]

theorem payloadOf_congr {s t : State} (h : t.dbuf = s.dbuf) (len : Nat) : payloadOf len t = payloadOf len s := by
  rw [payloadOf, h, payloadOf]

theorem dataByte_congr {s t : State} (h : t.dbuf = s.dbuf) (i : Nat) : dataByte i t = dataByte i s := by
  simp only [dataByte, memRead, h]

/-- What is left of the payload from DBUF[i] on. -/
theorem payloadOf_drop {i len : Nat} (hi : i < len) (hlen : len ≤ 8) (s : State) :
    (payloadOf len s).drop i = dataByte i s :: (payloadOf len s).drop (i + 1) := by
  rw [List.drop_eq_getElem_cons (by rw [payloadOf_length hlen]; exact hi)]
  congr 1
  have hi8 : i < 8 := by omega
  simp [payloadOf, dataByte, memRead, hi8]

/-- One turn of the loop (R177 step 3): DBUF[i] is sent, then added to CSUM, dropped or not. -/
theorem dataTest_turn {i len : Nat} (hi : i < len) {rest : List Micro} {s : State}
    (h : s.seq.todo = .dataTest i len :: rest) (hl : LinkOk s) :
    ∃ t, Leads s t ∧ t.seq.todo = .dataTest (i + 1) len :: rest ∧ Offered [dataByte i s] s t ∧
      t.csum = addByte s.csum (dataByte i s) := by
  have he : microEffect (.dataTest i len) s = (s, [.dataByte i len]) := by
    simp [microEffect, microDataTest, goOn, hi]
  obtain ⟨a, la, ta, oa, ca⟩ := Leads.microCsum h s.csum (by rw [he]; rfl) (by simp [he]) hl
  rw [he] at ta
  obtain ⟨b, lb, tb, ob, cb⟩ := Leads.microCsum (m := .dataByte i len) (rest := rest) ta a.csum rfl
    (by simp [microEffect, microDataByte, goOn]) oa.link
  have tb' : b.seq.todo = sendProg (dataByte i s) ++ .dataAdd (dataByte i s) i len :: rest := by
    rw [tb, ← dataByte_congr oa.dbuf i]
    simp [microEffect, microDataByte, goOn]
  obtain ⟨c, lc, tc, sc⟩ := send_sent _ (by simp) tb' ob.link
  obtain ⟨d, ld, td, od, cd⟩ := Leads.microCsum tc (addByte c.csum (dataByte i s)) rfl
    (by simp [microEffect, microDataAdd, goOn]) sc.link
  exact ⟨d, ((la.trans lb).trans lc).trans ld, td, ((oa.trans ob).trans (sc.offered ob.link)).trans od,
    by rw [cd, sc.csum, cb, ca]⟩

/-- The loop from DBUF[i] to its end (R177 steps 2 and 3). -/
theorem dataTest_leads {len : Nat} (hlen : len ≤ 8) (rest : List Micro) (n i : Nat) (hn : i + n = len) (s : State)
    (h : s.seq.todo = .dataTest i len :: rest) (hl : LinkOk s) :
    ∃ t, Leads s t ∧ t.seq.todo = .dataFold :: rest ∧ Offered ((payloadOf len s).drop i) s t ∧
      t.csum = ((payloadOf len s).drop i).foldl addByte s.csum := by
  induction n generalizing i s with
  | zero =>
    have he : microEffect (.dataTest i len) s = (s, [.dataFold]) := by
      simp [microEffect, microDataTest, goOn, show len ≤ i by omega]
    have hd : (payloadOf len s).drop i = [] := List.drop_eq_nil_of_le (by rw [payloadOf_length hlen]; omega)
    obtain ⟨t, lt, tt, ot, ct⟩ := Leads.microCsum h s.csum (by rw [he]; rfl) (by simp [he]) hl
    rw [he] at tt
    rw [hd]
    exact ⟨t, lt, tt, ot, ct⟩
  | succ n ih =>
    obtain ⟨a, la, ta, oa, ca⟩ := dataTest_turn (by omega) h hl
    obtain ⟨t, lt, tt, ot, ct⟩ := ih (i + 1) (by omega) a ta oa.link
    rw [payloadOf_congr oa.dbuf] at ot ct
    rw [payloadOf_drop (by omega) hlen s]
    exact ⟨t, la.trans lt, tt, oa.trans ot, by rw [ct, ca]; rfl⟩

/-- LIN.DATA after its step 1 up to the send of the checksum, CSUM being the sum over the data (R177). -/
theorem data_leads {len : Nat} (hlen : len ≤ 8) (rest : List Micro) (s : State)
    (h : s.seq.todo = .dataTest 0 len :: rest) (hl : LinkOk s) :
    ∃ t, Leads s t ∧ t.seq.todo = sendProg (foldSum t.csum) ++ rest ∧ Offered (payloadOf len s) s t ∧
      t.csum = (payloadOf len s).foldl addByte s.csum := by
  obtain ⟨a, la, ta, oa, ca⟩ := dataTest_leads hlen rest len 0 (by omega) s h hl
  obtain ⟨b, lb, tb, ob, cb⟩ := Leads.microCsum (m := .dataFold) ta a.csum rfl
    (by simp [microEffect, microDataFold, goOn, sendProg]) oa.link
  refine ⟨b, la.trans lb, by rw [tb, cb]; rfl, ?_, cb.trans ca⟩
  simpa using oa.trans ob

/-- All that LIN.DATA does, under every schedule (R177): the data and then the folded sum are offered. -/
theorem exec_linData (len : BitVec 4) (p : Byte) (s : State) (hlen : len.toNat ≤ 8) (hl : LinkOk s) :
    ∃ t, exec (.linData len p) s = .next t ∧ t.seq = Seq.idle ∧
      t.csum = (payloadOf len.toNat s).foldl addByte (p.setWidth 16) ∧
      Offered (payloadOf len.toNat s ++ [checksum p (payloadOf len.toNat s)]) s t := by
  have h0 := accept_todo (.linData len p) (dataProg len.toNat p) s
  obtain ⟨a, la, ta, oa, ca⟩ := Leads.microCsum h0 (p.setWidth 16) rfl
    (by simp [microEffect, microDataInit, goOn]) hl
  obtain ⟨b, lb, tb, ob, cb⟩ := data_leads hlen [] a ta oa.link
  obtain ⟨c, m, lc, tc, hm, sc⟩ := send_sent_last (foldSum b.csum) (by simpa using tb) ob.link
  have hrun : runCommand (.linData len p) (dataProg len.toNat p) s = c.setSeq Seq.idle := by
    rw [runCommand_of_leads ((la.trans lb).trans lc) (by simp [dataProg]) tc (by rw [hm]; rfl), mainStep_ret_nothing tc hm]
  have hexec : exec (.linData len p) s = .next (runCommand (.linData len p) (dataProg len.toNat p) s) :=
    if_pos (decide_eq_true hlen)
  rw [payloadOf_congr oa.dbuf, ca] at cb
  have ho := (oa.trans ob).trans ((sc.keeps (Keeps.setSeq c Seq.idle)).offered ob.link)
  rw [payloadOf_congr oa.dbuf, cb] at ho
  exact ⟨c.setSeq Seq.idle, hexec.trans (congrArg Host.Outcome.next hrun), rfl, sc.csum.trans cb,
    Offered.of_setCsum_setSeq (c := s.csum) ho⟩

/-! ### The checksum in plain arithmetic (R176) -/

/-- CSUM over the data is their sum modulo 65536. -/
theorem foldl_addByte_toNat (d : List Byte) (c : BitVec 16) :
    (d.foldl addByte c).toNat = (c.toNat + (d.map BitVec.toNat).sum) % 65536 := by
  induction d generalizing c with
  | nil => simpa using (Nat.mod_eq_of_lt c.isLt).symm
  | cons v d ih =>
    have hv : (addByte c v).toNat = (c.toNat + v.toNat) % 65536 := by
      simp [addByte, BitVec.toNat_add]
    rw [List.foldl_cons, ih, hv, List.map_cons, List.sum_cons]
    omega

/-- The complement of the low byte of the single fold. -/
theorem foldSum_eq (c : BitVec 16) : foldSum c = BitVec.ofNat 8 (255 - (c.toNat % 256 + c.toNat / 256) % 256) := by
  have hmask : c.toNat &&& 255 = c.toNat % 256 := Nat.and_two_pow_sub_one_eq_mod c.toNat 8
  have hfold : ((c &&& 0xFF) + (c >>> 8)).toNat = (c.toNat % 256 + c.toNat / 256) % 65536 := by
    simp [Nat.shiftRight_eq_div_pow, hmask]
  apply BitVec.eq_of_toNat_eq
  rw [foldSum, BitVec.toNat_setWidth, BitVec.toNat_not, hfold, BitVec.toNat_ofNat]
  omega

theorem checksum_eq (p : Byte) (d : List Byte) : checksum p d = checksumOf p d := by
  rw [checksum, foldSum_eq, foldl_addByte_toNat]
  simp [checksumOf, sumOf]

/-! ### The statement -/

/-- Settles O33: the run offers the data and then the fold of CSUM, which in plain arithmetic is the checksum. -/
theorem dataEndsWithTheChecksum : Obligations.DataEndsWithTheChecksum := by
  intro len p s hlen hl
  obtain ⟨t, he, hidle, hcsum, ho⟩ := exec_linData len p s hlen hl
  rw [checksum_eq] at ho
  obtain ⟨sent, hsub, hfit, hline⟩ := ho.line
  have hsize : (payloadOf len.toNat s ++ [checksumOf p (payloadOf len.toNat s)]).length = len.toNat + 1 := by
    simp [payloadOf_length hlen]
  have htx := ho.tx
  rw [hsize, ← Nat.add_assoc] at hfit
  rw [hsize] at htx
  refine ⟨t, sent, he, ?_, hsub, hfit, hline, htx.frame, fun hn => (htx.noArrival hn).2, hidle ▸ ho.own⟩
  rw [hcsum, foldl_addByte_toNat, BitVec.toNat_setWidth_of_le (by decide)]
  rfl

end Sys2Proof.Machine
end

section
/-! The two code spaces (30_encoding.md R90 to R95, R110): a command word as its three fields, what each operand
check accepts, and the statements on decoding and encoding. -/

namespace Sys2Proof.Machine

/-! ### A command word as its three fields (R90) -/

theorem commandWord_toNat (op sub : BitVec 4) (imm : Byte) :
    (commandWord op sub imm).toNat = op.toNat * 4096 + sub.toNat * 256 + imm.toNat := by
  have hs := sub.isLt
  have hi := imm.isLt
  simp only [commandWord, BitVec.toNat_append]
  rw [← Nat.shiftLeft_add_eq_or_of_lt hi, ← Nat.shiftLeft_add_eq_or_of_lt hs]
  simp only [Nat.shiftLeft_eq]
  omega

theorem commandWord_fields (w : CmdWord) : commandWord (opField w) (subField w) (immField w) = w := by
  have hw := w.isLt
  apply BitVec.eq_of_toNat_eq
  rw [commandWord_toNat]
  simp only [opField, subField, immField, BitVec.extractLsb'_toNat, Nat.shiftRight_eq_div_pow]
  omega

theorem commandWord_and (op op' sub sub' : BitVec 4) (imm imm' : Byte) :
    commandWord op sub imm &&& commandWord op' sub' imm' = commandWord (op &&& op') (sub &&& sub') (imm &&& imm') :=
  Laws.commandWord_and op op' sub sub' imm imm'

/-! ### Operand checks -/

/-- A flag is decoded from the bit it is encoded in. -/
theorem withFlag_flagSub (op : BitVec 4) (b : Bool) (imm : Byte) (f : Bool → Except Reject Instr) :
    withFlag (commandWord op (flagSub b) imm) f = f b := by
  cases b <;> simp [withFlag, flagOperand, subField_commandWord, flagSub]

theorem bufOfFlag_flagOfBuf (b : Buf) : bufOfFlag (flagOfBuf b) = b := by cases b <;> rfl

theorem flagOfBuf_bufOfFlag (b : Bool) : flagOfBuf (bufOfFlag b) = b := by cases b <;> rfl

theorem idImm_setWidth (id : BitVec 6) : (idImm id).setWidth 6 = id := by simp [idImm]

/-- Narrowing to an identifier and widening again clears the two ignored bits (R91). -/
theorem setWidth_idImm (imm : Byte) : idImm (imm.setWidth 6) = imm &&& 0x3F := by
  revert imm
  decide

/-! ### Decode after encode -/

/-- Settles O1: field by field, the decoder reads what the encoder wrote. -/
theorem decodeEncodeAgree : Obligations.DecodeEncodeAgree := by
  intro i hwf
  cases i with
  | irqRx => rfl
  | irqTx => rfl
  | linData len p =>
    have hl : lenOk len = true := hwf
    simp [encode, decode, decodeCommand, whenLen, opField_commandWord, subField_commandWord, immField_commandWord, hl]
  | linResp m =>
    have hl : maxLenOk m = true := hwf
    simp [encode, decode, decodeCommand, whenImmZero, opField_commandWord, subField_commandWord, immField_commandWord, hl]
  | fxCmd id len =>
    have hl : lenOk len = true := hwf
    simp [encode, decode, decodeCommand, whenLen, opField_commandWord, subField_commandWord, idField_commandWord,
      idImm_setWidth, hl]
  | fxStatus id m =>
    have hl : maxLenOk m = true := hwf
    simp [encode, decode, decodeCommand, whenMaxLen, opField_commandWord, subField_commandWord, idField_commandWord,
      idImm_setWidth, hl]
  | _ => simp [encode, decode, decodeCommand, whenSubZero, whenImmZero, whenOperandsZero, opField_commandWord,
      subField_commandWord, immField_commandWord, idField_commandWord, idImm_setWidth, withFlag_flagSub,
      bufOfFlag_flagOfBuf]

/-! ### Encode after decode -/

theorem withFlag_ok {w : CmdWord} {f : Bool → Except Reject Instr} {i : Instr} (h : withFlag w f = .ok i) :
    ∃ b, subField w = flagSub b ∧ f b = .ok i := by
  unfold withFlag flagOperand at h
  by_cases h0 : (subField w).toNat = 0
  · exact ⟨false, BitVec.eq_of_toNat_eq h0, by simpa [h0] using h⟩
  · by_cases h1 : (subField w).toNat = 1
    · exact ⟨true, BitVec.eq_of_toNat_eq h1, by simpa [h1] using h⟩
    · simp [h0, h1] at h

theorem whenImmZero_ok {w : CmdWord} {i j : Instr} (h : whenImmZero w i = .ok j) : immField w = 0 ∧ i = j := by
  unfold whenImmZero at h
  split at h
  · next hw => exact ⟨hw, Except.ok.inj h⟩
  · cases h

theorem whenSubZero_ok {w : CmdWord} {i j : Instr} (h : whenSubZero w i = .ok j) : subField w = 0 ∧ i = j := by
  unfold whenSubZero at h
  split at h
  · next hw => exact ⟨hw, Except.ok.inj h⟩
  · cases h

theorem whenOperandsZero_ok {w : CmdWord} {i j : Instr} (h : whenOperandsZero w i = .ok j) :
    subField w = 0 ∧ immField w = 0 ∧ i = j := by
  unfold whenOperandsZero at h
  split at h
  · next hw => exact ⟨hw.1, hw.2, Except.ok.inj h⟩
  · cases h

theorem whenLen_ok {w : CmdWord} {i j : Instr} (h : whenLen w i = .ok j) : lenOk (subField w) = true ∧ i = j := by
  unfold whenLen at h
  split at h
  · next hw => exact ⟨hw, Except.ok.inj h⟩
  · cases h

theorem whenMaxLen_ok {w : CmdWord} {i j : Instr} (h : whenMaxLen w i = .ok j) :
    maxLenOk (subField w) = true ∧ i = j := by
  unfold whenMaxLen at h
  split at h
  · next hw => exact ⟨hw, Except.ok.inj h⟩
  · cases h

/-- The word of an instruction without an identifier has no ignored bit. -/
theorem command_of_fields {w : CmdWord} {op sub : BitVec 4} {imm : Byte} (ho : opField w = op)
    (hs : subField w = sub) (hi : immField w = imm) :
    Code.command (commandWord op sub imm) = .command (w &&& 0xFFFF) := by
  have hall : w &&& 0xFFFF = w := BitVec.and_allOnes
  rw [hall, ← ho, ← hs, ← hi, commandWord_fields]

/-- The word of an instruction with an identifier lacks the two ignored bits. -/
theorem command_of_idFields {w : CmdWord} {op sub : BitVec 4} (ho : opField w = op) (hs : subField w = sub) :
    Code.command (commandWord op sub (idImm (idField w))) = .command (w &&& 0xFF3F) := by
  have hmask : (0xFF3F : CmdWord) = commandWord 0xF 0xF 0x3F := by decide
  have hf : ∀ x : BitVec 4, x &&& 0xF = x := fun _ => BitVec.and_allOnes
  rw [hmask, ← commandWord_fields w, commandWord_and, idField_commandWord, setWidth_idImm, hf, hf, ho, hs]

/-- Settles O2: one case per opcode, each operand check giving the fields the encoder writes. -/
theorem decodedWordIsReadInFull : Obligations.DecodedWordIsReadInFull := by
  intro w i h
  have op : ∀ k : Nat, k < 16 → (opField w).toNat = k → opField w = BitVec.ofNat 4 k := fun k hk hw =>
    BitVec.eq_of_toNat_eq (by rw [hw, BitVec.toNat_ofNat, Nat.mod_eq_of_lt hk])
  simp only [decode, decodeCommand] at h
  split at h
  case h_1 ho =>
    obtain ⟨b, hs, hi⟩ := withFlag_ok h
    obtain rfl := Except.ok.inj hi
    exact ⟨rfl, command_of_fields (op 0 (by decide) ho) (by rw [hs, flagOfBuf_bufOfFlag]) rfl⟩
  case h_2 ho =>
    obtain ⟨b, hs, hb⟩ := withFlag_ok h
    obtain ⟨hi, rfl⟩ := whenImmZero_ok hb
    exact ⟨rfl, command_of_fields (op 1 (by decide) ho) (by rw [hs, flagOfBuf_bufOfFlag]) hi⟩
  case h_3 ho =>
    obtain ⟨b, hs, hb⟩ := withFlag_ok h
    obtain ⟨hi, rfl⟩ := whenImmZero_ok hb
    exact ⟨rfl, command_of_fields (op 2 (by decide) ho) (by rw [hs, flagOfBuf_bufOfFlag]) hi⟩
  case h_4 ho =>
    obtain ⟨hs, rfl⟩ := whenSubZero_ok h
    exact ⟨rfl, command_of_fields (op 3 (by decide) ho) hs rfl⟩
  case h_5 ho =>
    obtain ⟨hs, hi, rfl⟩ := whenOperandsZero_ok h
    exact ⟨rfl, command_of_fields (op 4 (by decide) ho) hs hi⟩
  case h_6 ho =>
    obtain ⟨b, hs, hb⟩ := withFlag_ok h
    obtain ⟨hi, rfl⟩ := whenImmZero_ok hb
    exact ⟨rfl, command_of_fields (op 5 (by decide) ho) hs hi⟩
  case h_7 ho =>
    obtain ⟨hs, hi, rfl⟩ := whenOperandsZero_ok h
    exact ⟨rfl, command_of_fields (op 6 (by decide) ho) hs hi⟩
  case h_8 ho =>
    obtain ⟨hs, rfl⟩ := whenSubZero_ok h
    exact ⟨rfl, command_of_idFields (op 7 (by decide) ho) hs⟩
  case h_9 ho =>
    obtain ⟨hl, rfl⟩ := whenLen_ok h
    exact ⟨hl, command_of_fields (op 8 (by decide) ho) rfl rfl⟩
  case h_10 ho =>
    split at h
    · next hl =>
      obtain ⟨hi, rfl⟩ := whenImmZero_ok h
      exact ⟨hl, command_of_fields (op 9 (by decide) ho) rfl hi⟩
    · cases h
  case h_11 ho =>
    obtain ⟨hl, rfl⟩ := whenLen_ok h
    exact ⟨hl, command_of_idFields (op 10 (by decide) ho) rfl⟩
  case h_12 ho =>
    obtain ⟨hl, rfl⟩ := whenMaxLen_ok h
    exact ⟨hl, command_of_idFields (op 11 (by decide) ho) rfl⟩
  case h_13 ho =>
    obtain ⟨hs, hi, rfl⟩ := whenOperandsZero_ok h
    exact ⟨rfl, command_of_fields (op 12 (by decide) ho) hs hi⟩
  case h_14 ho =>
    obtain ⟨b, hs, hb⟩ := withFlag_ok h
    obtain ⟨hi, rfl⟩ := whenImmZero_ok hb
    exact ⟨rfl, command_of_fields (op 13 (by decide) ho) hs hi⟩
  case h_15 ho =>
    obtain ⟨hs, hi, rfl⟩ := whenOperandsZero_ok h
    exact ⟨rfl, command_of_fields (op 14 (by decide) ho) hs hi⟩
  case h_16 => cases h

/-- A command word never decodes to a service of the interrupt handler (R92, R95). -/
theorem decode_command_isCommand {w : CmdWord} {i : Instr} (h : decode (.command w) = .ok i) : isCommand i = true := by
  obtain ⟨-, he⟩ := decodedWordIsReadInFull w i h
  cases i with
  | irqRx => cases he
  | irqTx => cases he
  | _ => rfl

theorem decode_command_wellFormed {w : CmdWord} {i : Instr} (h : decode (.command w) = .ok i) :
    i.wellFormed = true :=
  (decodedWordIsReadInFull w i h).1

/-! ### Reserved words (R110) -/

theorem reservedWord_iff (w : CmdWord) :
    reservedWord w ↔
      let op := (opField w).toNat
      let sub := (subField w).toNat
      let imm := (immField w).toNat
      op = 15 ∨
      (op ∈ [0, 1, 2, 5, 13] ∧ 2 ≤ sub) ∨ (op ∈ [3, 4, 6, 7, 12, 14] ∧ sub ≠ 0) ∨
      (op ∈ [1, 2, 4, 5, 6, 9, 12, 13, 14] ∧ imm ≠ 0) ∨
      (op ∈ [8, 10] ∧ 9 ≤ sub) ∨ (op ∈ [9, 11] ∧ 10 ≤ sub) := by
  have hw := w.isLt
  have ho : (opField w).toNat = w.toNat / 4096 := by
    simp only [opField, BitVec.extractLsb'_toNat, Nat.shiftRight_eq_div_pow]
    omega
  have hs : (subField w).toNat = w.toNat / 256 % 16 := by
    simp only [subField, BitVec.extractLsb'_toNat, Nat.shiftRight_eq_div_pow]
  have hi : (immField w).toNat = w.toNat % 256 := by
    simp only [immField, BitVec.extractLsb'_toNat, Nat.shiftRight_zero]
  rw [ho, hs, hi]

theorem whenImmZero_error (w : CmdWord) (i : Instr) :
    (∃ why, whenImmZero w i = .error why) ↔ (immField w).toNat ≠ 0 := by
  unfold whenImmZero
  split <;> simp_all [BitVec.toNat_eq]

theorem whenSubZero_error (w : CmdWord) (i : Instr) :
    (∃ why, whenSubZero w i = .error why) ↔ (subField w).toNat ≠ 0 := by
  unfold whenSubZero
  split <;> simp_all [BitVec.toNat_eq]

theorem whenOperandsZero_error (w : CmdWord) (i : Instr) :
    (∃ why, whenOperandsZero w i = .error why) ↔ (subField w).toNat ≠ 0 ∨ (immField w).toNat ≠ 0 := by
  unfold whenOperandsZero
  split <;> simp_all [BitVec.toNat_eq, imp_iff_not_or]

theorem lenOk_eq_false (n : BitVec 4) : lenOk n = false ↔ 9 ≤ n.toNat := by
  rw [lenOk, decide_eq_false_iff_not, Params.dataMaxLen, Nat.not_le]
  rfl

theorem maxLenOk_eq_false (n : BitVec 4) : maxLenOk n = false ↔ 10 ≤ n.toNat := by
  rw [maxLenOk, decide_eq_false_iff_not, Params.respMaxLen, Nat.not_le]
  rfl

theorem whenLen_error (w : CmdWord) (i : Instr) : (∃ why, whenLen w i = .error why) ↔ 9 ≤ (subField w).toNat := by
  rw [← lenOk_eq_false]
  unfold whenLen
  split <;> simp_all

theorem whenMaxLen_error (w : CmdWord) (i : Instr) :
    (∃ why, whenMaxLen w i = .error why) ↔ 10 ≤ (subField w).toNat := by
  rw [← maxLenOk_eq_false]
  unfold whenMaxLen
  split <;> simp_all

theorem withFlag_error (w : CmdWord) {f : Bool → Except Reject Instr} {p : Prop}
    (hf : ∀ b, (∃ why, f b = .error why) ↔ p) :
    (∃ why, withFlag w f = .error why) ↔ 2 ≤ (subField w).toNat ∨ p := by
  unfold withFlag flagOperand
  by_cases h0 : (subField w).toNat = 0
  · simp [h0, hf]
  · by_cases h1 : (subField w).toNat = 1
    · simp [h1, hf]
    · have h2 : 2 ≤ (subField w).toNat := by omega
      simp [h0, h1, h2]

/-- The decoder rejects exactly the reserved words: one case per opcode, by what each operand check rejects. -/
theorem decode_error_iff (w : CmdWord) : (∃ why, decode (.command w) = .error why) ↔ reservedWord w := by
  have hlt := (opField w).isLt
  rw [reservedWord_iff]
  simp only [decode, decodeCommand]
  split
  case h_10 ho =>
    simp only [ho]
    split
    · next hl =>
      have : (subField w).toNat < 10 := Nat.lt_succ_of_le (of_decide_eq_true hl)
      rw [whenImmZero_error]
      simp
      omega
    · next hl =>
      have : 10 ≤ (subField w).toNat := (maxLenOk_eq_false _).mp (by simpa using hl)
      simp [this]
  case h_16 =>
    have ho : (opField w).toNat = 15 := by
      simp only [imp_false] at *
      omega
    simp [ho]
  case h_1 ho =>
    rw [withFlag_error w (p := False) (by simp), ho]
    simp
  all_goals
    rename_i ho
    rw [ho]
    simp only [whenSubZero_error, whenOperandsZero_error, whenLen_error, whenMaxLen_error,
      withFlag_error w fun _ => whenImmZero_error w _]
    simp

/-- Settles O4: each word is a closed term. -/
theorem wordsFromThePatternsDecode : Obligations.WordsFromThePatternsDecode := by
  unfold Obligations.WordsFromThePatternsDecode
  decide

/-- Settles O5: `lenOk` and `maxLenOk` guard the four meanings. -/
theorem reservedOperandsAreRefused : Obligations.ReservedOperandsAreRefused := by
  intro id n p s
  refine ⟨fun h => ?_, fun h => ?_⟩
  · have hl := (lenOk_eq_false n).mpr h
    simp [exec, execLinData, execFxCmd, hl]
  · have hl := (maxLenOk_eq_false n).mpr h
    simp [exec, execLinResp, execFxStatus, hl]

end Sys2Proof.Machine
end

section
/-! One step of the machine (00_scope.md R14, 41_seriallink.md R147, R151): whose move it is, what agent M does on
its turn, what the other agents' turns and the two services change, and the statements on single steps. -/

namespace Sys2Proof.Machine

/-! ### Whose move it is -/

theorem setSched_self (s : State) : s.setSched s.sched = s := rfl

/-- With M's turn next, and M or the port having something to do, or the turn being scheduled, M moves. -/
theorem step_mainTurn {s : State} (hm : MainIsNext s) (h : s.isIdle = false ∨ s.cmd ≠ none ∨ s.sched ≠ []) :
    step s = mainTurn (s.setSched s.sched.tail) := by
  obtain ⟨he, hs | ⟨ts, hs⟩⟩ := hm
  · have hu : (s.isIdle && s.cmd.isNone) = false := by
      rw [Bool.and_eq_false_iff]
      obtain h | h | h := h
      · exact .inl h
      · exact .inr (Option.isNone_eq_false_iff.mpr (Option.isSome_iff_ne_none.mpr h))
      · exact absurd hs h
    have ht : s.setSched s.sched.tail = s := by
      rw [show s.sched.tail = s.sched by rw [hs]; rfl]
      rfl
    rw [ht]
    simp [step, he, hs, unscheduledTurn, hu]
  · simp [step, he, hs]

/-- A busy block takes one micro-step (R14). -/
theorem step_busy {s : State} (hm : MainIsNext s) (hb : s.isIdle = false) :
    step s = .next (mainStep (s.setSched s.sched.tail)) := by
  rw [step_mainTurn hm (.inl hb), mainTurn]
  exact if_neg (by simpa [State.isIdle] using hb)

/-- An idle block runs the command at the port (R42), or refuses a reserved word (R110). -/
theorem step_command {s : State} {w : CmdWord} (hm : MainIsNext s) (hi : s.isIdle = true) (hc : s.cmd = some w) :
    step s = match decode (.command w) with
      | .ok i => exec i ((s.setCmd none).setSched s.sched.tail)
      | .error why => .refused (.reservedCommand why) := by
  have hi' : (s.setSched s.sched.tail).isIdle = true := hi
  rw [step_mainTurn hm (.inr (.inl (by simp [hc]))), mainTurn, if_pos hi']
  simp only [fetched, State.setSched_cmd, hc, Option.map_some]
  cases decode (.command w) <;> rfl

/-- A turn of another agent is taken off the schedule and applied. -/
theorem step_turn {s : State} {t : Turn} {ts : List Turn} (he : handlerEnabled s = false) (hs : s.sched = t :: ts)
    (ht : t ≠ .main) : step s = .next (applyTurn t (s.setSched ts)) := by
  cases t with
  | main => exact absurd rfl ht
  | _ => simp [step, he, hs]

theorem step_handler {s : State} (he : handlerEnabled s = true) : step s = .next (invokeHandler s) := if_pos he

/-! ### `U.txdone` and `U.rx` -/

theorem txdone_full {s : State} (hf : s.txreg.full = true) :
    txdone s = ((s.setWire (s.wire ++ [.char s.txreg.byte s.txreg.rate])).setTxreg
      { s.txreg with full := false }).setTxirq true :=
  if_pos hf

theorem rxArrive_latches {s : State} {v : Byte} {kept : Bool}
    (h : (s.rxie = true ∧ s.rxreg.full = false) ∨ (s.rxie = false ∧ kept = true)) :
    rxArrive v kept s = (s.setRxreg { full := true, byte := v }).setRxirq true := by
  obtain ⟨hr, hf⟩ | ⟨hr, hk⟩ := h
  · simp [rxArrive, hr, hf]
  · simp [rxArrive, hr, hk]

theorem rxArrive_drops {s : State} {v : Byte} {kept : Bool} (hr : s.rxie = false) (hk : kept = false) :
    rxArrive v kept s = s := by
  simp [rxArrive, hr, hk]

theorem handlerEnabled_eq (s : State) : handlerEnabled s = (s.gie && (s.txirq || (s.rxirq && s.rxie))) := by
  rw [handlerEnabled, cause_bne_zero]

/-! ### The statements on agent M's turn -/

/-- Settles O3: the reserved words are those the decoder rejects, and agent M's turn refuses them. -/
theorem reservedWordsAreRefused : Obligations.ReservedWordsAreRefused := by
  refine ⟨decode_error_iff, fun s w hm hi hc hr => ?_⟩
  obtain ⟨why, hw⟩ := (decode_error_iff w).mpr hr
  exact ⟨why, by rw [step_command hm hi hc, hw]⟩

/-- Settles O6: M's turn on an idle block with a command is `exec` of the decoded word. -/
theorem stepRunsTheDecodedCommand : Obligations.StepRunsTheDecodedCommand := by
  intro s w i hm hi hc hd
  rw [step_command hm hi hc, hd]

/-- Settles O8: M's move while it is busy, its wait while it is idle, and `U.txdone` with nothing scheduled. -/
theorem stepOfTheMainContext : Obligations.StepOfTheMainContext := by
  intro s hm
  refine ⟨step_busy hm, fun hi hc h => ?_, fun hi hc hs hf => ?_⟩
  · by_cases hs : s.sched = []
    · have hf : s.txreg.full = false := h.resolve_left (absurd hs)
      have ht : s.setSched [] = s := hs ▸ setSched_self s
      simp [step, hm.1, hs, unscheduledTurn, hi, hc, txdone, hf, ht]
    · have hi' : (s.setSched s.sched.tail).isIdle = true := hi
      rw [step_mainTurn hm (.inr (.inr hs)), mainTurn, if_pos hi']
      simp [fetched, hc]
  · have hu : unscheduledTurn s = .next (txdone s) := by simp [unscheduledTurn, hi, hc]
    have hstep : step s = unscheduledTurn s := by simp [step, hm.1, hs]
    rw [hstep, hu, txdone_full hf]
    rfl

/-! ### The statements on the other agents' turns -/

/-- Settles O9: the turn's operation on a full TXREG. -/
theorem transmitterFinishesACharacter : Obligations.TransmitterFinishesACharacter := by
  intro s ts he hs hf
  rw [step_turn he hs (by simp)]
  exact congrArg Host.Outcome.next (txdone_full (s := s.setSched ts) hf)

/-- Settles O10: the character is latched, or the turn drops it. -/
theorem characterArrives : Obligations.CharacterArrives := by
  intro s ts v kept he hs
  rw [step_turn he hs (by simp)]
  exact ⟨fun h => congrArg Host.Outcome.next (rxArrive_latches (s := s.setSched ts) h),
    fun hr hk => congrArg Host.Outcome.next (rxArrive_drops (s := s.setSched ts) hr hk)⟩

theorem memWrite_dbuf_mainOwned (i : Nat) (v : Byte) (s : State) :
    MainOwned (s.setDbuf (memWrite .dbuf i v s).dbuf) (memWrite .dbuf i v s) := by
  simp [MainOwned, memWrite]

theorem memRead_setSched (sp : Space) (i : Nat) (s : State) (ts : List Turn) :
    memRead sp i (s.setSched ts) = memRead sp i s := by
  cases sp <;> rfl

/-- Settles O11: an idle block takes the write, a busy one does not. -/
theorem hostWritesDbufWhileIdle : Obligations.HostWritesDbufWhileIdle := by
  intro s ts i v he hs
  have hsched : (s.setSched ts).isIdle = s.isIdle := rfl
  refine ⟨_, step_turn he hs (by simp), fun hi => ?_, fun hi => ?_, fun sp j h => ?_, ?_⟩
  · simp only [applyTurn, hostDbufWrite, hsched, hi, if_true]
    exact memRead_memWrite_same _ _ _ _ i.isLt
  · simp only [applyTurn, hostDbufWrite, hsched, hi, Bool.false_eq_true, if_false]
    exact memRead_setSched _ _ s ts
  · have hne : Space.dbuf ≠ sp ∨ i.toNat ≠ j := h.imp Ne.symm Ne.symm
    simp only [applyTurn, hostDbufWrite]
    split
    · rw [memRead_memWrite_other _ _ _ _ _ _ hne, memRead_setSched]
    · exact memRead_setSched _ _ s ts
  · simp only [applyTurn, hostDbufWrite]
    split
    · exact memWrite_dbuf_mainOwned i.toNat v (s.setSched ts)
    · exact MainOwned.refl _

/-- Settles O12: an idle block takes the word, a busy one does not. -/
theorem hostPresentsACommand : Obligations.HostPresentsACommand := by
  intro s ts w he hs
  have hsched : (s.setSched ts).isIdle = s.isIdle := rfl
  rw [step_turn he hs (by simp)]
  simp only [applyTurn, hostIssue, hsched]
  exact ⟨fun hi => by rw [hi]; rfl, fun hi => by rw [hi]; rfl⟩

/-! ### Reset -/

/-- Settles O13: each value is that of `State.reset`. -/
theorem resetValues : Obligations.ResetValues := by
  refine ⟨⟨rfl, rfl, rfl⟩, ⟨rfl, rfl, rfl⟩, ?_⟩
  decide

/-- Settles O14: both invariants are decidable of the one state. -/
theorem resetMeetsTheInvariants : Obligations.ResetMeetsTheInvariants := by
  unfold Obligations.ResetMeetsTheInvariants
  decide

/-! ### The two services -/

/-- Settles O24, by the two cases of IRQ.RX. -/
theorem irqRxEnqueuesOrDiscards : Obligations.IrqRxEnqueuesOrDiscards := by
  intro s
  obtain ⟨hc, he⟩ | ⟨hc, he⟩ := serviceRx_cases s
  · exact ⟨fun _ => congrArg Host.Outcome.next he, fun h => absurd h (by omega)⟩
  · exact ⟨fun h => absurd h (by omega), fun _ => congrArg Host.Outcome.next he⟩

theorem Ring.count_eq_zero (r : Ring) : r.count = 0 ↔ r.count.toNat = 0 := by simp [BitVec.toNat_eq]

/-- Settles O25, by the two cases of IRQ.TX. -/
theorem irqTxTransmitsOrMarksIdle : Obligations.IrqTxTransmitsOrMarksIdle := by
  intro s
  dsimp only
  rw [ne_eq, Ring.count_eq_zero]
  obtain ⟨hc, he⟩ | ⟨hc, he⟩ := serviceTx_cases s
  · exact ⟨fun _ => congrArg Host.Outcome.next he, fun h => absurd h (by omega)⟩
  · exact ⟨fun h => absurd hc h, fun _ => congrArg Host.Outcome.next he⟩

/-- The body of the handler, by the events pending (R147). -/
theorem invokeHandler_eq (s : State) :
    invokeHandler s =
      if s.rxirq && s.rxie then (if s.txirq then serviceTx (serviceRx s) else serviceRx s)
      else (if s.txirq then serviceTx s else s) := by
  unfold invokeHandler
  dsimp only
  split <;> simp

/-- Settles O7: the handler is enabled by GIE and a pending event, and runs what is pending. -/
theorem stepServesThePendingCauses : Obligations.StepServesThePendingCauses := by
  intro s hg
  have he : s.txirq = true ∨ (s.rxirq && s.rxie) = true → step s = .next (invokeHandler s) := fun h =>
    step_handler (by rw [handlerEnabled_eq, hg, Bool.true_and, Bool.or_eq_true]; exact h)
  refine ⟨fun ht hr hx => ?_, fun ht hr => ?_, fun ht hr hx => ⟨serviceRx s, rfl, ?_⟩⟩
  · rw [he (.inr (by simp [hr, hx])), invokeHandler_eq]
    simp [ht, hr, hx, exec, execIrqRx]
  · rw [he (.inl ht), invokeHandler_eq]
    simp [ht, hr, exec, execIrqTx]
  · rw [he (.inl ht), invokeHandler_eq]
    simp [ht, hr, hx, exec, execIrqTx]

theorem serviceRx_tx (s : State) :
    (serviceRx s).rbTx = s.rbTx ∧ (serviceRx s).txreg = s.txreg ∧ (serviceRx s).txIdle = s.txIdle ∧
      (serviceRx s).wire = s.wire ∧ (serviceRx s).rxreg.byte = s.rxreg.byte := by
  obtain ⟨-, e⟩ | ⟨-, e⟩ := serviceRx_cases s <;> simp [e]

theorem serviceTx_wire (s : State) : (serviceTx s).wire = s.wire := by
  obtain ⟨-, e⟩ | ⟨-, e⟩ := serviceTx_cases s <;> simp [e]

theorem invokeHandler_wire (s : State) : (invokeHandler s).wire = s.wire := by
  obtain ⟨-, -, -, hw, -⟩ := serviceRx_tx s
  rw [invokeHandler_eq]
  split_ifs <;> simp [serviceTx_wire, hw]

/-- IRQ.RX passes over all that IRQ.TX writes. -/
theorem serviceRx_setTx (s : State) (q i : Bool) (r : Ring) (x : TxReg) :
    serviceRx ((((s.setTxirq q).setRbTx r).setTxreg x).setTxIdle i) =
      ((((serviceRx s).setTxirq q).setRbTx r).setTxreg x).setTxIdle i := by
  obtain ⟨hc, e⟩ | ⟨hc, e⟩ := serviceRx_cases s <;>
    obtain ⟨hc', e'⟩ | ⟨hc', e'⟩ := serviceRx_cases ((((s.setTxirq q).setRbTx r).setTxreg x).setTxIdle i) <;>
    simp only [State.setTxIdle_rbRx, State.setTxreg_rbRx, State.setRbTx_rbRx, State.setTxirq_rbRx] at hc'
  · rw [e, e']
    rfl
  · omega
  · omega
  · rw [e, e']
    rfl

/-- Settles O26: IRQ.RX writes RB[RX], RXREG and RXIRQ, and IRQ.TX the rest of the link. -/
theorem servicesCommute : Obligations.ServicesCommute := by
  intro s
  refine ⟨_, _, _, rfl, rfl, rfl, congrArg Host.Outcome.next ?_⟩
  obtain ⟨hb, hx, -⟩ := serviceRx_tx s
  obtain ⟨-, -, hbaud, -⟩ := serviceRx_mainOwned s
  obtain ⟨ht, et⟩ | ⟨ht, et⟩ := serviceTx_cases s <;>
    obtain ⟨ht', et'⟩ | ⟨ht', et'⟩ := serviceTx_cases (serviceRx s) <;> rw [hb] at ht'
  · rw [et, et', hb, hbaud, serviceRx_setTx]
  · omega
  · omega
  · rw [et, et']
    exact (serviceRx_setTx s false true s.rbTx s.txreg).trans (by rw [← hb, ← hx]; rfl)

/-- Settles O27: the frames of the two services, of which only the pending ones run. -/
theorem handlerLeavesTheMainContext : Obligations.HandlerLeavesTheMainContext := by
  intro s he
  obtain ⟨r1, r2, r3, -, r5⟩ := serviceRx_tx s
  refine ⟨_, step_handler he, invokeHandler_mainOwned s, invokeHandler_wire s, ?_, invokeHandler_sched s,
    fun ht => ?_, fun hr => ?_⟩
  · rw [invokeHandler_eq]
    split_ifs <;> simp [serviceTx_rx, r5]
  · rw [invokeHandler_eq, ht]
    split <;> simp [r1, r2, r3, ht]
  · obtain ⟨t1, t2, t3⟩ := serviceTx_rx s
    simp only [invokeHandler_eq, hr, Bool.false_eq_true, if_false]
    split
    · exact ⟨t1, t3, t2⟩
    · exact ⟨rfl, rfl, rfl⟩

/-! ### RB.DEQ -/

theorem dequeue_setSeq (b : Buf) (s : State) (q : Seq) :
    dequeue b (s.setSeq q) = ((dequeue b s).1, (dequeue b s).2.setSeq q) := by
  unfold dequeue
  rw [ring_setSeq, setRing_setSeq]
  split <;> rfl

/-- RB.DEQ is `dequeue`, its byte or None the result (R122). -/
theorem exec_rbDeq (b : Buf) (s : State) :
    exec (.rbDeq b) s = .next ((commitResult (optionRet (dequeue b s).1) (dequeue b s).2).setSeq Seq.idle) := by
  refine congrArg Host.Outcome.next (runCommand_ret (.rbDeq b) fun q => ?_)
  simp only [microEffect, microRbDeq, atomic_dequeue, dequeue_setSeq]

/-- Settles O16, by the two cases of `dequeue`. -/
theorem dequeueTakesAtTail : Obligations.DequeueTakesAtTail := by
  intro b s
  dsimp only
  rw [exec_rbDeq, ne_eq, Ring.count_eq_zero]
  obtain ⟨hc, he⟩ | ⟨hc, he⟩ := dequeue_cases b s
  · rw [he]
    exact ⟨fun _ => rfl, fun h => absurd hc h⟩
  · rw [he]
    exact ⟨fun h => absurd h (by omega), fun _ => rfl⟩

end Sys2Proof.Machine
end

section
/-! Agent M's turn on a busy block (00_scope.md R14), by what its micro-step answers, the judgement of a response
(44_orchestration.md R221), and the statements on the micro-steps of SEQ.START, SEQ.STOP and SEQ.LOADCHK. -/

namespace Sys2Proof.Machine

/-! ### M's turn, by what the micro-step answers -/

/-- A last micro-step that changes the state and returns: the result is committed and SEQ becomes IDLE (R43). -/
theorem mainStep_returns {s u : State} {m : Micro} {r : Ret} (h : s.seq.todo = [m]) (hm : microEffect m s = ret r u) :
    mainStep s = (commitResult r u).setSeq Seq.idle := by
  rw [mainStep_cons s m [] h, hm]
  simp [ret, giveRet, setTodo, retire, setSeq_setSeq, commitResult_setSeq]

section
variable {s : State} {m : Micro} {rest : List Micro}

/-- The micro-step on M's turn, with its turn taken off the schedule. -/
theorem step_micro (hm : MainIsNext s) (h : s.seq.todo = m :: rest) :
    step s = .next (mainStep (s.setSched s.sched.tail)) :=
  step_busy hm (by simp [State.isIdle, h])

/-- A micro-step that goes on with something left to run. -/
theorem step_goOn {u : State} {next : List Micro} (hm : MainIsNext s) (h : s.seq.todo = m :: rest)
    (he : microEffect m (s.setSched s.sched.tail) = goOn next u) (hn : next ++ rest ≠ []) :
    step s = .next (setTodo (next ++ rest) u) := by
  rw [step_micro hm h, mainStep_busy (s.setSched s.sched.tail) m rest h (by rw [he]; exact hn), he]
  rfl

/-- A micro-step that goes on and changes nothing but what is left to run. -/
theorem step_movedOn {next : List Micro} (hm : MainIsNext s) (h : s.seq.todo = m :: rest)
    (he : microEffect m (s.setSched s.sched.tail) = goOn next (s.setSched s.sched.tail)) (hn : next ++ rest ≠ []) :
    step s = .next (movedOn (next ++ rest) s) :=
  step_goOn hm h he hn

/-- The `return` of a command. -/
theorem step_ret {u : State} {r : Ret} (hm : MainIsNext s) (h : s.seq.todo = [m])
    (he : microEffect m (s.setSched s.sched.tail) = ret r u) :
    step s = .next ((commitResult r u).setSeq Seq.idle) := by
  rw [step_micro hm h, mainStep_returns (s := s.setSched s.sched.tail) h he]

/-- A micro-step that returns a value and changes nothing else. -/
theorem step_returned {v : Byte} (hm : MainIsNext s) (h : s.seq.todo = [m])
    (he : microEffect m (s.setSched s.sched.tail) = ret (.value v) (s.setSched s.sched.tail)) :
    step s = .next (returned v s) :=
  step_ret hm h he

end

/-! ### The judgement of a response (R221) -/

theorem handedCount_eq {s : State} (h : HandsRespLen s) : handedCount s = s.respLen.toNat := by
  obtain ⟨n, hr, hn⟩ := h
  rw [← hn, handedCount, handed, hr]

theorem runsWithPower_iff (s : State) :
    (ack s.respLen.toNat s && pg s.respLen.toNat s) = true ↔ RunsWithPower s := by
  simp [ack, pg]
  tauto

theorem acksWithoutPower_iff (s : State) :
    (ack s.respLen.toNat s && !pg s.respLen.toNat s) = true ↔ AcksWithoutPower s := by
  by_cases h : 2 ≤ s.respLen.toNat <;> simp [ack, pg, h, AcksWithoutPower]

theorem confirmsStop_iff (s : State) :
    (valid s.respLen.toNat s && nack s.respLen.toNat s) = true ↔ ConfirmsStop s := by
  have h2 : 4 ≤ s.respLen.toNat → 2 ≤ s.respLen.toNat := by omega
  simp [valid, nack, Params.marker]
  tauto

theorem showsLoad_iff (s : State) : loaded s.respLen.toNat s = true ↔ ShowsLoad s := by
  have h2 : 4 ≤ s.respLen.toNat → 2 ≤ s.respLen.toNat := by omega
  simp [loaded, valid, ack, Params.marker]
  tauto

theorem loadPayload_eq (p : Vector Byte 2) (s : State) :
    loadPayload p s = s.setDbuf ((s.dbuf.setIfInBounds 0 p[0]).setIfInBounds 1 p[1]) := rfl

/-- Where the two payload bytes go (R108). -/
theorem payload_dbuf (b0 b1 : Byte) (d : Vector Byte 8) :
    ((d.setIfInBounds 0 b0).setIfInBounds 1 b1)[0] = b0 ∧ ((d.setIfInBounds 0 b0).setIfInBounds 1 b1)[1] = b1 ∧
      ((d.setIfInBounds 0 b0).setIfInBounds 1 b1).toList.drop 2 = d.toList.drop 2 := by
  refine ⟨by simp, by simp, ?_⟩
  rw [Vector.toList_setIfInBounds, Vector.toList_setIfInBounds, List.drop_set_of_lt (by decide),
    List.drop_set_of_lt (by decide)]

/-! ### SEQ.START -/

/-- Settles O43: the judgement is `RunsWithPower`, and the flags are the model's disjunctions. -/
theorem startJudgesAResponse : Obligations.StartJudgesAResponse := by
  intro s r p anyResp ackNoPg hm hr h
  have hj : microEffect (.startJudge r p anyResp ackNoPg) (s.setSched s.sched.tail) =
      if ack s.respLen.toNat s && pg s.respLen.toNat s then ret (.value 0) (s.setSched s.sched.tail)
      else goOn [.startGap r p (anyResp || responded s.respLen.toNat)
        (ackNoPg || (ack s.respLen.toNat s && !pg s.respLen.toNat s))] (s.setSched s.sched.tail) := by
    rw [← handedCount_eq hr]
    rfl
  refine ⟨fun hp => step_returned hm h (hj.trans (if_pos ((runsWithPower_iff s).mpr hp))), fun hp => ⟨_, _,
    step_movedOn hm h (hj.trans (if_neg (mt (runsWithPower_iff s).mp hp))) (by simp), ?_, ?_⟩⟩
  · simp [responded]
  · rw [Bool.or_eq_true, acksWithoutPower_iff]

/-- Settles O44: the two loop tests, below and at their bounds. -/
theorem startCountsItsPollsAndRounds : Obligations.StartCountsItsPollsAndRounds := by
  intro s r p anyResp ackNoPg hm
  refine ⟨fun h => ⟨fun hp => ?_, fun hp => ?_⟩, fun h => ⟨fun hr => ?_, fun hr => ?_⟩⟩
  · exact step_movedOn (next := seqStatusProg ++ [.startJudge r (p + 1) anyResp ackNoPg]) hm h
      (by simp [microEffect, microStartGap, hp]) (by simp)
  · exact step_movedOn (next := [.startNext r anyResp ackNoPg]) hm h
      (by simp [microEffect, microStartGap, Nat.not_lt.mpr hp]) (by simp)
  · exact step_movedOn (next := [.waitMs 250, .startRound (r + 1) anyResp ackNoPg]) hm h
      (by simp [microEffect, microStartNext, hr, Params.roundGapMs]) (by simp)
  · exact step_movedOn (next := [.startFail anyResp ackNoPg]) hm h
      (by simp [microEffect, microStartNext, Nat.not_lt.mpr hr]) (by simp)

/-- Settles O55: `startFailure`, by the two flags. -/
theorem startFailureIsClassified : Obligations.StartFailureIsClassified := by
  intro s anyResp ackNoPg hm h
  have hf := step_returned hm h (m := .startFail anyResp ackNoPg) rfl
  refine ⟨fun ha => ?_, fun ha hp => ?_, fun ha hp => ?_⟩
  · rw [hf, ha]
    rfl
  · rw [hf, ha, hp]
    rfl
  · rw [hf, ha, hp]
    rfl

/-- Settles O49: the payload goes to the two bytes, the rest of DBUF stays. -/
theorem sequencesSendTheirCommandFrames : Obligations.SequencesSendTheirCommandFrames := by
  intro s r anyResp ackNoPg c hm
  refine ⟨fun h => ?_, fun h => ⟨_, ?_, payload_dbuf 0x02 0x00 s.dbuf⟩, fun h => ?_,
    fun h => ⟨_, ?_, payload_dbuf 0x00 0x00 s.dbuf⟩⟩
  · exact step_movedOn (next := [.startRound 0 false false]) hm h rfl (by simp)
  · exact step_goOn (next := seqCmdProg ++ seqStatusProg ++ [.startJudge r 0 anyResp ackNoPg]) hm h rfl (by simp)
  · exact step_movedOn (next := [.stopTry c 0]) hm h rfl (by simp)
  · exact step_goOn (next := seqCmdProg ++ seqStatusProg ++ [.stopJudge c r 0]) hm h rfl (by simp)

/-! ### SEQ.STOP -/

/-- Settles O50: the judgement is `ConfirmsStop`, and then c chooses. -/
theorem stopJudgesAResponse : Obligations.StopJudgesAResponse := by
  intro s c n p hm
  refine ⟨fun hr h => ?_, fun h => ⟨fun hc => ?_, fun hc => ?_⟩⟩
  · have hj : microEffect (.stopJudge c n p) (s.setSched s.sched.tail) =
        if valid s.respLen.toNat s && nack s.respLen.toNat s then goOn [.stopConfirmed c] (s.setSched s.sched.tail)
        else goOn [.stopGap c n p] (s.setSched s.sched.tail) := by
      rw [← handedCount_eq hr]
      rfl
    exact ⟨fun hs => step_movedOn hm h (hj.trans (if_pos ((confirmsStop_iff s).mpr hs))) (by simp),
      fun hs => step_movedOn hm h (hj.trans (if_neg (mt (confirmsStop_iff s).mp hs))) (by simp)⟩
  · exact step_movedOn (next := [.cutHigh 0]) hm h (by rw [hc]; rfl) (by simp)
  · exact step_ret (r := .nothing) hm h (by rw [hc]; rfl)

/-- Settles O51: the two loop tests, below and at their bounds. -/
theorem stopCountsItsPollsAndTries : Obligations.StopCountsItsPollsAndTries := by
  intro s c n p hm
  refine ⟨fun h => ⟨fun hp => ?_, fun hp => ?_⟩, fun h => ⟨fun hn => ?_, fun hn => ?_⟩⟩
  · exact step_movedOn (next := seqStatusProg ++ [.stopJudge c n (p + 1)]) hm h
      (by simp [microEffect, microStopGap, hp]) (by simp)
  · exact step_movedOn (next := [.stopNext c n]) hm h
      (by simp [microEffect, microStopGap, Nat.not_lt.mpr hp]) (by simp)
  · exact step_movedOn (next := [.stopTry c (n + 1)]) hm h (by simp [microEffect, microStopNext, hn]) (by simp)
  · exact step_movedOn (next := [.stopUnconfirmed]) hm h
      (by simp [microEffect, microStopNext, Nat.not_lt.mpr hn]) (by simp)

/-- `readInput(AUX_RAIL)` with an answer given takes it off the list. -/
theorem readRail_cons {s : State} {a : Bool} {rest : List Bool} (h : s.rails = a :: rest) :
    readRail s = (a, s.setRails rest) := by
  simp [readRail, h]

/-- Settles O45: the first micro-step reads the rail and returns. -/
theorem stopWithoutTheRail : Obligations.StopWithoutTheRail := by
  intro c s rest h
  refine congrArg Host.Outcome.next (runCommand_ret (.seqStop c) (r := .nothing) (t := s.setRails rest) fun q => ?_)
  have hq : (s.setSeq q).rails = false :: rest := h
  simp only [microEffect, microStopRail, readRail_cons hq]
  rfl

/-! ### SEQ.LOADCHK -/

/-- Settles O54: the count of qualifying responses and the count of requests, below and at their bounds. -/
theorem loadCheckCountsToFive : Obligations.LoadCheckCountsToFive := by
  intro s cnt i hm
  refine ⟨fun h => ?_, fun hr h hcnt => ?_, fun h => ⟨fun hi => ?_, fun hi => ?_⟩⟩
  · exact step_movedOn (next := seqStatusProg ++ [.loadJudge 0 0]) hm h rfl (by simp)
  · have hj : microEffect (.loadJudge cnt i) (s.setSched s.sched.tail) =
        if loaded s.respLen.toNat s then
          if 5 ≤ cnt + 1 then ret (boolRet true) (s.setSched s.sched.tail)
          else goOn [.loadGap (cnt + 1) i] (s.setSched s.sched.tail)
        else goOn [.loadGap cnt i] (s.setSched s.sched.tail) := by
      rw [← handedCount_eq hr]
      rfl
    refine ⟨fun hl h4 => ?_, fun hl h4 => ?_, fun hl => ?_⟩
    · rw [if_pos ((showsLoad_iff s).mpr hl), if_pos (by omega)] at hj
      exact step_returned hm h hj
    · rw [if_pos ((showsLoad_iff s).mpr hl), if_neg (by omega)] at hj
      exact step_movedOn hm h hj (by simp)
    · rw [if_neg (mt (showsLoad_iff s).mp hl)] at hj
      exact step_movedOn hm h hj (by simp)
  · exact step_movedOn (next := seqStatusProg ++ [.loadJudge cnt (i + 1)]) hm h
      (by simp [microEffect, microLoadGap, hi, Params.loadPolls]) (by simp)
  · exact step_returned (v := 0) hm h
      (by simp [microEffect, microLoadGap, Nat.not_lt.mpr hi, Params.loadPolls, boolRet])

end Sys2Proof.Machine
end

section
/-! What a run keeps (00_scope.md R14 to R17): a sub-operation comes to its return, a relation kept by micro-steps
and interruptible points holds over a run, a relation kept by every agent holds over a step, and all that a step
can do. -/

namespace Sys2Proof.Machine

/-! ### A sub-operation comes to its return -/

/-- The run from `s` comes to the last micro-step before `rest`, after which the state is `u`, up to what is left to
run; what the sub-operation in front of `rest` handed over is `u.seq.ret` (R210). -/
def Returns (s : State) (rest : List Micro) (u : State) : Prop :=
  ∃ t m, Leads s t ∧ t.seq.todo = m :: rest ∧ microEffect m t = (u, [])

theorem Returns.of_leads {s t u : State} {rest : List Micro} (h : Leads s t) (r : Returns t rest u) :
    Returns s rest u := by
  obtain ⟨v, m, hl, hv, hm⟩ := r
  exact ⟨v, m, h.trans hl, hv, hm⟩

theorem Returns.last {s u : State} {m : Micro} {rest : List Micro} (h : s.seq.todo = m :: rest)
    (hm : microEffect m s = (u, [])) : Returns s rest u :=
  ⟨s, m, .refl s, h, hm⟩

/-- After the return the caller goes on, the interruptible point first. -/
theorem Returns.leads {s u : State} {rest : List Micro} (h : Returns s rest u) (hr : rest ≠ []) :
    Leads s (point (setTodo rest u)) := by
  obtain ⟨t, m, hl, ht, hm⟩ := h
  have hl' := Leads.micro ht (by rw [hm]; exact hr)
  rw [hm] at hl'
  exact hl.trans hl'

/-- Every list of micro-steps in front of `rest` comes to its return (R16). -/
theorem returns_exists {p rest : List Micro} (hp : p ≠ []) {s : State} (h : s.seq.todo = p ++ rest) :
    ∃ u, Returns s rest u := by
  obtain ⟨n, hn⟩ : ∃ n, progCost s.params p ≤ n := ⟨_, le_rfl⟩
  induction n generalizing p s with
  | zero =>
    obtain ⟨m, q, rfl⟩ := List.exists_cons_of_ne_nil hp
    have := cost_pos s.params m
    rw [progCost_cons] at hn
    omega
  | succ n ih =>
    obtain ⟨m, q, rfl⟩ := List.exists_cons_of_ne_nil hp
    have hc := microEffect_cost m s
    rw [progCost_cons] at hn
    by_cases hq : (microEffect m s).2 ++ q = []
    · obtain ⟨h1, rfl⟩ := List.append_eq_nil_iff.mp hq
      exact ⟨_, .last h (Prod.ext rfl h1)⟩
    · have hn' : (microEffect m s).2 ++ (q ++ rest) ≠ [] := by
        rw [← List.append_assoc]
        exact List.append_ne_nil_of_left_ne_nil hq _
      have hl := Leads.micro h hn'
      obtain ⟨u, hu⟩ := ih hq (s := point (setTodo ((microEffect m s).2 ++ (q ++ rest)) (microEffect m s).1))
        (by simp [setTodo]) (by rw [progCost_append]; simp; omega)
      exact ⟨u, .of_leads hl hu⟩

theorem progCost_leads {s t : State} (h : Leads s t) : progCost s.params t.seq.todo ≤ progCost s.params s.seq.todo := by
  induction h with
  | refl => exact le_rfl
  | @step s t h1 _ _ ih =>
    have hp := mainStep_progress s h1
    simp only [point_params, mainStep_params, point_seq] at ih
    omega

/-- The end of a command. -/
theorem runCommand_of_returns {i : Instr} {prog : List Micro} {s u : State} (hp : prog ≠ [])
    (h : Returns (accept i prog s) [] u) : runCommand i prog s = (commitResult u.seq.ret u).setSeq Seq.idle := by
  obtain ⟨t, m, hl, ht, hm⟩ := h
  rw [runCommand_of_leads hl hp ht (by rw [hm]), mainStep_cons t m [] ht, hm]
  simp [setTodo, retire, setSeq_setSeq, commitResult_setSeq]

/-- The meaning of a command is the run of its program. -/
theorem exec_command {i : Instr} (hc : isCommand i = true) (hwf : i.wellFormed = true) (s : State) :
    exec i s = .next (runCommand i (programOf i) s) := by
  cases i with
  | irqRx => cases hc
  | irqTx => cases hc
  | linData len p => exact if_pos hwf
  | linResp m => exact if_pos hwf
  | fxCmd id len => exact if_pos hwf
  | fxStatus id m => exact if_pos hwf
  | _ => rfl

theorem programOf_ne_nil {i : Instr} (hc : isCommand i = true) : programOf i ≠ [] := by
  simpa [isCommand] using hc

/-- Every command comes to its return, and what it hands over is its result. -/
theorem exec_returns {i : Instr} (hc : isCommand i = true) (hwf : i.wellFormed = true) (s : State) :
    ∃ u, Returns (accept i (programOf i) s) [] u ∧ exec i s = .next ((commitResult u.seq.ret u).setSeq Seq.idle) := by
  have hp := programOf_ne_nil hc
  obtain ⟨u, hu⟩ := returns_exists (p := programOf i) (rest := []) hp (s := accept i (programOf i) s)
    (by simp [accept_todo])
  exact ⟨u, hu, by rw [exec_command hc hwf, runCommand_of_returns hp hu]⟩

/-- Settles O56: the bound on the micro-steps left goes down. -/
theorem everyCommandReturns : Obligations.EveryCommandReturns := by
  intro i s hc hwf
  obtain ⟨u, -, he⟩ := exec_returns hc hwf s
  exact ⟨_, he, rfl⟩

/-! ### Relations kept over a run -/

/-- A relation that the micro-steps of a class, the interruptible points and SEQ keep, the class being closed under
what its micro-steps go on with. -/
structure RunRel (I : Micro → Prop) (R : State → State → Prop) : Prop where
  refl : ∀ s, R s s
  trans : ∀ s t u, R s t → R t u → R s u
  closed : ∀ m s, I m → ∀ x ∈ (microEffect m s).2, I x
  micro : ∀ m s, I m → R s (microEffect m s).1
  setSeq : ∀ s q, R s (s.setSeq q)
  point : ∀ s, s.seq.todo ≠ [] → R s (point s)

section
variable {I : Micro → Prop} {R : State → State → Prop}

theorem RunRel.leads (hR : RunRel I R) {s t : State} (h : Leads s t) {p rest : List Micro}
    (hs : s.seq.todo = p ++ rest) (hI : ∀ m ∈ p, I m) (hc : progCost s.params rest ≤ progCost s.params t.seq.todo) :
    R s t ∧ ∃ q, t.seq.todo = q ++ rest ∧ ∀ m ∈ q, I m := by
  induction h generalizing p with
  | refl s => exact ⟨hR.refl s, p, hs, hI⟩
  | @step s t h1 h2 hl ih =>
    cases p with
    | nil =>
      have hle := progCost_leads hl
      have hp := mainStep_progress s h1
      simp only [point_params, mainStep_params, point_seq] at hle
      rw [hs, List.nil_append] at hp
      omega
    | cons m p =>
      have hm := mainStep_todo s m (p ++ rest) hs
      obtain ⟨hr, q, hq, hqI⟩ := ih (p := (microEffect m s).2 ++ p) (by simp [hm]) (fun x hx => by
          rcases List.mem_append.mp hx with hx | hx
          · exact hR.closed m s (hI m (by simp)) x hx
          · exact hI x (by simp [hx])) (by simpa using hc)
      have hms : R s (mainStep s) := by
        rw [mainStep_busy s m (p ++ rest) hs (by rw [← hm]; exact h2)]
        exact hR.trans _ _ _ (hR.micro m s (hI m (by simp))) (hR.setSeq _ _)
      exact ⟨hR.trans _ _ _ (hR.trans _ _ _ hms (hR.point _ h2)) hr, q, hq, hqI⟩

theorem RunRel.returns (hR : RunRel I R) {s u : State} {p rest : List Micro} (h : Returns s rest u)
    (hs : s.seq.todo = p ++ rest) (hI : ∀ m ∈ p, I m) : R s u := by
  obtain ⟨t, m, hl, ht, hm⟩ := h
  obtain ⟨hr, q, hq, hqI⟩ := hR.leads hl hs hI (by rw [ht, progCost_cons]; omega)
  have hqm : q = [m] := List.append_cancel_right (hq.symm.trans (ht.trans rfl : t.seq.todo = [m] ++ rest))
  have := hR.micro m t (hqI m (by simp [hqm]))
  rw [hm] at this
  exact hR.trans _ _ _ hr this

/-- The relation over a whole command, up to the commit of its result. -/
theorem RunRel.exec (hR : RunRel I R) {i : Instr} (hc : isCommand i = true) (hwf : i.wellFormed = true)
    (hI : ∀ m ∈ programOf i, I m) (s : State) :
    ∃ u, Machine.exec i s = .next ((commitResult u.seq.ret u).setSeq Seq.idle) ∧ R s u := by
  obtain ⟨u, hu, he⟩ := exec_returns hc hwf s
  exact ⟨u, he, hR.trans _ _ _ (hR.setSeq s _) (hR.returns (p := programOf i) hu (by simp) hI)⟩

/-- The relation over a sub-operation that ends in front of `rest`. -/
theorem RunRel.segment (hR : RunRel I R) {s : State} {p rest : List Micro} (hs : s.seq.todo = p ++ rest)
    (hI : ∀ m ∈ p, I m) (hr : rest ≠ []) : ∃ t, Leads s t ∧ t.seq.todo = rest ∧ R s t := by
  by_cases hp : p = []
  · exact ⟨s, .refl s, by simpa [hp] using hs, hR.refl s⟩
  · obtain ⟨u, hu⟩ := returns_exists hp hs
    have hb : (setTodo rest u).seq.todo ≠ [] := hr
    exact ⟨_, hu.leads hr, by simp [setTodo], hR.trans _ _ _ (hR.returns hu hs hI)
      (hR.trans _ _ _ (hR.setSeq u _) (hR.point _ hb))⟩

end

/-! ### Relations kept by every agent -/

/-- A relation that every move of every agent keeps. -/
structure MachineRel (R : State → State → Prop) : Prop where
  refl : ∀ s, R s s
  trans : ∀ s t u, R s t → R t u → R s u
  micro : ∀ m s, R s (microEffect m s).1
  handler : ∀ s, handlerEnabled s = true → R s (invokeHandler s)
  turn : ∀ t s, R s (applyTurn t s)
  setSeq : ∀ s q, R s (s.setSeq q)
  setSched : ∀ s ts, R s (s.setSched ts)
  setCmd : ∀ s c, R s (s.setCmd c)
  commit : ∀ s r, R s (commitResult r s)

theorem MachineRel.runRel {R : State → State → Prop} (hR : MachineRel R) : RunRel (fun _ => True) R where
  refl := hR.refl
  trans := hR.trans
  closed _ _ _ _ _ := trivial
  micro m s _ := hR.micro m s
  setSeq := hR.setSeq
  point s hb := point_induction (R s) (fun _ ts h => hR.trans _ _ _ h (hR.setSched _ ts))
    (fun t he h => hR.trans _ _ _ h (hR.handler t he)) (fun _ u _ h => hR.trans _ _ _ h (hR.turn u _)) s hb (hR.refl s)

theorem MachineRel.mainStep {R : State → State → Prop} (hR : MachineRel R) (s : State) : R s (mainStep s) := by
  cases h : s.seq.todo with
  | nil =>
    have he : Machine.mainStep s = s := by simp [Machine.mainStep, h]
    rw [he]
    exact hR.refl s
  | cons m rest =>
    rw [mainStep_cons s m rest h, retire]
    have hm := hR.trans _ _ _ (hR.micro m s) (hR.setSeq _ { (microEffect m s).1.seq with
      todo := (microEffect m s).2 ++ rest })
    split
    · exact hR.trans _ _ _ (hR.trans _ _ _ hm (hR.commit _ _)) (hR.setSeq _ _)
    · exact hm

/-! ### All that a step can do -/

/-- The moves of a step that answers a next state. -/
theorem step_cases {s t : State} (h : step s = .next t) :
    (handlerEnabled s = true ∧ t = invokeHandler s) ∨
    (handlerEnabled s = false ∧ ∃ u ts, u ≠ .main ∧ s.sched = u :: ts ∧ t = applyTurn u (s.setSched ts)) ∨
    (MainIsNext s ∧ s.isIdle = false ∧ t = mainStep (s.setSched s.sched.tail)) ∨
    (MainIsNext s ∧ s.isIdle = true ∧ ∃ w i, s.cmd = some w ∧ decode (.command w) = .ok i ∧
      exec i ((s.setCmd none).setSched s.sched.tail) = .next t) ∨
    (MainIsNext s ∧ s.isIdle = true ∧ s.cmd = none ∧
      t = if s.sched = [] then txdone s else s.setSched s.sched.tail) := by
  cases he : handlerEnabled s with
  | true => exact .inl ⟨rfl, (Host.Outcome.next.inj ((step_handler he).symm.trans h)).symm⟩
  | false =>
    refine .inr ?_
    by_cases hm : s.sched = [] ∨ ∃ ts, s.sched = .main :: ts
    · refine .inr ?_
      have hmn : MainIsNext s := ⟨he, hm⟩
      cases hi : s.isIdle with
      | false => exact .inl ⟨hmn, rfl, (Host.Outcome.next.inj ((step_busy hmn hi).symm.trans h)).symm⟩
      | true =>
        refine .inr ?_
        cases hc : s.cmd with
        | some w =>
          rw [step_command hmn hi hc] at h
          cases hd : decode (.command w) with
          | ok i => exact .inl ⟨hmn, rfl, w, i, rfl, hd, by simpa [hd] using h⟩
          | error why => simp [hd] at h
        | none =>
          refine .inr ⟨hmn, rfl, rfl, ?_⟩
          obtain hs | ⟨ts, hs⟩ := hm
          · have hu : step s = .next (txdone s) := by simp [step, he, hs, unscheduledTurn, hi, hc]
            rw [if_pos hs]
            exact (Host.Outcome.next.inj (hu.symm.trans h)).symm
          · have hu : step s = .next (s.setSched ts) := by
              have hi' : (s.setSched ts).isIdle = true := hi
              simp [step, he, hs, mainTurn, hi', fetched, hc]
            rw [if_neg (by simp [hs]), hs]
            exact (Host.Outcome.next.inj (hu.symm.trans h)).symm
    · have hs : s.sched ≠ [] := fun hs => hm (.inl hs)
      obtain ⟨u, ts, hs⟩ := List.exists_cons_of_ne_nil hs
      have hu : u ≠ .main := fun hu => hm (.inr ⟨ts, hu ▸ hs⟩)
      exact .inl ⟨rfl, u, ts, hu, hs, (Host.Outcome.next.inj ((step_turn he hs hu).symm.trans h)).symm⟩

/-- A relation that every agent's move keeps holds over every step. -/
theorem MachineRel.step {R : State → State → Prop} (hR : MachineRel R) {s t : State} (h : Machine.step s = .next t) :
    R s t := by
  obtain ⟨he, rfl⟩ | ⟨-, u, ts, -, -, rfl⟩ | ⟨-, -, rfl⟩ | ⟨-, -, w, i, -, hd, hx⟩ | ⟨-, -, -, rfl⟩ := step_cases h
  · exact hR.handler s he
  · exact hR.trans _ _ _ (hR.setSched s ts) (hR.turn u _)
  · exact hR.trans _ _ _ (hR.setSched s _) (hR.mainStep _)
  · obtain ⟨u, hu, hr⟩ := hR.runRel.exec (decode_command_isCommand hd) (decode_command_wellFormed hd)
      (fun _ _ => trivial) ((s.setCmd none).setSched s.sched.tail)
    obtain rfl := Host.Outcome.next.inj (hu.symm.trans hx)
    exact hR.trans _ _ _ (hR.trans _ _ _ (hR.setCmd s none) (hR.setSched _ _))
      (hR.trans _ _ _ hr (hR.trans _ _ _ (hR.commit u _) (hR.setSeq _ _)))
  · split
    · exact hR.turn .txdone s
    · exact hR.setSched s _

end Sys2Proof.Machine
end

section
/-! Which registers a micro-step may write (10_state.md R20, 20_memory.md R66): the micro-steps by the part of the
programs they belong to, what each part goes on with and what it writes, and the frame of a whole run. -/

namespace Sys2Proof.Machine

/-! ### Parts of the programs -/

/-- The parts of the command programs. -/
inductive Part where
  /-- RB.ENQ, RB.DEQ, RB.LEN. -/
  | ring
  /-- The look of SL.TRYREAD. -/
  | tryRead
  /-- SL.RXIE. -/
  | rxie
  /-- SL.SEND. -/
  | send
  /-- LIN.WAKEUP. -/
  | wake
  /-- LIN.HEADER, its calls of SL.SEND apart. -/
  | header
  /-- LIN.DATA, its calls of SL.SEND apart. -/
  | data
  /-- LIN.RESP, its dequeues apart. -/
  | resp
  /-- The dequeues of SL.TRYREAD and LIN.RESP. -/
  | take
  /-- The waits of the sequences. -/
  | wait
  /-- SEQ.START. -/
  | start
  /-- SEQ.STOP up to the choice of step 10. -/
  | stop
  /-- The power-cut pulses of SEQ.STOP. -/
  | cut
  /-- SEQ.LOADCHK. -/
  | load
deriving DecidableEq

def Micro.part : Micro → Part
  | .rbEnq _ _ | .rbDeq _ | .rbLen _ => .ring
  | .tryTest => .tryRead
  | .tryTake | .respTake _ _ => .take
  | .setRxie _ => .rxie
  | .sendEnq _ | .sendKick | .sendTest | .sendWait => .send
  | .setLine _ | .holdLine _ _ | .lineToUart => .wake
  | .drainTest _ | .drainWait _ | .setBaud _ | .headerPid _ | .returnValue _ => .header
  | .dataInit _ _ | .dataInitHanded _ | .dataTest _ _ | .dataByte _ _ | .dataAdd _ _ _ | .dataFold => .data
  | .respInit _ | .respPoll _ _ | .respWait _ _ | .respAgain _ _ | .respLimit _ _ | .respLook _ _
  | .respPause _ _ | .respDone _ => .resp
  | .waitMs _ => .wait
  | .startBegin | .startRail _ | .startWake _ | .startFlags | .startRound _ _ _ | .startJudge _ _ _ _
  | .startGap _ _ _ _ | .startNext _ _ _ | .startFail _ _ => .start
  | .stopRail _ | .stopBegin _ | .stopTry _ _ | .stopJudge _ _ _ | .stopGap _ _ _ | .stopNext _ _ | .stopUnconfirmed
  | .stopDropRead _ | .stopDropWait _ | .stopConfirmed _ => .stop
  | .cutHigh _ | .cutHold _ | .cutLow _ | .cutRead _ | .cutGap => .cut
  | .loadBegin | .loadJudge _ _ | .loadGap _ _ => .load

/-- The parts a part goes on with. -/
def Part.calls : Part → List Part
  | .ring | .rxie | .wake | .wait => []
  | .tryRead => [.take]
  | .send => [.send]
  | .header => [.header, .send]
  | .data => [.data, .send]
  | .resp => [.resp, .take]
  | .take => [.resp]
  | .start => [.start, .wake, .header, .send, .data, .resp, .wait]
  | .stop => [.stop, .header, .send, .data, .resp, .cut]
  | .cut => [.cut]
  | .load => [.load, .header, .send, .resp]

theorem microEffect_calls (m : Micro) (s : State) : ∀ x ∈ (microEffect m s).2, x.part ∈ m.part.calls := by
  cases m with
  | cutRead j =>
    simp only [microEffect, microCutRead]
    split_ifs <;> simp [goOn, ret, Micro.part, Part.calls]
  | _ =>
    simp only [microEffect, microRbEnq, microRbDeq, microRbLen, microTryTest, microTryTake, microSetRxie,
      microSendEnq, microSendKick, microSendTest, microSendWait, microSetLine, microHoldLine, microLineToUart,
      microDrainTest, microDrainWait, microSetBaud, microHeaderPid, microReturnValue, microDataInit,
      microDataTest, microDataByte, microDataAdd, microDataFold, microRespInit, microRespPoll, microRespWait,
      microRespAgain, microRespLimit, microRespLook, microRespTake, microRespPause, microRespDone,
      microStartBegin, microStartRail, microStartWake, microStartFlags, microStartRound, microStartJudge,
      microStartGap, microStartNext, microStartFail, microStopRail, microStopBegin, microStopTry,
      microStopJudge, microStopGap, microStopNext, microStopUnconfirmed, microStopDropRead, microStopDropWait,
      microStopConfirmed, microCutHigh, microCutHold, microCutLow, microCutGap, microLoadBegin,
      microLoadJudge, microLoadGap, microWaitMs, goOn, ret] <;>
    (try split_ifs) <;>
    simp [Micro.part, Part.calls, sendProg, wakeupProg, seqCmdProg, seqStatusProg, cmdProg, statusProg, headerProg,
      drainProg, respProg]

/-- A list of parts closed under what they go on with. -/
abbrev Closed (ps : List Part) : Prop := ∀ p ∈ ps, ∀ q ∈ p.calls, q ∈ ps

/-! ### What each part writes -/

/-- The registers of the block and the model's own lists, but for SEQ; GIE, RESULT, RESULT_VALID, CMD and the open
parameters, which no micro-step writes (R43: the results are written by the last return), have no name here. -/
inductive Reg where
  | rbRx | rbTx | txIdle | rxie | baud | lineMode | txreg | rxreg | txirq | rxirq | csum | resp | respLen | dbuf
  | powerCut | wire | pcutTrace | sched | rails | freeCtr
deriving DecidableEq

/-- The registers that the micro-steps of a part write. -/
def Part.writes : Part → List Reg
  | .ring => [.rbRx, .rbTx]
  | .rxie => [.rxie]
  | .send => [.rbTx, .txIdle, .txirq]
  | .wake => [.lineMode, .wire]
  | .header => [.baud]
  | .data => [.csum]
  | .resp => [.resp, .respLen, .freeCtr]
  | .take => [.rbRx, .resp]
  | .tryRead | .wait | .load => []
  | .start | .stop => [.dbuf, .rails, .freeCtr]
  | .cut => [.powerCut, .pcutTrace, .rails, .freeCtr]

/-- The registers that the other agents and the handler write at an interruptible point (R256). -/
def linkRegs : List Reg := [.rbRx, .rbTx, .txIdle, .txreg, .rxreg, .txirq, .rxirq, .wire, .sched]

/-- Between `s` and `t` only SEQ and the registers of `w` change. -/
structure Writes (w : List Reg) (s t : State) : Prop where
  gie : t.gie = s.gie
  result : t.result = s.result
  resultValid : t.resultValid = s.resultValid
  cmd : t.cmd = s.cmd
  params : t.params = s.params
  rbRx : .rbRx ∉ w → t.rbRx = s.rbRx
  rbTx : .rbTx ∉ w → t.rbTx = s.rbTx
  txIdle : .txIdle ∉ w → t.txIdle = s.txIdle
  rxie : .rxie ∉ w → t.rxie = s.rxie
  baud : .baud ∉ w → t.baud = s.baud
  lineMode : .lineMode ∉ w → t.lineMode = s.lineMode
  txreg : .txreg ∉ w → t.txreg = s.txreg
  rxreg : .rxreg ∉ w → t.rxreg = s.rxreg
  txirq : .txirq ∉ w → t.txirq = s.txirq
  rxirq : .rxirq ∉ w → t.rxirq = s.rxirq
  csum : .csum ∉ w → t.csum = s.csum
  resp : .resp ∉ w → t.resp = s.resp
  respLen : .respLen ∉ w → t.respLen = s.respLen
  dbuf : .dbuf ∉ w → t.dbuf = s.dbuf
  powerCut : .powerCut ∉ w → t.powerCut = s.powerCut
  wire : .wire ∉ w → t.wire = s.wire
  pcutTrace : .pcutTrace ∉ w → t.pcutTrace = s.pcutTrace
  sched : .sched ∉ w → t.sched = s.sched
  rails : .rails ∉ w → t.rails = s.rails
  freeCtr : .freeCtr ∉ w → t.freeCtr = s.freeCtr

theorem enqueue_eq_ite (b : Buf) (v : Byte) (s : State) :
    (enqueue b v s).2 = if (s.ring b).isFull then s else s.setRing b ((s.ring b).push v) := by
  unfold enqueue
  split <;> rfl

theorem dequeue_eq_ite (b : Buf) (s : State) :
    (dequeue b s).2 = if (s.ring b).isEmpty then s else s.setRing b (s.ring b).pop := by
  unfold dequeue
  split <;> rfl

theorem readRail_eq_ite (s : State) :
    (readRail s).2 = if s.rails = [] then s.setFreeCtr (s.freeCtr + 1) else s.setRails s.rails.tail := by
  unfold readRail
  split <;> simp_all

/-- A micro-step writes what its part writes. -/
theorem microEffect_writes (m : Micro) (s : State) : Writes m.part.writes s (microEffect m s).1 := by
  cases m with
  | rbEnq b v =>
    cases b <;> simp only [microEffect, microRbEnq, ret, giveRet, atomic_enqueue, enqueue_eq_ite] <;> split <;>
      constructor <;> simp [Micro.part, Part.writes]
  | rbDeq b =>
    cases b <;> simp only [microEffect, microRbDeq, ret, giveRet, atomic_dequeue, dequeue_eq_ite] <;> split <;>
      constructor <;> simp [Micro.part, Part.writes]
  | _ =>
    simp only [microEffect, microRbLen, microTryTest, microTryTake, microSetRxie,
      microSendEnq, microSendKick, microSendTest, microSendWait, microSetLine, microHoldLine, microLineToUart,
      microDrainTest, microDrainWait, microSetBaud, microHeaderPid, microReturnValue, microDataInit,
      microDataTest, microDataByte, microDataAdd, microDataFold, microRespInit, microRespPoll, microRespWait,
      microRespAgain, microRespLimit, microRespLook, microRespTake, microRespPause, microRespDone,
      microStartBegin, microStartRail, microStartWake, microStartFlags, microStartRound, microStartJudge,
      microStartGap, microStartNext, microStartFail, microStopRail, microStopBegin, microStopTry,
      microStopJudge, microStopGap, microStopNext, microStopUnconfirmed, microStopDropRead, microStopDropWait,
      microStopConfirmed, microCutHigh, microCutHold, microCutLow, microCutRead, microCutGap, microLoadBegin,
      microLoadJudge, microLoadGap, microWaitMs, goOn, ret, giveRet, kick, forceTxIrq, setRespCount, releaseTail,
      loadPayload, driveLine, setBaudRate, setPowerCutPin, atomic_enqueue, atomic_dequeue, waitMs_eq, enqueue_eq_ite,
      dequeue_eq_ite, readRail_eq_ite, memWrite] <;>
    (try split_ifs) <;> constructor <;> simp [Micro.part, Part.writes]

theorem Writes.refl (w : List Reg) (s : State) : Writes w s s := by constructor <;> simp

theorem Writes.setSeq (w : List Reg) (s : State) (q : Seq) : Writes w s (s.setSeq q) := by constructor <;> simp

theorem Writes.trans {w : List Reg} {s t u : State} (h : Writes w s t) (k : Writes w t u) : Writes w s u where
  gie := k.gie.trans h.gie
  result := k.result.trans h.result
  resultValid := k.resultValid.trans h.resultValid
  cmd := k.cmd.trans h.cmd
  params := k.params.trans h.params
  rbRx hw := (k.rbRx hw).trans (h.rbRx hw)
  rbTx hw := (k.rbTx hw).trans (h.rbTx hw)
  txIdle hw := (k.txIdle hw).trans (h.txIdle hw)
  rxie hw := (k.rxie hw).trans (h.rxie hw)
  baud hw := (k.baud hw).trans (h.baud hw)
  lineMode hw := (k.lineMode hw).trans (h.lineMode hw)
  txreg hw := (k.txreg hw).trans (h.txreg hw)
  rxreg hw := (k.rxreg hw).trans (h.rxreg hw)
  txirq hw := (k.txirq hw).trans (h.txirq hw)
  rxirq hw := (k.rxirq hw).trans (h.rxirq hw)
  csum hw := (k.csum hw).trans (h.csum hw)
  resp hw := (k.resp hw).trans (h.resp hw)
  respLen hw := (k.respLen hw).trans (h.respLen hw)
  dbuf hw := (k.dbuf hw).trans (h.dbuf hw)
  powerCut hw := (k.powerCut hw).trans (h.powerCut hw)
  wire hw := (k.wire hw).trans (h.wire hw)
  pcutTrace hw := (k.pcutTrace hw).trans (h.pcutTrace hw)
  sched hw := (k.sched hw).trans (h.sched hw)
  rails hw := (k.rails hw).trans (h.rails hw)
  freeCtr hw := (k.freeCtr hw).trans (h.freeCtr hw)

theorem Writes.mono {w w' : List Reg} (hw : w ⊆ w') {s t : State} (h : Writes w s t) : Writes w' s t where
  gie := h.gie
  result := h.result
  resultValid := h.resultValid
  cmd := h.cmd
  params := h.params
  rbRx hn := h.rbRx (mt (@hw _) hn)
  rbTx hn := h.rbTx (mt (@hw _) hn)
  txIdle hn := h.txIdle (mt (@hw _) hn)
  rxie hn := h.rxie (mt (@hw _) hn)
  baud hn := h.baud (mt (@hw _) hn)
  lineMode hn := h.lineMode (mt (@hw _) hn)
  txreg hn := h.txreg (mt (@hw _) hn)
  rxreg hn := h.rxreg (mt (@hw _) hn)
  txirq hn := h.txirq (mt (@hw _) hn)
  rxirq hn := h.rxirq (mt (@hw _) hn)
  csum hn := h.csum (mt (@hw _) hn)
  resp hn := h.resp (mt (@hw _) hn)
  respLen hn := h.respLen (mt (@hw _) hn)
  dbuf hn := h.dbuf (mt (@hw _) hn)
  powerCut hn := h.powerCut (mt (@hw _) hn)
  wire hn := h.wire (mt (@hw _) hn)
  pcutTrace hn := h.pcutTrace (mt (@hw _) hn)
  sched hn := h.sched (mt (@hw _) hn)
  rails hn := h.rails (mt (@hw _) hn)
  freeCtr hn := h.freeCtr (mt (@hw _) hn)

/-- An interruptible point writes the registers of the link (R254, R256). -/
theorem point_writes (s : State) (hb : s.seq.todo ≠ []) : Writes linkRegs s (point s) := by
  obtain ⟨h1, h2, h3, h4, h5, h6, h7, h8, h9, h10, h11, h12, h13, h14, h15, h16, h17⟩ := point_mainOwned s hb
  constructor <;> simp [*, linkRegs]

/-! ### The frame of a run -/

/-- A micro-step of one of these parts. -/
abbrev Micro.Of (ps : List Part) (m : Micro) : Prop := m.part ∈ ps

/-- A relation that the micro-steps of some parts and the interruptible points keep. -/
theorem RunRel.ofParts {ps : List Part} (hc : Closed ps) {R : State → State → Prop} (hrefl : ∀ s, R s s)
    (htrans : ∀ s t u, R s t → R t u → R s u) (hmicro : ∀ m s, m.Of ps → R s (microEffect m s).1)
    (hseq : ∀ s q, R s (s.setSeq q)) (hpoint : ∀ s, s.seq.todo ≠ [] → R s (Machine.point s)) : RunRel (Micro.Of ps) R :=
  ⟨hrefl, htrans, fun m s hm x hx => hc _ hm _ (microEffect_calls m s x hx), hmicro, hseq, hpoint⟩

/-- The frame of a run of some parts: the registers of the link and what the parts write. -/
theorem writes_runRel {ps : List Part} {w : List Reg} (hc : Closed ps) (hw : ∀ p ∈ ps, p.writes ⊆ w)
    (hl : linkRegs ⊆ w) : RunRel (Micro.Of ps) (Writes w) :=
  .ofParts hc (Writes.refl w) (fun _ _ _ => Writes.trans) (fun m s hm => (microEffect_writes m s).mono (hw _ hm))
    (Writes.setSeq w) (fun s hb => (point_writes s hb).mono hl)

end Sys2Proof.Machine
end

section
/-! The whole machine: what every step keeps of the traces, the link and the bounds (10_state.md R22 to R45, 20_memory.md
R65), the pins at rest (42_linmaster.md R171, R173, 44_orchestration.md R228), and their statements. -/

namespace Sys2Proof.Machine

/-! ### The link (R35, R76, R153) -/

theorem linkOk_congr {s t : State} (h1 : t.rbRx = s.rbRx) (h2 : t.rbTx = s.rbTx) (h3 : t.txIdle = s.txIdle)
    (h4 : t.txreg = s.txreg) (h5 : t.txirq = s.txirq) (h6 : t.rxirq = s.rxirq) (h7 : t.rxreg = s.rxreg)
    (h : LinkOk s) : LinkOk t := by
  simpa only [LinkOk, TxOk, RxOk, h1, h2, h3, h4, h5, h6, h7] using h

theorem enqueue_linkOk (b : Buf) (v : Byte) (s : State) (h : LinkOk s) : LinkOk (enqueue b v s).2 := by
  obtain ⟨hrx, htx, hrest⟩ := h
  obtain ⟨-, e⟩ | ⟨hc, e⟩ := enqueue_cases b v s <;> rw [e]
  · exact ⟨hrx, htx, hrest⟩
  · cases b with
    | rx =>
      have hle : s.rbRx.count.toNat ≤ 8 := hrx.1
      rw [State.ring_rx] at hc
      exact ⟨s.rbRx.push_wf v hrx (by omega), htx, hrest⟩
    | tx =>
      have hle : s.rbTx.count.toNat ≤ 8 := htx.1
      rw [State.ring_tx] at hc
      exact ⟨hrx, s.rbTx.push_wf v htx (by omega), hrest⟩

theorem dequeue_linkOk (b : Buf) (s : State) (h : LinkOk s) : LinkOk (dequeue b s).2 := by
  obtain ⟨hrx, htx, hrest⟩ := h
  obtain ⟨-, e⟩ | ⟨hc, e⟩ := dequeue_cases b s <;> rw [e]
  · exact ⟨hrx, htx, hrest⟩
  · cases b with
    | rx => exact ⟨s.rbRx.pop_wf hrx hc, htx, hrest⟩
    | tx => exact ⟨hrx, s.rbTx.pop_wf htx hc, hrest⟩

/-- Only RB.ENQ, RB.DEQ, SL.SEND and the dequeues of RB[RX] touch the link; the wire apart. -/
theorem microEffect_link {m : Micro} (hm : m.part ∉ [.ring, .take, .send]) (s : State) :
    (microEffect m s).1.rbRx = s.rbRx ∧ (microEffect m s).1.rbTx = s.rbTx ∧ (microEffect m s).1.txIdle = s.txIdle ∧
      (microEffect m s).1.txreg = s.txreg ∧ (microEffect m s).1.txirq = s.txirq ∧
      (microEffect m s).1.rxirq = s.rxirq ∧ (microEffect m s).1.rxreg = s.rxreg := by
  have h := microEffect_writes m s
  have hp : ∀ p, p ∉ [Part.ring, .take, .send] → Reg.rbRx ∉ p.writes ∧ .rbTx ∉ p.writes ∧ .txIdle ∉ p.writes ∧
      .txreg ∉ p.writes ∧ .txirq ∉ p.writes ∧ .rxirq ∉ p.writes ∧ .rxreg ∉ p.writes := by
    intro p
    cases p <;> decide
  obtain ⟨h1, h2, h3, h4, h5, h6, h7⟩ := hp _ hm
  exact ⟨h.rbRx h1, h.rbTx h2, h.txIdle h3, h.txreg h4, h.txirq h5, h.rxirq h6, h.rxreg h7⟩

theorem microEffect_linkOk (m : Micro) (s : State) (h : LinkOk s) : LinkOk (microEffect m s).1 := by
  by_cases hm : m.part ∈ [Part.ring, .take, .send]
  · cases m <;> simp [Micro.part] at hm
    case rbEnq b v =>
      simp only [microEffect, microRbEnq, atomic_enqueue]
      exact enqueue_linkOk b v s h
    case rbDeq b =>
      simp only [microEffect, microRbDeq, atomic_dequeue]
      exact dequeue_linkOk b s h
    case rbLen b => exact h
    case tryTake =>
      simp only [microEffect, microTryTake, atomic_dequeue]
      exact dequeue_linkOk .rx s h
    case sendEnq v =>
      simp only [microEffect, microSendEnq, atomic_enqueue]
      exact enqueue_linkOk .tx v s h
    case sendKick => exact kick_linkOk s h
    case sendTest =>
      simp only [microEffect, microSendTest]
      split <;> exact h
    case sendWait => exact h
    case respTake n k =>
      simp only [microEffect, microRespTake, atomic_dequeue]
      exact dequeue_linkOk .rx s h
  · obtain ⟨h1, h2, h3, h4, h5, h6, h7⟩ := microEffect_link hm s
    exact linkOk_congr h1 h2 h3 h4 h5 h6 h7 h

theorem applyTurn_gie (t : Turn) (s : State) : (applyTurn t s).gie = s.gie := by
  cases t <;> simp only [applyTurn, txdone, rxArrive, hostDbufWrite, hostIssue, memWrite] <;> split_ifs <;> rfl

theorem commitResult_linkOk (r : Ret) (s : State) (h : LinkOk s) : LinkOk (commitResult r s) := by cases r <;> exact h

/-- Every agent keeps the link well formed, and GIE outside an atomic block. -/
theorem linkOk_machineRel : MachineRel fun s t => (LinkOk s → LinkOk t) ∧ t.gie = s.gie where
  refl _ := ⟨id, rfl⟩
  trans _ _ _ h k := ⟨k.1 ∘ h.1, k.2.trans h.2⟩
  micro m s := ⟨microEffect_linkOk m s, (microEffect_writes m s).gie⟩
  handler s _ := ⟨invokeHandler_linkOk s, by
    obtain ⟨-, hg, -⟩ := invokeHandler_mainOwned s
    exact hg⟩
  turn t s := ⟨applyTurn_linkOk t s, applyTurn_gie t s⟩
  setSeq _ _ := ⟨id, rfl⟩
  setSched _ _ := ⟨id, rfl⟩
  setCmd _ _ := ⟨id, rfl⟩
  commit s r := ⟨commitResult_linkOk r s, by cases r <;> rfl⟩

/-! ### RESP_LEN and the locals (R45, R65) -/

/-- A micro-step within bounds goes on with micro-steps within bounds. -/
theorem microEffect_inBounds (m : Micro) (s : State) (h : m.inBounds = true) :
    (microEffect m s).2.all Micro.inBounds = true := by
  cases m <;>
    simp only [microEffect, microRbEnq, microRbDeq, microRbLen, microTryTest, microTryTake, microSetRxie,
      microSendEnq, microSendKick, microSendTest, microSendWait, microSetLine, microHoldLine, microLineToUart,
      microDrainTest, microDrainWait, microSetBaud, microHeaderPid, microReturnValue, microDataInit,
      microDataTest, microDataByte, microDataAdd, microDataFold, microRespInit, microRespPoll, microRespWait,
      microRespAgain, microRespLimit, microRespLook, microRespTake, microRespPause, microRespDone,
      microStartBegin, microStartRail, microStartWake, microStartFlags, microStartRound, microStartJudge,
      microStartGap, microStartNext, microStartFail, microStopRail, microStopBegin, microStopTry,
      microStopJudge, microStopGap, microStopNext, microStopUnconfirmed, microStopDropRead, microStopDropWait,
      microStopConfirmed, microCutHigh, microCutHold, microCutLow, microCutRead, microCutGap, microLoadBegin,
      microLoadJudge, microLoadGap, microWaitMs, goOn, ret] <;>
    (try split_ifs) <;>
    simp_all [Micro.inBounds, sendProg, wakeupProg, seqCmdProg, seqStatusProg, cmdProg, statusProg, headerProg,
      drainProg, respProg, Params.payloadLen, Params.respMaxLen] <;>
    omega

theorem microEffect_respLen (m : Micro) (s : State) (h : m.inBounds = true) (hr : s.respLen.toNat ≤ 9) :
    (microEffect m s).1.respLen.toNat ≤ 9 := by
  by_cases hm : m.part = .resp
  · cases m <;> simp [Micro.part] at hm
    case respAgain k n =>
      simp only [microEffect, microRespAgain]
      split
      · exact hr
      · exact Nat.zero_le 9
    case respDone n =>
      have hn : n ≤ 9 := of_decide_eq_true h
      have : (BitVec.ofNat 4 n).toNat = n := by rw [BitVec.toNat_ofNat, Nat.mod_eq_of_lt (by omega)]
      simpa [microEffect, microRespDone, ret, giveRet, releaseTail, setRespCount] using by omega
    all_goals
      simp only [microEffect, microRespPoll, microRespLimit, microRespLook]
      try split
      all_goals exact hr
  · have hp : ∀ p, p ≠ Part.resp → Reg.respLen ∉ p.writes := by
      intro p
      cases p <;> decide
    rwa [(microEffect_writes m s).respLen (hp _ hm)]

/-- What the machine invariant adds to the link, on a busy block. -/
abbrev InBounds (s : State) : Prop := s.respLen.toNat ≤ 9 ∧ s.seq.todo.all Micro.inBounds = true

@[simp] theorem commitResult_respLen (r : Ret) (s : State) : (commitResult r s).respLen = s.respLen := by
  cases r <;> rfl

theorem retire_respLen (s : State) : (retire s).respLen = s.respLen := by
  unfold retire
  split <;> simp

theorem mainStep_inBounds (s : State) (hb : s.seq.todo ≠ []) (h : InBounds s) : InBounds (mainStep s) := by
  obtain ⟨hr, ht⟩ := h
  obtain ⟨m, rest, hm⟩ := List.exists_cons_of_ne_nil hb
  rw [hm, List.all_cons, Bool.and_eq_true] at ht
  refine ⟨?_, ?_⟩
  · rw [mainStep_cons s m rest hm, retire_respLen]
    exact microEffect_respLen m s ht.1 hr
  · rw [mainStep_todo s m rest hm, List.all_append, microEffect_inBounds m s ht.1, ht.2]
    rfl

theorem point_inBounds (s : State) (hb : s.seq.todo ≠ []) (h : InBounds s) : InBounds (point s) := by
  obtain ⟨-, -, -, -, -, -, -, -, hr, -⟩ := point_mainOwned s hb
  exact ⟨by rw [hr]; exact h.1, by simpa using h.2⟩

theorem programOf_inBounds {i : Instr} (hwf : i.wellFormed = true) : (programOf i).all Micro.inBounds = true := by
  cases i with
  | linData len p =>
    have hl : len.toNat ≤ 8 := of_decide_eq_true hwf
    simp [programOf, dataProg, Micro.inBounds, hl]
  | linResp m =>
    have hl : m.toNat ≤ 9 := of_decide_eq_true hwf
    simp [programOf, respProg, Micro.inBounds, hl]
  | fxCmd id len =>
    have hl : len.toNat ≤ 8 := of_decide_eq_true hwf
    simp [programOf, cmdProg, headerProg, drainProg, sendProg, Micro.inBounds, hl]
  | fxStatus id m =>
    have hl : m.toNat ≤ 9 := of_decide_eq_true hwf
    simp [programOf, statusProg, headerProg, drainProg, sendProg, respProg, Micro.inBounds, hl]
  | _ => rfl

/-- A command ends within the bounds and with SEQ = IDLE. -/
theorem exec_inBounds {i : Instr} {s t : State} (hc : isCommand i = true) (hwf : i.wellFormed = true)
    (hr : s.respLen.toNat ≤ 9) (h : exec i s = .next t) : InBounds t ∧ t.seq = Seq.idle := by
  obtain rfl := Host.Outcome.next.inj ((exec_command hc hwf s).symm.trans h)
  have hp := programOf_ne_nil hc
  exact ⟨runCommand_induction InBounds InBounds (fun s hb h _ => mainStep_inBounds s hb h)
    (fun s hb h _ => mainStep_inBounds s hb h) point_inBounds i _ s hp
    ⟨hr, by rw [accept_todo]; exact programOf_inBounds hwf⟩, runCommand_idle i _ s hp⟩

theorem applyTurn_respLen (t : Turn) (s : State) : (applyTurn t s).respLen = s.respLen := by
  cases t <;> simp only [applyTurn, txdone, rxArrive, hostDbufWrite, hostIssue, memWrite] <;> split_ifs <;> rfl

/-- What a move of another agent or the handler leaves alone is within bounds as before. -/
theorem inBounds_congr {s t : State} (hr : t.respLen = s.respLen) (hs : t.seq = s.seq)
    (h : InBounds s ∧ (s.seq.todo = [] → s.seq = Seq.idle)) : InBounds t ∧ (t.seq.todo = [] → t.seq = Seq.idle) := by
  simpa only [InBounds, hr, hs] using h

/-- Settles O58: the link by `linkOk_machineRel`, the bounds and SEQ by the moves of a step. -/
theorem everyStepKeepsTheInvariant : Obligations.EveryStepKeepsTheInvariant := by
  intro s t ⟨hrx, htx, hto, hro, hg, hr, hseq, hb⟩ h
  obtain ⟨hlink, hgie⟩ := linkOk_machineRel.step h
  obtain ⟨krx, ktx, kto, kro⟩ := hlink ⟨hrx, htx, hto, hro⟩
  have hs : InBounds s ∧ (s.seq.todo = [] → s.seq = Seq.idle) := ⟨⟨hr, hb⟩, hseq⟩
  have ht : InBounds t ∧ (t.seq.todo = [] → t.seq = Seq.idle) := by
    obtain ⟨-, rfl⟩ | ⟨-, u, ts, -, -, rfl⟩ | ⟨-, hi, rfl⟩ | ⟨-, -, w, i, -, hd, hx⟩ | ⟨-, -, -, rfl⟩ := step_cases h
    · obtain ⟨-, -, -, -, -, -, -, -, hr', -⟩ := invokeHandler_mainOwned s
      exact inBounds_congr hr' (invokeHandler_seq s) hs
    · exact inBounds_congr (applyTurn_respLen u _) (applyTurn_seq u _) hs
    · have hbusy : (s.setSched s.sched.tail).seq.todo ≠ [] := by simpa [State.isIdle] using hi
      exact ⟨mainStep_inBounds _ hbusy hs.1, mainStep_idle _ hbusy⟩
    · obtain ⟨hin, hidle⟩ := exec_inBounds (s := (s.setCmd none).setSched s.sched.tail)
        (decode_command_isCommand hd) (decode_command_wellFormed hd) hr hx
      exact ⟨hin, fun _ => hidle⟩
    · split
      · exact inBounds_congr (applyTurn_respLen .txdone s) (applyTurn_seq .txdone s) hs
      · exact hs
  exact ⟨krx, ktx, kto, kro, hgie.trans hg, ht.1.1, ht.2, ht.1.2⟩

/-! ### The traces (R37, R38) -/

theorem applyTurn_traces (t : Turn) (s : State) :
    s.wire <+: (applyTurn t s).wire ∧ (applyTurn t s).pcutTrace = s.pcutTrace := by
  cases t <;> simp only [applyTurn, txdone, rxArrive, hostDbufWrite, hostIssue, memWrite] <;> (try split_ifs) <;> simp

/-- A micro-step only appends to the traces. -/
theorem microEffect_traces (m : Micro) (s : State) :
    s.wire <+: (microEffect m s).1.wire ∧ s.pcutTrace <+: (microEffect m s).1.pcutTrace := by
  have h := microEffect_writes m s
  by_cases hm : m.part ∈ [Part.wake, .cut]
  · cases m <;> simp [Micro.part] at hm <;>
      simp [microEffect, microSetLine, microHoldLine, microLineToUart, microCutHigh, microCutHold, microCutLow,
        microCutGap, goOn, ret, giveRet, driveLine, setPowerCutPin]
    case cutRead j =>
      simp only [microCutRead, readRail_eq_ite, goOn, ret, giveRet]
      split_ifs <;> simp
  · have hp : ∀ p, p ∉ [Part.wake, .cut] → Reg.wire ∉ p.writes ∧ .pcutTrace ∉ p.writes := by
      intro p
      cases p <;> decide
    rw [h.wire (hp _ hm).1, h.pcutTrace (hp _ hm).2]
    exact ⟨List.prefix_rfl, List.prefix_rfl⟩

/-- Every agent only appends to the traces, and none changes the open parameters. -/
theorem traces_machineRel :
    MachineRel fun s t => s.wire <+: t.wire ∧ s.pcutTrace <+: t.pcutTrace ∧ t.params = s.params where
  refl _ := ⟨List.prefix_rfl, List.prefix_rfl, rfl⟩
  trans _ _ _ h k := ⟨h.1.trans k.1, h.2.1.trans k.2.1, k.2.2.trans h.2.2⟩
  micro m s := ⟨(microEffect_traces m s).1, (microEffect_traces m s).2, microEffect_params m s⟩
  handler s _ := by
    obtain ⟨-, -, -, -, -, -, -, -, -, -, -, -, hp, -⟩ := invokeHandler_mainOwned s
    rw [invokeHandler_wire, hp]
    exact ⟨List.prefix_rfl, List.prefix_rfl, invokeHandler_params s⟩
  turn t s := ⟨(applyTurn_traces t s).1, by rw [(applyTurn_traces t s).2], applyTurn_params t s⟩
  setSeq _ _ := ⟨List.prefix_rfl, List.prefix_rfl, rfl⟩
  setSched _ _ := ⟨List.prefix_rfl, List.prefix_rfl, rfl⟩
  setCmd _ _ := ⟨List.prefix_rfl, List.prefix_rfl, rfl⟩
  commit s r := by cases r <;> exact ⟨List.prefix_rfl, List.prefix_rfl, rfl⟩

/-- Settles O60, by `traces_machineRel` over the moves of a step. -/
theorem tracesOnlyGrowAndParametersStay : Obligations.TracesOnlyGrowAndParametersStay :=
  fun _ _ h => traces_machineRel.step h

/-! ### The pins at rest (R171, R173, R228) -/

/-- BAUD, LINE_MODE and POWER_CUT. -/
structure Pins where
  baud : Rate
  lineMode : LineMode
  powerCut : Bool

def State.pins (s : State) : Pins := ⟨s.baud, s.lineMode, s.powerCut⟩

def Pins.rest : Pins := ⟨.normal, .uart, false⟩

/-- How a micro-step leaves the pins once all it goes on with has run, POWER_CUT being low after a pulse. -/
def Micro.settles : Micro → Pins → Pins
  | .setBaud r, p => { p with baud := r }
  | .setLine l, p => { p with lineMode := forceMode l }
  | .lineToUart, p => { p with lineMode := .uart }
  | .cutHigh _, p | .cutHold _, p | .cutLow _, p => { p with powerCut := false }
  | _, p => p

/-- How a list of micro-steps leaves the pins. -/
def settled (todo : List Micro) (p : Pins) : Pins := todo.foldl (fun p m => m.settles p) p

/-- Each pin is as in `p` or at rest. -/
structure Pins.Nearer (q p : Pins) : Prop where
  baud : q.baud = p.baud ∨ q.baud = .normal
  lineMode : q.lineMode = p.lineMode ∨ q.lineMode = .uart
  powerCut : q.powerCut = p.powerCut ∨ q.powerCut = false

theorem Pins.Nearer.settles {p q : Pins} (h : q.Nearer p) (m : Micro) : (m.settles q).Nearer (m.settles p) := by
  obtain ⟨h1, h2, h3⟩ := h
  cases m <;> exact ⟨by simp [Micro.settles, h1], by simp [Micro.settles, h2], by simp [Micro.settles, h3]⟩

theorem Pins.Nearer.settled {p q : Pins} (h : q.Nearer p) (todo : List Micro) :
    (Machine.settled todo q).Nearer (Machine.settled todo p) := by
  induction todo generalizing p q with
  | nil => exact h
  | cons m todo ih => exact ih (h.settles m)

theorem Pins.Nearer.eq_rest {q : Pins} (h : q.Nearer .rest) : q = .rest := by
  obtain ⟨h1, h2, h3⟩ := h
  obtain ⟨b, l, c⟩ := q
  simp_all [Pins.rest]

/-- Running a micro-step does not change how the pins will be left, but for leaving them at rest. -/
theorem microEffect_settled (m : Micro) (s : State) :
    (settled (microEffect m s).2 (microEffect m s).1.pins).Nearer (m.settles s.pins) := by
  cases m with
  | cutRead j =>
    simp only [microEffect, microCutRead, readRail_eq_ite]
    split_ifs <;> constructor <;> simp [goOn, ret, giveRet, settled, Micro.settles, State.pins]
  | rbEnq b v =>
    simp only [microEffect, microRbEnq, atomic_enqueue, enqueue_eq_ite]
    split_ifs <;> constructor <;> simp [ret, giveRet, settled, Micro.settles, State.pins]
  | rbDeq b =>
    simp only [microEffect, microRbDeq, atomic_dequeue, dequeue_eq_ite]
    split_ifs <;> constructor <;> simp [ret, giveRet, settled, Micro.settles, State.pins]
  | _ =>
    simp only [microEffect, microRbLen, microTryTest, microTryTake, microSetRxie,
      microSendEnq, microSendKick, microSendTest, microSendWait, microSetLine, microHoldLine, microLineToUart,
      microDrainTest, microDrainWait, microSetBaud, microHeaderPid, microReturnValue, microDataInit,
      microDataTest, microDataByte, microDataAdd, microDataFold, microRespInit, microRespPoll, microRespWait,
      microRespAgain, microRespLimit, microRespLook, microRespTake, microRespPause, microRespDone,
      microStartBegin, microStartRail, microStartWake, microStartFlags, microStartRound, microStartJudge,
      microStartGap, microStartNext, microStartFail, microStopRail, microStopBegin, microStopTry,
      microStopJudge, microStopGap, microStopNext, microStopUnconfirmed, microStopDropRead, microStopDropWait,
      microStopConfirmed, microCutHigh, microCutHold, microCutLow, microCutGap, microLoadBegin,
      microLoadJudge, microLoadGap, microWaitMs, goOn, ret, giveRet, kick, forceTxIrq, setRespCount, releaseTail,
      loadPayload, driveLine, setBaudRate, setPowerCutPin, atomic_enqueue, atomic_dequeue, waitMs_eq, enqueue_eq_ite,
      dequeue_eq_ite, readRail_eq_ite, memWrite] <;>
    (try split_ifs) <;> constructor <;>
    simp [settled, Micro.settles, State.pins, sendProg, wakeupProg, seqCmdProg, seqStatusProg, cmdProg, statusProg,
      headerProg, drainProg, respProg]

theorem settled_append (p q : List Micro) (x : Pins) : settled (p ++ q) x = settled q (settled p x) :=
  List.foldl_append

theorem commitResult_pins (r : Ret) (s : State) : (commitResult r s).pins = s.pins := by cases r <;> rfl

theorem retire_pins (s : State) : (retire s).pins = s.pins := by
  unfold retire
  split
  · exact commitResult_pins _ s
  · rfl

theorem mainStep_settled (s : State) (hb : s.seq.todo ≠ []) (h : settled s.seq.todo s.pins = .rest) :
    settled (mainStep s).seq.todo (mainStep s).pins = .rest := by
  obtain ⟨m, rest, hm⟩ := List.exists_cons_of_ne_nil hb
  have hpins : (mainStep s).pins = (microEffect m s).1.pins := by
    rw [mainStep_cons s m rest hm, retire_pins]
    rfl
  have hnear := (microEffect_settled m s).settled rest
  rw [show settled rest (m.settles s.pins) = .rest by rw [← h, hm]; rfl] at hnear
  rw [mainStep_todo s m rest hm, hpins, settled_append]
  exact hnear.eq_rest

theorem point_pins (s : State) (hb : s.seq.todo ≠ []) : (point s).pins = s.pins := by
  obtain ⟨-, -, hbaud, hline, -, -, -, -, -, -, -, hcut, -⟩ := point_mainOwned s hb
  simp [State.pins, hbaud, hline, hcut]

theorem programOf_settled (i : Instr) : settled (programOf i) .rest = .rest := by
  cases i with
  | rbEnq b v => rfl
  | _ => rfl

theorem atRest_iff (s : State) : AtRest s ↔ s.seq = Seq.idle ∧ s.pins = .rest := by
  simp [State.pins, Pins.rest]

theorem exec_pins {i : Instr} {s t : State} (hc : isCommand i = true) (hwf : i.wellFormed = true) (hs : s.pins = .rest)
    (h : exec i s = .next t) : AtRest t := by
  obtain rfl := Host.Outcome.next.inj ((exec_command hc hwf s).symm.trans h)
  have hp := programOf_ne_nil hc
  refine (atRest_iff _).mpr ⟨runCommand_idle i _ s hp, ?_⟩
  refine runCommand_induction (fun t => settled t.seq.todo t.pins = .rest) (fun t => t.pins = .rest)
    (fun t hb h _ => mainStep_settled t hb h) (fun t hb h hi => ?_) (fun t hb h => ?_) i _ s hp ?_
  · have := mainStep_settled t hb h
    rwa [hi] at this
  · rw [point_seq, point_pins t hb]
    exact h
  · have hpins : (accept i (programOf i) s).pins = .rest := hs
    rw [accept_todo, hpins]
    exact programOf_settled i

theorem applyTurn_pins (t : Turn) (s : State) : (applyTurn t s).pins = s.pins := by
  cases t <;> simp only [applyTurn, txdone, rxArrive, hostDbufWrite, hostIssue, memWrite] <;> split_ifs <;> rfl

/-- Settles O59: a command leaves the pins as its program says, which is at rest. -/
theorem everyStepEndsAtRest : Obligations.EveryStepEndsAtRest := by
  intro s t hs h
  obtain ⟨hidle, hpins⟩ := (atRest_iff s).mp hs
  obtain ⟨-, rfl⟩ | ⟨-, u, ts, -, -, rfl⟩ | ⟨-, hi, -⟩ | ⟨-, -, w, i, -, hd, hx⟩ | ⟨-, -, -, rfl⟩ := step_cases h
  · obtain ⟨-, -, hb, hl, -, -, -, -, -, -, -, hc, -⟩ := invokeHandler_mainOwned s
    exact ⟨(invokeHandler_seq s).trans hidle, hb.trans hs.2.1, hl.trans hs.2.2.1, hc.trans hs.2.2.2⟩
  · exact (atRest_iff _).mpr ⟨(applyTurn_seq u _).trans hidle, (applyTurn_pins u _).trans hpins⟩
  · simp [State.isIdle, hidle, Seq.idle] at hi
  · exact exec_pins (s := (s.setCmd none).setSched s.sched.tail) (decode_command_isCommand hd)
      (decode_command_wellFormed hd) hpins hx
  · split
    · exact (atRest_iff _).mpr ⟨(applyTurn_seq .txdone s).trans hidle, (applyTurn_pins .txdone s).trans hpins⟩
    · exact hs

end Sys2Proof.Machine
end

section
/-! Runs of single steps (00_scope.md R14, R17, 41_seriallink.md R151, R154): an interruptible point as steps of the
other agents, a command as a run of steps, the drain of the transmitter, and weak fairness. -/

namespace Sys2Proof.Machine

/-! ### Runs of steps -/

theorem run_step {M : Host.Core} {k : Nat} {s t : M.State} (h : M.step s = .next t) : M.run (k + 1) s = M.run k t := by
  rw [Host.Core.run, h]

theorem run_refused {M : Host.Core} {k : Nat} {s : M.State} {r : M.Refusal} (h : M.step s = .refused r) :
    M.run (k + 1) s = .refused r := by
  rw [Host.Core.run, h]

theorem run_add {M : Host.Core} {k l : Nat} {s t : M.State} (h : M.run k s = .next t) : M.run (k + l) s = M.run l t := by
  induction k generalizing s with
  | zero =>
    obtain rfl := Host.Outcome.next.inj h
    rw [Nat.zero_add]
  | succ k ih =>
    rw [Nat.add_right_comm]
    cases hs : M.step s with
    | next u =>
      rw [run_step hs] at h ⊢
      exact ih h
    | fault r =>
      rw [Host.Core.run, hs] at h
      cases h
    | refused r =>
      rw [run_refused hs] at h
      cases h

theorem run_succ {k : Nat} {s t : State} (h : step s = .next t) :
    Host.Core.run core (k + 1) s = Host.Core.run core k t :=
  run_step (M := core) h

theorem run_trans {k l : Nat} {s t : State} (h : Host.Core.run core k s = .next t) :
    Host.Core.run core (k + l) s = Host.Core.run core l t :=
  run_add (M := core) h

/-! ### An interruptible point as a run of steps -/

/-- One invocation serves all that is pending (R147). -/
theorem invokeHandler_serves (s : State) : handlerEnabled (invokeHandler s) = false := by
  have htx : ∀ u, (serviceTx u).txirq = false := fun u => by
    obtain ⟨-, e⟩ | ⟨-, e⟩ := serviceTx_cases u <;> simp [e]
  have hrx : (serviceRx s).rxirq = false := by
    obtain ⟨-, e⟩ | ⟨-, e⟩ := serviceRx_cases s <;> simp [e]
  rw [handlerEnabled_eq, invokeHandler_eq]
  split_ifs with h1 h2 h2
  · simp [htx, serviceTx_rx, hrx]
  · simp [hrx, h2]
  · have hx : (serviceTx s).rxie = s.rxie := by
      obtain ⟨hx, -⟩ := serviceTx_mainOwned s
      exact hx
    obtain ⟨-, hr, -⟩ := serviceTx_rx s
    simp only [htx, hr, hx, Bool.not_eq_true] at h1 ⊢
    simp [h1]
  · simp_all

theorem urgent_serves (s : State) : handlerEnabled (urgent s) = false := by
  unfold urgent
  split
  · exact invokeHandler_serves s
  · next h => exact Bool.eq_false_of_not_eq_true h

theorem serviceRx_setSched (s : State) (ts : List Turn) : serviceRx (s.setSched ts) = (serviceRx s).setSched ts := by
  obtain ⟨hc, e⟩ | ⟨hc, e⟩ := serviceRx_cases s <;>
    obtain ⟨hc', e'⟩ | ⟨hc', e'⟩ := serviceRx_cases (s.setSched ts) <;> rw [State.setSched_rbRx] at hc'
  · rw [e, e']
    rfl
  · omega
  · omega
  · rw [e, e']
    rfl

theorem serviceTx_setSched (s : State) (ts : List Turn) : serviceTx (s.setSched ts) = (serviceTx s).setSched ts := by
  obtain ⟨hc, e⟩ | ⟨hc, e⟩ := serviceTx_cases s <;>
    obtain ⟨hc', e'⟩ | ⟨hc', e'⟩ := serviceTx_cases (s.setSched ts) <;> rw [State.setSched_rbTx] at hc'
  · rw [e, e']
    rfl
  · omega
  · omega
  · rw [e, e']
    rfl

theorem urgent_setSched (s : State) (ts : List Turn) : urgent (s.setSched ts) = (urgent s).setSched ts := by
  have hc : handlerEnabled (s.setSched ts) = handlerEnabled s := rfl
  have hi : invokeHandler (s.setSched ts) = (invokeHandler s).setSched ts := by
    simp only [invokeHandler_eq, State.setSched_rxirq, State.setSched_rxie, State.setSched_txirq, serviceRx_setSched,
      serviceTx_setSched]
    split_ifs <;> rfl
  unfold urgent
  rw [hc, hi]
  split <;> rfl

/-- The handler, where it is enabled, is a step. -/
theorem urgent_run (s : State) : ∃ k, Host.Core.run core k s = .next (urgent s) := by
  unfold urgent
  split
  · next h => exact ⟨1, run_succ (step_handler h)⟩
  · exact ⟨0, rfl⟩

/-- On a busy block steps of the other agents reach the end of an interruptible point, M's turn being next. -/
theorem point_run (s : State) (hb : s.seq.todo ≠ []) :
    ∃ k y, Host.Core.run core k s = .next y ∧ MainIsNext y ∧ y.setSched y.sched.tail = point s := by
  obtain ⟨ts, hs⟩ : ∃ ts, s.sched = ts := ⟨_, rfl⟩
  induction ts generalizing s with
  | nil =>
    obtain ⟨k, hk⟩ := urgent_run s
    refine ⟨k, urgent s, hk, ⟨urgent_serves s, .inl ((urgent_sched s).trans hs)⟩, ?_⟩
    rw [point, hs, urgent_sched, hs, List.tail_nil, runTurns, urgent_setSched]
  | cons t ts ih =>
    obtain ⟨k, hk⟩ := urgent_run s
    by_cases ht : t = .main
    · subst ht
      refine ⟨k, urgent s, hk, ⟨urgent_serves s, .inr ⟨ts, (urgent_sched s).trans hs⟩⟩, ?_⟩
      rw [point, hs, urgent_sched, hs, List.tail_cons, runTurns, urgent_setSched]
    · have hstep := step_turn (urgent_serves s) ((urgent_sched s).trans hs) ht
      obtain ⟨l, y, hl, hm, hy⟩ := ih (applyTurn t ((urgent s).setSched ts)) (by simpa using hb) (by simp)
      refine ⟨k + (l + 1), y, by rw [run_trans hk, run_succ hstep, hl], hm, ?_⟩
      have hp : point s = runTurns ts (applyTurn t (urgent (s.setSched ts))) := by
        rw [point, hs]
        cases t with
        | main => exact absurd rfl ht
        | _ => rfl
      rw [hy, hp, urgent_setSched, point, applyTurn_sched, State.setSched_sched]

/-- The run of a busy block to its return is a run of steps. -/
theorem runToIdle_run (n : Nat) (s y : State) (hb : s.seq.todo ≠ []) (hn : progCost s.params s.seq.todo ≤ n)
    (hm : MainIsNext y) (hy : y.setSched y.sched.tail = s) :
    ∃ k, Host.Core.run core k y = .next (runToIdle n s) := by
  induction n generalizing s y with
  | zero =>
    have := mainStep_progress s hb
    omega
  | succ n ih =>
    have hp := mainStep_progress s hb
    have hbusy : y.isIdle = false := by
      have : y.seq = s.seq := by rw [← hy]; rfl
      simpa [State.isIdle, this] using hb
    have hstep := step_busy hm hbusy
    rw [hy] at hstep
    by_cases hi : (mainStep s).seq.todo = []
    · rw [runToIdle_succ_idle n s hi]
      exact ⟨1, run_succ hstep⟩
    · obtain ⟨k, y', hk, hm', hy'⟩ := point_run (mainStep s) hi
      obtain ⟨l, hl⟩ := ih (point (mainStep s)) y' (by simpa using hi) (by simpa using by omega) hm' hy'
      rw [runToIdle_succ_busy n s hi]
      exact ⟨k + l + 1, by rw [run_succ hstep, run_trans hk, hl]⟩

/-- Settles O57: each micro-step is a step, and each point between two of them a run of steps. -/
theorem commandIsARunOfSteps : Obligations.CommandIsARunOfSteps := by
  intro i s hc hwf he
  have hb : (accept i (programOf i) s).seq.todo ≠ [] := by
    rw [accept_todo]
    exact programOf_ne_nil hc
  obtain ⟨k, hk⟩ := runToIdle_run _ (accept i (programOf i) s)
    ((accept i (programOf i) s).setSched (.main :: s.sched)) hb le_rfl ⟨he, .inr ⟨s.sched, rfl⟩⟩ rfl
  exact ⟨k, hk.trans (exec_command hc hwf s).symm⟩

/-! ### Drain (R154, R296) -/

/-- A property that the handler and every turn keep, whatever is left of the schedule, is kept by an interruptible
point, on an idle block as well. -/
theorem runTurns_keeps (P : State → Prop) (hsched : ∀ s ts, P s → P (s.setSched ts))
    (hhandler : ∀ s, handlerEnabled s = true → P s → P (invokeHandler s)) (hturn : ∀ t s, P s → P (applyTurn t s))
    (ts : List Turn) (s : State) (hP : P s) : P (runTurns ts s) := by
  have hu : ∀ s, P s → P (urgent s) := by
    intro s hs
    unfold urgent
    split
    · next h => exact hhandler s h hs
    · exact hs
  induction ts generalizing s with
  | nil => exact hu _ (hsched _ _ hP)
  | cons t ts ih =>
    have hgo := ih _ (hturn t _ (hu _ (hsched s ts hP)))
    cases t with
    | main => exact hu _ (hsched _ _ hP)
    | txdone => exact hgo
    | rx v kept => exact hgo
    | dbufWrite i v => exact hgo
    | issue w => exact hgo

/-- What is on its way to the line stays so whatever the other agents do, on an idle block as well. -/
theorem runTurns_lineStream (ts : List Turn) (s : State) (h : LinkOk s) :
    LinkOk (runTurns ts s) ∧ lineStream (runTurns ts s) = lineStream s :=
  runTurns_keeps (fun t => LinkOk t ∧ lineStream t = lineStream s) (fun _ _ h => h)
    (fun t _ h => ⟨invokeHandler_linkOk t h.1, (invokeHandler_lineStream t h.1).trans h.2⟩)
    (fun u t h => ⟨applyTurn_linkOk u t h.1, (applyTurn_lineStream u t).trans h.2⟩) ts s ⟨h, rfl⟩

/-- With a transmit-ready event pending, the urgent handler hands over the next byte or marks the transmitter idle
(R149). -/
theorem urgent_tx {s : State} (hg : s.gie = true) (hi : s.txirq = true) :
    (0 < s.rbTx.count.toNat ∧ (urgent s).rbTx.count.toNat = s.rbTx.count.toNat - 1 ∧ (urgent s).txreg.full = true ∧
      (urgent s).txIdle = false) ∨
    (s.rbTx.count.toNat = 0 ∧ (urgent s).rbTx.count.toNat = 0 ∧ (urgent s).txreg = s.txreg ∧ (urgent s).txIdle = true ∧
      (urgent s).txirq = false) := by
  have he : handlerEnabled s = true := by simp [handlerEnabled_eq, hg, hi]
  obtain ⟨r1, r2, -⟩ := serviceRx_tx s
  obtain ⟨u, hu, h1, h2⟩ : ∃ u, urgent s = serviceTx u ∧ u.rbTx = s.rbTx ∧ u.txreg = s.txreg := by
    rw [urgent, if_pos he, invokeHandler_eq]
    simp only [hi, if_true]
    split
    · exact ⟨_, rfl, r1, r2⟩
    · exact ⟨_, rfl, rfl, rfl⟩
  rw [hu, ← h1, ← h2]
  obtain ⟨hc, e⟩ | ⟨hc, e⟩ := serviceTx_cases u
  · exact .inl ⟨hc, by simp [e, u.rbTx.pop_count hc], by simp [e], by simp [e]⟩
  · exact .inr ⟨hc, by simp [e, hc], by simp [e], by simp [e], by simp [e]⟩

theorem urgent_gie (s : State) : (urgent s).gie = s.gie := by
  obtain ⟨-, hg, -⟩ := urgent_mainOwned s
  exact hg

/-- A transmitter at rest with nothing queued. -/
def Drained (s : State) : Prop := TxIdle s ∧ s.rbTx.count.toNat = 0

theorem runTurns_drained (ts : List Turn) (s : State) (h : Drained s) : Drained (runTurns ts s) :=
  runTurns_keeps Drained (fun _ _ h => h)
    (fun t _ h => by
      obtain ⟨hi, -, hb⟩ := invokeHandler_idle t h.1
      exact ⟨hi, by rw [hb]; exact h.2⟩)
    (fun u t h => by
      obtain ⟨hi, -, hb⟩ := applyTurn_idle u t h.1
      exact ⟨hi, by rw [hb]; exact h.2⟩) ts s h

theorem urgent_drained {s : State} (hl : LinkOk s) (hg : s.gie = true) (hi : s.txirq = true)
    (h0 : s.rbTx.count.toNat = 0) : Drained (urgent s) := by
  obtain ⟨hc, -⟩ | ⟨-, hc, hx, hid, hq⟩ := urgent_tx hg hi
  · omega
  · exact ⟨⟨hid, by rw [hx]; exact hl.2.2.1.2.2.1 hi, hq⟩, hc⟩

theorem applyTurn_drained (t : Turn) {s : State} (h : Drained s) : Drained (applyTurn t s) := by
  obtain ⟨hi, -, hb⟩ := applyTurn_idle t s h.1
  exact ⟨hi, by rw [hb]; exact h.2⟩

/-- With a transmit-ready event pending, one turn a byte queued is enough, the handler serving between the turns. -/
theorem runTurns_drains (n : Nat) (ts : List Turn) (s : State) (hl : LinkOk s) (hg : s.gie = true)
    (hi : s.txirq = true) (hn : s.rbTx.count.toNat ≤ n) :
    Drained (runTurns (List.replicate n .txdone ++ .main :: ts) s) := by
  induction n generalizing s with
  | zero => exact urgent_drained (s := s.setSched ts) hl hg hi (by rw [State.setSched_rbTx]; omega)
  | succ n ih =>
    rw [List.replicate_succ, List.cons_append, runTurns]
    obtain ⟨l, hlist⟩ : ∃ l, List.replicate n Turn.txdone ++ .main :: ts = l := ⟨_, rfl⟩
    rw [hlist] at ih ⊢
    by_cases h0 : s.rbTx.count.toNat = 0
    · exact runTurns_drained _ _ (applyTurn_drained _ (urgent_drained (s := s.setSched l) hl hg hi h0))
    · obtain ⟨-, hc, hf, -⟩ | ⟨hc, -⟩ := urgent_tx (s := s.setSched l) hg hi
      · have hx : applyTurn .txdone (urgent (s.setSched l)) = _ := txdone_full hf
        have hl' := applyTurn_linkOk .txdone _ (urgent_linkOk _ (setSched_linkOk s l hl))
        rw [State.setSched_rbTx] at hc
        refine ih _ hl' ?_ ?_ ?_
        · rw [applyTurn_gie, urgent_gie]
          exact hg
        · rw [hx]
          rfl
        · rw [hx, State.setTxirq_rbTx, State.setTxreg_rbTx, State.setWire_rbTx, hc]
          omega
      · exact absurd hc h0

theorem runTurns_main_sched (n : Nat) (ts : List Turn) (s : State) :
    (runTurns (List.replicate n .txdone ++ .main :: ts) s).sched = ts := by
  induction n generalizing s with
  | zero => simp [runTurns]
  | succ n ih =>
    rw [List.replicate_succ, List.cons_append, runTurns]
    exact ih _

/-- Without a transmit-ready event the urgent handler leaves the transmitter alone. -/
theorem urgent_txUntouched {s : State} (hi : s.txirq = false) :
    (urgent s).rbTx = s.rbTx ∧ (urgent s).txreg = s.txreg := by
  obtain ⟨r1, r2, -⟩ := serviceRx_tx s
  unfold urgent
  split
  · rw [invokeHandler_eq, hi]
    split
    · exact ⟨r1, r2⟩
    · exact ⟨rfl, rfl⟩
  · exact ⟨rfl, rfl⟩

/-- Settles O28: the transmitter rests, or is busy with a character, or an event is pending; after the first turn the
event is pending with at most as many bytes queued as turns left. -/
theorem transmitterDrains : Obligations.TransmitterDrains := by
  intro s ts hl hg hq hs
  have hp : point s = runTurns (List.replicate (s.rbTx.count.toNat + 1) .txdone ++ .main :: ts) s := by rw [point, hs]
  have hd : Drained (point s) := by
    cases hi : s.txirq with
    | true => rw [hp]; exact runTurns_drains _ ts s hl hg hi (by omega)
    | false =>
      cases ht : s.txIdle with
      | true =>
        have h0 : s.rbTx.count = 0 := hq.resolve_left (by simp [ht])
        exact runTurns_drained _ s ⟨hl.2.2.1.txIdle ht, (Ring.count_eq_zero _).mp h0⟩
      | false =>
        have hf : s.txreg.full = true := (hl.2.2.1.2.1 ht).resolve_right (by simp [hi])
        rw [hp, List.replicate_succ, List.cons_append, runTurns]
        obtain ⟨l, hlist⟩ : ∃ l, List.replicate s.rbTx.count.toNat Turn.txdone ++ .main :: ts = l := ⟨_, rfl⟩
        obtain ⟨h1, h2⟩ := urgent_txUntouched (s := s.setSched l) hi
        have hx : applyTurn .txdone (urgent (s.setSched l)) = _ := txdone_full (by rw [h2]; exact hf)
        have hl' := applyTurn_linkOk .txdone _ (urgent_linkOk _ (setSched_linkOk s l hl))
        rw [hlist, ← hlist]
        refine runTurns_drains _ ts _ (by rw [hlist]; exact hl') ?_ ?_ ?_
        · rw [applyTurn_gie, urgent_gie]
          exact hg
        · rw [hlist, hx]
          rfl
        · rw [hlist, hx, State.setTxirq_rbTx, State.setTxreg_rbTx, State.setWire_rbTx, h1]
          exact le_rfl
  obtain ⟨⟨hidle, hempty, -⟩, h0⟩ := hd
  have hc : (point s).rbTx.count = 0 := (Ring.count_eq_zero _).mpr h0
  refine ⟨hc, hempty, hidle, by rw [hp]; exact runTurns_main_sched _ ts s, ?_⟩
  have hline := (runTurns_lineStream s.sched s hl).2
  rw [← hline]
  change _ = lineStream (point s)
  simp [lineStream, inFlight, hempty, Ring.contents_of_empty _ hc]

/-! ### Weak fairness (R151) -/

/-- The character in TXREG is still there, or is on WIRE at the rate latched with it. -/
theorem character_machineRel : MachineRel fun s t => LinkOk s → LinkOk t ∧ ∃ w, t.wire = s.wire ++ w ∧
    (s.txreg.full = true → .char s.txreg.byte s.txreg.rate ∈ w ∨ t.txreg = s.txreg) where
  refl s h := ⟨h, [], by simp, fun _ => .inr rfl⟩
  trans s t u h k hl := by
    obtain ⟨h1, w, hw, hx⟩ := h hl
    obtain ⟨k1, v, hv, kx⟩ := k h1
    refine ⟨k1, w ++ v, by rw [hv, hw, List.append_assoc], fun hf => ?_⟩
    obtain hx | hx := hx hf
    · exact .inl (List.mem_append_left _ hx)
    · rw [hx] at kx
      exact (kx hf).imp (List.mem_append_right _) id
  micro m s h := by
    obtain ⟨w, hw⟩ := (microEffect_traces m s).1
    have hp : ∀ p : Part, Reg.txreg ∉ p.writes := by
      intro p
      cases p <;> decide
    exact ⟨microEffect_linkOk m s h, w, hw.symm, fun _ => .inr ((microEffect_writes m s).txreg (hp _))⟩
  handler s _ h := by
    refine ⟨invokeHandler_linkOk s h, [], by simp [invokeHandler_wire], fun hf => .inr ?_⟩
    have hi : s.txirq = false := by
      cases hi : s.txirq with
      | false => rfl
      | true => simp [h.2.2.1.2.2.1 hi] at hf
    obtain ⟨-, r2, -⟩ := serviceRx_tx s
    rw [invokeHandler_eq, hi]
    split
    · exact r2
    · rfl
  turn t s h := by
    refine ⟨applyTurn_linkOk t s h, ?_⟩
    cases t with
    | txdone =>
      simp only [applyTurn, txdone]
      split
      · exact ⟨[.char s.txreg.byte s.txreg.rate], rfl, fun _ => .inl (by simp)⟩
      · exact ⟨[], by simp, fun _ => .inr rfl⟩
    | main => exact ⟨[], by simp [applyTurn], fun _ => .inr rfl⟩
    | rx v kept =>
      simp only [applyTurn, rxArrive]
      split_ifs <;> exact ⟨[], by simp, fun _ => .inr rfl⟩
    | dbufWrite i v =>
      simp only [applyTurn, hostDbufWrite, memWrite]
      split <;> exact ⟨[], by simp, fun _ => .inr rfl⟩
    | issue w =>
      simp only [applyTurn, hostIssue]
      split <;> exact ⟨[], by simp, fun _ => .inr rfl⟩
  setSeq _ _ h := ⟨h, [], by simp, fun _ => .inr rfl⟩
  setSched _ _ h := ⟨h, [], by simp, fun _ => .inr rfl⟩
  setCmd _ _ h := ⟨h, [], by simp, fun _ => .inr rfl⟩
  commit s r h := ⟨commitResult_linkOk r s h, [], by cases r <;> simp [commitResult], fun _ => .inr (by cases r <;> rfl)⟩

theorem runTurns_sched_le (ts : List Turn) (s : State) : (runTurns ts s).sched.length ≤ ts.length := by
  induction ts generalizing s with
  | nil => simp [runTurns]
  | cons t ts ih =>
    have hgo := (ih (applyTurn t (urgent (s.setSched ts)))).trans (Nat.le_succ _)
    cases t with
    | main => simp [runTurns]
    | txdone => exact hgo
    | rx v kept => exact hgo
    | dbufWrite i v => exact hgo
    | issue w => exact hgo

theorem part_writes_sched (p : Part) : Reg.sched ∉ p.writes := by cases p <;> decide

/-- A run takes turns off the schedule and leaves the command port alone. -/
theorem sched_runRel : RunRel (fun _ => True) fun s t => t.sched.length ≤ s.sched.length ∧ t.cmd = s.cmd where
  refl _ := ⟨le_rfl, rfl⟩
  trans _ _ _ h k := ⟨k.1.trans h.1, k.2.trans h.2⟩
  closed _ _ _ _ _ := trivial
  micro m s _ := ⟨by rw [(microEffect_writes m s).sched (part_writes_sched _)], (microEffect_writes m s).cmd⟩
  setSeq _ _ := ⟨le_rfl, rfl⟩
  point s hb := by
    obtain ⟨-, -, -, -, -, -, -, -, -, -, -, -, -, hc, -⟩ := point_mainOwned s hb
    exact ⟨runTurns_sched_le _ s, hc⟩

theorem exec_sched {i : Instr} {s t : State} (hc : isCommand i = true) (hwf : i.wellFormed = true)
    (h : exec i s = .next t) : t.sched.length ≤ s.sched.length ∧ t.cmd = s.cmd := by
  obtain ⟨u, hu, hr⟩ := sched_runRel.exec hc hwf (fun _ _ => trivial) s
  obtain rfl := Host.Outcome.next.inj (hu.symm.trans h)
  have : (commitResult u.seq.ret u).sched = u.sched ∧ (commitResult u.seq.ret u).cmd = u.cmd := by
    cases u.seq.ret <;> exact ⟨rfl, rfl⟩
  simpa [this] using hr

theorem mainStep_sched (s : State) : (mainStep s).sched = s.sched ∧ (mainStep s).cmd = s.cmd := by
  cases h : s.seq.todo with
  | nil => simp [mainStep, h]
  | cons m rest =>
    have hw := microEffect_writes m s
    have hr : ∀ u, (retire u).sched = u.sched ∧ (retire u).cmd = u.cmd := fun u => by
      unfold retire
      split
      · cases u.seq.ret <;> exact ⟨rfl, rfl⟩
      · exact ⟨rfl, rfl⟩
    rw [mainStep_cons s m rest h, (hr _).1, (hr _).2]
    exact ⟨hw.sched (part_writes_sched _), hw.cmd⟩

/-- A step answers a next state or refuses a reserved word. -/
theorem step_next_or_reserved (s : State) : (∃ t, step s = .next t) ∨ ∃ why, step s = .refused (.reservedCommand why) := by
  cases he : handlerEnabled s with
  | true => exact .inl ⟨_, step_handler he⟩
  | false =>
    by_cases hm : s.sched = [] ∨ ∃ ts, s.sched = .main :: ts
    · cases hi : s.isIdle with
      | false => exact .inl ⟨_, step_busy ⟨he, hm⟩ hi⟩
      | true =>
        cases hc : s.cmd with
        | some w =>
          rw [step_command ⟨he, hm⟩ hi hc]
          cases hd : decode (.command w) with
          | ok i => exact .inl ⟨_, exec_command (decode_command_isCommand hd) (decode_command_wellFormed hd) _⟩
          | error why => exact .inr ⟨why, rfl⟩
        | none =>
          obtain hs | ⟨ts, hs⟩ := hm
          · exact .inl ⟨txdone s, by simp [step, he, hs, unscheduledTurn, hi, hc]⟩
          · have hi' : (s.setSched ts).isIdle = true := hi
            exact .inl ⟨s.setSched ts, by simp [step, he, hs, mainTurn, hi', fetched, hc]⟩
    · obtain ⟨u, ts, hs⟩ := List.exists_cons_of_ne_nil fun hs => hm (.inl hs)
      exact .inl ⟨_, step_turn he hs fun hu => hm (.inr ⟨ts, hu ▸ hs⟩)⟩

/-- Nothing is left to do but for agent U. -/
def Settled (s : State) : Prop := handlerEnabled s = false ∧ s.sched = [] ∧ s.isIdle = true ∧ s.cmd = none

/-- What a step that is not a move of agent U alone uses up, the most weighty first: turns of the schedule, the word at
the port, micro-steps, a pending interrupt. -/
def work (s : State) : Nat ×ₗ Nat ×ₗ Nat ×ₗ Nat :=
  toLex (s.sched.length, toLex (if s.cmd.isSome then 1 else 0,
    toLex (progCost s.params s.seq.todo, if handlerEnabled s then 1 else 0)))

theorem work_lt_of_sched {s t : State} (h : t.sched.length < s.sched.length) : work t < work s :=
  Prod.Lex.toLex_lt_toLex.mpr (.inl h)

theorem step_work {s t : State} (hs : ¬ Settled s) (h : step s = .next t) : work t < work s := by
  have shorter : ∀ {u : State}, s.sched ≠ [] → u.sched.length ≤ s.sched.tail.length → work u < work s :=
    fun hne hle => work_lt_of_sched (hle.trans_lt (by
      have := List.length_pos_iff.mpr hne
      rw [List.length_tail]
      omega))
  obtain ⟨he, rfl⟩ | ⟨-, u, ts, -, hts, rfl⟩ | ⟨-, hi, rfl⟩ | ⟨-, -, w, i, hw, hd, hx⟩ | ⟨hm, hi, hc, rfl⟩ := step_cases h
  · obtain ⟨-, -, -, -, -, -, -, -, -, -, -, -, -, hc, -⟩ := invokeHandler_mainOwned s
    simp [work, Prod.Lex.toLex_lt_toLex, hc, he, invokeHandler_serves]
  · exact shorter (by simp [hts]) (by simp [hts])
  · obtain ⟨h1, h2⟩ := mainStep_sched (s.setSched s.sched.tail)
    by_cases hne : s.sched = []
    · have hb : s.seq.todo ≠ [] := by simpa [State.isIdle] using hi
      have hp := mainStep_progress s hb
      have ht : s.setSched s.sched.tail = s := by
        rw [show s.sched.tail = s.sched by rw [hne]; rfl]
        rfl
      rw [ht] at h1 h2 ⊢
      exact Prod.Lex.toLex_lt_toLex.mpr (.inr ⟨by rw [h1], Prod.Lex.toLex_lt_toLex.mpr (.inr ⟨by rw [h2],
        Prod.Lex.toLex_lt_toLex.mpr (.inl (by rw [mainStep_params]; exact hp))⟩)⟩)
    · exact shorter hne (by rw [h1]; rfl)
  · obtain ⟨h1, h2⟩ := exec_sched (decode_command_isCommand hd) (decode_command_wellFormed hd) hx
    by_cases hne : s.sched = []
    · have h0 : t.sched.length = s.sched.length := by
        rw [hne] at h1 ⊢
        exact Nat.le_zero.mp h1
      exact Prod.Lex.toLex_lt_toLex.mpr (.inr ⟨h0, Prod.Lex.toLex_lt_toLex.mpr (.inl (by simp [h2, hw]))⟩)
    · exact shorter hne h1
  · have hne : s.sched ≠ [] := fun hne => hs ⟨hm.1, hne, hi, hc⟩
    rw [if_neg hne]
    exact shorter hne le_rfl

/-- Every run comes to where only agent U is left to move, or to a reserved word. -/
theorem run_settles (s : State) :
    ∃ k, (∃ t : State, Host.Core.run core k s = .next t ∧ Settled t) ∨
      ∃ why, Host.Core.run core k s = .refused (.reservedCommand why) := by
  induction hw : work s using WellFoundedLT.induction generalizing s with
  | ind x ih =>
    by_cases hs : Settled s
    · exact ⟨0, .inl ⟨s, rfl, hs⟩⟩
    obtain ⟨t, ht⟩ | ⟨why, hr⟩ := step_next_or_reserved s
    · obtain ⟨k, hk⟩ := ih (work t) (hw ▸ step_work hs ht) t rfl
      exact ⟨k + 1, by rw [run_succ ht]; exact hk⟩
    · exact ⟨1, .inr ⟨why, run_refused (M := core) hr⟩⟩

/-- A relation that every agent keeps holds over a run of steps. -/
theorem MachineRel.run {R : State → State → Prop} (hR : MachineRel R) {k : Nat} {s t : State}
    (h : Host.Core.run core k s = .next t) : R s t := by
  induction k generalizing s with
  | zero =>
    obtain rfl := Host.Outcome.next.inj h
    exact hR.refl s
  | succ k ih =>
    obtain ⟨u, hu⟩ | ⟨why, hr⟩ := step_next_or_reserved s
    · rw [run_succ hu] at h
      exact hR.trans _ _ _ (hR.step hu) (ih h)
    · rw [run_refused (M := core) hr] at h
      cases h

/-- Settles O29: the run comes to where only agent U moves; there the character, if it is still in TXREG, leaves. -/
theorem characterLeavesEventually : Obligations.CharacterLeavesEventually := by
  intro s hl hf
  obtain ⟨k, ⟨t, hk, he, hs, hi, hc⟩ | ⟨why, hk⟩⟩ := run_settles s
  · obtain ⟨-, w, hw, hx⟩ := character_machineRel.run hk hl
    obtain hx | hx := hx hf
    · exact ⟨k, .inl ⟨t, w, hk, hw, hx⟩⟩
    · have hstep : step t = .next (txdone t) := by simp [step, he, hs, unscheduledTurn, hi, hc]
      refine ⟨k + 1, .inl ⟨txdone t, w ++ [.char s.txreg.byte s.txreg.rate], ?_, ?_, by simp⟩⟩
      · rw [run_trans hk, run_succ hstep]
        rfl
      · have hft : t.txreg.full = true := by rw [hx]; exact hf
        rw [txdone_full hft, hx, State.setTxirq_wire, State.setTxreg_wire, State.setWire_wire, hw, List.append_assoc]
  · exact ⟨k, .inr ⟨why, hk⟩⟩

end Sys2Proof.Machine
end

section
/-! Histories of a ring buffer (20_memory.md R71, 40_ringbuffer.md R124), SL.SEND on a drained transmitter, SL.TRYREAD
(41_seriallink.md R140 to R145), and the statements. -/

namespace Sys2Proof.Machine

/-! ### Histories of one ring (R71, R124) -/

theorem ring_commitResult (r : Ret) (s : State) (b : Buf) : (commitResult r s).ring b = s.ring b := by
  cases r <;> cases b <;> rfl

/-- What an operation on a ring does: it gives a next state, keeps the ring well formed, and the bytes held and then
accepted are the bytes taken and then held. -/
def RingOp.Fifo (b : Buf) (o : RingOp) (s : State) : Prop :=
  ∃ t, exec (o.instr b) (o.found b s) = .next t ∧ (t.ring b).Wf ∧
    (s.ring b).contents ++ o.accepted b s t = o.taken b s t ++ (t.ring b).contents

theorem fifo_enq (b : Buf) (v : Byte) (s : State) (hw : (s.ring b).Wf) : RingOp.Fifo b (.enq v) s := by
  refine ⟨_, exec_rbEnq b v s, ?_⟩
  rw [ring_setSeq, ring_commitResult]
  have hle : (s.ring b).count.toNat ≤ 8 := hw.1
  obtain ⟨-, e⟩ | ⟨hc, e⟩ := enqueue_cases b v s <;> rw [e]
  · exact ⟨hw, by simp [RingOp.accepted, RingOp.taken, boolRet, commitResult]⟩
  · have hlt : (s.ring b).count.toNat < 8 := by omega
    rw [State.ring_setRing_same]
    exact ⟨(s.ring b).push_wf v hw hlt, by
      simp [RingOp.accepted, RingOp.taken, boolRet, commitResult, (s.ring b).contents_push v hw hlt]⟩

theorem fifo_deq (b : Buf) (s : State) (hw : (s.ring b).Wf) : RingOp.Fifo b .deq s := by
  refine ⟨_, exec_rbDeq b s, ?_⟩
  rw [ring_setSeq, ring_commitResult]
  obtain ⟨-, e⟩ | ⟨hc, e⟩ := dequeue_cases b s <;> rw [e]
  · exact ⟨hw, by simp [RingOp.accepted, RingOp.taken, optionRet, commitResult]⟩
  · rw [State.ring_setRing_same]
    exact ⟨(s.ring b).pop_wf hw hc, by
      simp [RingOp.accepted, RingOp.taken, optionRet, commitResult, (s.ring b).contents_eq_front_cons hc]⟩

theorem fifo_irqRx (v : Byte) (s : State) (hw : s.rbRx.Wf) : RingOp.Fifo .rx (.irq v) s := by
  refine ⟨_, rfl, ?_⟩
  simp only [RingOp.found, RingOp.accepted, RingOp.taken, State.ring_rx]
  obtain ⟨hc, e⟩ | ⟨hc, e⟩ := serviceRx_cases (s.setRxreg { full := true, byte := v }) <;> rw [e]
  · rw [State.setRxreg_rbRx] at hc
    exact ⟨s.rbRx.push_wf v hw hc, by simp [hc, s.rbRx.contents_push v hw hc]⟩
  · rw [State.setRxreg_rbRx] at hc
    exact ⟨hw, by simp [Nat.not_lt.mpr hc]⟩

theorem fifo_irqTx (v : Byte) (s : State) (hw : s.rbTx.Wf) : RingOp.Fifo .tx (.irq v) s := by
  refine ⟨_, rfl, ?_⟩
  simp only [RingOp.found, RingOp.accepted, RingOp.taken, State.ring_tx]
  obtain ⟨hc, e⟩ | ⟨hc, e⟩ := serviceTx_cases s <;> rw [e]
  · have hne : s.rbTx.count.toNat ≠ 0 := by omega
    exact ⟨s.rbTx.pop_wf hw hc, by simp [hne, s.rbTx.contents_eq_front_cons hc]⟩
  · exact ⟨hw, by simp [hc]⟩

theorem ringOp_fifo (b : Buf) (o : RingOp) (s : State) (hw : (s.ring b).Wf) : o.Fifo b s := by
  cases o with
  | enq v => exact fifo_enq b v s hw
  | deq => exact fifo_deq b s hw
  | irq v =>
    cases b with
    | rx => exact fifo_irqRx v s hw
    | tx => exact fifo_irqTx v s hw

/-- The law over a history, by induction on its operations. -/
theorem ringHistory_fifo (b : Buf) (os : List RingOp) (s : State) (hw : (s.ring b).Wf) :
    ∃ acc out t, ringHistory b os s = some (acc, out, t) ∧ (t.ring b).Wf ∧
      (s.ring b).contents ++ acc = out ++ (t.ring b).contents := by
  induction os generalizing s with
  | nil => exact ⟨[], [], s, rfl, hw, by simp⟩
  | cons o os ih =>
    obtain ⟨t, he, hwt, ht⟩ := ringOp_fifo b o s hw
    obtain ⟨acc, out, u, hu, hwu, hf⟩ := ih t hwt
    refine ⟨o.accepted b s t ++ acc, o.taken b s t ++ out, u, by simp [ringHistory, he, hu], hwu, ?_⟩
    rw [← List.append_assoc, ht, List.append_assoc, hf, List.append_assoc]

/-- Settles O18: the law of a history from an empty ring. -/
theorem ringIsFirstInFirstOut : Obligations.RingIsFirstInFirstOut := by
  intro b os s hw
  obtain ⟨acc, out, t, he, hwt, hf⟩ := ringHistory_fifo b os s hw
  refine ⟨acc, out, t, he, hf, fun h0 => ?_, hwt.1⟩
  rw [Ring.contents_of_empty _ h0, List.nil_append] at hf
  exact ⟨_, hf.symm⟩

/-! ### SL.SEND -/

/-- Settles O20: the test after the kick leaves no byte behind an idle transmitter. -/
theorem sendLeavesNoByteUnkicked : Obligations.SendLeavesNoByteUnkicked := by
  intro v s hl
  obtain ⟨t, he, -, hs⟩ := exec_slSend v s hl
  exact ⟨t, he, hs.link, hs.kicked⟩

/-- The byte passed through RB[TX] to the transmitter at the rate in force. -/
def handedOver (v : Byte) (s : State) : State :=
  { s with
    rbTx :=
      { storage := s.rbTx.storage.set s.rbTx.head.toNat v s.rbTx.head.isLt, head := s.rbTx.head + 1,
        tail := s.rbTx.tail + 1, count := 0 }
    txreg := { full := true, byte := v, rate := s.baud }
    txIdle := false }

/-- With nothing scheduled an interruptible point is the urgent handler. -/
theorem point_unscheduled {s : State} (h : s.sched = []) : point s = urgent s := by
  rw [point, h, runTurns, urgent_setSched, ← (urgent_sched s).trans h, setSched_self]

/-- A byte pushed on an empty ring is at its front. -/
theorem Ring.front_push_of_empty {r : Ring} (v : Byte) (hw : r.Wf) (h0 : r.count.toNat = 0) : (r.push v).front = v := by
  have hht : r.tail.toNat = r.head.toNat := by
    have := r.tail.isLt
    have := hw.2
    omega
  simp [Ring.front, Ring.push, hht]

/-- With a transmit-ready event alone pending, the urgent handler is IRQ.TX. -/
theorem urgent_eq_serviceTx {s : State} (hg : s.gie = true) (hi : s.txirq = true) (hr : s.rxirq = false) :
    urgent s = serviceTx s := by
  rw [urgent, handlerEnabled_eq, invokeHandler_eq, hg, hi, hr]
  rfl

/-- A micro-step after which no other agent moves. -/
theorem Leads.microQuiet {s u : State} {m : Micro} {rest next : List Micro} (h : s.seq.todo = m :: rest)
    (he : microEffect m s = (u, next)) (hn : next ++ rest ≠ []) (hq : Quiet u) : Leads s (setTodo (next ++ rest) u) := by
  have hl := Leads.micro h (by rw [he]; exact hn)
  rwa [he, point_quiet (setTodo (next ++ rest) u) hq] at hl

/-- A kick of an idle transmitter with nothing scheduled: the handler serves the event at the point. -/
theorem kick_unscheduled_leads {rest : List Micro} (hr : rest ≠ []) {s : State} (h : s.seq.todo = .sendKick :: rest)
    (hs : s.sched = []) (hg : s.gie = true) (hri : s.rxirq = false) (hi : s.txIdle = true) :
    Leads s (serviceTx (setTodo rest ((s.setTxIdle false).setTxirq true))) := by
  have he : microEffect .sendKick s = ((s.setTxIdle false).setTxirq true, []) := by
    simp [microEffect, microSendKick, goOn, kick, forceTxIrq, hi]
  have hl := Leads.micro h (by simpa [he] using hr)
  rwa [he, point_unscheduled (s := setTodo _ ((s.setTxIdle false).setTxirq true)) hs,
    urgent_eq_serviceTx (s := setTodo _ ((s.setTxIdle false).setTxirq true)) hg rfl hri] at hl

/-- On a drained transmitter with no other agent moving, SL.SEND kicks, and the handler hands the byte over. -/
theorem send_quiet_leads (v : Byte) {rest : List Micro} {s : State} (h : s.seq.todo = sendProg v ++ rest) (hq : Quiet s)
    (hg : s.gie = true) (hd : TxDrained s) (hw : s.rbTx.Wf) :
    Leads s ((handedOver v s).setSeq { s.seq with todo := .sendTest :: rest }) := by
  obtain ⟨hs, hti, hri⟩ := hq
  obtain ⟨hidle, hc⟩ := hd
  have h0 := (Ring.count_eq_zero _).mp hc
  -- step 1: the byte is stored, nothing is pending at the point
  have he : microEffect (.sendEnq v) s = (s.setRbTx (s.rbTx.push v), []) := by
    simp [microEffect, microSendEnq, goOn, atomic_enqueue, enqueue, Ring.isFull, hc, Params.rbCapacity]
  have l1 := Leads.microQuiet (rest := .sendKick :: .sendTest :: rest) h he (by simp) ⟨hs, hti, hri⟩
  -- step 2: the kick, and the point at which the handler serves it
  have l2 := kick_unscheduled_leads (rest := .sendTest :: rest) (by simp)
    (s := setTodo (.sendKick :: .sendTest :: rest) (s.setRbTx (s.rbTx.push v))) rfl hs hg hri hidle
  refine l1.trans (cast (congrArg (Leads _) ?_) l2)
  obtain ⟨-, e⟩ | ⟨hn, -⟩ := serviceTx_cases (setTodo (.sendTest :: rest)
    (((setTodo (.sendKick :: .sendTest :: rest) (s.setRbTx (s.rbTx.push v))).setTxIdle false).setTxirq true))
  · rw [e]
    have hf := Ring.front_push_of_empty v hw h0
    have hp : (s.rbTx.push v).pop = (handedOver v s).rbTx := by simp [Ring.push, Ring.pop, handedOver, hc]
    simp only [setTodo, State.setTxIdle, State.setTxreg, State.setRbTx, State.setTxirq, State.setSeq, hf, hp]
    simp [handedOver, hti]
  · have : (s.rbTx.push v).count.toNat = 0 := hn
    rw [Ring.push_count _ _ (by omega)] at this
    omega

/-- Settles O21: after the hand-over RB[TX] is empty, so the look at the count ends the command. -/
theorem sendStartsAnIdleTransmitter : Obligations.SendStartsAnIdleTransmitter := by
  intro v s hq hg hd hw
  have hl := send_quiet_leads v (rest := []) (s := accept (.slSend v) (sendProg v) s) (accept_todo _ _ s) hq hg hd hw
  have he := runCommand_of_leads (i := .slSend v) hl (by simp [sendProg]) rfl rfl
  rw [mainStep_ret_nothing (m := .sendTest) rfl rfl] at he
  exact congrArg Host.Outcome.next he

/-! ### SL.TRYREAD -/

/-- The return of a command keeps a frame, with the result on both sides (R43). -/
theorem MainOwned.commit {s t : State} (h : MainOwned (s.setSeq t.seq) t) (r : Ret) :
    MainOwned ((commitResult r s).setSeq Seq.idle) ((commitResult r t).setSeq Seq.idle) := by
  cases r <;> simp_all [MainOwned, commitResult]

/-- The dequeue that ends SL.TRYREAD (R140 step 2). -/
theorem tryTake_effect {s : State} (h : 0 < s.rbRx.count.toNat) :
    microEffect .tryTake s = ret (.value s.rbRx.front) (s.setRbRx s.rbRx.pop) := by
  obtain ⟨hc, -⟩ | ⟨-, e⟩ := dequeue_cases .rx s
  · rw [State.ring_rx] at hc
    omega
  · simp only [microEffect, microTryTake, atomic_dequeue, e]
    rfl

/-- Settles O22: on an empty buffer one look ends the command; otherwise the other agents move once between the look
and the dequeue, and only add behind the oldest byte. -/
theorem tryReadTakesTheOldestByte : Obligations.TryReadTakesTheOldestByte := by
  refine fun s => ⟨fun hc => ?_, fun hl hc => ?_⟩
  · refine congrArg Host.Outcome.next (runCommand_ret .slTryread (r := .absent) (t := s) fun q => ?_)
    simp [microEffect, microTryTest, hc]
  · have hpos := Nat.pos_of_ne_zero (mt (Ring.count_eq_zero _).mpr hc)
    have he : microEffect .tryTest (accept .slTryread [.tryTest] s) = (accept .slTryread [.tryTest] s, [.tryTake]) := by
      simp only [microEffect, microTryTest, goOn, atomicLen_eq, State.ring_rx]
      exact if_neg hc
    obtain ⟨t, lt, tt, -, kt⟩ := Leads.quietMicro (accept_todo .slTryread [.tryTest] s) _ (by rw [he]; rfl) (by simp [he])
    rw [he] at tt
    have kt := (Keeps.setSeq s _).trans kt
    obtain ⟨new, hnew, hg⟩ := kt.rx hl
    have hlen : 0 < t.rbRx.count.toNat := by
      have := congrArg List.length hnew
      rw [List.length_append, Ring.contents_length, Ring.contents_length] at this
      omega
    have hm := tryTake_effect hlen
    have hrun := runCommand_of_leads (i := .slTryread) lt (by simp) tt (by rw [hm]; rfl)
    rw [mainStep_returns tt hm] at hrun
    refine ⟨((commitResult (.value t.rbRx.front) (t.setRbRx t.rbRx.pop)).setSeq Seq.idle), t.rbRx.front, new, congrArg Host.Outcome.next hrun, ?_, hg, rfl, rfl, kt.line hl,
      fun j _ => memRead_txbuf_congr kt.txStorage j, fun hn j => ?_,
      MainOwned.commit (t := t.setRbRx t.rbRx.pop) kt.own _⟩
    · rw [← hnew, Ring.contents_eq_front_cons _ hlen]
      rfl
    · have hst : t.rbRx.storage = s.rbRx.storage := congrArg Ring.storage (kt.noArrival hn).2
      exact congrArg (·[j]?) hst

end Sys2Proof.Machine
end

section
/-! LIN.RESP (42_linmaster.md R181 to R184): the wait for the first byte, the drain of RB[RX] into RESP, and the
statements. -/

namespace Sys2Proof.Machine

/-! ### RB[RX] at an interruptible point -/

theorem serviceRx_rxCount (s : State) : s.rbRx.count.toNat ≤ (serviceRx s).rbRx.count.toNat := by
  obtain ⟨hc, e⟩ | ⟨-, e⟩ := serviceRx_cases s <;> rw [e]
  · have := s.rbRx.push_count s.rxreg.byte hc
    simp only [State.setRbRx_rbRx]
    omega
  · exact le_rfl

theorem invokeHandler_rxCount (s : State) : s.rbRx.count.toNat ≤ (invokeHandler s).rbRx.count.toNat := by
  have htx : ∀ u, (serviceTx u).rbRx = u.rbRx := fun u => (serviceTx_rx u).1
  rw [invokeHandler_eq]
  split_ifs
  · rw [htx]
    exact serviceRx_rxCount s
  · exact serviceRx_rxCount s
  · rw [htx]
  · exact le_rfl

/-- The other agents never take from RB[RX]. -/
theorem point_rxCount (s : State) (hb : s.seq.todo ≠ []) : s.rbRx.count.toNat ≤ (point s).rbRx.count.toNat :=
  point_induction (fun t => s.rbRx.count.toNat ≤ t.rbRx.count.toNat) (fun _ _ h => h)
    (fun t _ h => h.trans (invokeHandler_rxCount t)) (fun t u _ h => by rwa [applyTurn_rbRx]) s hb le_rfl

/-! ### The capture -/

/-- A part of a run in which agent M moves the bytes `l` from RB[RX] to RESP, from RESP[n] on, and of its own registers
changes nothing but RESP, RESP_LEN, the free values and SEQ. -/
structure Captured (n : Nat) (l : List Byte) (s t : State) : Prop where
  own : MainOwned { s with resp := t.resp, respLen := t.respLen, freeCtr := t.freeCtr, seq := t.seq } t
  resp : t.resp.toList.take (n + l.length) = s.resp.toList.take n ++ l
  link : LinkOk s → LinkOk t
  line : LinkOk s → lineStream t = lineStream s
  txCount : t.rbTx.count.toNat ≤ s.rbTx.count.toNat
  tx : t.rbTx.storage = s.rbTx.storage ∧ t.rbTx.head = s.rbTx.head
  rx : LinkOk s → ∃ new, s.rbRx.contents ++ new = l ++ t.rbRx.contents ∧ Gained new s t
  noArrival : NoArrival s → NoArrival t ∧ s.rbRx.contents = l ++ t.rbRx.contents ∧ t.rbRx.storage = s.rbRx.storage

theorem Captured.trans {n : Nat} {k l : List Byte} {s t u : State} (h : Captured n k s t)
    (g : Captured (n + k.length) l t u) : Captured n (k ++ l) s u where
  own := by
    have h' := h.own
    have g' := g.own
    simp_all [MainOwned]
  resp := by rw [List.length_append, ← Nat.add_assoc, g.resp, h.resp, List.append_assoc]
  link := g.link ∘ h.link
  line hl := (g.line (h.link hl)).trans (h.line hl)
  txCount := g.txCount.trans h.txCount
  tx := ⟨g.tx.1.trans h.tx.1, g.tx.2.trans h.tx.2⟩
  rx hl := by
    obtain ⟨a, ha, ga⟩ := h.rx hl
    obtain ⟨b, hb, gb⟩ := g.rx (h.link hl)
    exact ⟨a ++ b, by rw [← List.append_assoc, ha, List.append_assoc, hb, List.append_assoc], ga.trans gb⟩
  noArrival hn := by
    obtain ⟨h1, h2, h3⟩ := h.noArrival hn
    obtain ⟨g1, g2, g3⟩ := g.noArrival h1
    exact ⟨g1, by rw [h2, g2, List.append_assoc], g3.trans h3⟩

theorem Keeps.captured {s t : State} (h : Keeps s t) (n : Nat) : Captured n [] s t where
  own := by
    have h' := h.own
    simp_all [MainOwned]
  resp := by
    obtain ⟨-, -, -, -, -, -, -, hr, -⟩ := h.own
    have hr : t.resp = s.resp := hr
    simp [hr]
  link := h.link
  line := h.line
  txCount := h.txCount
  tx := ⟨h.txStorage, h.txHead⟩
  rx hl := by
    obtain ⟨new, e, g⟩ := h.rx hl
    exact ⟨new, by simp [e], g⟩
  noArrival hn := by
    obtain ⟨h1, h2⟩ := h.noArrival hn
    exact ⟨h1, by simp [h2], by rw [h2]⟩

/-- Agent M changes RESP beyond RESP[n], RESP_LEN, the free values and SEQ, and no other agent moves. -/
theorem Captured.of_link {n : Nat} {s t : State}
    (own : MainOwned { s with resp := t.resp, respLen := t.respLen, freeCtr := t.freeCtr, seq := t.seq } t)
    (resp : t.resp.toList.take n = s.resp.toList.take n) (hrx : t.rbRx = s.rbRx) (htx : t.rbTx = s.rbTx)
    (hi : t.txIdle = s.txIdle) (hx : t.txreg = s.txreg) (hti : t.txirq = s.txirq) (hri : t.rxirq = s.rxirq)
    (hr : t.rxreg = s.rxreg) (hw : t.wire = s.wire) (hs : t.sched = s.sched) : Captured n [] s t where
  own := own
  resp := by simpa using resp
  link := linkOk_congr hrx htx hi hx hti hri hr
  line _ := lineStream_congr hw hx htx (by obtain ⟨-, -, hb, -⟩ := own; exact hb)
  txCount := by rw [htx]
  tx := by simp [htx]
  rx _ := ⟨[], by simp [hrx], by simp [Gained, arrivals, waiting, hri, hr, hs]⟩
  noArrival hn := by simpa [NoArrival, hs, hri, hrx] using hn

/-- One byte is taken (R181 step 7). -/
theorem respTake_captured {n : Nat} (hn : n < 9) (m : Nat) {s : State} (hc : 0 < s.rbRx.count.toNat) :
    ∃ u, microEffect (.respTake n m) s = (u, [.respPause (n + 1) m]) ∧ u.seq = s.seq ∧
      Captured n [s.rbRx.front] s u := by
  obtain ⟨h0, -⟩ | ⟨-, e⟩ := dequeue_cases .rx s
  · rw [State.ring_rx] at h0
    omega
  · refine ⟨memWrite .resp n s.rbRx.front (s.setRbRx s.rbRx.pop), ?_, rfl, ?_⟩
    · simp only [microEffect, microRespTake, atomic_dequeue, e]
      rfl
    · have hcont := s.rbRx.contents_eq_front_cons hc
      exact
        { own := MainOwned.refl _
          resp := by
            have hlen : n < s.resp.toList.length := by simpa using hn
            simp [memWrite, Vector.toList_setIfInBounds, List.take_add_one, List.take_set_of_le, hn]
          link := fun hl => ⟨s.rbRx.pop_wf hl.1 hc, hl.2⟩
          line := fun _ => rfl
          txCount := le_rfl
          tx := ⟨rfl, rfl⟩
          rx := fun _ => ⟨[], (List.append_nil _).trans hcont, Gained.refl s⟩
          noArrival := fun hn => ⟨hn, hcont, rfl⟩ }

/-- Of RESP the bytes below the count stay, the others take free values (R184). -/
theorem releaseTail_eq {n : Nat} (hn : n ≤ 9) (s : State) :
    ∃ r : Vector Byte 9, releaseTail n s = (s.setResp r).setFreeCtr (s.freeCtr + 9) ∧
      r.toList.take n = s.resp.toList.take n := by
  refine ⟨_, rfl, List.ext_getElem (by simp) fun i h1 h2 => ?_⟩
  have hi : i < n := by
    rw [List.length_take] at h1
    omega
  have hi9 : i < 9 := by omega
  rw [List.getElem_take, List.getElem_take]
  interval_cases i <;> simp [respByteAfter, hi]

/-- All that LIN.RESP captures from RESP[n] on, up to `m`: at least what RB[RX] held, and exactly that if nothing
arrives. -/
structure Capture (m n : Nat) (l : List Byte) (s t : State) : Prop extends Captured n l s t where
  le : n + l.length ≤ m
  atLeast : LinkOk s → min m (n + s.rbRx.count.toNat) ≤ n + l.length
  all : NoArrival s → n + l.length = min m (n + s.rbRx.count.toNat)
  ret : t.seq.ret = .value (BitVec.ofNat 8 (n + l.length))
  respLen : t.respLen = BitVec.ofNat 4 (n + l.length)

theorem Captured.rxCount {n : Nat} {l : List Byte} {s t : State} (h : Captured n l s t) :
    (LinkOk s → s.rbRx.count.toNat ≤ l.length + t.rbRx.count.toNat) ∧
    (NoArrival s → s.rbRx.count.toNat = l.length + t.rbRx.count.toNat) := by
  refine ⟨fun hl => ?_, fun hn => ?_⟩
  · obtain ⟨new, e, -⟩ := h.rx hl
    have := congrArg List.length e
    simp only [List.length_append, Ring.contents_length] at this
    omega
  · have := congrArg List.length (h.noArrival hn).2.1
    simpa only [List.length_append, Ring.contents_length] using this

theorem Captured.capture {m n : Nat} {k l : List Byte} {s t u : State} (h : Captured n k s t)
    (g : Capture m (n + k.length) l t u) : Capture m n (k ++ l) s u where
  toCaptured := h.trans g.toCaptured
  le := by
    have := g.le
    rw [List.length_append]
    omega
  atLeast hl := by
    have h1 := h.rxCount.1 hl
    have h2 := g.atLeast (h.link hl)
    rw [List.length_append]
    omega
  all hn := by
    have h1 := h.rxCount.2 hn
    have h2 := g.all (h.noArrival hn).1
    rw [List.length_append]
    omega
  ret := by rw [g.ret, List.length_append, Nat.add_assoc]
  respLen := by rw [g.respLen, List.length_append, Nat.add_assoc]

/-- The end of the drain (R181 step 8), at maxLen or after a look that found nothing. -/
theorem respDone_capture {m n : Nat} (hn : n ≤ m) (hm : m ≤ 9) {s t : State} {rest : List Micro}
    (h : t.seq.todo = .respDone n :: rest) (hk : Keeps s t) (he : n = m ∨ s.rbRx.count.toNat = 0) :
    ∃ u, Returns t rest u ∧ Capture m n [] s u := by
  obtain ⟨r, er, hr⟩ := releaseTail_eq (n := n) (by omega) (setRespCount n t)
  refine ⟨giveRet (.value (BitVec.ofNat 8 n)) (((setRespCount n t).setResp r).setFreeCtr (t.freeCtr + 9)),
    .last h (by rw [microEffect, microRespDone, er]; rfl), ?_⟩
  have hc : Captured n [] t
      (giveRet (.value (BitVec.ofNat 8 n)) (((setRespCount n t).setResp r).setFreeCtr (t.freeCtr + 9))) := by
    apply Captured.of_link <;> simp [MainOwned, giveRet, setRespCount]
    exact hr
  exact
    { toCaptured := (hk.captured n).trans hc
      le := hn
      atLeast := fun _ => by simp only [List.length_nil]; omega
      all := fun _ => by simp only [List.length_nil]; omega
      ret := rfl
      respLen := rfl }

/-- The drain from RESP[n] on (R181 steps 5 to 8), by the bytes there is still room for. -/
theorem respLimit_capture {m : Nat} (hm : m ≤ 9) {rest : List Micro} (d : Nat) {n : Nat} (hd : n + d = m) {s : State}
    (h : s.seq.todo = .respLimit n m :: rest) : ∃ u l, Returns s rest u ∧ Capture m n l s u := by
  induction d generalizing n s with
  | zero =>
    have he : microEffect (.respLimit n m) s = (s, [.respDone n]) := by
      simp [microEffect, microRespLimit, goOn, show m ≤ n by omega]
    obtain ⟨t, lt, tt, -, kt⟩ := Leads.quietMicro h s.seq (by rw [he]; rfl) (by simp [he])
    rw [he] at tt
    obtain ⟨u, ru, cu⟩ := respDone_capture (by omega) hm tt kt (.inl (by omega))
    exact ⟨u, [], .of_leads lt ru, cu⟩
  | succ d ih =>
    have he : microEffect (.respLimit n m) s = (s, [.respLook n m]) := by
      simp [microEffect, microRespLimit, goOn, show ¬ m ≤ n by omega]
    obtain ⟨t, lt, tt, -, kt⟩ := Leads.quietMicro h s.seq (by rw [he]; rfl) (by simp [he])
    rw [he] at tt
    by_cases hc : t.rbRx.count = 0
    · have he : microEffect (.respLook n m) t = (t, [.respDone n]) := by simp [microEffect, microRespLook, goOn, hc]
      obtain ⟨v, lv, tv, -, kv⟩ := Leads.quietMicro tt t.seq (by rw [he]; rfl) (by simp [he])
      rw [he] at tv
      obtain ⟨u, ru, cu⟩ := respDone_capture (by omega) hm tv kv (.inr ((Ring.count_eq_zero _).mp hc))
      exact ⟨u, [] ++ [], .of_leads (lt.trans lv) ru, (kt.captured n).capture cu⟩
    · have he : microEffect (.respLook n m) t = (t, [.respTake n m]) := by
        simp only [microEffect, microRespLook, atomicLen_eq, State.ring_rx]
        exact if_neg hc
      have lv := Leads.micro tt (by simp [he])
      rw [he] at lv
      have kv := (Keeps.setSeq t _).trans (point_keeps (setTodo (.respTake n m :: rest) t) (by simp [setTodo]))
      have hcv := point_rxCount (setTodo (.respTake n m :: rest) t) (by simp [setTodo])
      have tv : (point (setTodo (.respTake n m :: rest) t)).seq.todo = .respTake n m :: rest := by simp [setTodo]
      have hpos : 0 < t.rbRx.count.toNat := Nat.pos_of_ne_zero (mt (Ring.count_eq_zero _).mpr hc)
      obtain ⟨w, ew, sw, cw⟩ := respTake_captured (n := n) (by omega) m (hpos.trans_le hcv)
      have lx := Leads.micro tv (by simp [ew])
      rw [ew] at lx
      have kx := (Keeps.setSeq w _).trans (point_keeps (setTodo (.respPause (n + 1) m :: rest) w) (by simp [setTodo]))
      have tx : (point (setTodo (.respPause (n + 1) m :: rest) w)).seq.todo = .respPause (n + 1) m :: rest := by
        simp [setTodo]
      obtain ⟨y, ly, ty, -, ky⟩ := Leads.quietMicro tx _ rfl (by simp [microEffect, microRespPause, goOn])
      obtain ⟨u, l, ru, cu⟩ := ih (n := n + 1) (by omega) ty
      have hone := (((kt.trans kv).captured n).trans cw).trans ((kx.trans ky).captured _)
      exact ⟨u, _, .of_leads (((lt.trans lv).trans lx).trans ly) ru, hone.capture cu⟩

/-! ### The wait for the first byte -/

theorem Ring.count_pos (r : Ring) (h : r.count ≠ 0) : 0 < r.count :=
  BitVec.lt_def.mpr (Nat.pos_of_ne_zero (mt r.count_eq_zero.mpr h))

theorem SilentPeer.of_keeps {s t : State} (h : SilentPeer s) (k : Keeps s t) : SilentPeer t := by
  obtain ⟨h1, h2⟩ := k.noArrival h.1
  exact ⟨h1, by rw [h2]; exact h.2⟩

/-- The polls from the `k`-th on (R181 steps 2 to 4): with nothing found in any of them the timeout, otherwise the
drain. A silent peer is not found. -/
theorem respPoll_cases {m : Nat} {rest : List Micro} (d : Nat) {k : Nat} (hk : 5 ≤ k + d) {s : State}
    (h : s.seq.todo = .respPoll k m :: rest) :
    (s.rbRx.count = 0 ∧ ∃ t, Returns s rest (giveRet (.value 0) (t.setRespLen 0)) ∧ Keeps s t) ∨
    (¬ SilentPeer s ∧ ∃ t, Leads s t ∧ t.seq.todo = .respLimit 0 m :: rest ∧ Keeps s t) := by
  by_cases hc : s.rbRx.count = 0
  · have he : microEffect (.respPoll k m) s = (s, [.respWait k m]) := by
      simp [microEffect, microRespPoll, goOn, hc]
    obtain ⟨a, la, ta, -, ka⟩ := Leads.quietMicro h s.seq (by rw [he]; rfl) (by simp [he])
    rw [he] at ta
    obtain ⟨b, lb, tb, -, kb⟩ := Leads.quietMicro (m := .respWait k m) (rest := rest) ta a.seq rfl
      (by simp [microEffect, microRespWait, goOn])
    have kb := ka.trans kb
    by_cases h5 : k + 1 < 5
    · have he : microEffect (.respAgain (k + 1) m) b = (b, [.respPoll (k + 1) m]) := by
        simp [microEffect, microRespAgain, goOn, Params.respPolls, h5]
      obtain ⟨c, lc, tc, -, kc⟩ := Leads.quietMicro (m := .respAgain (k + 1) m) (rest := rest) tb b.seq
        (by rw [he]; rfl) (by simp [he])
      rw [he] at tc
      have kc := kb.trans kc
      cases d with
      | zero => omega
      | succ d =>
        obtain ⟨-, t, rt, kt⟩ | ⟨hs, t, lt, tt, kt⟩ := respPoll_cases d (k := k + 1) (by omega) tc
        · exact .inl ⟨hc, t, .of_leads ((la.trans lb).trans lc) rt, kc.trans kt⟩
        · exact .inr ⟨fun hp => hs (hp.of_keeps kc), t, ((la.trans lb).trans lc).trans lt, tt, kc.trans kt⟩
    · have he : microEffect (.respAgain (k + 1) m) b = (giveRet (.value 0) (b.setRespLen 0), []) := by
        simp [microEffect, microRespAgain, ret, setRespCount, Params.respPolls, h5]
      exact .inl ⟨hc, b, .of_leads (la.trans lb) (.last tb he), kb⟩
  · have he : microEffect (.respPoll k m) s = (s, [.respLimit 0 m]) := by
      simp only [microEffect, microRespPoll, atomicLen_eq, State.ring_rx]
      exact if_pos (s.rbRx.count_pos hc)
    obtain ⟨a, la, ta, -, ka⟩ := Leads.quietMicro h s.seq (by rw [he]; rfl) (by simp [he])
    rw [he] at ta
    exact .inr ⟨fun hp => hc hp.2, a, la, ta, ka⟩

/-- All that LIN.RESP does, from any state and under every schedule; with a silent peer it is the timeout (R182). -/
theorem resp_capture {m : Nat} (hm : m ≤ 9) {rest : List Micro} {s : State} (h : s.seq.todo = respProg m ++ rest) :
    ∃ u l, Returns s rest u ∧ Capture m 0 l s u ∧
      (SilentPeer s → ∃ t, Keeps s t ∧ u = giveRet (.value 0) (t.setRespLen 0)) := by
  obtain ⟨a, la, ta, -, ka⟩ := Leads.quietMicro (m := .respInit m) (rest := rest) h s.seq rfl
    (by simp [microEffect, microRespInit, goOn])
  obtain ⟨hc, t, rt, kt⟩ | ⟨hs, t, lt, tt, kt⟩ := respPoll_cases 5 (by omega) ta
  · have hcap : Captured 0 [] t (giveRet (.value 0) (t.setRespLen 0)) :=
      .of_link (MainOwned.refl _) rfl rfl rfl rfl rfl rfl rfl rfl rfl rfl
    have hc0 := (Ring.count_eq_zero _).mp hc
    have htime : Capture m 0 [] a (giveRet (.value 0) (t.setRespLen 0)) :=
      { toCaptured := (kt.captured 0).trans hcap
        le := by simp
        atLeast := fun _ => by rw [hc0]; simp
        all := fun _ => by rw [hc0]; simp
        ret := rfl
        respLen := rfl }
    refine ⟨_, [] ++ [], .of_leads la rt, (ka.captured 0).capture htime, fun _ => ⟨t, ka.trans kt, rfl⟩⟩
  · obtain ⟨u, l, ru, cu⟩ := respLimit_capture hm m (n := 0) (by omega) tt
    exact ⟨u, [] ++ l, .of_leads (la.trans lt) ru, ((ka.trans kt).captured 0).capture cu,
      fun hp => absurd (hp.of_keeps ka) hs⟩

/-! ### LIN.RESP as a command -/

/-- A command, from its return: what was handed over is committed (R43). -/
theorem exec_of_returns {i : Instr} (hc : isCommand i = true) (hwf : i.wellFormed = true) {s u : State}
    (h : Returns (accept i (programOf i) s) [] u) : exec i s = .next ((commitResult u.seq.ret u).setSeq Seq.idle) := by
  rw [exec_command hc hwf, runCommand_of_returns (programOf_ne_nil hc) h]

/-- What SEQ was before does not matter. -/
theorem Captured.of_setSeq {n : Nat} {l : List Byte} {s t : State} {q : Seq} (h : Captured n l (s.setSeq q) t) :
    Captured n l s t :=
  ⟨h.own, h.resp, h.link, h.line, h.txCount, h.tx, h.rx, h.noArrival⟩

theorem Capture.of_setSeq {m n : Nat} {l : List Byte} {s t : State} {q : Seq} (h : Capture m n l (s.setSeq q) t) :
    Capture m n l s t :=
  ⟨h.toCaptured.of_setSeq, h.le, h.atLeast, h.all, h.ret, h.respLen⟩

theorem Captured.txBufFrame {n : Nat} {l : List Byte} {s t : State} (h : Captured n l s t) : TxBufFrame 0 s t :=
  fun j _ => memRead_txbuf_congr h.tx.1 j

theorem Captured.rxBufFrame {n : Nat} {l : List Byte} {s t : State} (h : Captured n l s t) (hn : NoArrival s) :
    RxBufFrame s t :=
  fun j => congrArg (·[j]?) (h.noArrival hn).2.2

/-- The frame of the timeout. -/
theorem silent_timeout {s u : State} (h : ∃ t, Keeps s t ∧ u = giveRet (.value 0) (t.setRespLen 0)) (hp : SilentPeer s) :
    u.seq.ret = .value 0 ∧ u.rbRx = s.rbRx ∧ MainOwned ((s.setRespLen 0).setSeq u.seq) u := by
  obtain ⟨t, k, rfl⟩ := h
  have hown := k.own
  have hrx := (k.noArrival hp.1).2
  simp_all [MainOwned, giveRet]

/-- All that the command does. -/
theorem exec_linResp (m : BitVec 4) (hm : m.toNat ≤ 9) (s : State) :
    ∃ u l, exec (.linResp m) s = .next ((commitResult u.seq.ret u).setSeq Seq.idle) ∧
      Returns (accept (.linResp m) (respProg m.toNat) s) [] u ∧ Capture m.toNat 0 l s u ∧
      (SilentPeer s → ∃ t, Keeps s t ∧ u = giveRet (.value 0) (t.setRespLen 0)) := by
  obtain ⟨u, l, hr, hc, hs⟩ := resp_capture hm (rest := []) (s := accept (.linResp m) (respProg m.toNat) s)
    (by simp [accept_todo])
  refine ⟨u, l, exec_of_returns (i := .linResp m) rfl (decide_eq_true hm) hr, hr, hc.of_setSeq, fun hp => ?_⟩
  obtain ⟨t, kt, e⟩ := hs hp
  exact ⟨t, (Keeps.setSeq s _).trans kt, e⟩

theorem Capture.count {m : Nat} {l : List Byte} {s u : State} (hm : m ≤ 9) (h : Capture m 0 l s u) :
    u.seq.ret = .value (BitVec.ofNat 8 l.length) ∧ (BitVec.ofNat 8 l.length).toNat = l.length ∧
      u.respLen.toNat = l.length := by
  have hle := h.le
  rw [Nat.zero_add] at hle
  refine ⟨by simpa using h.ret, ?_, ?_⟩
  · rw [BitVec.toNat_ofNat]
    omega
  · rw [h.respLen, Nat.zero_add, BitVec.toNat_ofNat]
    omega

/-! ### With no other agent moving -/

/-- With nothing found and nobody moving the polls change only SEQ. -/
theorem respAgain_quiet {m : Nat} {rest : List Micro} (d : Nat) {k : Nat} (hk : k + d = 5) {s : State}
    (h : s.seq.todo = .respAgain k m :: rest) (hq : Quiet s) (hc : s.rbRx.count = 0) :
    Leads s (setTodo (.respAgain 5 m :: rest) s) := by
  induction d generalizing k s with
  | zero =>
    obtain rfl : k = 5 := hk
    rw [← h]
    exact .refl s
  | succ d ih =>
    have l1 := Leads.microQuiet h (u := s) (next := [.respPoll k m])
      (by simp [microEffect, microRespAgain, goOn, Params.respPolls, show k < 5 by omega]) (by simp) hq
    have l2 := Leads.microQuiet (s := setTodo (.respPoll k m :: rest) s) (rest := rest) rfl
      (u := setTodo (.respPoll k m :: rest) s) (next := [.respWait k m])
      (by simp [microEffect, microRespPoll, goOn, setTodo, hc]) (by simp) hq
    have l3 := Leads.microQuiet (s := setTodo (.respWait k m :: rest) s) (rest := rest) rfl
      (u := setTodo (.respWait k m :: rest) s) (next := [.respAgain (k + 1) m]) rfl (by simp) hq
    exact ((l1.trans l2).trans l3).trans
      (ih (by omega) (s := setTodo (.respAgain (k + 1) m :: rest) s) rfl hq hc)

/-- LIN.RESP with no other agent moving and nothing held (R182). -/
theorem exec_linResp_quiet (m : BitVec 4) (hm : m.toNat ≤ 9) {s : State} (hq : Quiet s) (hc : s.rbRx.count = 0) :
    exec (.linResp m) s =
      .next { s with result := 0, resultValid := true, respLen := 0, seq := Seq.idle } := by
  have h0 := accept_todo (.linResp m) (respProg m.toNat) s
  have l1 := Leads.microQuiet (s := accept (.linResp m) (respProg m.toNat) s) h0 (next := [.respPoll 0 m.toNat]) rfl
    (by simp) hq
  have l2 := Leads.microQuiet (s := setTodo [.respPoll 0 m.toNat] (accept (.linResp m) (respProg m.toNat) s)) rfl
    (u := setTodo [.respPoll 0 m.toNat] (accept (.linResp m) (respProg m.toNat) s)) (next := [.respWait 0 m.toNat])
    (by simp [microEffect, microRespPoll, goOn, setTodo, accept, hc]) (by simp) hq
  have l3 := Leads.microQuiet (s := setTodo [.respWait 0 m.toNat] (accept (.linResp m) (respProg m.toNat) s)) rfl
    (next := [.respAgain 1 m.toNat]) rfl (by simp) hq
  have l4 := respAgain_quiet 4 (m := m.toNat) (rest := []) rfl
    (s := setTodo [.respAgain 1 m.toNat] (accept (.linResp m) (respProg m.toNat) s)) rfl hq hc
  rw [exec_of_returns (i := .linResp m) (u := giveRet (.value 0) ((setTodo [.respAgain 5 m.toNat]
    (accept (.linResp m) (respProg m.toNat) s)).setRespLen 0)) rfl (decide_eq_true hm)
    (.of_leads (((l1.trans l2).trans l3).trans l4) (.last rfl rfl))]
  exact congrArg _ (by simp only [commitResult, giveRet, setTodo, accept, State.setRespLen, State.setSeq,
    State.setResult, State.setResultValid])

/-- A run of the parts that send nothing and read no other agent's register keeps the transmitter as it is while no
other agent moves. -/
theorem resp_quiet : RunRel (Micro.Of [.resp, .take]) fun s t => Quiet s → Quiet t ∧ t.rbTx = s.rbTx := by
  refine .ofParts (by decide) (fun _ h => ⟨h, rfl⟩) (fun _ _ _ h k hq => ?_) (fun m s hm hq => ?_) (fun _ _ h => ⟨h, rfl⟩)
    (fun s _ hq => ?_)
  · obtain ⟨h1, h2⟩ := h hq
    obtain ⟨k1, k2⟩ := k h1
    exact ⟨k1, k2.trans h2⟩
  · have hw := (microEffect_writes m s).mono (w' := [.resp, .respLen, .freeCtr, .rbRx]) (by
      obtain h | h : m.part = .resp ∨ m.part = .take := by simpa using hm
      · rw [h]; decide
      · rw [h]; decide)
    exact ⟨⟨(hw.sched (by decide)).trans hq.1, (hw.txirq (by decide)).trans hq.2.1,
      (hw.rxirq (by decide)).trans hq.2.2⟩, hw.rbTx (by decide)⟩
  · rw [point_quiet s hq]
    exact ⟨hq, rfl⟩

/-- A list split after `m` of its bytes, or after all of them. -/
theorem take_drop_of_append {m : Nat} {c l r : List Byte} (h : c = l ++ r) (hl : l.length = min m c.length) :
    l = c.take m ∧ r = c.drop m := by
  subst h
  rcases Nat.le_total m (l ++ r).length with hm | hm
  · have hlm : l.length = m := by omega
    exact ⟨(List.take_left' hlm).symm, (List.drop_left' hlm).symm⟩
  · have hr : r = [] := List.eq_nil_of_length_eq_zero (by rw [List.length_append] at hl hm; omega)
    subst hr
    rw [List.append_nil] at hm ⊢
    exact ⟨(List.take_of_length_le hm).symm, (List.drop_of_length_le hm).symm⟩

/-! ### The statements -/

/-- Settles O34: a silent peer is not found by any poll, and the clauses are the micro-steps of the wait. -/
theorem responseTimesOut : Obligations.ResponseTimesOut := by
  refine ⟨fun m s hm hp => ?_, fun _ => rfl, fun s k m rest hn => ⟨fun h => ?_, fun h => ⟨fun hc => ?_, fun hc => ?_⟩,
    fun h => ?_, fun h => ⟨fun hk => ?_, fun hk hr => ?_, fun hk hr => ?_⟩⟩⟩
  · obtain ⟨u, l, he, -, hc, hs⟩ := exec_linResp m hm s
    obtain ⟨hret, hrx, hown⟩ := silent_timeout (hs hp) hp
    rw [hret] at he
    exact ⟨_, he, hrx, hc.txBufFrame, hown.commit (s := s.setRespLen 0) (.value 0), fun hq =>
      Host.Outcome.next.inj (he.symm.trans (exec_linResp_quiet m hm hq hp.2))⟩
  · exact step_movedOn (next := [.respPoll 0 m]) hn h rfl (by simp)
  · refine step_movedOn (next := [.respLimit 0 m]) hn h ?_ (by simp)
    exact if_pos (s.rbRx.count_pos hc)
  · exact step_movedOn (next := [.respWait k m]) hn h (by simp [microEffect, microRespPoll, hc]) (by simp)
  · exact step_movedOn (next := [.respAgain (k + 1) m]) hn h rfl (by simp)
  · exact step_movedOn (next := [.respPoll k m]) hn h (if_pos hk) (by simp)
  · subst hr
    exact step_ret hn h (if_neg (Nat.not_lt.mpr hk))
  · exact step_goOn (next := []) hn h (if_neg (Nat.not_lt.mpr hk)) hr

/-- Settles O35: `Capture` holds of the whole command under every schedule. -/
theorem responseIsCapturedInOrder : Obligations.ResponseIsCapturedInOrder := by
  intro m s hm hl
  obtain ⟨u, l, he, -, hc, -⟩ := exec_linResp m hm s
  obtain ⟨hret, hv, hlen⟩ := hc.count hm
  obtain ⟨new, hnew, hg⟩ := hc.rx hl
  rw [hret] at he
  have hres := hc.resp
  have hle := hc.le
  simp only [Nat.zero_add, List.take_zero, List.nil_append] at hres hle
  refine ⟨_, l.length, new, he, hle, hv, hlen, ?_, hg, hc.line hl, hc.txBufFrame, hc.rxBufFrame, ?_⟩
  · exact hnew.trans (congrArg (· ++ u.rbRx.contents) hres.symm)
  · exact MainOwned.commit (s := ((s.setResp u.resp).setRespLen u.respLen).setFreeCtr u.freeCtr) hc.own (.value _)

/-- Settles O36: with no arrival the capture is the first bytes of RB[RX], and the clauses are the micro-steps of the
drain. -/
theorem responseTakesAllThatIsBuffered : Obligations.ResponseTakesAllThatIsBuffered := by
  refine ⟨fun m s hm hq hw => ?_, fun s n m rest hn => ⟨fun h => ⟨fun hm => ?_, fun hm => ?_⟩,
    fun h => ⟨fun hc => ?_, fun hc => ?_⟩, fun h => ?_⟩⟩
  · obtain ⟨u, l, he, hu, hc, -⟩ := exec_linResp m hm s
    have hn : NoArrival s := ⟨by simp [hq.1], hq.2.2⟩
    obtain ⟨hret, hv, hlen⟩ := hc.count hm
    obtain ⟨-, hcont, -⟩ := hc.noArrival hn
    have hres := hc.resp
    have hall := hc.all hn
    simp only [Nat.zero_add, List.take_zero, List.nil_append] at hres hall
    obtain ⟨htake, hdrop⟩ := take_drop_of_append hcont (by rw [Ring.contents_length]; exact hall)
    have htx := (resp_quiet.returns (p := respProg m.toNat) hu (by simp [accept_todo]) (by simp [respProg, Micro.part])
      hq).2
    rw [hret] at he
    rw [← hall]
    exact ⟨_, he, hv, rfl, hlen, hres.trans htake, hdrop, htx, hc.rxBufFrame hn⟩
  · exact step_movedOn (next := [.respDone n]) hn h (if_pos hm) (by simp)
  · exact step_movedOn (next := [.respLook n m]) hn h (if_neg (Nat.not_le.mpr hm)) (by simp)
  · exact step_movedOn (next := [.respDone n]) hn h (if_pos hc) (by simp)
  · exact step_movedOn (next := [.respTake n m]) hn h (if_neg hc) (by simp)
  · exact step_movedOn (next := [.respLimit n m]) hn h rfl (by simp)

end Sys2Proof.Machine
end

section
/-! LIN.WAKEUP (42_linmaster.md R171): a run is determined by what is left to run, the level segments on the line, and
the statement. -/

namespace Sys2Proof.Machine

/-! ### A run is determined -/

/-- Of two states a run comes to, one comes first. -/
theorem Leads.linear {s t u : State} (h : Leads s t) (k : Leads s u) : Leads t u ∨ Leads u t := by
  induction h with
  | refl _ => exact .inl k
  | step h1 h2 h ih =>
    cases k with
    | refl _ => exact .inr (.step h1 h2 h)
    | step _ _ k => exact ih k

/-- A run does not come back to the same list of micro-steps. -/
theorem Leads.eq_of_todo {s t : State} (h : Leads s t) (ht : t.seq.todo = s.seq.todo) : t = s := by
  cases h with
  | refl _ => rfl
  | step h1 h2 h =>
    have hle := progCost_leads h
    have hp := mainStep_progress s h1
    simp only [point_params, mainStep_params, point_seq] at hle
    rw [ht] at hle
    omega

theorem Leads.unique {s t u : State} (h : Leads s t) (k : Leads s u) (he : t.seq.todo = u.seq.todo) : t = u := by
  obtain hl | hl := h.linear k
  · exact (hl.eq_of_todo he.symm).symm
  · exact hl.eq_of_todo he

theorem Returns.unique {s u v : State} {rest : List Micro} (h : Returns s rest u) (k : Returns s rest v) : u = v := by
  have later : ∀ {x y a b : State} {m n : Micro}, Leads x y → x.seq.todo = m :: rest → microEffect m x = (a, []) →
      y.seq.todo = n :: rest → microEffect n y = (b, []) → a = b := by
    intro x y a b m n hl hx ha hy hb
    cases hl with
    | refl _ =>
      obtain ⟨rfl, -⟩ := List.cons.inj (hx.symm.trans hy)
      exact congrArg Prod.fst (ha.symm.trans hb)
    | step h1 h2 hl =>
      have hle := progCost_leads hl
      have hpos := cost_pos x.params n
      simp only [point_params, mainStep_params, point_seq, mainStep_todo x m rest hx, ha, hy, progCost_cons,
        List.nil_append] at hle
      omega
  obtain ⟨x, m, lx, hx, ex⟩ := h
  obtain ⟨y, n, ly, hy, ey⟩ := k
  obtain hl | hl := lx.linear ly
  · exact later hl hx ex hy ey
  · exact (later hl hy ey hx ex).symm

/-! ### Level segments on the line -/

@[simp] theorem levelsOf_append (v w : List WireItem) : levelsOf (v ++ w) = levelsOf v ++ levelsOf w := by
  simp [levelsOf]

theorem applyTurn_levels (t : Turn) (s : State) : levelsOf (applyTurn t s).wire = levelsOf s.wire := by
  cases t <;> simp only [applyTurn, txdone, rxArrive, hostDbufWrite, hostIssue, memWrite] <;> split_ifs <;>
    simp [levelsOf]

/-- The other agents put no level segment on the line. -/
theorem point_levels (s : State) (hb : s.seq.todo ≠ []) : levelsOf (point s).wire = levelsOf s.wire :=
  point_induction (fun t => levelsOf t.wire = levelsOf s.wire) (fun _ _ h => h)
    (fun t _ h => by rw [invokeHandler_wire]; exact h) (fun t u _ h => (applyTurn_levels u t).trans h) s hb rfl

/-- A part of a run in which agent M drives the level segments `l`, sends nothing, and of its own registers changes
nothing but LINE_MODE, the answers of the rail and SEQ. -/
structure Woken (l : List WireItem) (s t : State) : Prop where
  own : MainOwned { s with lineMode := t.lineMode, rails := t.rails, freeCtr := t.freeCtr, seq := t.seq } t
  levels : levelsOf t.wire = levelsOf s.wire ++ l
  link : LinkOk s → LinkOk t
  chars : LinkOk s → charsOf (lineStream t) = charsOf (lineStream s)
  tx : t.rbTx.storage = s.rbTx.storage
  idle : TxIdle s → TxIdle t ∧ t.wire = s.wire ++ l ∧ t.rbTx = s.rbTx
  rx : LinkOk s → ∃ new, t.rbRx.contents = s.rbRx.contents ++ new ∧ Gained new s t
  noArrival : NoArrival s → NoArrival t ∧ t.rbRx = s.rbRx

theorem Woken.trans {k l : List WireItem} {s t u : State} (h : Woken k s t) (g : Woken l t u) : Woken (k ++ l) s u where
  own := by
    have h' := h.own
    have g' := g.own
    simp_all [MainOwned]
  levels := by rw [g.levels, h.levels, List.append_assoc]
  link := g.link ∘ h.link
  chars hl := (g.chars (h.link hl)).trans (h.chars hl)
  tx := g.tx.trans h.tx
  idle hi := by
    obtain ⟨h1, h2, h3⟩ := h.idle hi
    obtain ⟨g1, g2, g3⟩ := g.idle h1
    exact ⟨g1, by rw [g2, h2, List.append_assoc], g3.trans h3⟩
  rx hl := by
    obtain ⟨a, ha, ga⟩ := h.rx hl
    obtain ⟨b, hb, gb⟩ := g.rx (h.link hl)
    exact ⟨a ++ b, by rw [hb, ha, List.append_assoc], ga.trans gb⟩
  noArrival hn := by
    obtain ⟨h1, h2⟩ := h.noArrival hn
    obtain ⟨g1, g2⟩ := g.noArrival h1
    exact ⟨g1, g2.trans h2⟩

theorem Keeps.woken {s t : State} (h : Keeps s t) (hl : levelsOf t.wire = levelsOf s.wire) : Woken [] s t where
  own := by
    have h' := h.own
    simp_all [MainOwned]
  levels := by simpa using hl
  link := h.link
  chars hl := by rw [h.line hl]
  tx := h.txStorage
  idle hi := by simpa using h.idle hi
  rx := h.rx
  noArrival := h.noArrival

theorem Woken.stay {l : List WireItem} {s t u : State} (h : Woken l s t) (g : Woken [] t u) : Woken l s u := by
  simpa using h.trans g

/-- A micro-step of LIN.WAKEUP or a read of the rail, with the point after it. -/
theorem Leads.microWoken {l : List WireItem} {s u : State} {m : Micro} {next rest : List Micro}
    (h : s.seq.todo = m :: rest) (he : microEffect m s = (u, next)) (hn : next ++ rest ≠ []) (hw : Woken l s u) :
    ∃ t, Leads s t ∧ t.seq.todo = next ++ rest ∧ Woken l s t ∧ t.lineMode = u.lineMode ∧ t.rails = u.rails ∧
      t.freeCtr = u.freeCtr := by
  have hl := Leads.micro h (by rw [he]; exact hn)
  rw [he] at hl
  have hb : (setTodo (next ++ rest) u).seq.todo ≠ [] := hn
  have hk := (Keeps.setSeq u _).trans (point_keeps _ hb)
  obtain ⟨-, -, -, hlm, -, -, -, -, -, -, -, -, -, -, hr, hf, -⟩ := hk.own
  exact ⟨_, hl, by simp [setTodo], hw.stay (hk.woken (point_levels _ hb)), hlm, hr, hf⟩

/-- The pin is taken to drive a level (R171 steps 1, 3, 5). -/
theorem setLine_woken (l : Level) (s : State) : Woken [] s (s.setLineMode (forceMode l)) where
  own := MainOwned.refl _
  levels := by simp
  link := id
  chars _ := rfl
  tx := rfl
  idle hi := ⟨hi, by simp, rfl⟩
  rx _ := ⟨[], (List.append_nil _).symm, Gained.refl s⟩
  noArrival hn := ⟨hn, rfl⟩

/-- The level is held (R171 steps 2, 4, 6). -/
theorem holdLine_woken (l : Level) (ms : Nat) (s : State) :
    Woken [.level l ms] s (s.setWire (s.wire ++ [.level l ms])) where
  own := MainOwned.refl _
  levels := by
    rw [State.setWire_wire, levelsOf_append]
    rfl
  link := id
  chars _ := by
    have hlev : charsOf [.level l ms] = [] := rfl
    have hin : inFlight (s.setWire (s.wire ++ [.level l ms])) = inFlight s := rfl
    simp only [lineStream, charsOf_append, State.setWire_wire, State.setWire_rbTx, State.setWire_baud, hin, hlev,
      List.append_nil]
  tx := rfl
  idle hi := ⟨hi, rfl, rfl⟩
  rx _ := ⟨[], (List.append_nil _).symm, Gained.refl s⟩
  noArrival hn := ⟨hn, rfl⟩

/-- The pin is given back, with no value (R171 step 7). -/
theorem lineToUart_woken (s : State) : Woken [] s (giveRet .nothing (s.setLineMode .uart)) where
  own := MainOwned.refl _
  levels := by simp [giveRet]
  link := id
  chars _ := rfl
  tx := rfl
  idle hi := ⟨hi, by simp [giveRet], rfl⟩
  rx _ := ⟨[], (List.append_nil _).symm, Gained.refl s⟩
  noArrival hn := ⟨hn, rfl⟩

/-- LIN.WAKEUP from any state and under every schedule (R171). -/
theorem wakeup_returns {rest : List Micro} {s : State} (h : s.seq.todo = wakeupProg ++ rest) :
    ∃ u, Returns s rest u ∧ Woken wakeupLevels s u ∧ u.lineMode = .uart ∧ u.rails = s.rails ∧ u.freeCtr = s.freeCtr ∧
      u.seq.ret = .nothing := by
  obtain ⟨a, la, ta, wa, -, ra, fa⟩ := Leads.microWoken h rfl (by simp) (setLine_woken .high s)
  obtain ⟨b, lb, tb, wb, -, rb, fb⟩ := Leads.microWoken (m := .holdLine .high 10) ta rfl (by simp)
    (holdLine_woken .high 10 a)
  obtain ⟨c, lc, tc, wc, -, rc, fc⟩ := Leads.microWoken (m := .setLine .low) tb rfl (by simp) (setLine_woken .low b)
  obtain ⟨d, ld, td, wd, -, rd, fd⟩ := Leads.microWoken (m := .holdLine .low 1) tc rfl (by simp)
    (holdLine_woken .low 1 c)
  obtain ⟨e, le, te, we, -, re, fe⟩ := Leads.microWoken (m := .setLine .high) td rfl (by simp) (setLine_woken .high d)
  obtain ⟨f, lf, tf, wf, -, rf, ff⟩ := Leads.microWoken (m := .holdLine .high 105) te rfl (by simp)
    (holdLine_woken .high 105 e)
  refine ⟨giveRet .nothing (f.setLineMode .uart),
    .of_leads (((((la.trans lb).trans lc).trans ld).trans le).trans lf) (.last tf rfl), ?_, rfl, ?_, ?_, rfl⟩
  · exact (((((wa.trans wb).trans wc).trans wd).trans we).trans wf).trans (lineToUart_woken f)
  · exact ((((rf.trans re).trans rd).trans rc).trans rb).trans ra
  · exact ((((ff.trans fe).trans fd).trans fc).trans fb).trans fa

theorem Woken.of_setSeq {l : List WireItem} {s t : State} {q : Seq} (h : Woken l (s.setSeq q) t) : Woken l s t :=
  ⟨h.own, h.levels, h.link, h.chars, h.tx, h.idle, h.rx, h.noArrival⟩

theorem Woken.txBufFrame {l : List WireItem} {s t : State} (h : Woken l s t) : TxBufFrame 0 s t :=
  fun j _ => memRead_txbuf_congr h.tx j

/-- Settles O30: `Woken` holds of the whole command, and the clauses are its micro-steps. -/
theorem wakeupDrivesThreeLevels : Obligations.WakeupDrivesThreeLevels := by
  refine ⟨fun s => ?_, rfl, fun s l ms rest hn hr => ⟨fun h => ?_, fun h => ?_, fun h => ?_, fun h => ?_⟩, fun s hn h => ?_⟩
  · obtain ⟨u, hu, hw, hm, hr, hf, hret⟩ := wakeup_returns (rest := []) (s := accept .linWakeup wakeupProg s)
      (by simp [accept_todo])
    have hw := hw.of_setSeq
    have he := exec_of_returns (i := .linWakeup) rfl rfl hu
    rw [hret] at he
    refine ⟨_, he, hw.levels, ?_, hw.txBufFrame, fun hn => (hw.noArrival hn).2, fun hl hi =>
      (hw.idle (hl.2.2.1.txIdle hi)).2.1⟩
    have hown := hw.own
    rw [hm, hr, hf] at hown
    exact hown.commit (s := s.setLineMode .uart) .nothing
  · exact step_goOn (next := []) hn h rfl hr
  · exact step_goOn (next := []) hn h rfl hr
  · exact step_goOn (next := []) hn h rfl hr
  · exact step_goOn (next := []) hn h rfl hr
  · exact step_ret (r := .nothing) hn h rfl

end Sys2Proof.Machine
end

section
/-! LIN.HEADER on the line (42_linmaster.md R173 to R175, 92_eei_decisions.md D15): the bytes a run queues, whatever the
rates, the whole header from a drained transmitter, and the statement. -/

namespace Sys2Proof.Machine

/-! ### Bytes queued, whatever the rates -/

/-- A part of a run in which agent M sends the bytes `d` in order, each queued or dropped (R142). -/
structure Queued (d : List Byte) (s t : State) : Prop where
  link : LinkOk t
  bytes : ∃ sent, List.Sublist sent d ∧ (s.rbTx.count.toNat + d.length ≤ 8 → sent = d) ∧
    bytesOf (lineStream t) = bytesOf (lineStream s) ++ sent
  txCount : t.rbTx.count.toNat ≤ s.rbTx.count.toNat + d.length

theorem Queued.trans {d e : List Byte} {s t u : State} (h : Queued d s t) (g : Queued e t u) : Queued (d ++ e) s u where
  link := g.link
  bytes := by
    obtain ⟨x, hx, hfit, hline⟩ := h.bytes
    obtain ⟨y, gy, gfit, gline⟩ := g.bytes
    have hc := h.txCount
    refine ⟨x ++ y, hx.append gy, fun hle => ?_, by rw [gline, hline, List.append_assoc]⟩
    rw [List.length_append] at hle
    rw [hfit (by omega), gfit (by omega)]
  txCount := by
    have hc := h.txCount
    have gc := g.txCount
    rw [List.length_append]
    omega

theorem Queued.of_nothing {s t : State} (hl : LinkOk t) (hb : bytesOf (lineStream t) = bytesOf (lineStream s))
    (hc : t.rbTx.count.toNat ≤ s.rbTx.count.toNat) : Queued [] s t :=
  ⟨hl, ⟨[], .refl _, fun _ => rfl, by simpa using hb⟩, hc⟩

theorem Keeps.queued {s t : State} (h : Keeps s t) (hl : LinkOk s) : Queued [] s t :=
  .of_nothing (h.link hl) (by rw [h.line hl]) h.txCount

theorem Offered.queued {d : List Byte} {s t : State} (h : Offered d s t) : Queued d s t where
  link := h.link
  bytes := by
    obtain ⟨sent, hs, hfit, hline⟩ := h.line
    exact ⟨sent, hs, hfit, by rw [hline, bytesOf_append, bytesOf_chars]⟩
  txCount := h.txCount

theorem Captured.queued {n : Nat} {l : List Byte} {s t : State} (h : Captured n l s t) (hl : LinkOk s) : Queued [] s t :=
  .of_nothing (h.link hl) (by rw [h.line hl]) h.txCount

/-- A micro-step with the point after it: the other agents go on from what the micro-step left. -/
theorem Leads.microKeeps {s u : State} {m : Micro} {next rest : List Micro} (h : s.seq.todo = m :: rest)
    (he : microEffect m s = (u, next)) (hn : next ++ rest ≠ []) :
    ∃ t, Leads s t ∧ t.seq.todo = next ++ rest ∧ Keeps u t ∧ levelsOf t.wire = levelsOf u.wire ∧
      (u.gie = true → u.txirq = true → t.rbTx.count.toNat ≤ u.rbTx.count.toNat - 1) := by
  have hl := Leads.micro h (by rw [he]; exact hn)
  rw [he] at hl
  have hb : (setTodo (next ++ rest) u).seq.todo ≠ [] := hn
  exact ⟨_, hl, by simp [setTodo], (Keeps.setSeq u _).trans (point_keeps _ hb), point_levels _ hb, point_hands_over _ hb⟩

/-- A rate is selected (R174). -/
theorem setBaud_keeps (r : Rate) {rest : List Micro} (hr : rest ≠ []) {s : State} (h : s.seq.todo = .setBaud r :: rest) :
    ∃ t, Leads s t ∧ t.seq.todo = rest ∧ Keeps (s.setBaud r) t := by
  obtain ⟨t, lt, tt, kt, -⟩ := Leads.microKeeps (u := s.setBaud r) (next := []) h rfl hr
  exact ⟨t, lt, tt, kt⟩

/-- A selected rate does not change the bytes on their way. -/
theorem setBaud_queued {r : Rate} {s t : State} (h : Keeps (s.setBaud r) t) (hl : LinkOk s) : Queued [] s t :=
  .of_nothing (h.link hl) (by rw [h.line hl, bytesOf_lineStream, bytesOf_lineStream]; rfl) h.txCount

theorem drainProg_keeps {rest : List Micro} (hr : rest ≠ []) {s : State} (h : s.seq.todo = drainProg ++ rest) :
    ∃ t, Leads s t ∧ t.seq.todo = rest ∧ Keeps s t :=
  drain_leads rest hr s.params.drainPolls 0 s (by omega) h

/-- LIN.HEADER up to its `return`: its three bytes in order, each queued or dropped. -/
theorem header_queued (id : BitVec 6) {rest : List Micro} {s : State} (h : s.seq.todo = headerProg id ++ rest)
    (hl : LinkOk s) :
    ∃ t, Leads s t ∧ t.seq.todo = .returnValue (pid id) :: rest ∧ Queued [0x00, 0x55, pid id] s t := by
  have h' : s.seq.todo = drainProg ++ .setBaud .brk :: (sendProg Params.breakByte ++
      (drainProg ++ .setBaud .normal :: .headerPid id :: rest)) := h
  obtain ⟨a, la, ta, ka⟩ := drainProg_keeps (by simp) h'
  have qa := ka.queued hl
  obtain ⟨b, lb, tb, kb⟩ := setBaud_keeps .brk (by simp [sendProg]) ta
  have qb := setBaud_queued kb qa.link
  obtain ⟨c, lc, tc, sc⟩ := send_sent Params.breakByte (by simp [drainProg]) tb qb.link
  have qc := (sc.offered qb.link).queued
  obtain ⟨d, ld, td, kd⟩ := drainProg_keeps (by simp) tc
  have qd := kd.queued qc.link
  obtain ⟨e, le, te, ke⟩ := setBaud_keeps .normal (by simp) td
  have qe := setBaud_queued ke qd.link
  obtain ⟨f, lf, tf, -, kf⟩ := Leads.quietMicro te _ rfl (by simp [microEffect, microHeaderPid, goOn])
  have qf := kf.queued qe.link
  have tf' : f.seq.todo = sendProg Params.syncByte ++ (sendProg (pid id) ++ .returnValue (pid id) :: rest) := tf
  obtain ⟨g, lg, tg, sg⟩ := send_sent Params.syncByte (by simp) tf' qf.link
  have qg := (sg.offered qf.link).queued
  obtain ⟨i, li, ti, si⟩ := send_sent (pid id) (by simp) tg qg.link
  exact ⟨i, ((((((la.trans lb).trans lc).trans ld).trans le).trans lf).trans lg).trans li, ti,
    ((((((qa.trans qb).trans qc).trans qd).trans qe).trans qf).trans qg).trans (si.offered qg.link).queued⟩

/-! ### From a drained transmitter -/

/-- A byte sent by an idle transmitter is handed over at once, whatever the other agents do: the kick is served before
any other turn (R144, R147). -/
theorem send_idle_count (v : Byte) {rest : List Micro} (hr : rest ≠ []) {s : State} (h : s.seq.todo = sendProg v ++ rest)
    (hg : s.gie = true) (hi : TxIdle s) (h0 : s.rbTx.count.toNat = 0) :
    ∃ t, Leads s t ∧ t.seq.todo = rest ∧ t.rbTx.count.toNat = 0 := by
  obtain ⟨h8, -⟩ | ⟨-, e⟩ := enqueue_cases .tx v s
  · rw [State.ring_tx] at h8
    omega
  have he : microEffect (.sendEnq v) s = (s.setRbTx (s.rbTx.push v), []) := by
    simp only [microEffect, microSendEnq, atomic_enqueue, e]
    rfl
  -- the transmitter stays idle while one byte is queued; the kick is then served at the point after it
  obtain ⟨a, la, ta, ka, -⟩ := Leads.microKeeps (rest := .sendKick :: .sendTest :: rest) h he (by simp)
  obtain ⟨ia, -, ra⟩ := ka.idle hi
  obtain ⟨-, ga, -⟩ := ka.own
  have hk : microEffect .sendKick a = ((a.setTxIdle false).setTxirq true, []) := by
    simp [microEffect, microSendKick, goOn, kick, ia.1, forceTxIrq]
  obtain ⟨b, lb, tb, -, -, hb⟩ := Leads.microKeeps ta hk (by simp)
  obtain ⟨t, lt, tt, -, kt⟩ := sendTest_leads rest hr b tb
  have hcb : b.rbTx.count.toNat ≤ a.rbTx.count.toNat - 1 := hb (ga.trans hg) rfl
  have hca : a.rbTx.count.toNat = 1 := by
    rw [ra, State.setRbTx_rbTx, Ring.push_count _ _ (by omega), h0]
  have hct := kt.txCount
  exact ⟨t, (la.trans lb).trans lt, tt, by omega⟩

/-- With nothing queued the line does not see the selected rate change (R150). -/
theorem lineStream_setBaud {s : State} (r : Rate) (h0 : s.rbTx.count.toNat = 0) :
    lineStream (s.setBaud r) = lineStream s := by
  have hc := Ring.contents_of_empty _ ((Ring.count_eq_zero _).mpr h0)
  simp only [lineStream, State.setBaud_wire, State.setBaud_rbTx, hc, List.map_nil]
  rfl

/-- LIN.HEADER from a drained transmitter, under every schedule: the break alone at the BREAK rate, all three bytes on
their way, two of them queued at most. -/
theorem header_drained (id : BitVec 6) {rest : List Micro} {s : State} (h : s.seq.todo = headerProg id ++ rest)
    (hl : LinkOk s) (hg : s.gie = true) (hd : TxDrained s) :
    ∃ t, Leads s t ∧ t.seq.todo = .returnValue (pid id) :: rest ∧ lineStream t = lineStream s ++ headerChars id ∧
      t.rbTx.count.toNat ≤ 2 := by
  have h' : s.seq.todo = drainProg ++ .setBaud .brk :: (sendProg Params.breakByte ++
      (drainProg ++ .setBaud .normal :: .headerPid id :: rest)) := h
  have h0 := (Ring.count_eq_zero _).mp hd.2
  obtain ⟨a, la, ta, ka⟩ := drainProg_keeps (by simp) h'
  obtain ⟨ia, -, ra⟩ := ka.idle (hl.2.2.1.txIdle hd.1)
  have ha : lineStream a = lineStream s := ka.line hl
  obtain ⟨b, lb, tb, kb⟩ := setBaud_keeps .brk (by simp [sendProg]) ta
  obtain ⟨ib, -, rb⟩ := kb.idle ia
  have lkb : LinkOk b := kb.link (ka.link hl)
  have hb : lineStream b = lineStream a := (kb.line (ka.link hl)).trans (lineStream_setBaud .brk (by rw [ra, h0]))
  have cb : b.rbTx.count.toNat = 0 := by rw [rb, State.setBaud_rbTx, ra, h0]
  have gb : b.gie = true := by
    obtain ⟨-, g1, -⟩ := ka.own
    obtain ⟨-, g2, -⟩ := kb.own
    exact (g2.trans g1).trans hg
  have rateb : b.baud = .brk := by
    obtain ⟨-, -, r, -⟩ := kb.own
    exact r
  -- the break, which the handler takes at once, so that the second change of the rate finds nothing queued
  obtain ⟨c, lc, tc, sc⟩ := send_sent Params.breakByte (by simp [drainProg]) tb lkb
  obtain ⟨c', lc', tc', cc⟩ := send_idle_count Params.breakByte (by simp [drainProg]) tb gb ib cb
  obtain rfl := lc.unique lc' (tc.trans tc'.symm)
  have hc : lineStream c = lineStream b ++ [.char 0x00 .brk] := by
    rw [sc.queued (by omega), rateb]
    rfl
  obtain ⟨d, ld, td, kd⟩ := drainProg_keeps (by simp) tc
  have cd := kd.txCount
  have hdl : lineStream d = lineStream c := kd.line sc.link
  obtain ⟨e, le, te, ke⟩ := setBaud_keeps .normal (by simp) td
  have lkd := kd.link sc.link
  have hel : lineStream e = lineStream d := (ke.line lkd).trans (lineStream_setBaud .normal (by omega))
  have ce : e.rbTx.count.toNat ≤ d.rbTx.count.toNat := ke.txCount
  obtain ⟨f, lf, tf, -, kf⟩ := Leads.quietMicro te _ rfl (by simp [microEffect, microHeaderPid, goOn])
  have lkf := kf.link (ke.link lkd)
  have hf : lineStream f = lineStream e := kf.line (ke.link lkd)
  have cf := kf.txCount
  have ratef : f.baud = .normal := by
    obtain ⟨-, -, r1, -⟩ := ke.own
    obtain ⟨-, -, r2, -⟩ := kf.own
    exact r2.trans r1
  -- the other two bytes
  have tf' : f.seq.todo = sendProg Params.syncByte ++ (sendProg (pid id) ++ .returnValue (pid id) :: rest) := tf
  obtain ⟨g, lg, tg, sg⟩ := send_sent Params.syncByte (by simp) tf' lkf
  have hgl : lineStream g = lineStream f ++ [.char 0x55 .normal] := by
    rw [sg.queued (by omega), ratef]
    rfl
  have cg := sg.txCount
  have rateg : g.baud = .normal := (sg.offered lkf).baud.trans ratef
  obtain ⟨i, li, ti, si⟩ := send_sent (pid id) (by simp) tg sg.link
  have ci := si.txCount
  refine ⟨i, ((((((la.trans lb).trans lc).trans ld).trans le).trans lf).trans lg).trans li, ti, ?_, by omega⟩
  rw [si.queued (by omega), rateg, hgl, hf, hel, hdl, hc, hb, ha]
  simp [headerChars]

/-! ### The statement -/

/-- LIN.HEADER up to its `return`, all its clauses of one state. -/
theorem header_leads (id : BitVec 6) {rest : List Micro} {s : State} (h : s.seq.todo = headerProg id ++ rest) :
    ∃ t, Leads s t ∧ t.seq.todo = .returnValue (pid id) :: rest ∧ Queues 3 .normal s t ∧
      (LinkOk s → Queued [0x00, 0x55, pid id] s t) ∧
      (LinkOk s → s.gie = true → TxDrained s →
        lineStream t = lineStream s ++ headerChars id ∧ t.rbTx.count.toNat ≤ 2) := by
  obtain ⟨t, lt, tt, qt⟩ := headerProg_queues id rest s h
  refine ⟨t, lt, tt, qt, fun hl => ?_, fun hl hg hd => ?_⟩
  · obtain ⟨u, lu, tu, qu⟩ := header_queued id h hl
    obtain rfl := lt.unique lu (tt.trans tu.symm)
    exact qu
  · obtain ⟨u, lu, tu, hu⟩ := header_drained id h hl hg hd
    obtain rfl := lt.unique lu (tt.trans tu.symm)
    exact hu

/-- Settles O32: the three bytes in order, whole from a drained transmitter, and the micro-steps of the drain wait. -/
theorem headerGoesOutInOrder : Obligations.HeaderGoesOutInOrder := by
  refine ⟨fun id s hl => ?_, fun _ => rfl, fun s k rest hn hr => ⟨fun h => ⟨fun hk => ?_, fun hi hk => ?_⟩, fun h => ?_⟩⟩
  · obtain ⟨t, lt, tt, -, qt, dt⟩ := header_leads id (rest := []) (s := accept (.linHeader id) (headerProg id) s)
      (by simp [accept_todo])
    have he := exec_of_returns (i := .linHeader id) rfl rfl (.of_leads lt (.last tt rfl))
    obtain ⟨sent, hs, -, hb⟩ := (qt hl).bytes
    exact ⟨_, sent, he, (qt hl).link, hs, hb, fun hg hd => (dt hl hg hd).1⟩
  · refine step_movedOn (next := []) hn h ?_ hr
    obtain hi | hk := hk
    · exact if_pos hi
    · exact (congrArg _ (if_pos hk)).trans (ite_self _)
  · exact step_movedOn (next := [.drainWait k]) hn h
      ((if_neg (by simp [hi])).trans (if_neg (Nat.not_le.mpr hk))) (by simp)
  · exact step_movedOn (next := [.drainTest (k + 1)]) hn h rfl (by simp)

end Sys2Proof.Machine
end

section
/-! FX.CMD and FX.STATUS (43_frame_exchange.md R210 to R212): the master frame, the status request with its response, and
the statements. -/

namespace Sys2Proof.Machine

/-! ### What RB[RX] gains while nothing is taken from it -/

/-- A run of parts that neither enqueue to nor dequeue from RB[RX] only adds to it what arrives. -/
theorem gains_runRel {ps : List Part} (hc : Closed ps) (hps : .ring ∉ ps ∧ .take ∉ ps) : RunRel (Micro.Of ps) fun s t =>
    (LinkOk s → LinkOk t ∧ ∃ new, t.rbRx.contents = s.rbRx.contents ++ new ∧ Gained new s t) ∧
    (NoArrival s → NoArrival t ∧ t.rbRx = s.rbRx) := by
  have micro : ∀ m s, m.Of ps → (microEffect m s).1.rbRx = s.rbRx ∧ (microEffect m s).1.rxirq = s.rxirq ∧
      (microEffect m s).1.rxreg = s.rxreg ∧ (microEffect m s).1.sched = s.sched := fun m s hm => by
    have hw := microEffect_writes m s
    have hp : ∀ p : Part, p ≠ .ring → p ≠ .take → Reg.rbRx ∉ p.writes ∧ .rxirq ∉ p.writes ∧ .rxreg ∉ p.writes := by
      intro p
      cases p <;> decide
    obtain ⟨h1, h2, h3⟩ := hp m.part (fun h => hps.1 (h ▸ hm)) (fun h => hps.2 (h ▸ hm))
    exact ⟨hw.rbRx h1, hw.rxirq h2, hw.rxreg h3, hw.sched (part_writes_sched _)⟩
  refine .ofParts hc (fun s => ⟨fun hl => ⟨hl, [], by simp, Gained.refl s⟩, fun hn => ⟨hn, rfl⟩⟩) ?_ ?_
    (fun s q => ⟨fun hl => ⟨hl, [], by simp, Gained.refl s⟩, fun hn => ⟨hn, rfl⟩⟩)
    (fun s hb => ⟨fun hl => ⟨(point_keeps s hb).link hl, (point_keeps s hb).rx hl⟩, (point_keeps s hb).noArrival⟩)
  · intro s t u h k
    refine ⟨fun hl => ?_, fun hn => ?_⟩
    · obtain ⟨h1, a, ha, ga⟩ := h.1 hl
      obtain ⟨k1, b, hb, gb⟩ := k.1 h1
      exact ⟨k1, a ++ b, by rw [hb, ha, List.append_assoc], ga.trans gb⟩
    · obtain ⟨h1, h2⟩ := h.2 hn
      obtain ⟨k1, k2⟩ := k.2 h1
      exact ⟨k1, k2.trans h2⟩
  · intro m s hm
    obtain ⟨h1, h2, h3, h4⟩ := micro m s hm
    refine ⟨fun hl => ⟨microEffect_linkOk m s hl, [], by simp [h1], ?_⟩, fun hn => ⟨?_, h1⟩⟩
    · simp [Gained, arrivals, waiting, h2, h3, h4]
    · simpa [NoArrival, h2, h4] using hn

/-! ### Calls that return -/

/-- A call of SL.SEND, up to its return (R141). -/
theorem send_returns (v : Byte) {rest : List Micro} {s : State} (h : s.seq.todo = sendProg v ++ rest) (hl : LinkOk s) :
    ∃ u, Returns s rest u ∧ Sent v s u ∧ u.seq.ret = .nothing := by
  obtain ⟨t, lt, tt, -, st⟩ := send_leads v rest s h hl
  by_cases hc : t.rbTx.count < Params.rbCapacity
  · have he : microEffect .sendTest t = (giveRet .nothing t, []) := if_pos hc
    exact ⟨_, .of_leads lt (.last tt he), st.keeps (Keeps.setSeq t _), rfl⟩
  · have he : microEffect .sendTest t = (t, [.sendWait]) := if_neg hc
    obtain ⟨w, lw, tw, -, kw⟩ := Leads.quietMicro tt t.seq (by rw [he]; rfl) (by simp [he])
    rw [he] at tw
    exact ⟨giveRet .nothing w, .of_leads (lt.trans lw) (.last tw rfl),
      (st.keeps kw).keeps (Keeps.setSeq w _), rfl⟩

/-- A `return v` inside a command: the caller finds v (R210). -/
theorem returnValue_leads {v : Byte} {rest : List Micro} (hr : rest ≠ []) {s : State}
    (h : s.seq.todo = .returnValue v :: rest) :
    ∃ t, Leads s t ∧ t.seq.todo = rest ∧ t.seq.ret = .value v ∧ Keeps s t :=
  Leads.quietMicro h { s.seq with ret := .value v } rfl hr

/-! ### FX.CMD -/

/-- What FX.CMD queues (R106). -/
def masterFrame (id : BitVec 6) (d : List Byte) : List WireItem :=
  headerChars id ++ (d ++ [checksumOf (pid id) d]).map fun b => .char b .normal

theorem bytesOf_headerChars (id : BitVec 6) : bytesOf (headerChars id) = [0x00, 0x55, pid id] := rfl

theorem bytesOf_masterFrame (id : BitVec 6) (d : List Byte) :
    bytesOf (masterFrame id d) = [0x00, 0x55, pid id] ++ (d ++ [checksumOf (pid id) d]) := by
  rw [masterFrame, bytesOf_append, bytesOf_chars, bytesOf_headerChars]

/-- All that FX.CMD does with a consistent link, under every schedule. -/
structure MasterFrame (id : BitVec 6) (len : Nat) (s u : State) : Prop where
  own : MainOwned (((s.setCsum u.csum).setBaud .normal).setSeq u.seq) u
  csum : u.csum = (payloadOf len s).foldl addByte ((pid id).setWidth 16)
  queued : Queued (bytesOf (masterFrame id (payloadOf len s))) s u
  tx : TxStores (len + 4) s u
  ret : u.seq.ret = .nothing
  drained : s.gie = true → TxDrained s → ∃ w, List.Sublist w (masterFrame id (payloadOf len s)) ∧
    (len ≤ 5 → w = masterFrame id (payloadOf len s)) ∧ lineStream u = lineStream s ++ w ∧
      u.rbTx.count.toNat ≤ len + 3

theorem cmd_returns (id : BitVec 6) {len : Nat} (hlen : len ≤ 8) {rest : List Micro} {s : State}
    (h : s.seq.todo = cmdProg id len ++ rest) (hl : LinkOk s) : ∃ u, Returns s rest u ∧ MasterFrame id len s u := by
  obtain ⟨a, la, ta, qa, oa, da⟩ := header_leads id (rest := .dataInitHanded len :: rest) (s := s) (by simp [h, cmdProg])
  have oa := oa hl
  obtain ⟨b, lb, tb, rb, kb⟩ := returnValue_leads (by simp) ta
  have hand : handed b = pid id := by simp [handed, rb]
  obtain ⟨c, lc, tc, oc, cc⟩ := Leads.microCsum tb ((pid id).setWidth 16)
    (by simp [microEffect, microDataInit, goOn, hand]) (by simp [microEffect, microDataInit, goOn]) (kb.link oa.link)
  obtain ⟨d, ld, td, od, cd⟩ := data_leads hlen rest c tc oc.link
  obtain ⟨u, ru, su, retu⟩ := send_returns (foldSum d.csum) td od.link
  -- DBUF is what it was before the header
  have ob := kb.offered oa.link
  have hdb : a.dbuf = s.dbuf := by
    obtain ⟨-, -, -, -, -, -, -, -, -, hd, -⟩ := qa.own
    exact hd
  have hpay : payloadOf len c = payloadOf len s := by
    rw [payloadOf_congr oc.dbuf, payloadOf_congr ob.dbuf, payloadOf_congr hdb]
  rw [hpay] at od cd
  have hcs : foldSum d.csum = checksumOf (pid id) (payloadOf len s) := by
    rw [cd, cc, ← checksum_eq]
    rfl
  rw [hcs] at su
  have od := ((ob.trans oc).trans od).trans (su.offered od.link)
  rw [List.nil_append, List.nil_append] at od
  have hsize : (payloadOf len s ++ [checksumOf (pid id) (payloadOf len s)]).length = len + 1 := by
    simp [payloadOf_length hlen]
  have hrate := qa.baud
  refine ⟨u, .of_leads (((la.trans lb).trans lc).trans ld) ru, ?_, ?_, ?_, ?_, retu, fun hg hd => ?_⟩
  · have h1 := qa.own
    have h2 := od.own
    clear * - h1 h2
    simp_all [MainOwned]
  · rw [su.csum, cd, cc]
  · rw [bytesOf_masterFrame]
    exact oa.trans od.queued
  · have htx := od.tx
    rw [hsize] at htx
    rw [show len + 4 = 3 + (len + 1) by omega]
    exact qa.tx.trans htx
  · obtain ⟨hline, hcount⟩ := da hl hg hd
    obtain ⟨sent, hs, hfit, hsent⟩ := od.line
    rw [hrate, hline, List.append_assoc] at hsent
    rw [hsize] at hfit
    have hcu := od.txCount
    rw [hsize] at hcu
    refine ⟨_, (List.Sublist.refl _).append (hs.map _), fun h5 => ?_, hsent, by omega⟩
    rw [hfit (by omega)]
    rfl

/-- Settles O37: `MasterFrame` holds of the whole command. -/
theorem masterFrameGoesOutInOrder : Obligations.MasterFrameGoesOutInOrder := by
  intro id len s hlen hl
  obtain ⟨u, ru, mu⟩ := cmd_returns id hlen (rest := []) (s := accept (.fxCmd id len) (cmdProg id len.toNat) s)
    (by simp [accept_todo]) hl
  have he := exec_of_returns (i := .fxCmd id len) rfl (decide_eq_true hlen) ru
  rw [mu.ret] at he
  obtain ⟨sent, hs, -, hb⟩ := mu.queued.bytes
  refine ⟨_, sent, he, ?_, hs, hb, mu.tx.frame, fun hn => (mu.tx.noArrival hn).2,
    MainOwned.commit (s := (s.setCsum u.csum).setBaud .normal) mu.own .nothing, fun hg hd => ?_⟩
  · have hc : ((commitResult .nothing u).setSeq Seq.idle).csum = u.csum := rfl
    rw [hc, mu.csum, foldl_addByte_toNat, BitVec.toNat_setWidth_of_le (by decide)]
    rfl
  · obtain ⟨w, hw, hfit, hline, -⟩ := mu.drained hg hd
    exact ⟨w, hw, hfit, hline⟩

/-! ### FX.STATUS -/

/-- All that FX.STATUS does, from any state and under every schedule, with the response `l`. -/
structure Answered (id : BitVec 6) (m : Nat) (l : List Byte) (s u : State) : Prop where
  own : MainOwned { s with resp := u.resp, respLen := u.respLen, freeCtr := u.freeCtr, baud := .normal, seq := u.seq } u
  ret : u.seq.ret = .value (BitVec.ofNat 8 l.length)
  respLen : u.respLen = BitVec.ofNat 4 l.length
  le : l.length ≤ m
  resp : u.resp.toList.take l.length = l
  tx : TxBufFrame 3 s u
  rx : LinkOk s → ∃ new, s.rbRx.contents ++ new = l ++ u.rbRx.contents ∧ Gained new s u
  atLeast : LinkOk s → min m s.rbRx.count.toNat ≤ l.length
  noArrival : NoArrival s → NoArrival u ∧ s.rbRx.contents = l ++ u.rbRx.contents ∧ RxBufFrame s u ∧
    l.length = min m s.rbRx.count.toNat
  silent : SilentPeer s → SilentPeer u ∧ u.resp = s.resp ∧ l = []
  queued : LinkOk s → Queued [0x00, 0x55, pid id] s u
  drained : LinkOk s → s.gie = true → TxDrained s → lineStream u = lineStream s ++ headerChars id ∧ u.rbTx.count.toNat ≤ 2

theorem Answered.keeps {id : BitVec 6} {m : Nat} {l : List Byte} {s t u : State} (h : Answered id m l s t)
    (k : Keeps t u) (hr : u.seq.ret = t.seq.ret) : Answered id m l s u := by
  obtain ⟨-, -, -, -, -, -, -, kresp, klen, -⟩ := k.own
  have kresp : u.resp = t.resp := kresp
  have klen : u.respLen = t.respLen := klen
  exact
    { own := by
        have h1 := h.own
        have h2 := k.own
        clear * - h1 h2
        simp_all [MainOwned]
      ret := hr.trans h.ret
      respLen := klen.trans h.respLen
      le := h.le
      resp := by rw [kresp, h.resp]
      tx := fun j hj => (memRead_txbuf_congr k.txStorage j).trans (h.tx j hj)
      rx := fun hl => by
        obtain ⟨a, ha, ga⟩ := h.rx hl
        obtain ⟨b, hb, gb⟩ := k.rx (h.queued hl).link
        exact ⟨a ++ b, by rw [hb, ← List.append_assoc, ha, List.append_assoc], ga.trans gb⟩
      atLeast := h.atLeast
      noArrival := fun hn => by
        obtain ⟨h1, h2, h3, h4⟩ := h.noArrival hn
        obtain ⟨k1, k2⟩ := k.noArrival h1
        exact ⟨k1, by rw [k2, h2], fun j => (congrArg (fun r : Ring => r.storage[j]?) k2).trans (h3 j), h4⟩
      silent := fun hp => by
        obtain ⟨h1, h2, h3⟩ := h.silent hp
        exact ⟨h1.of_keeps k, kresp.trans h2, h3⟩
      queued := fun hl => (h.queued hl).trans (k.queued (h.queued hl).link)
      drained := fun hl hg hd => by
        obtain ⟨h1, h2⟩ := h.drained hl hg hd
        exact ⟨(k.line (h.queued hl).link).trans h1, k.txCount.trans h2⟩ }

/-- The response captured after the header (R212). -/
theorem status_returns (id : BitVec 6) {m : Nat} (hm : m ≤ 9) {rest : List Micro} {s : State}
    (h : s.seq.todo = statusProg id m ++ rest) : ∃ u l, Returns s rest u ∧ Answered id m l s u := by
  have h' : s.seq.todo = headerProg id ++ (respProg m ++ rest) := by rw [h, statusProg, List.append_assoc]
  obtain ⟨a, la, ta, qa, oa, da⟩ := header_leads id h'
  obtain ⟨ha, -⟩ := (gains_runRel (ps := [.header, .send]) (by decide) (by decide)).leads
    (p := headerProg id) la h' (by simp [headerProg, drainProg, sendProg, Micro.part]) (by rw [ta, progCost_cons]; omega)
  obtain ⟨b, lb, tb, -, kb⟩ := returnValue_leads (by simp [respProg]) ta
  obtain ⟨u, l, ru, cu, su⟩ := resp_capture hm tb
  have rx : LinkOk s → ∃ new, b.rbRx.contents = s.rbRx.contents ++ new ∧ Gained new s b := fun hl => by
    obtain ⟨lka, x, hx, gx⟩ := ha.1 hl
    obtain ⟨y, hy, gy⟩ := kb.rx lka
    exact ⟨x ++ y, by rw [hy, hx, List.append_assoc], gx.trans gy⟩
  have hn : NoArrival s → NoArrival b ∧ b.rbRx = s.rbRx := fun hn => by
    obtain ⟨h1, h2⟩ := ha.2 hn
    obtain ⟨k1, k2⟩ := kb.noArrival h1
    exact ⟨k1, k2.trans h2⟩
  have qb : LinkOk s → Queued [0x00, 0x55, pid id] s b := fun hl => (oa hl).trans (kb.queued (oa hl).link)
  have hret := cu.ret
  have hlen := cu.respLen
  have hle := cu.le
  have hresp := cu.resp
  simp only [Nat.zero_add, List.take_zero, List.nil_append] at hret hlen hle hresp
  refine ⟨u, l, .of_leads (la.trans lb) ru, ?_⟩
  exact
    { own := by
        have h1 := qa.own
        have h2 := kb.own
        have h3 := cu.own
        clear * - h1 h2 h3
        simp_all [MainOwned]
      ret := hret
      respLen := hlen
      le := hle
      resp := hresp
      tx := fun j hj => ((memRead_txbuf_congr cu.tx.1 j).trans (memRead_txbuf_congr kb.txStorage j)).trans
        (qa.tx.frame j hj)
      rx := fun hl => by
        obtain ⟨x, hx, gx⟩ := rx hl
        obtain ⟨y, hy, gy⟩ := cu.rx (qb hl).link
        exact ⟨x ++ y, by rw [← List.append_assoc, ← hx, hy], gx.trans gy⟩
      atLeast := fun hl => by
        obtain ⟨x, hx, -⟩ := rx hl
        have hlen := congrArg List.length hx
        simp only [List.length_append, Ring.contents_length] at hlen
        have := cu.atLeast (qb hl).link
        omega
      noArrival := fun hns => by
        obtain ⟨h1, h2⟩ := hn hns
        obtain ⟨c1, c2, -⟩ := cu.noArrival h1
        have hall := cu.all h1
        rw [h2, Nat.zero_add, Nat.zero_add] at hall
        exact ⟨c1, by rw [← h2, c2], fun j => (cu.rxBufFrame h1 j).trans (congrArg (fun r : Ring => r.storage[j]?) h2), hall⟩
      silent := fun hp => by
        obtain ⟨h1, h2⟩ := hn hp.1
        have hpb : SilentPeer b := ⟨h1, by rw [h2]; exact hp.2⟩
        obtain ⟨t, kt, e⟩ := su hpb
        have hall := cu.all h1
        rw [hpb.2, Nat.zero_add] at hall
        obtain ⟨-, -, -, -, -, -, -, ht, -⟩ := kt.own
        obtain ⟨-, -, -, -, -, -, -, hb, -⟩ := kb.own
        obtain ⟨-, -, -, -, -, -, -, ha, -⟩ := qa.own
        have hres : t.resp = s.resp := (ht.trans hb).trans ha
        have hpt := hpb.of_keeps kt
        exact ⟨by rw [e]; exact hpt, by rw [e]; exact hres,
          List.eq_nil_of_length_eq_zero (hall.trans (by simp))⟩
      queued := fun hl => (qb hl).trans (cu.queued (qb hl).link)
      drained := fun hl hg hd => by
        obtain ⟨h1, h2⟩ := da hl hg hd
        exact ⟨by rw [cu.line (qb hl).link, kb.line (oa hl).link, h1], (cu.txCount.trans kb.txCount).trans h2⟩ }

/-- A count of at most nine bytes fits its register. -/
theorem toNat_ofNat_of_le {w n : Nat} (hw : 9 < 2 ^ w) (hn : n ≤ 9) : (BitVec.ofNat w n).toNat = n := by
  rw [BitVec.toNat_ofNat]
  exact Nat.mod_eq_of_lt (by omega)

/-- Settles O38: `Answered` holds of the whole command. -/
theorem statusRequestSendsAndCaptures : Obligations.StatusRequestSendsAndCaptures := by
  intro id m s hm hl
  obtain ⟨u, l, ru, au⟩ := status_returns id hm (rest := []) (s := accept (.fxStatus id m) (statusProg id m.toNat) s)
    (by simp [accept_todo])
  have he := exec_of_returns (i := .fxStatus id m) rfl (decide_eq_true hm) ru
  rw [au.ret] at he
  obtain ⟨new, hnew, hg⟩ := au.rx hl
  obtain ⟨sent, hs, -, hb⟩ := (au.queued hl).bytes
  have hle := au.le
  refine ⟨_, l.length, new, sent, he, hle, ?_, ?_, hnew.trans (congrArg (· ++ u.rbRx.contents) au.resp.symm), hg,
    fun hn => (au.noArrival hn).2.2.2, hs, hb, au.tx, fun hn => (au.noArrival hn).2.2.1, ?_, fun hg hd =>
      (au.drained hl hg hd).1⟩
  · have hv : (BitVec.ofNat 8 l.length).toNat = l.length := toNat_ofNat_of_le (by decide) (hle.trans hm)
    exact hv
  · have hv : u.respLen.toNat = l.length := by rw [au.respLen, toNat_ofNat_of_le (by decide) (hle.trans hm)]
    exact hv
  · exact MainOwned.commit (s := (((s.setResp u.resp).setRespLen u.respLen).setFreeCtr u.freeCtr).setBaud .normal)
      au.own (.value _)

end Sys2Proof.Machine
end

section
/-! Status requests inside the sequences (44_orchestration.md R220): what a whole run leaves alone, one request and its
response, SEQ.LOADCHK (R230), and the statements on it. -/

namespace Sys2Proof.Machine

/-! ### What runs leave alone -/

/-- A run without RB.ENQ stores nothing in RXBUF unless a character arrives (R60). -/
theorem rxFrame_runRel {ps : List Part} (hc : Closed ps) (hps : .ring ∉ ps) :
    RunRel (Micro.Of ps) fun s t => NoArrival s → NoArrival t ∧ t.rbRx.storage = s.rbRx.storage := by
  refine .ofParts hc (fun _ hn => ⟨hn, rfl⟩) (fun s t u h k hn => ?_) (fun m s hm hn => ?_) (fun _ _ hn => ⟨hn, rfl⟩)
    (fun s hb hn => ?_)
  · obtain ⟨h1, h2⟩ := h hn
    obtain ⟨k1, k2⟩ := k h1
    exact ⟨k1, k2.trans h2⟩
  · have hw := microEffect_writes m s
    have hna : NoArrival (microEffect m s).1 := by
      have hp : ∀ p : Part, Reg.rxirq ∉ p.writes := by
        intro p
        cases p <;> decide
      simpa [NoArrival, hw.sched (part_writes_sched _), hw.rxirq (hp _)] using hn
    have hdeq : (dequeue .rx s).2.rbRx.storage = s.rbRx.storage := by
      obtain ⟨-, e⟩ | ⟨-, e⟩ := dequeue_cases .rx s <;> rw [e]
      rfl
    refine ⟨hna, ?_⟩
    by_cases ht : m.part = .take
    · cases m <;> simp [Micro.part] at ht
      · simp only [microEffect, microTryTake, atomic_dequeue]
        exact hdeq
      · simp only [microEffect, microRespTake, atomic_dequeue]
        exact hdeq
    · have hp : ∀ p : Part, p ≠ .ring → p ≠ .take → Reg.rbRx ∉ p.writes := by
        intro p
        cases p <;> decide
      rw [hw.rbRx (hp m.part (fun h => hps (h ▸ hm)) ht)]
  · obtain ⟨h1, h2⟩ := (point_keeps s hb).noArrival hn
    exact ⟨h1, by rw [h2]⟩

theorem RxBufFrame.of_storage {s t : State} (h : t.rbRx.storage = s.rbRx.storage) : RxBufFrame s t :=
  fun j => congrArg (·[j]?) h

/-- A micro-step other than RB.ENQ and RB.DEQ adds to the bytes on their way to the line, or leaves them. -/
theorem microEffect_bytes {m : Micro} {s : State} (hl : LinkOk s) (hm : m.part ≠ .ring) :
    ∃ x, bytesOf (lineStream (microEffect m s).1) = bytesOf (lineStream s) ++ x := by
  have same : lineStream (microEffect m s).1 = lineStream s →
      ∃ x, bytesOf (lineStream (microEffect m s).1) = bytesOf (lineStream s) ++ x := fun h => ⟨[], by simp [h]⟩
  have hw := microEffect_writes m s
  by_cases hsend : m.part = .send
  · cases m <;> simp [Micro.part] at hsend
    case sendEnq v =>
      simp only [microEffect, microSendEnq, goOn, atomic_enqueue]
      obtain ⟨-, e⟩ | ⟨hc, e⟩ := enqueue_cases .tx v s <;> rw [e]
      · exact ⟨[], by simp⟩
      · rw [State.ring_tx] at hc ⊢
        have hle := hl.2.1.1
        rw [State.setRing_tx, lineStream_push s v hl.2.1 (by omega)]
        exact ⟨[v], bytesOf_append _ _⟩
    case sendKick => exact same (kick_lineStream s)
    case sendTest =>
      refine same ?_
      simp only [microEffect, microSendTest]
      split <;> rfl
    case sendWait => exact same rfl
  · have hp : ∀ p : Part, p ≠ .ring → p ≠ .send → Reg.rbTx ∉ p.writes ∧ .txreg ∉ p.writes ∧
        (p ≠ .wake → .wire ∉ p.writes) := by
      intro p
      cases p <;> decide
    obtain ⟨h1, h2, h3⟩ := hp _ hm hsend
    have hin : inFlight (microEffect m s).1 = inFlight s := by simp only [inFlight, hw.txreg h2]
    have hwire : bytesOf (microEffect m s).1.wire = bytesOf s.wire := by
      by_cases hwake : m.part = .wake
      · cases m <;> simp [Micro.part] at hwake
        · rfl
        · exact (bytesOf_append _ _).trans (List.append_nil _)
        · rfl
      · rw [hw.wire (h3 hwake)]
    exact ⟨[], by rw [bytesOf_lineStream, bytesOf_lineStream, hin, hwire, hw.rbTx h1, List.append_nil]⟩

/-- What is on its way to the line only grows, the bytes in their order, in a run without the ring commands (R63). -/
theorem bytes_runRel {ps : List Part} (hc : Closed ps) (hps : .ring ∉ ps) : RunRel (Micro.Of ps) fun s t =>
    LinkOk s → LinkOk t ∧ ∃ x, bytesOf (lineStream t) = bytesOf (lineStream s) ++ x := by
  refine .ofParts hc (fun _ hl => ⟨hl, [], by simp⟩) (fun s t u h k hl => ?_) (fun m s hm hl => ?_)
    (fun _ _ hl => ⟨hl, [], (List.append_nil _).symm⟩)
    (fun s hb hl => ⟨(point_keeps s hb).link hl, [], by rw [(point_keeps s hb).line hl, List.append_nil]⟩)
  · obtain ⟨h1, x, hx⟩ := h hl
    obtain ⟨k1, y, hy⟩ := k h1
    exact ⟨k1, x ++ y, by rw [hy, hx, List.append_assoc]⟩
  · exact ⟨microEffect_linkOk m s hl, microEffect_bytes hl (fun h => hps (h ▸ hm))⟩

/-- With nothing scheduled no character leaves: only the urgent handler moves (R147). -/
theorem unscheduled_runRel {ps : List Part} (hc : Closed ps) (hps : .wake ∉ ps) :
    RunRel (Micro.Of ps) fun s t => s.sched = [] → t.sched = [] ∧ t.wire = s.wire := by
  refine .ofParts hc (fun _ h => ⟨h, rfl⟩) (fun s t u h k hs => ?_) (fun m s hm hs => ?_) (fun _ _ h => ⟨h, rfl⟩)
    (fun s _ hs => ?_)
  · obtain ⟨h1, h2⟩ := h hs
    obtain ⟨k1, k2⟩ := k h1
    exact ⟨k1, k2.trans h2⟩
  · have hw := microEffect_writes m s
    have hp : ∀ p : Part, p ≠ .wake → Reg.wire ∉ p.writes := by
      intro p
      cases p <;> decide
    exact ⟨(hw.sched (part_writes_sched _)).trans hs, hw.wire (hp _ fun h => hps (h ▸ hm))⟩
  · rw [point_unscheduled hs]
    refine ⟨(urgent_sched s).trans hs, ?_⟩
    unfold urgent
    split
    · exact invokeHandler_wire s
    · rfl

/-- At most nine bytes are on their way to the line behind what is on it: one in the transmitter, eight queued. -/
theorem bytesOf_lineStream_length {s : State} (hl : LinkOk s) :
    (bytesOf (lineStream s)).length ≤ (bytesOf s.wire).length + 9 := by
  have hin : (bytesOf (inFlight s)).length ≤ 1 := by
    unfold inFlight
    split <;> simp [bytesOf]
  have hc := hl.2.1.1
  rw [bytesOf_lineStream, List.length_append, List.length_append, Ring.contents_length]
  omega

/-- Nine bytes from a drained transmitter are all it can hold while none of them leaves. -/
theorem nothing_after_nine {s u : State} {x y : List Byte} (hd : TxDrained s) (hl : LinkOk s) (hlu : LinkOk u)
    (hw : u.wire = s.wire) (hx : x.length = 9) (h : bytesOf (lineStream u) = bytesOf (lineStream s) ++ x ++ y) :
    y = [] := by
  have hlen := bytesOf_lineStream_length hlu
  have hin : inFlight s = [] := by simp [inFlight, hl.2.2.1.1 hd.1]
  have hs : bytesOf (lineStream s) = bytesOf s.wire := by
    rw [bytesOf_lineStream, hin, Ring.contents_of_empty _ hd.2]
    simp [bytesOf]
  rw [h, hs, hw, List.length_append, List.length_append, hx] at hlen
  exact List.eq_nil_of_length_eq_zero (by omega)

/-! ### One request -/

/-- After a return the caller goes on, the other agents having moved. -/
theorem Returns.keeps {s u : State} {rest : List Micro} (h : Returns s rest u) (hr : rest ≠ []) :
    ∃ t, Leads s t ∧ t.seq.todo = rest ∧ t.seq.ret = u.seq.ret ∧ Keeps u t ∧ levelsOf t.wire = levelsOf u.wire :=
  ⟨_, h.leads hr, by simp [setTodo], by simp [setTodo],
    (Keeps.setSeq u _).trans (point_keeps (setTodo rest u) hr), point_levels (setTodo rest u) hr⟩

/-- A request after the other agents moved. -/
theorem Answered.of_keeps {id : BitVec 6} {m : Nat} {l : List Byte} {s t u : State} (k : Keeps s t)
    (h : Answered id m l t u) : Answered id m l s u where
  own := by
    have h1 := h.own
    have h2 := k.own
    simp [MainOwned] at h1 h2 ⊢
    simp [h1, h2]
  ret := h.ret
  respLen := h.respLen
  le := h.le
  resp := h.resp
  tx j hj := (h.tx j (by rw [k.txHead]; exact hj)).trans (memRead_txbuf_congr k.txStorage j)
  rx hl := by
    obtain ⟨a, ha, ga⟩ := k.rx hl
    obtain ⟨b, hb, gb⟩ := h.rx (k.link hl)
    exact ⟨a ++ b, by rw [← List.append_assoc, ← ha, hb], ga.trans gb⟩
  atLeast hl := by
    obtain ⟨a, ha, -⟩ := k.rx hl
    have hlen := congrArg List.length ha
    have hat := h.atLeast (k.link hl)
    simp only [List.length_append, Ring.contents_length] at hlen
    omega
  noArrival hn := by
    obtain ⟨k1, k2⟩ := k.noArrival hn
    obtain ⟨h1, h2, h3, h4⟩ := h.noArrival k1
    exact ⟨h1, by rw [← k2, h2], fun j => (h3 j).trans (congrArg (fun r : Ring => r.storage[j]?) k2), by rw [h4, k2]⟩
  silent hp := by
    obtain ⟨h1, h2, h3⟩ := h.silent (hp.of_keeps k)
    obtain ⟨-, -, -, -, -, -, -, hr, -⟩ := k.own
    exact ⟨h1, h2.trans hr, h3⟩
  queued hl := (k.queued hl).trans (h.queued (k.link hl))
  drained hl hg hd := by
    obtain ⟨hi, -, hrb⟩ := k.idle (hl.2.2.1.txIdle hd.1)
    obtain ⟨-, hgt, -⟩ := k.own
    obtain ⟨h1, h2⟩ := h.drained (k.link hl) (hgt.trans hg) ⟨hi.1, by rw [hrb]; exact hd.2⟩
    exact ⟨by rw [h1, k.line hl], h2⟩

/-- The count handed over is that of the response. -/
theorem Answered.hands {id : BitVec 6} {m : Nat} {l : List Byte} {s u : State} (h : Answered id m l s u) (hm : m ≤ 9) :
    HandsRespLen u ∧ u.respLen.toNat = l.length := by
  have hv := toNat_ofNat_of_le (w := 8) (by decide) (h.le.trans hm)
  have hlen : u.respLen.toNat = l.length := by rw [h.respLen, toNat_ofNat_of_le (by decide) (h.le.trans hm)]
  exact ⟨⟨_, h.ret, hv.trans hlen.symm⟩, hlen⟩

theorem Answered.baud {id : BitVec 6} {m : Nat} {l : List Byte} {s u : State} (h : Answered id m l s u) :
    u.baud = .normal := by
  obtain ⟨-, -, hb, -⟩ := h.own
  exact hb

/-- With a silent peer the response is empty. -/
theorem Answered.silent_respLen {id : BitVec 6} {m : Nat} {l : List Byte} {s u : State} (h : Answered id m l s u)
    (hp : SilentPeer s) : SilentPeer u ∧ u.resp = s.resp ∧ u.respLen = 0 := by
  obtain ⟨h1, h2, h3⟩ := h.silent hp
  exact ⟨h1, h2, by rw [h.respLen, h3]; rfl⟩

/-- A status request with the caller's next micro-step after it. -/
theorem status_leads {next : Micro} {s : State} (h : s.seq.todo = seqStatusProg ++ [next]) :
    ∃ t l, Leads s t ∧ t.seq.todo = [next] ∧ Answered 0x3B 9 l s t := by
  obtain ⟨u, l, ru, au⟩ := status_returns 0x3B (m := 9) le_rfl h
  obtain ⟨t, lt, tt, rt, kt, -⟩ := ru.keeps (by simp)
  exact ⟨t, l, lt, tt, au.keeps kt rt⟩

/-- A micro-step that makes a status request and changes nothing else (R222 step 9, R226 step 6, R230). -/
theorem request_leads {m next : Micro} {s : State} (h : s.seq.todo = [m])
    (he : microEffect m s = (s, seqStatusProg ++ [next])) :
    ∃ t l, Leads s t ∧ t.seq.todo = [next] ∧ Answered 0x3B 9 l s t := by
  obtain ⟨a, la, ta, ka, -⟩ := Leads.microKeeps h he (by simp)
  rw [List.append_nil] at ta
  obtain ⟨t, l, lt, tt, at'⟩ := status_leads ta
  exact ⟨t, l, la.trans lt, tt, at'.of_keeps ka⟩

theorem pid_idStatus : [0x00, 0x55, pid Params.idStatus] = statusHeaderBytes := by decide

/-! ### SEQ.LOADCHK -/

/-- A silent peer's response: nothing captured. -/
def NoResponse (s : State) : Prop := SilentPeer s ∧ s.respLen = 0

theorem loaded_eq {s : State} (hr : HandsRespLen s) : loaded (handedCount s) s = true ↔ ShowsLoad s := by
  rw [handedCount_eq hr]
  exact showsLoad_iff s

theorem NoResponse.not_showsLoad {s : State} (h : NoResponse s) : ¬ ShowsLoad s := fun hs => by
  have := hs.1
  rw [h.2] at this
  simp at this

/-- The judgement of the `i`-th response and the rest of the command (R230 steps 3 and 4). -/
structure LoadChecked (d : Nat) (s u : State) : Prop where
  baud : u.baud = s.baud ∨ u.baud = .normal
  ret : u.seq.ret = .value 0 ∨ (u.seq.ret = .value 1 ∧ ShowsLoad u)
  silent : NoResponse s → u.seq.ret = .value 0 ∧ u.respLen = 0 ∧ u.resp = s.resp
  queued : NoResponse s → LinkOk s → Queued (List.replicate d statusHeaderBytes).flatten s u

/-- One judgement that does not end the command: the next request is made. -/
theorem loadGap_leads {cnt i : Nat} (hi : i + 1 < 10) {s : State} (h : s.seq.todo = [.loadGap cnt i]) :
    ∃ t l, Leads s t ∧ t.seq.todo = [.loadJudge cnt (i + 1)] ∧ Answered 0x3B 9 l s t :=
  request_leads h (by simp [microEffect, microLoadGap, goOn, Params.loadPolls, hi])

/-- The judgement ends the command with 1 on a response that shows a load, or goes on to the next request. -/
theorem loadJudge_cases {cnt i : Nat} {s : State} (h : s.seq.todo = [.loadJudge cnt i]) (hr : HandsRespLen s) :
    (ShowsLoad s ∧ Returns s [] (giveRet (.value 1) s)) ∨
    ∃ cnt' t, Leads s t ∧ t.seq.todo = [.loadGap cnt' i] ∧ Keeps s t := by
  have goes : ∀ {cnt'}, microEffect (.loadJudge cnt i) s = (s, [.loadGap cnt' i]) →
      ∃ cnt' t, Leads s t ∧ t.seq.todo = [.loadGap cnt' i] ∧ Keeps s t := fun {cnt'} he => by
    obtain ⟨t, lt, tt, kt, -⟩ := Leads.microKeeps h he (by simp)
    exact ⟨cnt', t, lt, tt, kt⟩
  by_cases hl : ShowsLoad s
  · have hj := (loaded_eq hr).mpr hl
    by_cases hc : Params.loadNeed ≤ cnt + 1
    · exact .inl ⟨hl, .last h ((if_pos hj).trans (if_pos hc))⟩
    · exact .inr (goes ((if_pos hj).trans (if_neg hc)))
  · exact .inr (goes (if_neg (mt (loaded_eq hr).mp hl)))

theorem loadJudge_returns (d : Nat) {cnt i : Nat} (hi : i + d = 9) {s : State} (h : s.seq.todo = [.loadJudge cnt i])
    (hr : HandsRespLen s) : ∃ u, Returns s [] u ∧ LoadChecked d s u := by
  induction d generalizing cnt i s with
  | zero =>
    obtain ⟨hs, ru⟩ | ⟨cnt', t, lt, tt, kt⟩ := loadJudge_cases h hr
    · exact ⟨_, ru, .inl rfl, .inr ⟨rfl, hs⟩, fun hn => absurd hs hn.not_showsLoad, fun hn => absurd hs hn.not_showsLoad⟩
    · have he : microEffect (.loadGap cnt' i) t = (giveRet (.value 0) t, []) := by
        simp [microEffect, microLoadGap, ret, boolRet, Params.loadPolls, show ¬ i + 1 < 10 by omega]
      obtain ⟨-, -, hb, -, -, -, -, hres, hlen, -⟩ := kt.own
      exact ⟨_, .of_leads lt (.last tt he), .inl hb, .inl rfl, fun hn => ⟨rfl, (hlen : t.respLen = _).trans hn.2, hres⟩,
        fun _ hl => (kt.trans (Keeps.setSeq t _)).queued hl⟩
  | succ d ih =>
    obtain ⟨hs, ru⟩ | ⟨cnt', t, lt, tt, kt⟩ := loadJudge_cases h hr
    · exact ⟨_, ru, .inl rfl, .inr ⟨rfl, hs⟩, fun hn => absurd hs hn.not_showsLoad, fun hn => absurd hs hn.not_showsLoad⟩
    · obtain ⟨v, l, lv, tv, av⟩ := loadGap_leads (by omega) tt
      have av := av.of_keeps kt
      obtain ⟨u, ru, cu⟩ := ih (by omega) tv (av.hands le_rfl).1
      have silent : NoResponse s → NoResponse v ∧ v.resp = s.resp := fun hn => by
        obtain ⟨h1, h2, h3⟩ := av.silent_respLen hn.1
        exact ⟨⟨h1, h3⟩, h2⟩
      refine ⟨u, .of_leads (lt.trans lv) ru, .inr (cu.baud.elim (·.trans av.baud) id), cu.ret, fun hn => ?_, fun hn hl => ?_⟩
      · obtain ⟨hv, hres⟩ := silent hn
        obtain ⟨h1, h2, h3⟩ := cu.silent hv
        exact ⟨h1, h2, h3.trans hres⟩
      · have hq := (av.queued hl).trans (cu.queued (silent hn).1 (av.queued hl).link)
        rwa [← Params.idStatus, pid_idStatus, ← List.flatten_cons, ← List.replicate_succ] at hq

/-- SEQ.LOADCHK up to the judgement of its first response (R230 steps 1 and 2). -/
theorem loadBegin_leads {s : State} (h : s.seq.todo = loadProg) :
    ∃ t l, Leads s t ∧ t.seq.todo = [.loadJudge 0 0] ∧ Answered 0x3B 9 l s t :=
  request_leads h rfl

theorem Queued.whole {d : List Byte} {s t : State} (h : Queued d s t) (hc : s.rbTx.count.toNat + d.length ≤ 8) :
    bytesOf (lineStream t) = bytesOf (lineStream s) ++ d := by
  obtain ⟨sent, -, hfit, hb⟩ := h.bytes
  rw [hb, hfit hc]

/-- The parts of SEQ.LOADCHK. -/
def loadParts : List Part := [.load, .header, .send, .resp, .take]

/-- All that SEQ.LOADCHK does, from any state and under every schedule. -/
theorem exec_seqLoadchk (s : State) : ∃ t u, exec .seqLoadchk s = .next ((commitResult u.seq.ret u).setSeq Seq.idle) ∧
    Returns (accept .seqLoadchk loadProg s) [] u ∧ Leads (accept .seqLoadchk loadProg s) t ∧
    t.seq.todo = [.loadJudge 0 0] ∧ HandsRespLen t ∧ (∃ l, Answered 0x3B 9 l s t) ∧ Returns t [] u ∧ LoadChecked 9 t u := by
  obtain ⟨t, l, lt, tt, at'⟩ := loadBegin_leads (s := accept .seqLoadchk loadProg s) (accept_todo _ _ s)
  obtain ⟨u, ru, cu⟩ := loadJudge_returns 9 (by omega) tt (at'.hands le_rfl).1
  have hr := Returns.of_leads lt ru
  exact ⟨t, u, exec_of_returns (i := .seqLoadchk) rfl rfl hr, hr, lt, tt, (at'.hands le_rfl).1,
    ⟨l, at'.of_keeps (Keeps.setSeq s _)⟩, ru, cu⟩

/-- Settles O52: the result is that of the last judgement, and a run of the parts of SEQ.LOADCHK writes no other
register. -/
theorem loadCheckReturnsABool : Obligations.LoadCheckReturnsABool := by
  intro s
  obtain ⟨t, u, he, hr, -, -, -, ⟨l, at'⟩, -, cu⟩ := exec_seqLoadchk s
  have hp : ∀ m ∈ loadProg, m.Of loadParts := by simp [loadProg, loadParts, Micro.part]
  have hw := (writes_runRel (ps := loadParts) (w := linkRegs ++ [.resp, .respLen, .freeCtr, .baud]) (by decide)
    (by decide) (by decide)).returns (p := loadProg) hr (by simp [accept_todo]) hp
  have hrx := (rxFrame_runRel (ps := loadParts) (by decide) (by decide)).returns (p := loadProg) hr
    (by simp [accept_todo]) hp
  have hb : u.baud = .normal := cu.baud.elim (·.trans at'.baud) id
  have hown : MainOwned { s with resp := u.resp, respLen := u.respLen, freeCtr := u.freeCtr, baud := .normal, seq := u.seq } u :=
    ⟨hw.rxie (by decide), hw.gie, hb, hw.lineMode (by decide), hw.csum (by decide), hw.result, hw.resultValid, rfl, rfl,
      hw.dbuf (by decide), rfl, hw.powerCut (by decide), hw.pcutTrace (by decide), hw.cmd, hw.rails (by decide), rfl,
      hw.params⟩
  have hframe := hown.commit
    (s := { s with resp := u.resp, respLen := u.respLen, freeCtr := u.freeCtr, baud := .normal }) u.seq.ret
  obtain hret | ⟨hret, hl⟩ := cu.ret <;> rw [hret] at he hframe
  · exact ⟨_, he, rfl, .inl rfl, fun h1 => absurd (show (0 : Byte) = 1 from h1) (by decide), fun hn => .of_storage (hrx hn).2, hframe⟩
  · exact ⟨_, he, rfl, .inr rfl, fun _ => hl, fun hn => .of_storage (hrx hn).2, hframe⟩

/-- With no response the judgement goes on to the next request. -/
theorem loadJudge_silent {cnt i : Nat} (hi : i + 1 < 10) {s : State} (h : s.seq.todo = [.loadJudge cnt i])
    (hr : HandsRespLen s) (hn : NoResponse s) :
    ∃ cnt' v, Leads s v ∧ v.seq.todo = [.loadJudge cnt' (i + 1)] ∧ HandsRespLen v ∧ NoResponse v ∧
      (LinkOk s → Queued statusHeaderBytes s v) := by
  obtain ⟨hs, -⟩ | ⟨cnt', t, lt, tt, kt⟩ := loadJudge_cases h hr
  · exact absurd hs hn.not_showsLoad
  · obtain ⟨v, l, lv, tv, av⟩ := loadGap_leads hi tt
    have av := av.of_keeps kt
    obtain ⟨h1, -, h3⟩ := av.silent_respLen hn.1
    exact ⟨cnt', v, lt.trans lv, tv, (av.hands le_rfl).1, ⟨h1, h3⟩, av.queued⟩

/-- From a drained transmitter that sends nothing meanwhile, the first three headers are all it can hold. -/
theorem load_three_headers {s t u : State} {l : List Byte} (hp : SilentPeer s) (hl : LinkOk s) (hq : Quiet s)
    (hg : s.gie = true) (hd : TxDrained s) (hr : Returns (accept .seqLoadchk loadProg s) [] u)
    (tt : t.seq.todo = [.loadJudge 0 0]) (hh : HandsRespLen t) (at' : Answered 0x3B 9 l s t) (ru : Returns t [] u) :
    bytesOf (lineStream u) = bytesOf (lineStream s) ++ (List.replicate 3 statusHeaderBytes).flatten := by
  obtain ⟨h1, h2⟩ := at'.drained hl hg hd
  obtain ⟨p1, -, r1⟩ := at'.silent_respLen hp
  obtain ⟨c, v, lv, tv, hv, nv, qv⟩ := loadJudge_silent (by omega) tt hh ⟨p1, r1⟩
  have qv := qv (at'.queued hl).link
  obtain ⟨c', w, lw, tw, hw, nw, qw⟩ := loadJudge_silent (by omega) tv hv nv
  have qw := qw qv.link
  obtain ⟨x, rx⟩ := returns_exists (p := [.loadJudge c' 2]) (rest := []) (by simp) tw
  obtain rfl := (Returns.of_leads (lv.trans lw) rx).unique ru
  have hparts : ∀ m ∈ [Micro.loadJudge c' 2], m.Of loadParts := by simp [loadParts, Micro.part]
  obtain ⟨lx, y, hy⟩ := (bytes_runRel (ps := loadParts) (by decide) (by decide)).returns rx tw hparts qw.link
  obtain ⟨-, hwire⟩ := (unscheduled_runRel (ps := loadParts) (by decide) (by decide)).returns (p := loadProg) hr
    (by simp [accept_todo]) (by simp [loadProg, loadParts, Micro.part]) hq.1
  have c1 := qv.txCount
  have hsize : statusHeaderBytes.length = 3 := rfl
  have hbytes : bytesOf (lineStream x) =
      bytesOf (lineStream s) ++ (List.replicate 3 statusHeaderBytes).flatten ++ y := by
    rw [hy, qw.whole (by omega), qv.whole (by omega), h1, bytesOf_append, bytesOf_headerChars]
    have hid : [0x00, 0x55, pid 0x3B] = statusHeaderBytes := pid_idStatus
    rw [hid]
    simp [List.replicate_succ]
  have hnil := nothing_after_nine hd hl lx hwire (by decide) hbytes
  rw [hbytes, hnil, List.append_nil]

/-- Settles O53: no judgement qualifies, and the requests queue their headers in order. -/
theorem loadCheckWithASilentPeer : Obligations.LoadCheckWithASilentPeer := by
  intro s hp
  obtain ⟨t, u, he, hr, -, tt, hh, ⟨l, at'⟩, ru, cu⟩ := exec_seqLoadchk s
  obtain ⟨p1, e1, r1⟩ := at'.silent_respLen hp
  obtain ⟨hret, hlen, hres⟩ := cu.silent ⟨p1, r1⟩
  rw [hret] at he
  refine ⟨_, he, rfl, rfl, hlen, hres.trans e1, fun hl => ?_⟩
  have hq := (at'.queued hl).trans (cu.queued ⟨p1, r1⟩ (at'.queued hl).link)
  rw [← Params.idStatus, pid_idStatus, ← List.flatten_cons, ← List.replicate_succ] at hq
  obtain ⟨sent, hs, -, hb⟩ := hq.bytes
  refine ⟨sent, hs, hb, fun hq hg hd => ?_⟩
  have h3 := load_three_headers hp hl hq hg hd hr tt hh at' ru
  exact List.append_cancel_left (hb.symm.trans h3)

end Sys2Proof.Machine
end

section
/-! A command frame with its first status request, and the frame of the exchanges of the sequences (44_orchestration.md
R220 to R222, R226). -/

namespace Sys2Proof.Machine

/-! ### What the exchanges leave alone -/

/-- A run without LIN.WAKEUP puts no level segment on the line (R37). -/
theorem levels_runRel {ps : List Part} (hc : Closed ps) (hps : .wake ∉ ps) :
    RunRel (Micro.Of ps) fun s t => levelsOf t.wire = levelsOf s.wire :=
  .ofParts hc (fun _ => rfl) (fun _ _ _ h k => k.trans h)
    (fun m s hm => by
      have hp : ∀ p : Part, p ≠ .wake → Reg.wire ∉ p.writes := by
        intro p
        cases p <;> decide
      rw [(microEffect_writes m s).wire (hp _ fun h => hps (h ▸ hm))])
    (fun _ _ => rfl) point_levels

/-- Between `s` and `t` no pin is read or driven: the rail's answers, LINE_MODE, POWER_CUT, its trace and the level
segments are as they were; BAUD too, or it is back at NORMAL. -/
structure Steady (s t : State) : Prop where
  params : t.params = s.params
  rails : t.rails = s.rails
  lineMode : t.lineMode = s.lineMode
  powerCut : t.powerCut = s.powerCut
  pcutTrace : t.pcutTrace = s.pcutTrace
  baud : t.baud = s.baud ∨ t.baud = .normal
  levels : levelsOf t.wire = levelsOf s.wire

theorem Steady.trans {s t u : State} (h : Steady s t) (k : Steady t u) : Steady s u where
  params := k.params.trans h.params
  rails := k.rails.trans h.rails
  lineMode := k.lineMode.trans h.lineMode
  powerCut := k.powerCut.trans h.powerCut
  pcutTrace := k.pcutTrace.trans h.pcutTrace
  baud := k.baud.elim (fun e => h.baud.imp e.trans e.trans) .inr
  levels := k.levels.trans h.levels

theorem Steady.of_keeps {s t : State} (h : Keeps s t) (hl : levelsOf t.wire = levelsOf s.wire) : Steady s t := by
  obtain ⟨-, -, hb, hm, -, -, -, -, -, -, -, hp, hc, -, hr, -, -⟩ := h.own
  exact ⟨h.params, hr, hm, hp, hc, .inl hb, hl⟩

/-- A return leaves everything but SEQ. -/
theorem Steady.giveRet (r : Ret) (s : State) : Steady s (giveRet r s) := ⟨rfl, rfl, rfl, rfl, rfl, .inl rfl, rfl⟩

/-- A micro-step that changes nothing but what is left to run. -/
theorem Leads.goesOn {s : State} {m : Micro} {next rest : List Micro} (h : s.seq.todo = m :: rest)
    (he : microEffect m s = (s, next)) (hn : next ++ rest ≠ []) :
    ∃ t, Leads s t ∧ t.seq.todo = next ++ rest ∧ Keeps s t ∧ Steady s t := by
  obtain ⟨t, lt, tt, kt, hl, -⟩ := Leads.microKeeps h he hn
  exact ⟨t, lt, tt, kt, .of_keeps kt hl⟩

/-- The parts of a command frame and a status request. -/
def talkParts : List Part := [.header, .send, .data, .resp, .take]

/-- What a command frame and a status request write. -/
def talkRegs : List Reg := linkRegs ++ [.baud, .csum, .resp, .respLen, .freeCtr]

theorem talk_frame {p rest : List Micro} (hp : ∀ m ∈ p, m.Of talkParts) {s t : State} (h : Leads s t)
    (hs : s.seq.todo = p ++ rest) (ht : t.seq.todo = rest) : Writes talkRegs s t ∧ levelsOf t.wire = levelsOf s.wire :=
  ⟨((writes_runRel (ps := talkParts) (by decide) (by decide) (by decide)).leads h hs hp (by rw [ht])).1,
    ((levels_runRel (ps := talkParts) (by decide) (by decide)).leads h hs hp (by rw [ht])).1⟩

theorem seqStatusProg_parts : ∀ m ∈ seqStatusProg, m.Of talkParts := by
  simp [seqStatusProg, statusProg, headerProg, drainProg, sendProg, respProg, talkParts, Micro.part]

theorem seqCmdProg_parts : ∀ m ∈ seqCmdProg, m.Of talkParts := by
  simp [seqCmdProg, cmdProg, headerProg, drainProg, sendProg, talkParts, Micro.part]

theorem Steady.of_writes {s t : State} (h : Writes talkRegs s t) (hl : levelsOf t.wire = levelsOf s.wire)
    (hb : t.baud = .normal) : Steady s t :=
  ⟨h.params, h.rails (by decide), h.lineMode (by decide), h.powerCut (by decide), h.pcutTrace (by decide), .inr hb, hl⟩

/-- A micro-step that makes a status request, with what the whole leaves alone. -/
theorem request_steady {m next : Micro} {s : State} (h : s.seq.todo = [m])
    (he : microEffect m s = (s, seqStatusProg ++ [next])) :
    ∃ t l, Leads s t ∧ t.seq.todo = [next] ∧ Answered 0x3B 9 l s t ∧ Steady s t := by
  obtain ⟨a, la, ta, ka, sa⟩ := Leads.goesOn h he (by simp)
  rw [List.append_nil] at ta
  obtain ⟨t, l, lt, tt, at'⟩ := status_leads ta
  obtain ⟨hw, hlev⟩ := talk_frame seqStatusProg_parts lt ta tt
  exact ⟨t, l, la.trans lt, tt, at'.of_keeps ka, sa.trans (.of_writes hw hlev at'.baud)⟩

/-! ### A command frame and its first status request -/

/-- The payload is in DBUF[0] and DBUF[1]. -/
def PayloadIn (p : Vector Byte 2) (s : State) : Prop :=
  memRead .dbuf 0 s = some p[0] ∧ memRead .dbuf 1 s = some p[1]

theorem loadPayload_payloadIn (p : Vector Byte 2) (s : State) : PayloadIn p (loadPayload p s) := by
  simp [PayloadIn, memRead, loadPayload_eq]

theorem PayloadIn.congr {p : Vector Byte 2} {s t : State} (h : PayloadIn p s) (hd : t.dbuf = s.dbuf) : PayloadIn p t := by
  simpa [PayloadIn, memRead, hd] using h

theorem PayloadIn.payloadOf {p : Vector Byte 2} {s : State} (h : PayloadIn p s) : payloadOf 2 s = [p[0], p[1]] := by
  obtain ⟨h0, h1⟩ := h
  have h0 : s.dbuf.toList[0]? = some p[0] := by simpa [memRead] using h0
  have h1 : s.dbuf.toList[1]? = some p[1] := by simpa [memRead] using h1
  rw [Machine.payloadOf, List.take_add_one, List.take_add_one, h0, h1]
  rfl

/-- All that a command frame and its first status request do, with the payload `p` and the response `l`. -/
structure Exchanged (p : Vector Byte 2) (l : List Byte) (s t : State) : Prop where
  steady : Steady s t
  baud : t.baud = .normal
  dbuf : PayloadIn p t
  hands : HandsRespLen t
  respLen : t.respLen.toNat = l.length
  resp : t.resp.toList.take l.length = l
  rx : LinkOk s → ∃ new, s.rbRx.contents ++ new = l ++ t.rbRx.contents
  atLeast : LinkOk s → min 9 s.rbRx.count.toNat ≤ l.length
  noArrival : NoArrival s →
    NoArrival t ∧ s.rbRx.contents = l ++ t.rbRx.contents ∧ l.length = min 9 s.rbRx.count.toNat
  silent : SilentPeer s → NoResponse t ∧ t.resp = s.resp
  link : LinkOk s → LinkOk t
  line : LinkOk s → s.gie = true → TxDrained s →
    bytesOf (lineStream t) = bytesOf (lineStream s) ++ bytesOf (masterFrame 0x3A [p[0], p[1]]) ++ statusHeaderBytes

/-- The command frame inside a sequence, up to the status request. -/
theorem seqCmd_leads {rest : List Micro} (hr : rest ≠ []) {s : State} (h : s.seq.todo = seqCmdProg ++ rest) :
    ∃ t, Leads s t ∧ t.seq.todo = rest ∧ t.resp = s.resp ∧
      (LinkOk s → LinkOk t ∧ ∃ new, t.rbRx.contents = s.rbRx.contents ++ new) ∧
      (NoArrival s → NoArrival t ∧ t.rbRx = s.rbRx) ∧
      (LinkOk s → s.gie = true → TxDrained s →
        bytesOf (lineStream t) = bytesOf (lineStream s) ++ bytesOf (masterFrame 0x3A (payloadOf 2 s)) ∧
        t.rbTx.count.toNat ≤ 5) := by
  obtain ⟨u, ru⟩ := returns_exists (p := seqCmdProg) (by simp [seqCmdProg, cmdProg]) h
  obtain ⟨t, lt, tt, -, kt, -⟩ := ru.keeps hr
  have hp : ∀ m ∈ seqCmdProg, m.Of [.header, .send, .data] := by
    simp [seqCmdProg, cmdProg, headerProg, drainProg, sendProg, Micro.part]
  have hg := ((gains_runRel (ps := [.header, .send, .data]) (by decide) (by decide)).leads (p := seqCmdProg) lt h hp
    (by rw [tt])).1
  have hw := ((writes_runRel (ps := [.header, .send, .data]) (w := linkRegs ++ [.baud, .csum]) (by decide) (by decide)
    (by decide)).leads (p := seqCmdProg) lt h hp (by rw [tt])).1
  refine ⟨t, lt, tt, hw.resp (by decide), fun hl => ?_, hg.2, fun hl hgie hd => ?_⟩
  · obtain ⟨h1, new, h2, -⟩ := hg.1 hl
    exact ⟨h1, new, h2⟩
  · obtain ⟨v, rv, mv⟩ := cmd_returns Params.idCommand (len := 2) (by decide) h hl
    obtain rfl := ru.unique rv
    obtain ⟨w, -, hfit, hline, hc⟩ := mv.drained hgie hd
    rw [kt.line mv.queued.link, hline, hfit (by decide), bytesOf_append]
    exact ⟨rfl, kt.txCount.trans hc⟩

theorem exchange_leads {p : Vector Byte 2} {m next : Micro} {s : State} (h : s.seq.todo = [m])
    (he : microEffect m s = (loadPayload p s, seqCmdProg ++ seqStatusProg ++ [next])) :
    ∃ t l, Leads s t ∧ t.seq.todo = [next] ∧ Exchanged p l s t := by
  -- the payload, the command frame, the status request
  obtain ⟨a, la, ta, ka, hla, -⟩ := Leads.microKeeps h he (by simp)
  rw [List.append_nil] at ta
  obtain ⟨b, lb, tb, eb, rxb, nb, db⟩ := seqCmd_leads (by simp) (ta.trans (List.append_assoc _ _ _))
  obtain ⟨t, l, lt, tt, at'⟩ := status_leads tb
  obtain ⟨hw, hlev⟩ := talk_frame (p := seqCmdProg ++ seqStatusProg)
    (fun x hx => (List.mem_append.mp hx).elim (seqCmdProg_parts x) (seqStatusProg_parts x)) (lb.trans lt) ta tt
  have hda : PayloadIn p a := (loadPayload_payloadIn p s).congr (by
    obtain ⟨-, -, -, -, -, -, -, -, -, hd, -⟩ := ka.own
    exact hd)
  have hsp : Steady s (loadPayload p s) := ⟨rfl, rfl, rfl, rfl, rfl, .inl rfl, rfl⟩
  have hrx : LinkOk s → ∃ new, b.rbRx.contents = s.rbRx.contents ++ new := fun hl => by
    obtain ⟨x, hx, -⟩ := ka.rx hl
    obtain ⟨-, y, hy⟩ := rxb (ka.link hl)
    exact ⟨x ++ y, by rw [hy, hx, List.append_assoc]; rfl⟩
  have hna : NoArrival s → NoArrival b ∧ b.rbRx = s.rbRx := fun hn => by
    obtain ⟨k1, k2⟩ := ka.noArrival hn
    obtain ⟨n1, n2⟩ := nb k1
    exact ⟨n1, n2.trans k2⟩
  have hlb : LinkOk s → LinkOk b := fun hl => (rxb (ka.link hl)).1
  refine ⟨t, l, (la.trans lb).trans lt, tt, ?_⟩
  exact
    { steady := (hsp.trans (.of_keeps ka hla)).trans (.of_writes hw hlev at'.baud)
      baud := at'.baud
      dbuf := hda.congr (hw.dbuf (by decide))
      hands := (at'.hands le_rfl).1
      respLen := (at'.hands le_rfl).2
      resp := at'.resp
      rx := fun hl => by
        obtain ⟨x, hx⟩ := hrx hl
        obtain ⟨y, hy, -⟩ := at'.rx (hlb hl)
        exact ⟨x ++ y, by rw [← List.append_assoc, ← hx, hy]⟩
      atLeast := fun hl => by
        obtain ⟨x, hx⟩ := hrx hl
        have hlen := congrArg List.length hx
        have hat := at'.atLeast (hlb hl)
        simp only [List.length_append, Ring.contents_length] at hlen
        omega
      noArrival := fun hn => by
        obtain ⟨h1, h2⟩ := hna hn
        obtain ⟨h0, h3, -, h4⟩ := at'.noArrival h1
        rw [h2] at h3 h4
        exact ⟨h0, h3, h4⟩
      silent := fun hp => by
        obtain ⟨h1, h2⟩ := hna hp.1
        obtain ⟨p1, e1, r1⟩ := at'.silent_respLen ⟨h1, by rw [h2]; exact hp.2⟩
        obtain ⟨-, -, -, -, -, -, -, ea, -⟩ := ka.own
        exact ⟨⟨p1, r1⟩, (e1.trans eb).trans ea⟩
      link := fun hl => (at'.queued (hlb hl)).link
      line := fun hl hg hd => by
        obtain ⟨ia, -, ra⟩ := ka.idle (hl.2.2.1.txIdle hd.1)
        obtain ⟨-, ga, -⟩ := ka.own
        obtain ⟨hb, hc⟩ := db (ka.link hl) (ga.trans hg) ⟨ia.1, by rw [ra]; exact hd.2⟩
        have hid : [0x00, 0x55, pid 0x3B] = statusHeaderBytes := pid_idStatus
        have hfull : ([0x00, 0x55, pid 0x3B] : List Byte).length = 3 := rfl
        rw [(at'.queued (hlb hl)).whole (by omega), hb, hda.payloadOf, hid, ka.line hl]
        rfl }

/-- The response begins with all that RB[RX] held; with no arrival it is no more. -/
theorem Exchanged.captured {p : Vector Byte 2} {l : List Byte} {s t : State} (h : Exchanged p l s t) (hl : LinkOk s)
    {c new : List Byte} (hc : s.rbRx.contents = c ++ new) :
    t.resp.toList.take c.length = c ∧ c.length ≤ t.respLen.toNat ∧
      (NoArrival s → new = [] → t.respLen.toNat = c.length ∧ t.rbRx.count = 0) := by
  have hlen := congrArg List.length hc
  have hle : s.rbRx.count.toNat ≤ 8 := hl.1.1
  have hat := h.atLeast hl
  simp only [List.length_append, Ring.contents_length] at hlen
  have hcl : c.length ≤ l.length := by omega
  obtain ⟨x, hx⟩ := h.rx hl
  rw [hc, List.append_assoc] at hx
  have hpre : l.take c.length = c := by
    rw [← List.take_append_of_le_length hcl, ← hx, List.take_left]
  refine ⟨?_, h.respLen ▸ hcl, fun hn he => ?_⟩
  · have ht := congrArg (List.take c.length) h.resp
    rwa [List.take_take, Nat.min_eq_left hcl, hpre] at ht
  · obtain ⟨-, h1, h2⟩ := h.noArrival hn
    have h1 := congrArg List.length h1
    simp only [List.length_append, Ring.contents_length] at h1
    rw [he, List.length_nil] at hlen
    exact ⟨by rw [h.respLen]; omega, BitVec.eq_of_toNat_eq (show _ = 0 by omega)⟩

end Sys2Proof.Machine
end

section
/-! SEQ.START (44_orchestration.md R222 to R225): the polls of a round, the rounds, the wakeups before the first, and the
statements. -/

namespace Sys2Proof.Machine

/-! ### The polls of a round -/

theorem NoResponse.handedCount {s : State} (h : NoResponse s) (hr : HandsRespLen s) : handedCount s = 0 := by
  rw [handedCount_eq hr, h.2]
  rfl

theorem NoResponse.of_keeps {s t : State} (h : NoResponse s) (k : Keeps s t) : NoResponse t ∧ t.resp = s.resp := by
  obtain ⟨-, -, -, -, -, -, -, hr, hl, -⟩ := k.own
  exact ⟨⟨h.1.of_keeps k, (hl : t.respLen = _).trans h.2⟩, hr⟩

theorem ack_and_pg_iff {s : State} (hr : HandsRespLen s) :
    (ack (handedCount s) s && pg (handedCount s) s) = true ↔ RunsWithPower s := by
  rw [handedCount_eq hr]
  exact runsWithPower_iff s

theorem startJudge_returns {r p : Nat} {a b : Bool} {s : State} (h : s.seq.todo = [.startJudge r p a b])
    (hr : HandsRespLen s) (hp : RunsWithPower s) : Returns s [] (giveRet (.value 0) s) :=
  .last h (if_pos ((ack_and_pg_iff hr).mpr hp))

/-- The judgement of a response (R222 step 8): success, or the next poll with the flags, which a missing response leaves. -/
theorem startJudge_cases {r p : Nat} {a b : Bool} {s : State} (h : s.seq.todo = [.startJudge r p a b])
    (hr : HandsRespLen s) :
    (RunsWithPower s ∧ Returns s [] (giveRet (.value 0) s)) ∨
    ∃ a' b' t, Leads s t ∧ t.seq.todo = [.startGap r p a' b'] ∧ Keeps s t ∧ Steady s t ∧
      (NoResponse s → a' = a ∧ b' = b) := by
  by_cases hp : RunsWithPower s
  · exact .inl ⟨hp, startJudge_returns h hr hp⟩
  · obtain ⟨t, lt, tt, kt, st⟩ := Leads.goesOn h (if_neg (mt (ack_and_pg_iff hr).mp hp)) (by simp)
    exact .inr ⟨_, _, t, lt, tt, kt, st, fun hn => by simp [hn.handedCount hr, responded, ack]⟩

/-- The polls of a round from the judgement of the `p`-th response on (R222 steps 8 and 9). -/
theorem startPolls (d : Nat) {r p : Nat} {a b : Bool} {s : State} (hd : s.params.startPolls ≤ p + 1 + d)
    (h : s.seq.todo = [.startJudge r p a b]) (hr : HandsRespLen s) :
    (∃ u, Returns s [] u ∧ u.seq.ret = .value 0 ∧ RunsWithPower u ∧ Steady s u ∧ u.dbuf = s.dbuf ∧ ¬ NoResponse s) ∨
    ∃ a' b' t, Leads s t ∧ t.seq.todo = [.startNext r a' b'] ∧ Steady s t ∧ t.dbuf = s.dbuf ∧
      (NoResponse s → a' = a ∧ b' = b ∧ NoResponse t ∧ t.resp = s.resp) := by
  obtain ⟨hp, ru⟩ | ⟨a', b', t, lt, tt, kt, st, ht⟩ := startJudge_cases h hr
  · refine .inl ⟨_, ru, rfl, hp, .giveRet _ s, rfl, fun hn => ?_⟩
    have := hp.1
    rw [hn.2] at this
    exact absurd this (by decide)
  · obtain ⟨-, -, -, -, -, -, -, -, -, hdt, -⟩ := kt.own
    have hdt : t.dbuf = s.dbuf := hdt
    by_cases hlt : p + 1 < s.params.startPolls
    · have he : microEffect (.startGap r p a' b') t = (t, seqStatusProg ++ [.startJudge r (p + 1) a' b']) := by
        simp [microEffect, microStartGap, goOn, st.params, hlt]
      obtain ⟨v, l, lv, tv, av, sv⟩ := request_steady tt he
      obtain ⟨-, -, -, -, -, -, -, -, -, hdv, -⟩ := av.own
      have hdv : v.dbuf = t.dbuf := hdv
      have sv := st.trans sv
      have silent : NoResponse s → NoResponse v ∧ v.resp = s.resp := fun hn => by
        obtain ⟨h1, h2⟩ := hn.of_keeps kt
        obtain ⟨k1, k2, k3⟩ := av.silent_respLen h1.1
        exact ⟨⟨k1, k3⟩, k2.trans h2⟩
      cases d with
      | zero => omega
      | succ d =>
        obtain ⟨u, ru, hu, hpu, su, du, nu⟩ | ⟨a'', b'', u, lu, tu, su, du, nu⟩ :=
          startPolls d (p := p + 1) (by rw [sv.params]; omega) tv (av.hands le_rfl).1
        · exact .inl ⟨u, .of_leads (lt.trans lv) ru, hu, hpu, sv.trans su, (du.trans hdv).trans hdt,
            fun hn => nu (silent hn).1⟩
        · refine .inr ⟨a'', b'', u, (lt.trans lv).trans lu, tu, sv.trans su, (du.trans hdv).trans hdt, fun hn => ?_⟩
          obtain ⟨hv, hres⟩ := silent hn
          obtain ⟨e1, e2, e3, e4⟩ := nu hv
          obtain ⟨f1, f2⟩ := ht hn
          exact ⟨e1.trans f1, e2.trans f2, e3, e4.trans hres⟩
    · have he : microEffect (.startGap r p a' b') t = (t, [.startNext r a' b']) := by
        simp [microEffect, microStartGap, goOn, st.params, hlt]
      obtain ⟨v, lv, tv, kv, sv⟩ := Leads.goesOn tt he (by simp)
      obtain ⟨-, -, -, -, -, -, -, -, -, hdv, -⟩ := kv.own
      refine .inr ⟨a', b', v, lt.trans lv, tv, st.trans sv, (show v.dbuf = t.dbuf from hdv).trans hdt, fun hn => ?_⟩
      obtain ⟨h1, h2⟩ := hn.of_keeps (kt.trans kv)
      exact ⟨(ht hn).1, (ht hn).2, h1, h2⟩

/-! ### The rounds -/

/-- All that the rounds do: success on a response that shows it, or the code of a kind of failure; with a silent peer
that of ResponseError. -/
structure Started (s u : State) : Prop where
  steady : Steady s u
  baud : u.baud = .normal
  dbuf : PayloadIn Params.startPayload u
  code : (u.seq.ret = .value 0 ∧ RunsWithPower u) ∨
    ∃ k ∈ [ErrKind.responseError, .powerGoodError, .startupError], u.seq.ret = .value (s.params.errCode k)
  silent : SilentPeer s → u.resp = s.resp ∧ u.respLen = 0

theorem Steady.normal {s t : State} (h : Steady s t) (hs : s.baud = .normal) : t.baud = .normal :=
  h.baud.elim (·.trans hs) id

theorem startFailure_mem (a b : Bool) : startFailure a b ∈ [ErrKind.responseError, .powerGoodError, .startupError] := by
  cases a <;> cases b <;> decide

/-- The rounds from the `r`-th on (R222 steps 6 to 11). -/
theorem startRounds_returns (d : Nat) {r : Nat} {a b : Bool} {s : State} (hd : s.params.startRounds ≤ r + 1 + d)
    (h : s.seq.todo = [.startRound r a b]) :
    ∃ u, Returns s [] u ∧ Started s u ∧
      (SilentPeer s → a = false → u.seq.ret = .value (s.params.errCode .responseError)) := by
  obtain ⟨j, l, lj, tj, ej⟩ := exchange_leads h (p := Params.startPayload) rfl
  obtain ⟨u, ru, hu, hpu, su, du, nu⟩ | ⟨a', b', t, lt, tt, st, dt, nt⟩ :=
    startPolls s.params.startPolls (by rw [ej.steady.params]; omega) tj ej.hands
  · have hns : ¬ SilentPeer s := fun hp => nu (ej.silent hp).1
    exact ⟨u, .of_leads lj ru, ⟨ej.steady.trans su, su.normal ej.baud, ej.dbuf.congr du, .inl ⟨hu, hpu⟩,
      fun hp => absurd hp hns⟩, fun hp => absurd hp hns⟩
  · have st' := ej.steady.trans st
    have bt := st.normal ej.baud
    have silent : SilentPeer s → a' = a ∧ NoResponse t ∧ t.resp = s.resp := fun hp => by
      obtain ⟨h1, h2⟩ := ej.silent hp
      obtain ⟨e1, -, e2, e3⟩ := nt h1
      exact ⟨e1, e2, e3.trans h2⟩
    by_cases hlt : r + 1 < s.params.startRounds
    · have he : microEffect (.startNext r a' b') t =
          (t, [.waitMs Params.roundGapMs, .startRound (r + 1) a' b']) := by
        simp [microEffect, microStartNext, goOn, st'.params, hlt]
      obtain ⟨v, lv, tv, kv, sv⟩ := Leads.goesOn tt he (by simp)
      obtain ⟨w, lw, tw, kw, sw⟩ := Leads.goesOn (m := .waitMs Params.roundGapMs) (next := []) tv rfl (by simp)
      have sw := (st'.trans sv).trans sw
      have silent : SilentPeer s → a' = a ∧ SilentPeer w ∧ w.resp = s.resp := fun hp => by
        obtain ⟨e1, e2, e3⟩ := silent hp
        obtain ⟨f1, f2⟩ := e2.of_keeps (kv.trans kw)
        exact ⟨e1, f1.1, f2.trans e3⟩
      cases d with
      | zero => omega
      | succ d =>
        obtain ⟨u, ru, gu, hu⟩ := startRounds_returns d (r := r + 1) (by rw [sw.params]; omega) tw
        have hcode := gu.code
        rw [sw.params] at hcode hu
        refine ⟨u, .of_leads (((lj.trans lt).trans lv).trans lw) ru, ⟨sw.trans gu.steady, gu.baud, gu.dbuf, hcode,
          fun hp => ?_⟩, fun hp ha => ?_⟩
        · obtain ⟨-, e2, e3⟩ := silent hp
          obtain ⟨f1, f2⟩ := gu.silent e2
          exact ⟨f1.trans e3, f2⟩
        · obtain ⟨e1, e2, -⟩ := silent hp
          exact hu e2 (e1.trans ha)
    · have he : microEffect (.startNext r a' b') t = (t, [.startFail a' b']) := by
        simp [microEffect, microStartNext, goOn, st'.params, hlt]
      obtain ⟨v, lv, tv, kv, sv⟩ := Leads.goesOn tt he (by simp)
      have sv' := st'.trans sv
      obtain ⟨-, -, -, -, -, -, -, -, -, hdv, -⟩ := kv.own
      have hdv : v.dbuf = t.dbuf := hdv
      have hret : (giveRet (.value (v.params.errCode (startFailure a' b'))) v).seq.ret =
          .value (s.params.errCode (startFailure a' b')) := by rw [← sv'.params]; rfl
      refine ⟨_, .of_leads ((lj.trans lt).trans lv) (.last tv rfl), ⟨sv'.trans (.giveRet _ v), sv.normal bt,
        (ej.dbuf.congr dt).congr hdv, .inr ⟨_, startFailure_mem a' b', hret⟩, fun hp => ?_⟩, fun hp ha => ?_⟩
      · obtain ⟨-, e2, e3⟩ := silent hp
        obtain ⟨f1, f2⟩ := e2.of_keeps kv
        exact ⟨f2.trans e3, f1.2⟩
      · rw [hret, (silent hp).1, ha]
        rfl

/-! ### The wakeups before the first round -/

/-- A read of the rail changes only its answers (R38). -/
theorem readRail_woken (s : State) : Woken [] s (readRail s).2 := by
  have keep : ∀ l c, Woken [] s ((s.setRails l).setFreeCtr c) := fun l c =>
    { own := MainOwned.refl _
      levels := by simp
      link := id
      chars := fun _ => rfl
      tx := rfl
      idle := fun hi => ⟨hi, by simp, rfl⟩
      rx := fun _ => ⟨[], (List.append_nil _).symm, Gained.refl s⟩
      noArrival := fun hn => ⟨hn, rfl⟩ }
  rw [readRail_eq_ite]
  split
  · exact keep s.rails _
  · exact keep s.rails.tail s.freeCtr

theorem readRail_lineMode (s : State) : (readRail s).2.lineMode = s.lineMode := by
  rw [readRail_eq_ite]
  split <;> rfl

/-- The rail is absent and not too often: a wakeup, and the next look (R222 steps 2 to 4). -/
theorem railAbsent_leads {a : Nat} (ha : a < 3) {s : State} (h : s.seq.todo = [.startRail a])
    (hr : (readRail s).1 = false) :
    ∃ t, Leads s t ∧ t.seq.todo = [.startRail (a + 1)] ∧ Woken wakeupLevels s t ∧ t.lineMode = .uart ∧
      t.rails = (readRail s).2.rails ∧ t.freeCtr = (readRail s).2.freeCtr := by
  have he : microEffect (.startRail a) s = ((readRail s).2, [.startWake a]) := by
    simp [microEffect, microStartRail, goOn, hr]
  obtain ⟨b, lb, tb, wb, -, rb, fb⟩ := Leads.microWoken h he (by simp) (readRail_woken s)
  have hw : microEffect (.startWake a) b = (b, wakeupProg ++ [.startRail (a + 1)]) := by
    simp [microEffect, microStartWake, goOn, Params.railTries, show ¬ 3 ≤ a by omega]
  obtain ⟨c, lc, tc, kc, sc⟩ := Leads.goesOn tb hw (by simp)
  obtain ⟨u, ru, wu, mu, railu, fu, -⟩ := wakeup_returns (tc.trans (List.append_nil _))
  obtain ⟨t, lt, tt, -, kt, hl⟩ := ru.keeps (by simp)
  have st := Steady.of_keeps kt hl
  obtain ⟨-, -, -, -, -, -, -, -, -, -, -, -, -, -, -, fc, -⟩ := kc.own
  obtain ⟨-, -, -, -, -, -, -, -, -, -, -, -, -, -, -, ft, -⟩ := kt.own
  refine ⟨t, (lb.trans lc).trans lt, tt, ?_, st.lineMode.trans mu, ((st.rails.trans railu).trans sc.rails).trans rb,
    (((ft : t.freeCtr = _).trans fu).trans fc).trans fb⟩
  simpa using (((wb.trans (kc.woken sc.levels)).trans wu).trans (kt.woken hl))

/-- The rail is present: the first round (R222 steps 2 and 5). -/
theorem railPresent_leads {a : Nat} {s : State} (h : s.seq.todo = [.startRail a]) (hr : (readRail s).1 = true) :
    ∃ t, Leads s t ∧ t.seq.todo = [.startRound 0 false false] ∧ Woken [] s t ∧ t.lineMode = s.lineMode ∧
      t.rails = (readRail s).2.rails := by
  have he : microEffect (.startRail a) s = ((readRail s).2, [.startFlags]) := by
    simp [microEffect, microStartRail, goOn, hr]
  obtain ⟨b, lb, tb, wb, mb, rb, -⟩ := Leads.microWoken h he (by simp) (readRail_woken s)
  obtain ⟨t, lt, tt, kt, st⟩ := Leads.goesOn (m := .startFlags) (next := [.startRound 0 false false]) tb rfl (by simp)
  exact ⟨t, lb.trans lt, tt, wb.stay (kt.woken st.levels), (st.lineMode.trans mb).trans (readRail_lineMode s),
    st.rails.trans rb⟩

/-- The rail is absent after the third wakeup (R222 step 3, R223). -/
theorem railGone_returns {a : Nat} (ha : 3 ≤ a) {s : State} (h : s.seq.todo = [.startRail a])
    (hr : (readRail s).1 = false) :
    ∃ u, Returns s [] u ∧ u.seq.ret = .value (s.params.errCode .wakeupError) ∧ Woken [] s u ∧ u.lineMode = s.lineMode ∧
      u.rails = (readRail s).2.rails ∧ u.freeCtr = (readRail s).2.freeCtr := by
  have he : microEffect (.startRail a) s = ((readRail s).2, [.startWake a]) := by
    simp [microEffect, microStartRail, goOn, hr]
  obtain ⟨b, lb, tb, wb, mb, rb, fb⟩ := Leads.microWoken h he (by simp) (readRail_woken s)
  have hw : microEffect (.startWake a) b = (giveRet (.value (b.params.errCode .wakeupError)) b, []) := by
    simp [microEffect, microStartWake, ret, Params.railTries, ha]
  obtain ⟨-, -, -, -, -, -, -, -, -, -, -, -, -, -, -, -, hpar⟩ := wb.own
  have hpar : b.params = s.params := hpar
  refine ⟨_, .of_leads lb (.last tb hw), by rw [← hpar]; rfl, wb.stay ((Keeps.setSeq b _).woken rfl),
    mb.trans (readRail_lineMode s), rb, fb⟩

/-- As many wakeups as the rail is absent. -/
theorem wakeups_leads (n : Nat) {a : Nat} (hn : a + n ≤ 3) {more : List Bool} {s : State}
    (h : s.seq.todo = [.startRail a]) (hr : s.rails = List.replicate n false ++ more) :
    ∃ t, Leads s t ∧ t.seq.todo = [.startRail (a + n)] ∧ Woken (List.replicate n wakeupLevels).flatten s t ∧
      t.rails = more ∧ t.freeCtr = s.freeCtr ∧ t.lineMode = if n = 0 then s.lineMode else .uart := by
  induction n generalizing a s with
  | zero => exact ⟨s, .refl s, h, (Keeps.setSeq s s.seq).woken rfl, hr, rfl, rfl⟩
  | succ n ih =>
    have hread := readRail_cons hr
    obtain ⟨b, lb, tb, wb, mb, rb, fb⟩ := railAbsent_leads (by omega) h (by rw [hread])
    rw [hread] at rb fb
    obtain ⟨t, lt, tt, wt, rt, ft, mt⟩ := ih (by omega) tb rb
    refine ⟨t, lb.trans lt, by rw [tt]; congr 2; omega, wb.trans wt, rt, ft.trans fb, ?_⟩
    rw [mt, if_neg (Nat.succ_ne_zero n)]
    split
    · exact mb
    · rfl

end Sys2Proof.Machine
end

section
/-! SEQ.START as a command, and its statements (44_orchestration.md R222 to R225). -/

namespace Sys2Proof.Machine

/-! ### DBUF beyond the payload -/

/-- A micro-step leaves DBUF, or loads a payload of the sequences. -/
theorem microEffect_dbuf (m : Micro) (s : State) :
    (microEffect m s).1.dbuf = s.dbuf ∨ ∃ p, (microEffect m s).1.dbuf = (loadPayload p s).dbuf := by
  have hp : ∀ p : Part, p ≠ .start → p ≠ .stop → Reg.dbuf ∉ p.writes := by
    intro p
    cases p <;> decide
  have hrail : (readRail s).2.dbuf = s.dbuf := by
    rw [readRail_eq_ite]
    split <;> rfl
  by_cases hs : m.part = .start ∨ m.part = .stop
  · cases m <;> simp [Micro.part] at hs
    case startRound r a b => exact .inr ⟨_, rfl⟩
    case stopTry c t => exact .inr ⟨_, rfl⟩
    all_goals
      refine .inl ?_
      simp only [microEffect, microStartBegin, microStartRail, microStartWake, microStartFlags, microStartJudge,
        microStartGap, microStartNext, microStartFail, microStopRail, microStopBegin, microStopJudge, microStopGap,
        microStopNext, microStopUnconfirmed, microStopDropRead, microStopDropWait, microStopConfirmed, goOn, ret, giveRet,
        waitMs_eq, apply_ite Prod.fst, apply_ite State.dbuf, State.setSeq_dbuf, hrail, ite_self]
  · rw [not_or] at hs
    exact .inl ((microEffect_writes m s).dbuf (hp _ hs.1 hs.2))

/-- A run writes no byte of DBUF but the two of the payload (R299). -/
theorem dbufTail_runRel : RunRel (fun _ => True) fun s t => ∀ j, 2 ≤ j → memRead .dbuf j t = memRead .dbuf j s where
  refl _ _ _ := rfl
  trans _ _ _ h k j hj := (k j hj).trans (h j hj)
  closed _ _ _ _ _ := trivial
  micro m s _ j hj := by
    obtain h | ⟨p, h⟩ := microEffect_dbuf m s
    · exact congrArg (·[j]?) h
    · have h0 : (0 : Nat) ≠ j := by omega
      have h1 : (1 : Nat) ≠ j := by omega
      simp [memRead, h, loadPayload_eq, h0, h1]
  setSeq _ _ _ _ := rfl
  point s hb j _ := by
    obtain ⟨-, -, -, -, -, -, -, -, -, hd, -⟩ := (point_keeps s hb).own
    exact congrArg (·[j]?) hd

/-! ### The command -/

/-- The parts of SEQ.START. -/
def startParts : List Part := [.start, .wake, .header, .send, .data, .resp, .take, .wait]

/-- What SEQ.START writes. -/
def startRegs : List Reg := linkRegs ++ [.baud, .lineMode, .csum, .resp, .respLen, .freeCtr, .dbuf, .rails]

theorem startBegin_leads (s : State) :
    ∃ t, Leads (accept .seqStart startProg s) t ∧ t.seq.todo = [.startRail 0] ∧ Keeps s t ∧ Steady s t := by
  obtain ⟨t, lt, tt, kt, st⟩ := Leads.goesOn (m := .startBegin) (rest := []) (next := [.startRail 0])
    (accept_todo .seqStart startProg s) rfl (by simp)
  have ks : Keeps s (accept .seqStart startProg s) := Keeps.setSeq s _
  exact ⟨t, lt, tt, ks.trans kt, (Steady.of_keeps ks rfl).trans st⟩

/-- The end of SEQ.START: success on a response that shows it, or the code of one of the four kinds; what it left of
BAUD and LINE_MODE. -/
structure StartEnds (s u : State) : Prop where
  code : (u.seq.ret = .value 0 ∧ RunsWithPower u) ∨
    ∃ k ∈ [ErrKind.wakeupError, .responseError, .powerGoodError, .startupError],
      u.seq.ret = .value (s.params.errCode k)
  baud : u.baud = s.baud ∨ u.baud = .normal
  lineMode : u.lineMode = s.lineMode ∨ u.lineMode = .uart

theorem Woken.params_baud {l : List WireItem} {s t : State} (h : Woken l s t) : t.params = s.params ∧ t.baud = s.baud := by
  obtain ⟨-, -, hb, -, -, -, -, -, -, -, -, -, -, -, -, -, hp⟩ := h.own
  exact ⟨hp, hb⟩

/-- From a look at the rail to the end, whatever the answers. -/
theorem startRail_returns (d : Nat) {a : Nat} (hd : 3 ≤ a + d) {s : State} (h : s.seq.todo = [.startRail a]) :
    ∃ u, Returns s [] u ∧ StartEnds s u := by
  cases hr : (readRail s).1 with
  | true =>
    obtain ⟨t, lt, tt, wt, mt, -⟩ := railPresent_leads h hr
    obtain ⟨hpar, hb⟩ := wt.params_baud
    obtain ⟨u, ru, su, -⟩ := startRounds_returns t.params.startRounds (by omega) tt
    refine ⟨u, .of_leads lt ru, su.code.imp_right fun ⟨k, hk, e⟩ => ⟨k, List.mem_cons_of_mem _ hk, hpar ▸ e⟩, .inr su.baud,
      .inl (su.steady.lineMode.trans mt)⟩
  | false =>
    by_cases ha : 3 ≤ a
    · obtain ⟨u, ru, hu, wu, mu, -⟩ := railGone_returns ha h hr
      exact ⟨u, ru, .inr ⟨_, by simp, hu⟩, .inl wu.params_baud.2, .inl mu⟩
    · obtain ⟨t, lt, tt, wt, mt, -⟩ := railAbsent_leads (by omega) h hr
      obtain ⟨hpar, hb⟩ := wt.params_baud
      cases d with
      | zero => omega
      | succ d =>
        obtain ⟨u, ru, cu⟩ := startRail_returns d (by omega) tt
        exact ⟨u, .of_leads lt ru, hpar ▸ cu.code, hb ▸ cu.baud, .inr (cu.lineMode.elim (·.trans mt) id)⟩

theorem exec_seqStart {s u : State} (hr : Returns (accept .seqStart startProg s) [] u) :
    exec .seqStart s = .next ((commitResult u.seq.ret u).setSeq Seq.idle) :=
  exec_of_returns (i := .seqStart) rfl rfl hr

/-- What a run of SEQ.START leaves alone. -/
theorem start_frame {s u : State} (hr : Returns (accept .seqStart startProg s) [] u) :
    Writes startRegs s u ∧ (∀ j, 2 ≤ j → memRead .dbuf j u = memRead .dbuf j s) ∧ (NoArrival s → RxBufFrame s u) := by
  have h0 : (accept .seqStart startProg s).seq.todo = startProg ++ [] := by simp [accept_todo]
  have hp : ∀ m ∈ startProg, m.Of startParts := by simp [startProg, startParts, Micro.part]
  have hs : Writes startRegs s (accept .seqStart startProg s) := Writes.setSeq _ s _
  have hw := (writes_runRel (ps := startParts) (w := startRegs) (by decide) (by decide) (by decide)).returns hr h0 hp
  refine ⟨hs.trans hw, fun j hj => dbufTail_runRel.returns hr h0 (fun _ _ => trivial) j hj, fun hn => .of_storage
    ((rxFrame_runRel (ps := startParts) (by decide) (by decide)).returns hr h0 hp hn).2⟩

theorem errCode_ne_zero (e : ErrNumber) : e.val ≠ 0 := fun h => by
  have := e.property.1
  rw [h] at this
  exact absurd this (by decide)

/-- The codes the spec uses (D25). -/
theorem specValues_errCode : ∀ k ∈ [ErrKind.wakeupError, .responseError, .powerGoodError, .startupError],
    (Params.specValues.errCode k).val.toNat ≤ 4 := by
  decide

/-- Settles O39: `StartEnds` holds of the whole command, and the parts of SEQ.START write no other register. -/
theorem startEndsWithACode : Obligations.StartEndsWithACode := by
  intro s
  obtain ⟨t, lt, tt, -, st⟩ := startBegin_leads s
  obtain ⟨u, ru, cu⟩ := startRail_returns 3 (by omega) tt
  have hr := Returns.of_leads lt ru
  have he := exec_seqStart hr
  obtain ⟨hw, hd, hrx⟩ := start_frame hr
  have hown : MainOwned
      { s with
        resp := u.resp, respLen := u.respLen, dbuf := u.dbuf, csum := u.csum, baud := u.baud, lineMode := u.lineMode
        rails := u.rails, freeCtr := u.freeCtr, seq := u.seq } u :=
    ⟨hw.rxie (by decide), hw.gie, rfl, rfl, rfl, hw.result, hw.resultValid, rfl, rfl, rfl, rfl, hw.powerCut (by decide),
      hw.pcutTrace (by decide), hw.cmd, rfl, rfl, hw.params⟩
  have hframe := hown.commit
    (s := { s with
        resp := u.resp, respLen := u.respLen, dbuf := u.dbuf, csum := u.csum, baud := u.baud, lineMode := u.lineMode
        rails := u.rails, freeCtr := u.freeCtr }) u.seq.ret
  have hb : u.baud = s.baud ∨ u.baud = .normal := cu.baud.elim (fun e => st.baud.imp e.trans e.trans) .inr
  have hm : u.lineMode = s.lineMode ∨ u.lineMode = .uart := cu.lineMode.imp_left (·.trans st.lineMode)
  obtain ⟨hret, hp⟩ | ⟨k, hk, hret⟩ := cu.code <;> rw [hret] at he hframe
  · exact ⟨_, he, rfl, .inl ⟨rfl, hp⟩, Nat.zero_le 5, fun _ => hp, fun _ => Nat.zero_le 4, hb, hm, hd, hrx, hframe⟩
  · rw [st.params] at he hframe
    exact ⟨_, he, rfl, .inr (List.mem_map_of_mem hk), (s.params.errCode k).property.2, fun h0 => absurd h0 (errCode_ne_zero _),
      fun hs => hs ▸ specValues_errCode k hk, hb, hm, hd, hrx, hframe⟩

end Sys2Proof.Machine
end

section
/-! SEQ.START with the rail absent, with a silent peer, and with a response that shows both flags (44_orchestration.md
R222, R223). -/

namespace Sys2Proof.Machine

/-- The wakeups of SEQ.START, as many as the rail is absent (R222 steps 1 to 4). -/
theorem seqStart_wakeups {n : Nat} (hn : n ≤ 3) {more : List Bool} {s : State}
    (hr : s.rails = List.replicate n false ++ more) :
    ∃ t, Leads (accept .seqStart startProg s) t ∧ t.seq.todo = [.startRail n] ∧
      Woken (List.replicate n wakeupLevels).flatten s t ∧ t.rails = more ∧ t.freeCtr = s.freeCtr ∧
      t.lineMode = if n = 0 then s.lineMode else .uart := by
  obtain ⟨a, la, ta, ka, sa⟩ := startBegin_leads s
  obtain ⟨-, -, -, -, -, -, -, -, -, -, -, -, -, -, -, fa, -⟩ := ka.own
  obtain ⟨t, lt, tt, wt, rt, ft, mt⟩ := wakeups_leads n (a := 0) (by omega) ta (sa.rails.trans hr)
  rw [Nat.zero_add] at tt
  exact ⟨t, la.trans lt, tt, (ka.woken sa.levels).trans wt, rt, ft.trans fa, sa.lineMode ▸ mt⟩

/-- The rail is present after `n` wakeups: the first round. -/
theorem seqStart_firstRound {n : Nat} (hn : n ≤ 3) {rest : List Bool} {s : State}
    (hr : s.rails = List.replicate n false ++ true :: rest) :
    ∃ t, Leads (accept .seqStart startProg s) t ∧ t.seq.todo = [.startRound 0 false false] ∧
      Woken (List.replicate n wakeupLevels).flatten s t ∧ t.rails = rest ∧
      t.lineMode = if n = 0 then s.lineMode else .uart := by
  obtain ⟨a, la, ta, wa, ra, -, ma⟩ := seqStart_wakeups hn hr
  have hread := readRail_cons ra
  obtain ⟨t, lt, tt, wt, mt, rt⟩ := railPresent_leads ta (by rw [hread])
  rw [hread] at rt
  exact ⟨t, la.trans lt, tt, wa.stay wt, rt, mt.trans ma⟩

/-- Settles O40: three wakeups, and the fourth look finds the rail gone. -/
theorem startGivesUpWithoutTheRail : Obligations.StartGivesUpWithoutTheRail := by
  intro s rest hr
  obtain ⟨a, la, ta, wa, ra, fa, ma⟩ := seqStart_wakeups (n := 3) le_rfl (more := false :: rest) hr
  have hread := readRail_cons ra
  obtain ⟨u, ru, hu, wu, mu, railu, fu⟩ := railGone_returns le_rfl ta (by rw [hread])
  rw [hread] at railu fu
  have w := wa.stay wu
  have hlev : (List.replicate 3 wakeupLevels).flatten = wakeupLevels ++ (wakeupLevels ++ wakeupLevels) := rfl
  rw [hlev] at w
  have he := exec_seqStart (.of_leads la ru)
  rw [hu, wa.params_baud.1] at he
  have hown := w.own
  rw [mu.trans ma, railu, fu.trans fa] at hown
  refine ⟨_, he, ?_, w.txBufFrame, fun hn => (w.noArrival hn).2, w.chars, fun hl hi => ?_,
    hown.commit (s := (s.setRails rest).setLineMode .uart) (.value (s.params.errCode .wakeupError))⟩
  · simpa [commitResult] using w.levels
  · simpa [commitResult] using (w.idle (hl.2.2.1.txIdle hi)).2.1

theorem Woken.resp {l : List WireItem} {s t : State} (h : Woken l s t) : t.resp = s.resp := by
  obtain ⟨-, -, -, -, -, -, -, hr, -⟩ := h.own
  exact hr

/-- Settles O41: after the wakeups the rounds of a silent peer set no flag. -/
theorem startWithASilentPeer : Obligations.StartWithASilentPeer := by
  intro s n rest hn hr hp
  obtain ⟨a, la, ta, wa, ra, ma⟩ := seqStart_firstRound hn hr
  obtain ⟨na, rxa⟩ := wa.noArrival hp.1
  have hpa : SilentPeer a := ⟨na, by rw [rxa]; exact hp.2⟩
  obtain ⟨u, ru, gu, hu⟩ := startRounds_returns a.params.startRounds (by omega) ta
  have hu := hu hpa rfl
  obtain ⟨hres, hlen⟩ := gu.silent hpa
  have hr := Returns.of_leads la ru
  have he := exec_seqStart hr
  rw [hu, wa.params_baud.1] at he
  obtain ⟨-, hd, -⟩ := start_frame hr
  exact ⟨_, he, rfl, rfl, gu.steady.rails.trans ra, hlen, gu.dbuf.1, gu.dbuf.2, hd, hres.trans wa.resp,
    gu.steady.levels.trans wa.levels, gu.steady.lineMode.trans ma⟩

theorem bytesOf_charsOf (w : List WireItem) : bytesOf (charsOf w) = bytesOf w := by
  induction w with
  | nil => rfl
  | cons x w ih =>
    cases x with
    | char b r => exact congrArg (b :: ·) ih
    | level l ms => exact ih

/-- A drained transmitter stays so while the levels are driven, and nothing is sent. -/
theorem Woken.drained {l : List WireItem} {s t : State} (h : Woken l s t) (hl : LinkOk s) (hd : TxDrained s) :
    TxDrained t ∧ bytesOf (lineStream t) = bytesOf (lineStream s) := by
  obtain ⟨hi, -, hr⟩ := h.idle (hl.2.2.1.txIdle hd.1)
  exact ⟨⟨hi.1, by rw [hr]; exact hd.2⟩, by rw [← bytesOf_charsOf, h.chars hl, bytesOf_charsOf]⟩

/-- A response that begins with two bytes, the second with ACK and PG set, shows both flags. -/
theorem runsWithPower_of_take {s : State} {b0 b1 : Byte} {more : List Byte}
    (h : s.resp.toList.take (more.length + 2) = b0 :: b1 :: more) (hn : more.length + 2 ≤ s.respLen.toNat)
    (h0 : b1.getLsbD 0 = true) (h1 : b1.getLsbD 1 = true) : RunsWithPower s := by
  have hb : s.resp[1] = b1 := by
    have hi := congrArg (·[1]?) h
    simpa using hi
  exact ⟨by omega, hb ▸ h0, hb ▸ h1⟩

theorem Woken.gie {l : List WireItem} {s t : State} (h : Woken l s t) : t.gie = s.gie := by
  obtain ⟨-, hg, -⟩ := h.own
  exact hg

theorem bytesOf_startFrame :
    bytesOf (masterFrame 0x3A [Params.startPayload[0], Params.startPayload[1]]) = startFrameBytes := by
  decide

/-- Settles O42: the first exchange captures what RB[RX] held, which shows both flags. -/
theorem startSucceedsAtTheFirstPoll : Obligations.StartSucceedsAtTheFirstPoll := by
  intro s n rest b0 b1 more hn hr hl hc h0 h1
  obtain ⟨a, la, ta, wa, ra, ma⟩ := seqStart_firstRound hn hr
  have hla := wa.link hl
  obtain ⟨new, hnew, -⟩ := wa.rx hl
  rw [hc] at hnew
  obtain ⟨t, l, lt, tt, et⟩ := exchange_leads ta (p := Params.startPayload) rfl
  obtain ⟨htake, hle, hna⟩ := et.captured hla hnew
  have ru := startJudge_returns tt et.hands (runsWithPower_of_take htake hle h0 h1)
  have he := exec_seqStart (.of_leads (la.trans lt) ru)
  refine ⟨_, he, rfl, rfl, et.steady.rails.trans ra, htake, hle, fun hs => ?_, et.dbuf.1, et.dbuf.2,
    (et.steady.levels.trans wa.levels), fun hg hd => ?_⟩
  · obtain ⟨na, rxa⟩ := wa.noArrival hs
    refine hna na ?_
    rw [rxa, hc] at hnew
    simpa using hnew
  · obtain ⟨da, ba⟩ := wa.drained hl hd
    have hb := et.line hla (wa.gie.trans hg) da
    rw [bytesOf_startFrame, ba] at hb
    exact hb

end Sys2Proof.Machine
end

section
/-! SEQ.STOP (44_orchestration.md R226 to R229): the polls of an attempt, the attempts, the looks at the rail after the
last, and the power-cut pulses. -/

namespace Sys2Proof.Machine

/-! ### The polls of an attempt -/

theorem valid_and_nack_iff {s : State} (hr : HandsRespLen s) :
    (valid (handedCount s) s && nack (handedCount s) s) = true ↔ ConfirmsStop s := by
  rw [handedCount_eq hr]
  exact confirmsStop_iff s

theorem ConfirmsStop.congr {s t : State} (h : ConfirmsStop s) (hr : t.resp = s.resp) (hl : t.respLen = s.respLen) :
    ConfirmsStop t := by
  simpa [ConfirmsStop, hr, hl] using h

theorem NoResponse.not_confirmsStop {s : State} (h : NoResponse s) : ¬ ConfirmsStop s := fun hc => by
  have := hc.1
  rw [h.2] at this
  exact absurd this (by decide)

/-- The marker with a cleared ACK confirms the stop (R226 step 5). -/
theorem stopJudge_confirmed {c : Bool} {k p : Nat} {s : State} (h : s.seq.todo = [.stopJudge c k p])
    (hr : HandsRespLen s) (hp : ConfirmsStop s) :
    ∃ t, Leads s t ∧ t.seq.todo = [.stopConfirmed c] ∧ Keeps s t ∧ Steady s t :=
  Leads.goesOn h (if_pos ((valid_and_nack_iff hr).mpr hp)) (by simp)

/-- Any other response uses up one poll (R226 step 5). -/
theorem stopJudge_unconfirmed {c : Bool} {k p : Nat} {s : State} (h : s.seq.todo = [.stopJudge c k p])
    (hr : HandsRespLen s) (hp : ¬ ConfirmsStop s) :
    ∃ t, Leads s t ∧ t.seq.todo = [.stopGap c k p] ∧ Keeps s t ∧ Steady s t :=
  Leads.goesOn h (if_neg (mt (valid_and_nack_iff hr).mp hp)) (by simp)

theorem Keeps.regs {s t : State} (h : Keeps s t) : t.resp = s.resp ∧ t.respLen = s.respLen ∧ t.dbuf = s.dbuf := by
  obtain ⟨-, -, -, -, -, -, -, hr, hl, hd, -⟩ := h.own
  exact ⟨hr, hl, hd⟩

/-- The polls of an attempt from the judgement of the `p`-th response on (R226 steps 5 and 6). -/
theorem stopPolls (d : Nat) {c : Bool} {k p : Nat} {s : State} (hd : s.params.stopPolls ≤ p + 1 + d)
    (h : s.seq.todo = [.stopJudge c k p]) (hr : HandsRespLen s) :
    ∃ t, Leads s t ∧ Steady s t ∧ t.dbuf = s.dbuf ∧
      ((t.seq.todo = [.stopConfirmed c] ∧ ConfirmsStop t ∧ ¬ NoResponse s) ∨
        (t.seq.todo = [.stopNext c k] ∧ (NoResponse s → NoResponse t))) := by
  by_cases hp : ConfirmsStop s
  · obtain ⟨t, lt, tt, kt, st⟩ := stopJudge_confirmed h hr hp
    obtain ⟨h1, h2, h3⟩ := kt.regs
    exact ⟨t, lt, st, h3, .inl ⟨tt, hp.congr h1 h2, fun hn => hn.not_confirmsStop hp⟩⟩
  · obtain ⟨t, lt, tt, kt, st⟩ := stopJudge_unconfirmed h hr hp
    obtain ⟨-, -, hdt⟩ := kt.regs
    by_cases hlt : p + 1 < s.params.stopPolls
    · have he : microEffect (.stopGap c k p) t = (t, seqStatusProg ++ [.stopJudge c k (p + 1)]) := by
        simp [microEffect, microStopGap, goOn, st.params, hlt]
      obtain ⟨v, l, lv, tv, av, sv⟩ := request_steady tt he
      obtain ⟨-, -, -, -, -, -, -, -, -, hdv, -⟩ := av.own
      have hdv : v.dbuf = t.dbuf := hdv
      have sv := st.trans sv
      have silent : NoResponse s → NoResponse v := fun hn => by
        obtain ⟨k1, -, k3⟩ := av.silent_respLen (hn.of_keeps kt).1.1
        exact ⟨k1, k3⟩
      cases d with
      | zero => omega
      | succ d =>
        obtain ⟨u, lu, su, du, hu⟩ := stopPolls d (p := p + 1) (by rw [sv.params]; omega) tv (av.hands le_rfl).1
        exact ⟨u, (lt.trans lv).trans lu, sv.trans su, (du.trans hdv).trans hdt,
          hu.imp (fun ⟨e1, e2, e3⟩ => ⟨e1, e2, e3 ∘ silent⟩) fun ⟨e1, e2⟩ => ⟨e1, e2 ∘ silent⟩⟩
    · have he : microEffect (.stopGap c k p) t = (t, [.stopNext c k]) := by
        simp [microEffect, microStopGap, goOn, st.params, hlt]
      obtain ⟨v, lv, tv, kv, sv⟩ := Leads.goesOn tt he (by simp)
      obtain ⟨-, -, hdv⟩ := kv.regs
      exact ⟨v, lt.trans lv, st.trans sv, hdv.trans hdt, .inr ⟨tv, fun hn => (hn.of_keeps (kt.trans kv)).1⟩⟩

/-! ### The attempts -/

/-- The attempts from the `k`-th on, up to the confirmation or the looks at the rail (R226 steps 3 to 8). -/
theorem stopTries (d : Nat) {c : Bool} {k : Nat} {s : State} (hd : s.params.stopTries ≤ k + 1 + d)
    (h : s.seq.todo = [.stopTry c k]) :
    ∃ t, Leads s t ∧ Steady s t ∧ PayloadIn Params.stopPayload t ∧
      ((t.seq.todo = [.stopConfirmed c] ∧ ConfirmsStop t ∧ ¬ SilentPeer s) ∨
        (t.seq.todo = [.stopUnconfirmed] ∧ (SilentPeer s → NoResponse t))) := by
  obtain ⟨j, l, lj, tj, ej⟩ := exchange_leads h (p := Params.stopPayload) rfl
  obtain ⟨t, lt, st, dt, ⟨tt, ct, nt⟩ | ⟨tt, nt⟩⟩ :=
    stopPolls s.params.stopPolls (by rw [ej.steady.params]; omega) tj ej.hands
  · exact ⟨t, lj.trans lt, ej.steady.trans st, ej.dbuf.congr dt, .inl ⟨tt, ct, fun hp => nt (ej.silent hp).1⟩⟩
  · have st' := ej.steady.trans st
    have silent : SilentPeer s → NoResponse t := fun hp => nt (ej.silent hp).1
    by_cases hlt : k + 1 < s.params.stopTries
    · have he : microEffect (.stopNext c k) t = (t, [.stopTry c (k + 1)]) := by
        simp [microEffect, microStopNext, goOn, st'.params, hlt]
      obtain ⟨v, lv, tv, kv, sv⟩ := Leads.goesOn tt he (by simp)
      have sv := st'.trans sv
      have silent : SilentPeer s → SilentPeer v := fun hp => ((silent hp).of_keeps kv).1.1
      cases d with
      | zero => omega
      | succ d =>
        obtain ⟨u, lu, su, du, hu⟩ := stopTries d (k := k + 1) (by rw [sv.params]; omega) tv
        exact ⟨u, ((lj.trans lt).trans lv).trans lu, sv.trans su, du,
          hu.imp (fun ⟨e1, e2, e3⟩ => ⟨e1, e2, e3 ∘ silent⟩) fun ⟨e1, e2⟩ => ⟨e1, e2 ∘ silent⟩⟩
    · have he : microEffect (.stopNext c k) t = (t, [.stopUnconfirmed]) := by
        simp [microEffect, microStopNext, goOn, st'.params, hlt]
      obtain ⟨v, lv, tv, kv, sv⟩ := Leads.goesOn tt he (by simp)
      obtain ⟨-, -, hdv⟩ := kv.regs
      exact ⟨v, (lj.trans lt).trans lv, st'.trans sv, (ej.dbuf.congr dt).congr hdv,
        .inr ⟨tv, fun hp => ((silent hp).of_keeps kv).1⟩⟩

/-! ### Looks at the rail -/

/-- The answers `l` of `m` looks at the rail at most: the first `n` find it present, and the next, if one is left, finds
it gone; `rest` is what is left of the answers. -/
def Looks (m n : Nat) (l rest : List Bool) : Prop :=
  (n < m ∧ l = List.replicate n true ++ false :: rest) ∨ (n = m ∧ l = List.replicate n true ++ rest)

theorem Looks.of_zero {n : Nat} {l rest : List Bool} (h : Looks 0 n l rest) : n = 0 ∧ l = rest := by
  obtain ⟨h, -⟩ | ⟨rfl, h⟩ := h
  · omega
  · exact ⟨rfl, h⟩

/-- The first of several looks. -/
theorem Looks.of_succ {m n : Nat} {l rest : List Bool} (h : Looks (m + 1) n l rest) :
    (n = 0 ∧ l = false :: rest) ∨ ∃ n' l', n = n' + 1 ∧ l = true :: l' ∧ Looks m n' l' rest := by
  cases n with
  | zero =>
    obtain ⟨-, h⟩ | ⟨h, -⟩ := h
    · exact .inl ⟨rfl, h⟩
    · omega
  | succ n =>
    refine .inr ⟨n, ?_⟩
    obtain ⟨hn, h⟩ | ⟨hn, h⟩ := h
    · exact ⟨_, rfl, h, .inl ⟨by omega, rfl⟩⟩
    · exact ⟨_, rfl, h, .inr ⟨by omega, rfl⟩⟩

theorem Woken.cut {l : List WireItem} {s t : State} (h : Woken l s t) :
    t.powerCut = s.powerCut ∧ t.pcutTrace = s.pcutTrace := by
  obtain ⟨-, -, -, -, -, -, -, -, -, -, -, hp, hc, -⟩ := h.own
  exact ⟨hp, hc⟩

theorem giveRet_woken (r : Ret) (s : State) : Woken [] s (giveRet r s) := (Keeps.setSeq s _).woken rfl

/-- The looks at the rail after the last attempt, from the `k`-th on (R226 step 9, R229). -/
theorem stopDrop_returns (d : Nat) {k : Nat} (hd : k + d = 10) {s : State} (h : s.seq.todo = [.stopDropRead k]) :
    ∃ u, Returns s [] u ∧ Woken [] s u ∧ u.seq.ret = .nothing ∧ ∀ n rest, Looks d n s.rails rest → u.rails = rest := by
  cases d with
  | zero =>
    have he : microEffect (.stopDropRead k) s = (giveRet .nothing s, []) := by
      simp [microEffect, microStopDropRead, ret, Params.railDropTries, show 10 ≤ k by omega]
    exact ⟨_, .last h he, giveRet_woken _ s, rfl, fun n rest hl => hl.of_zero.2⟩
  | succ d =>
    have hk : ¬ 10 ≤ k := by omega
    cases hr : (readRail s).1 with
    | false =>
      have he : microEffect (.stopDropRead k) s = (giveRet .nothing (readRail s).2, []) := by
        simp [microEffect, microStopDropRead, ret, Params.railDropTries, hk, hr]
      refine ⟨_, .last h he, (readRail_woken s).stay (giveRet_woken _ _), rfl, fun n rest hl => ?_⟩
      obtain ⟨-, e⟩ | ⟨n', l', -, e, -⟩ := hl.of_succ <;> rw [readRail_cons e] at hr ⊢
      · rfl
      · cases hr
    | true =>
      have he : microEffect (.stopDropRead k) s = ((readRail s).2, [.stopDropWait k]) := by
        simp [microEffect, microStopDropRead, goOn, Params.railDropTries, hk, hr]
      obtain ⟨a, la, ta, wa, -, ra, -⟩ := Leads.microWoken h he (by simp) (readRail_woken s)
      obtain ⟨b, lb, tb, kb, sb⟩ := Leads.goesOn (m := .stopDropWait k) (next := [.stopDropRead (k + 1)]) ta rfl (by simp)
      obtain ⟨u, ru, wu, hu, railu⟩ := stopDrop_returns d (k := k + 1) (by omega) tb
      refine ⟨u, .of_leads (la.trans lb) ru, (wa.stay (kb.woken sb.levels)).stay wu, hu, fun n rest hl => ?_⟩
      obtain ⟨-, e⟩ | ⟨n', l', -, e, hl'⟩ := hl.of_succ <;> rw [readRail_cons e] at hr ra
      · cases hr
      · exact railu n' rest (by rw [sb.rails, ra]; exact hl')

/-! ### The power-cut pulses -/

/-- Between `s` and `t` agent M drives POWER_CUT and reads the rail; nothing is sent. -/
structure Pulsed (s t : State) : Prop where
  own : MainOwned
    { s with
      lineMode := t.lineMode, powerCut := t.powerCut, pcutTrace := t.pcutTrace, rails := t.rails, freeCtr := t.freeCtr
      seq := t.seq } t
  link : LinkOk s → LinkOk t ∧ charsOf (lineStream t) = charsOf (lineStream s)
  noArrival : NoArrival s → NoArrival t ∧ t.rbRx = s.rbRx

theorem Pulsed.trans {s t u : State} (h : Pulsed s t) (g : Pulsed t u) : Pulsed s u where
  own := by
    have h' := h.own
    have g' := g.own
    clear h g
    simp_all [MainOwned]
  link hl := by
    obtain ⟨h1, h2⟩ := h.link hl
    obtain ⟨g1, g2⟩ := g.link h1
    exact ⟨g1, g2.trans h2⟩
  noArrival hn := by
    obtain ⟨h1, h2⟩ := h.noArrival hn
    obtain ⟨g1, g2⟩ := g.noArrival h1
    exact ⟨g1, g2.trans h2⟩

theorem Woken.pulsed {l : List WireItem} {s t : State} (h : Woken l s t) : Pulsed s t where
  own := by
    have h' := h.own
    clear h
    simp_all [MainOwned]
  link hl := ⟨h.link hl, h.chars hl⟩
  noArrival := h.noArrival

theorem setPowerCutPin_pulsed (b : Bool) (s : State) : Pulsed s (setPowerCutPin b s) where
  own := MainOwned.refl _
  link hl := ⟨hl, rfl⟩
  noArrival hn := ⟨hn, rfl⟩

theorem setPcutTrace_pulsed (l : List CutItem) (s : State) : Pulsed s (s.setPcutTrace l) where
  own := MainOwned.refl _
  link hl := ⟨hl, rfl⟩
  noArrival hn := ⟨hn, rfl⟩

theorem Pulsed.params {s t : State} (h : Pulsed s t) : t.params = s.params := by
  obtain ⟨-, -, -, -, -, -, -, -, -, -, -, -, -, -, -, -, hp⟩ := h.own
  exact hp

theorem Pulsed.regs {s t : State} (h : Pulsed s t) :
    t.baud = s.baud ∧ t.resp = s.resp ∧ t.respLen = s.respLen ∧ t.dbuf = s.dbuf := by
  obtain ⟨-, -, hb, -, -, -, -, hr, hl, hd, -⟩ := h.own
  exact ⟨hb, hr, hl, hd⟩

/-- A micro-step on the pins, with the point after it. -/
theorem Leads.microPulsed {s u : State} {m : Micro} {next rest : List Micro} (h : s.seq.todo = m :: rest)
    (he : microEffect m s = (u, next)) (hn : next ++ rest ≠ []) (hp : Pulsed s u) :
    ∃ t, Leads s t ∧ t.seq.todo = next ++ rest ∧ Pulsed s t ∧ t.powerCut = u.powerCut ∧ t.pcutTrace = u.pcutTrace ∧
      t.rails = u.rails := by
  obtain ⟨t, lt, tt, kt, hl, -⟩ := Leads.microKeeps h he hn
  have st := Steady.of_keeps kt hl
  exact ⟨t, lt, tt, hp.trans (kt.woken hl).pulsed, st.powerCut, st.pcutTrace, st.rails⟩

/-- One pulse (R226 step 11, R228). -/
theorem pulse_leads {j : Nat} {s : State} (h : s.seq.todo = [.cutHigh j]) :
    ∃ t, Leads s t ∧ t.seq.todo = [.cutRead (j + 1)] ∧ Pulsed s t ∧ t.powerCut = false ∧
      t.pcutTrace = s.pcutTrace ++ cutPulse ∧ t.rails = s.rails := by
  obtain ⟨a, la, ta, pa, -, ca, ra⟩ := Leads.microPulsed h rfl (by simp) (setPowerCutPin_pulsed true s)
  obtain ⟨b, lb, tb, pb, -, cb, rb⟩ := Leads.microPulsed (m := .cutHold j) ta rfl (by simp) (setPcutTrace_pulsed _ a)
  obtain ⟨t, lt, tt, pt, et, ct, rt⟩ := Leads.microPulsed (m := .cutLow j) tb rfl (by simp) (setPowerCutPin_pulsed false b)
  refine ⟨t, (la.trans lb).trans lt, tt, (pa.trans pb).trans pt, et, ?_, (rt.trans rb).trans ra⟩
  rw [ct, setPowerCutPin, State.setPcutTrace_pcutTrace, cb, State.setPcutTrace_pcutTrace, ca, setPowerCutPin,
    State.setPcutTrace_pcutTrace, List.append_assoc, List.append_assoc]
  rfl

/-- The rail is still present: the gap, if there is one, and the next pulse (R226 steps 11 and 12). -/
theorem nextPulse_leads {j : Nat} (h0 : j ≠ 0) (hj : j < 10) {s : State} (h : s.seq.todo = [.cutRead j])
    (hr : (readRail s).1 = true) :
    ∃ t, Leads s t ∧ t.seq.todo = [.cutRead (j + 1)] ∧ Pulsed s t ∧ t.powerCut = false ∧
      t.pcutTrace = s.pcutTrace ++ (if j = 0 ∨ s.params.cutGapMs = 0 then [] else [.wait s.params.cutGapMs]) ++ cutPulse ∧
      t.rails = (readRail s).2.rails := by
  have hw := readRail_woken s
  obtain ⟨-, hcut⟩ := hw.cut
  by_cases hg : s.params.cutGapMs = 0
  · have he : microEffect (.cutRead j) s = ((readRail s).2, [.cutHigh j]) := by
      simp [microEffect, microCutRead, goOn, Params.cutPulses, hr, hj, hg]
    obtain ⟨a, la, ta, pa, -, ca, ra⟩ := Leads.microPulsed h he (by simp) hw.pulsed
    obtain ⟨t, lt, tt, pt, et, ct, rt⟩ := pulse_leads ta
    exact ⟨t, la.trans lt, tt, pa.trans pt, et, by simp [ct, ca, hcut, hg], rt.trans ra⟩
  · have he : microEffect (.cutRead j) s = ((readRail s).2, [.cutGap, .cutHigh j]) := by
      simp [microEffect, microCutRead, goOn, Params.cutPulses, hr, hj, hg]
    obtain ⟨a, la, ta, pa, -, ca, ra⟩ := Leads.microPulsed h he (by simp) hw.pulsed
    obtain ⟨b, lb, tb, pb, -, cb, rb⟩ := Leads.microPulsed (m := .cutGap) ta rfl (by simp) (setPcutTrace_pulsed _ a)
    obtain ⟨t, lt, tt, pt, et, ct, rt⟩ := pulse_leads tb
    exact ⟨t, (la.trans lb).trans lt, tt, (pa.trans pb).trans pt, et, by simp [ct, cb, ca, hcut, hg, h0, pa.params],
      (rt.trans rb).trans ra⟩

/-- From a look at the rail after the `j`-th pulse to the end (R226 step 12). -/
theorem pulses_returns (d : Nat) {j : Nat} (hd : j + d = 10) (h0 : j ≠ 0) {base : List CutItem} {s : State}
    (h : s.seq.todo = [.cutRead j]) (hc : s.pcutTrace = base ++ cutTrace s.params.cutGapMs j) (hp : s.powerCut = false) :
    ∃ u k, Returns s [] u ∧ Pulsed s u ∧ u.seq.ret = .nothing ∧ k ≠ 0 ∧ k ≤ 10 ∧ u.powerCut = false ∧
      u.pcutTrace = base ++ cutTrace s.params.cutGapMs k ∧
      ∀ n rest, Looks (d + 1) n s.rails rest → u.rails = rest ∧ k = min 10 (j + n) := by
  have hw := readRail_woken s
  by_cases hgo : (readRail s).1 = true ∧ j < 10
  · obtain ⟨hr, hj⟩ := hgo
    obtain ⟨t, lt, tt, pt, et, ct, rt⟩ := nextPulse_leads h0 hj h hr
    cases d with
    | zero => omega
    | succ d =>
      have ht : t.pcutTrace = base ++ cutTrace t.params.cutGapMs (j + 1) := by
        rw [ct, hc, pt.params, cutTrace]
        simp
      obtain ⟨u, k, ru, pu, hu, hk0, hk, eu, cu, railu⟩ := pulses_returns d (by omega) (Nat.succ_ne_zero j) tt ht et
      refine ⟨u, k, .of_leads lt ru, pt.trans pu, hu, hk0, hk, eu, pt.params ▸ cu, fun n rest hl => ?_⟩
      obtain ⟨-, e⟩ | ⟨n', l', rfl, e, hl'⟩ := hl.of_succ <;> rw [readRail_cons e] at hr rt
      · cases hr
      · obtain ⟨h1, h2⟩ := railu n' rest (by rw [rt]; exact hl')
        exact ⟨h1, by omega⟩
  · have he : microEffect (.cutRead j) s = (giveRet .nothing (readRail s).2, []) := by
      simp only [microEffect, microCutRead, ret, Params.cutPulses]
      exact if_neg fun h => hgo ((Bool.and_eq_true_iff.mp h).imp_right of_decide_eq_true)
    obtain ⟨h1, h2⟩ := hw.cut
    refine ⟨_, j, .last h he, (hw.stay (giveRet_woken _ _)).pulsed, rfl, h0, by omega, h1.trans hp, h2.trans hc,
      fun n rest hl => ?_⟩
    obtain ⟨rfl, e⟩ | ⟨n', l', rfl, e, hl'⟩ := hl.of_succ <;> rw [readRail_cons e] at hgo ⊢
    · exact ⟨rfl, by omega⟩
    · obtain rfl : d = 0 := by
        have := mt (And.intro rfl) hgo
        omega
      obtain ⟨rfl, rfl⟩ := hl'.of_zero
      exact ⟨rfl, by omega⟩

/-- All that follows a confirmation: `k` pulses, none of them for a soft stop (R226 steps 10 to 12). -/
theorem confirmed_returns {c : Bool} {s : State} (h : s.seq.todo = [.stopConfirmed c]) :
    ∃ u k, Returns s [] u ∧ Pulsed s u ∧ u.seq.ret = .nothing ∧
      u.pcutTrace = s.pcutTrace ++ cutTrace s.params.cutGapMs k ∧ k ≤ 10 ∧ (k ≠ 0 → c = true ∧ u.powerCut = false) ∧
      (k = 0 → u.powerCut = s.powerCut) ∧ (c = false → k = 0 ∧ u.rails = s.rails) ∧
      (c = true → ∀ n rest, Looks 10 n s.rails rest → u.rails = rest ∧ k = min 10 (n + 1)) := by
  cases c with
  | false =>
    exact ⟨_, 0, .last h rfl, (giveRet_woken _ s).pulsed, rfl, (List.append_nil _).symm, Nat.zero_le _,
      fun h => absurd rfl h, fun _ => rfl, fun _ => ⟨rfl, rfl⟩, fun h => nomatch h⟩
  | true =>
    obtain ⟨a, la, ta, ka, sa⟩ := Leads.goesOn (next := [.cutHigh 0]) h rfl (by simp)
    obtain ⟨b, lb, tb, pb, eb, cb, rb⟩ := pulse_leads ta
    have pb := (ka.woken sa.levels).pulsed.trans pb
    have hb : b.pcutTrace = s.pcutTrace ++ cutTrace b.params.cutGapMs 1 := by
      rw [cb, sa.pcutTrace]
      simp [cutTrace]
    obtain ⟨u, k, ru, pu, hu, hk0, hk, eu, cu, railu⟩ := pulses_returns 9 rfl one_ne_zero tb hb eb
    refine ⟨u, k, .of_leads (la.trans lb) ru, pb.trans pu, hu, pb.params ▸ cu, hk, fun _ => ⟨rfl, eu⟩,
      fun h => absurd h hk0, fun h => (nomatch h), fun _ n rest hl => ?_⟩
    rw [Nat.add_comm n]
    exact railu n rest (by rw [rb, sa.rails]; exact hl)

end Sys2Proof.Machine
end

section
/-! SEQ.STOP as a command, and its statements (44_orchestration.md R226 to R229). -/

namespace Sys2Proof.Machine

/-! ### The command -/

/-- The parts of SEQ.STOP. -/
def stopParts : List Part := [.stop, .cut, .header, .send, .data, .resp, .take, .wait]

/-- What SEQ.STOP writes. -/
def stopRegs : List Reg :=
  linkRegs ++ [.baud, .csum, .resp, .respLen, .freeCtr, .dbuf, .rails, .powerCut, .pcutTrace]

theorem stopProg_parts (c : Bool) : ∀ m ∈ stopProg c, m.Of stopParts := by
  simp [stopProg, stopParts, Micro.part]

theorem exec_seqStop {c : Bool} {s u : State} (hr : Returns (accept (.seqStop c) (stopProg c) s) [] u)
    (hn : u.seq.ret = .nothing) : exec (.seqStop c) s = .next (u.setSeq Seq.idle) := by
  have he := exec_of_returns (i := .seqStop c) rfl rfl hr
  rw [hn] at he
  exact he

/-- What a run of SEQ.STOP leaves alone. -/
theorem stop_frame {c : Bool} {s u : State} (hr : Returns (accept (.seqStop c) (stopProg c) s) [] u) :
    Writes stopRegs s u ∧ (∀ j, 2 ≤ j → memRead .dbuf j u = memRead .dbuf j s) ∧ (NoArrival s → RxBufFrame s u) := by
  have h0 : (accept (.seqStop c) (stopProg c) s).seq.todo = stopProg c ++ [] := by simp [accept_todo]
  have hp := stopProg_parts c
  have hs : Writes stopRegs s (accept (.seqStop c) (stopProg c) s) := Writes.setSeq _ s _
  have hw := (writes_runRel (ps := stopParts) (w := stopRegs) (by decide) (by decide) (by decide)).returns hr h0 hp
  refine ⟨hs.trans hw, fun j hj => dbufTail_runRel.returns hr h0
    (fun _ _ => trivial) j hj, fun hn => .of_storage
    ((rxFrame_runRel (ps := stopParts) (by decide) (by decide)).returns hr h0 hp hn).2⟩

/-- The rail is gone: nothing to stop (R226 step 1). -/
theorem stopRail_gone {c : Bool} {s : State} (h : s.seq.todo = [.stopRail c]) (hr : (readRail s).1 = false) :
    ∃ u, Returns s [] u ∧ Woken [] s u ∧ u.seq.ret = .nothing := by
  have he : microEffect (.stopRail c) s = (giveRet .nothing (readRail s).2, []) := by
    simp [microEffect, microStopRail, ret, hr]
  exact ⟨_, .last h he, (readRail_woken s).stay (giveRet_woken _ _), rfl⟩

/-- The rail is present: the first attempt (R226 steps 1 and 2). -/
theorem stopRail_present {c : Bool} {s : State} (h : s.seq.todo = [.stopRail c]) (hr : (readRail s).1 = true) :
    ∃ t, Leads s t ∧ t.seq.todo = [.stopTry c 0] ∧ Woken [] s t ∧ t.rails = (readRail s).2.rails := by
  have he : microEffect (.stopRail c) s = ((readRail s).2, [.stopBegin c]) := by
    simp [microEffect, microStopRail, goOn, hr]
  obtain ⟨a, la, ta, wa, -, ra, -⟩ := Leads.microWoken h he (by simp) (readRail_woken s)
  obtain ⟨t, lt, tt, kt, st⟩ := Leads.goesOn (m := .stopBegin c) (next := [.stopTry c 0]) ta rfl (by simp)
  exact ⟨t, la.trans lt, tt, wa.stay (kt.woken st.levels), st.rails.trans ra⟩

/-- SEQ.STOP with the rail present comes to its first attempt. -/
theorem seqStop_firstTry {c : Bool} {rest : List Bool} {s : State} (hr : s.rails = true :: rest) :
    ∃ t, Leads (accept (.seqStop c) (stopProg c) s) t ∧ t.seq.todo = [.stopTry c 0] ∧ Woken [] s t ∧ t.rails = rest := by
  have hread := readRail_cons (s := accept (.seqStop c) (stopProg c) s) hr
  obtain ⟨t, lt, tt, wt, rt⟩ := stopRail_present (accept_todo (.seqStop c) (stopProg c) s) (by rw [hread])
  rw [hread] at rt
  exact ⟨t, lt, tt, wt.of_setSeq, rt⟩

/-- The end of SEQ.STOP: `k` pulses, none of them without c = 1 and a confirmation; what it left of BAUD. -/
structure StopEnds (c : Bool) (k : Nat) (s u : State) : Prop where
  ret : u.seq.ret = .nothing
  trace : u.pcutTrace = s.pcutTrace ++ cutTrace s.params.cutGapMs k
  le : k ≤ 10
  pulsed : k ≠ 0 → c = true ∧ ConfirmsStop u ∧ u.powerCut = false
  unpulsed : k = 0 → u.powerCut = s.powerCut
  baud : u.baud = s.baud ∨ u.baud = .normal

/-- SEQ.STOP from any state and under every schedule. -/
theorem seqStop_returns (c : Bool) (s : State) :
    ∃ u k, Returns (accept (.seqStop c) (stopProg c) s) [] u ∧ StopEnds c k s u := by
  have none : ∀ {u : State}, u.seq.ret = .nothing → u.pcutTrace = s.pcutTrace → u.powerCut = s.powerCut →
      (u.baud = s.baud ∨ u.baud = .normal) → StopEnds c 0 s u := fun hu hc hp hb =>
    ⟨hu, by simp [hc, cutTrace], Nat.zero_le _, fun h => absurd rfl h, fun _ => hp, hb⟩
  have h0 := accept_todo (.seqStop c) (stopProg c) s
  cases hr : (readRail (accept (.seqStop c) (stopProg c) s)).1 with
  | false =>
    obtain ⟨u, ru, wu, hu⟩ := stopRail_gone h0 hr
    have wu := wu.of_setSeq
    exact ⟨u, 0, ru, none hu wu.cut.2 wu.cut.1 (.inl wu.params_baud.2)⟩
  | true =>
    obtain ⟨a, la, ta, wa, -⟩ := stopRail_present h0 hr
    have wa := wa.of_setSeq
    obtain ⟨hpa, hba⟩ := wa.params_baud
    obtain ⟨t, lt, st, -, ⟨tt, ct, -⟩ | ⟨tt, -⟩⟩ := stopTries a.params.stopTries (by omega) ta
    · obtain ⟨u, k, ru, pu, hu, cu, hk, hk1, hk0, -⟩ := confirmed_returns tt
      obtain ⟨hb, h1, h2, -⟩ := pu.regs
      refine ⟨u, k, .of_leads (la.trans lt) ru, hu, ?_, hk, fun h => ?_, fun h => ?_, ?_⟩
      · rw [cu, st.pcutTrace, wa.cut.2, st.params, hpa]
      · obtain ⟨e1, e2⟩ := hk1 h
        exact ⟨e1, ct.congr h1 h2, e2⟩
      · rw [hk0 h, st.powerCut, wa.cut.1]
      · rw [hb, ← hba]
        exact st.baud
    · obtain ⟨b, lb, tb, kb, sb⟩ := Leads.goesOn (next := [.stopDropRead 0]) tt rfl (by simp)
      obtain ⟨u, ru, wu, hu, -⟩ := stopDrop_returns 10 rfl tb
      have st := st.trans sb
      refine ⟨u, 0, .of_leads ((la.trans lt).trans lb) ru, none hu ?_ ?_ ?_⟩
      · rw [wu.cut.2, st.pcutTrace, wa.cut.2]
      · rw [wu.cut.1, st.powerCut, wa.cut.1]
      · rw [wu.params_baud.2, ← hba]
        exact st.baud

/-! ### A confirmation at the first poll -/

/-- A response that begins with four bytes, the second with ACK cleared and the fourth the marker, confirms the stop. -/
theorem confirmsStop_of_take {s : State} {b0 b1 b2 : Byte} {more : List Byte}
    (h : s.resp.toList.take (more.length + 4) = b0 :: b1 :: b2 :: 0xFF :: more) (hn : more.length + 4 ≤ s.respLen.toNat)
    (h1 : b1.getLsbD 0 = false) : ConfirmsStop s := by
  have hb : s.resp[1] = b1 := by
    have hi := congrArg (·[1]?) h
    simpa using hi
  have hm : s.resp[3] = 0xFF := by
    have hi := congrArg (·[3]?) h
    simpa using hi
  exact ⟨by omega, hm, hb ▸ h1⟩

/-- With a confirmation in RB[RX] the first poll confirms the stop: `a` is the first attempt, `t` the state after its
exchange with the response `l`. -/
theorem stop_confirmed {c : Bool} {rest : List Bool} {b0 b1 b2 : Byte} {more : List Byte} {s : State}
    (hr : s.rails = true :: rest) (hl : LinkOk s) (hc : s.rbRx.contents = b0 :: b1 :: b2 :: 0xFF :: more)
    (h1 : b1.getLsbD 0 = false) :
    ∃ a t v l, Woken [] s a ∧ Exchanged Params.stopPayload l a t ∧ Keeps t v ∧ Steady t v ∧
      Leads (accept (.seqStop c) (stopProg c) s) v ∧ v.seq.todo = [.stopConfirmed c] ∧ v.rails = rest ∧
      t.resp.toList.take (more.length + 4) = b0 :: b1 :: b2 :: 0xFF :: more ∧ more.length + 4 ≤ t.respLen.toNat ∧
      (NoArrival s → NoArrival t ∧ t.respLen.toNat = more.length + 4 ∧ t.rbRx.count = 0) := by
  obtain ⟨a, la, ta, wa, ra⟩ := seqStop_firstTry (c := c) hr
  obtain ⟨new, hnew, -⟩ := wa.rx hl
  rw [hc] at hnew
  obtain ⟨t, l, lt, tt, et⟩ := exchange_leads ta (p := Params.stopPayload) rfl
  obtain ⟨htake, hle, hna⟩ := et.captured (wa.link hl) hnew
  obtain ⟨v, lv, tv, kv, sv⟩ := stopJudge_confirmed tt et.hands (confirmsStop_of_take htake hle h1)
  refine ⟨a, t, v, l, wa, et, kv, sv, (la.trans lt).trans lv, tv, (sv.rails.trans et.steady.rails).trans ra, htake, hle,
    fun hs => ?_⟩
  obtain ⟨na, rxa⟩ := wa.noArrival hs
  refine ⟨(et.noArrival na).1, hna na ?_⟩
  rw [rxa, hc] at hnew
  simpa using hnew

/-- Settles O46: `StopEnds` holds of the whole command; with a confirmation the pulses count the looks at the rail; the
clauses are the micro-steps of a pulse. -/
theorem stopCutsPowerOnlyWhenConfirmed : Obligations.StopCutsPowerOnlyWhenConfirmed := by
  refine ⟨fun c s => ?_, fun s n rest b0 b1 b2 more hl hc h1 => ?_, fun s j rest hm => ⟨fun h => ?_, fun h => ?_, fun h => ?_⟩⟩
  · obtain ⟨u, k, ru, eu⟩ := seqStop_returns c s
    obtain ⟨hw, hd, hrx⟩ := stop_frame ru
    have hown : MainOwned
        { s with
          resp := u.resp, respLen := u.respLen, dbuf := u.dbuf, csum := u.csum, baud := u.baud
          powerCut := u.powerCut, pcutTrace := u.pcutTrace, rails := u.rails, freeCtr := u.freeCtr, seq := u.seq } u :=
      ⟨hw.rxie (by decide), hw.gie, rfl, hw.lineMode (by decide), rfl, hw.result, hw.resultValid, rfl, rfl, rfl, rfl, rfl,
        rfl, hw.cmd, rfl, rfl, hw.params⟩
    exact ⟨_, k, exec_seqStop ru eu.ret, eu.trace, eu.le, eu.pulsed, eu.unpulsed, eu.baud, hd, hrx, hown.commit
      (s := { s with
          resp := u.resp, respLen := u.respLen, dbuf := u.dbuf, csum := u.csum, baud := u.baud
          powerCut := u.powerCut, pcutTrace := u.pcutTrace, rails := u.rails, freeCtr := u.freeCtr }) .nothing⟩
  · have key : ∀ n l, s.rails = true :: l → Looks 10 n l rest → ∃ t, exec (.seqStop true) s = .next t ∧ t.rails = rest ∧
        t.powerCut = false ∧ t.pcutTrace = s.pcutTrace ++ cutTrace s.params.cutGapMs (min 10 (n + 1)) := fun n l hr hlk => by
      obtain ⟨a, t, v, _, wa, et, -, sv, lv, tv, rv, -⟩ := stop_confirmed (c := true) hr hl hc h1
      obtain ⟨u, k, ru, pu, hu, cu, -, hk1, -, -, hrail⟩ := confirmed_returns tv
      obtain ⟨hru, hk⟩ := hrail rfl n rest (by rw [rv]; exact hlk)
      refine ⟨_, exec_seqStop (.of_leads lv ru) hu, hru, (hk1 (by omega)).2, ?_⟩
      have st := et.steady.trans sv
      rw [← hk, ← wa.cut.2, ← wa.params_baud.1, ← st.pcutTrace, ← st.params]
      exact cu
    refine ⟨fun hn hr => ?_, fun hr => key 10 _ hr (.inr ⟨rfl, rfl⟩)⟩
    have h := key n _ hr (.inl ⟨hn, rfl⟩)
    rwa [Nat.min_eq_right hn] at h
  · exact step_goOn (next := [.cutHold j]) hm h rfl (by simp)
  · exact step_goOn (next := [.cutLow j]) hm h rfl (by simp)
  · exact step_goOn (next := [.cutRead (j + 1)]) hm h rfl (by simp)

theorem bytesOf_stopFrame :
    bytesOf (masterFrame 0x3A [Params.stopPayload[0], Params.stopPayload[1]]) = stopFrameBytes := by
  decide

/-- Settles O47: the first exchange captures what RB[RX] held, which confirms the stop. -/
theorem stopIsConfirmedAtTheFirstPoll : Obligations.StopIsConfirmedAtTheFirstPoll := by
  intro c s rest b0 b1 b2 more hr hl hc h1
  obtain ⟨a, t, v, l, wa, et, kv, sv, lv, tv, rv, htake, hle, hna⟩ := stop_confirmed (c := c) hr hl hc h1
  obtain ⟨u, k, ru, pu, hu, cu, -, hk1, hk0, hsoft, hcut⟩ := confirmed_returns tv
  have hr := Returns.of_leads lv ru
  have pu := (kv.woken sv.levels).pulsed.trans pu
  have st := et.steady.trans sv
  rw [st.pcutTrace, wa.cut.2] at cu
  obtain ⟨-, hresp, hlen, hdb⟩ := pu.regs
  refine ⟨_, exec_seqStop hr hu, fun h => ?_, fun rest' h e => ?_, ?_, ?_, fun hn => ?_, (et.dbuf.congr hdb).1,
    (et.dbuf.congr hdb).2, (stop_frame hr).1.result, fun hg hd => ?_⟩
  · obtain ⟨hk, hrail⟩ := hsoft h
    refine ⟨hrail.trans rv, by simpa [hk, cutTrace] using cu, ?_⟩
    exact (hk0 hk).trans (st.powerCut.trans wa.cut.1)
  · obtain ⟨hrail, hk⟩ := hcut h 0 rest' (.inl ⟨by omega, rv.trans e⟩)
    refine ⟨hrail, by simpa [hk, cutTrace] using cu, (hk1 (by omega)).2⟩
  · exact (congrArg (fun r : Vector Byte 9 => r.toList.take (more.length + 4)) hresp).trans htake
  · exact hle.trans (congrArg BitVec.toNat hlen).ge
  · obtain ⟨nt, hlt, hct⟩ := hna hn
    obtain ⟨-, hrx⟩ := pu.noArrival nt
    exact ⟨(congrArg BitVec.toNat hlen).trans hlt, (congrArg Ring.count hrx).trans hct⟩
  · have hla := wa.link hl
    obtain ⟨da, ba⟩ := wa.drained hl hd
    have hb := et.line hla (wa.gie.trans hg) da
    rw [bytesOf_stopFrame, ba] at hb
    rw [← hb, ← bytesOf_charsOf, ← bytesOf_charsOf (lineStream t), ← (pu.link (et.link hla)).2]
    rfl

/-! ### A silent peer -/

/-- With a silent peer no attempt is confirmed: `a` is the first attempt, and from there the run comes to the end past
the first exchange, with the state `t` after it. -/
theorem stop_unconfirmed {c : Bool} {n : Nat} {l rest : List Bool} {s : State} (hr : s.rails = true :: l)
    (hlk : Looks 10 n l rest) (hp : SilentPeer s) :
    ∃ a t u x, Woken [] s a ∧ Exchanged Params.stopPayload x a t ∧ t.seq.todo = [.stopJudge c 0 0] ∧
      Returns (accept (.seqStop c) (stopProg c) s) [] u ∧ Returns t [] u ∧ u.seq.ret = .nothing ∧ u.rails = rest ∧
      u.pcutTrace = s.pcutTrace ∧ u.powerCut = s.powerCut ∧ u.respLen = 0 ∧ PayloadIn Params.stopPayload u := by
  obtain ⟨a, la, ta, wa, ra⟩ := seqStop_firstTry (c := c) hr
  obtain ⟨na, rxa⟩ := wa.noArrival hp.1
  have hpa : SilentPeer a := ⟨na, by rw [rxa]; exact hp.2⟩
  obtain ⟨b, lb, sb, pb, ⟨-, -, hb⟩ | ⟨tb, hb⟩⟩ := stopTries a.params.stopTries (by omega) ta
  · exact absurd hpa hb
  · obtain ⟨v, lv, tv, kv, sv⟩ := Leads.goesOn (next := [.stopDropRead 0]) tb rfl (by simp)
    obtain ⟨u, ru, wu, hu, railu⟩ := stopDrop_returns 10 rfl tv
    obtain ⟨-, hlv, hdv⟩ := kv.regs
    obtain ⟨-, -, hlu, hdu⟩ := wu.pulsed.regs
    have sv := sb.trans sv
    -- the same run, from the first exchange on
    obtain ⟨t, x, lt, tt, et⟩ := exchange_leads ta (p := Params.stopPayload) rfl
    obtain ⟨w, rw'⟩ := returns_exists (p := [.stopJudge c 0 0]) (rest := []) (by simp) tt
    have ruw := Returns.of_leads (lb.trans lv) ru
    obtain rfl := ruw.unique (.of_leads lt rw')
    refine ⟨a, t, u, x, wa, et, tt, .of_leads la ruw, rw', hu, railu n rest (by rw [sv.rails, ra]; exact hlk), ?_, ?_, ?_,
      (pb.congr hdv).congr hdu⟩
    · rw [wu.cut.2, sv.pcutTrace, wa.cut.2]
    · rw [wu.cut.1, sv.powerCut, wa.cut.1]
    · rw [hlu, hlv, (hb hpa).2]

/-- Settles O48: no attempt is confirmed, the looks at the rail move no pin, and the first exchange fills the transmitter. -/
theorem stopUnconfirmedNeverCutsPower : Obligations.StopUnconfirmedNeverCutsPower := by
  intro c s n rest hr hp
  obtain ⟨l, hr, hlk⟩ : ∃ l, s.rails = true :: l ∧ Looks 10 n l rest := by
    obtain ⟨hn, hr⟩ | ⟨hn, hr⟩ := hr
    · exact ⟨_, hr, .inl ⟨hn, rfl⟩⟩
    · exact ⟨_, hr, .inr ⟨hn, rfl⟩⟩
  obtain ⟨a, t, u, x, wa, et, tt, ru, rt, hu, hrail, hcut, hpc, hlen, hpay⟩ := stop_unconfirmed (c := c) hr hlk hp
  refine ⟨_, exec_seqStop ru hu, hrail, hcut, hpc, hlen, hpay.1, hpay.2, fun hq hl hg hd => ?_⟩
  -- the nine bytes of the first exchange fill the transmitter, and none of them leaves
  have hla := wa.link hl
  obtain ⟨da, ba⟩ := wa.drained hl hd
  have hb := et.line hla (wa.gie.trans hg) da
  rw [bytesOf_stopFrame, ba] at hb
  have hpt : ∀ m ∈ [Micro.stopJudge c 0 0], m.Of stopParts := by simp [stopParts, Micro.part]
  obtain ⟨hlu, y, hy⟩ := (bytes_runRel (ps := stopParts) (by decide) (by decide)).returns (rest := []) rt tt hpt (et.link hla)
  have h0 : (accept (.seqStop c) (stopProg c) s).seq.todo = stopProg c ++ [] := by simp [accept_todo]
  obtain ⟨-, hwire⟩ := (unscheduled_runRel (ps := stopParts) (by decide) (by decide)).returns ru h0 (stopProg_parts c) hq.1
  rw [hb, List.append_assoc (bytesOf (lineStream s))] at hy
  have hnil := nothing_after_nine hd hl hlu hwire rfl hy
  rw [hnil, List.append_nil, ← List.append_assoc] at hy
  exact hy

end Sys2Proof.Machine
end
